-- ==== Sys2Proof/Word.lean ====
section
/-! DEFINITION. The word types of the block (00_scope.md R6, R7; 30_encoding.md R80). -/

namespace Sys2Proof

/-- A byte: a chip register, an FBUF byte, a serial byte, the PSTATE and FAULT cells. -/
abbrev Byte := BitVec 8

/-- A 16-bit value: RES, a timer count, a compare value, IMM16 (RES_W and TMR_W of R6). -/
abbrev Half := BitVec 16

/-- An operation word (R80). -/
abbrev OpWord := BitVec 32

/-- A timer channel c ∈ 0, 1 (10_state.md R23). -/
abbrev ChanIx := Fin 2

/-- A chip k ∈ 0, 1 (10_state.md R44). -/
abbrev ChipIx := Fin 2

end Sys2Proof
end

