-- ==== Sys2Proof/Syntax.lean ====
section
/-! DEFINITION. The instructions: the 31 operation words (30_encoding.md R83) and the 8 wire
commands (R87), one constructor for each row of spec/opcode_table.json, operands as R84 gives them. -/

namespace Sys2Proof

inductive Instr
  -- timer unit (40_timer.md)
  | tstart (c : ChanIx)
  | tstop (c : ChanIx)
  | trestart (c : ChanIx)
  | tsetcnt (c : ChanIx) (v : Half)
  | tsetcmp (c : ChanIx) (v : Half)
  | trdcnt (c : ChanIx)
  | trdstat (c : ChanIx)
  | tsetie (c : ChanIx) (ie : BitVec 1)
  | tack (c : ChanIx)
  -- register-interface unit (41_regbus.md)
  | rsel (k : ChipIx)
  | rdesel (k : ChipIx)
  | rxfer (k : ChipIx) (out : Byte)
  | rreset (k : ChipIx)
  | rread (k : ChipIx) (addr : Byte)
  | rwrite (k : ChipIx) (addr : Byte) (value : Byte)
  | rbitmod (k : ChipIx) (addr : Byte) (mask : Byte) (value : Byte)
  | rwrseq (k : ChipIx) (start : Byte) (n : Byte)
  | rrdstat (k : ChipIx)
  | rrts (k : ChipIx) (txmask : BitVec 3)
  | rrdrx (k : ChipIx) (nm : BitVec 2) (n : Byte)
  | rldtx (k : ChipIx) (abc : BitVec 3) (n : Byte)
  | fbwr (idx : Byte) (byte : Byte)
  | fbrd (idx : Byte)
  -- power sequencer (43_power_fsm.md)
  | prdst
  | pwrst (value : Byte)
  | parm
  | pdisarm
  | psleep
  | pseterr
  | psens (slot : BitVec 2) (byte : Byte)
  | pind
  -- wire commands, executed by the selected chip (30_encoding.md R87, 41_regbus.md R160 to R168)
  | wireReset
  | wireRead
  | wireWrite
  | wireBitmod
  | wireReadStatus
  | wireRts (ttt : BitVec 3)
  | wireReadRx (nm : BitVec 2)
  | wireLoadTx (abc : BitVec 3)
  deriving DecidableEq, Repr

/-- The wire commands of R87 as the chip's own type: what the first byte of a frame means to it. -/
inductive WireCmd
  | reset
  | read
  | write
  | bitmod
  | readStatus
  | rts (ttt : BitVec 3)
  | readRx (nm : BitVec 2)
  | loadTx (abc : BitVec 3)
  deriving DecidableEq, Repr

/-- The wire commands are rows of the opcode table, so each is an instruction. -/
def WireCmd.toInstr : WireCmd → Instr
  | .reset => .wireReset
  | .read => .wireRead
  | .write => .wireWrite
  | .bitmod => .wireBitmod
  | .readStatus => .wireReadStatus
  | .rts t => .wireRts t
  | .readRx nm => .wireReadRx nm
  | .loadTx abc => .wireLoadTx abc

/-- Pseudo-operations (R91), each one operation. -/
def Instr.tclrcnt (c : ChanIx) : Instr := .tsetcnt c 0
def Instr.tieon (c : ChanIx) : Instr := .tsetie c 1
def Instr.tieoff (c : ChanIx) : Instr := .tsetie c 0
def Instr.rsetbits (k : ChipIx) (addr mask : Byte) : Instr := .rbitmod k addr mask mask
def Instr.rclrbits (k : ChipIx) (addr mask : Byte) : Instr := .rbitmod k addr mask 0
def Instr.pgoto (state : Byte) : Instr := .pwrst state

end Sys2Proof
end

