-- ==== Sys2Proof/WellFormed.lean ====
section
/-! DEFINITION. The operand ranges of the assembler (30_encoding.md R91, R84), beyond what the types
of the operands already say. An operation word outside them still decodes: its meaning raises the
fault R84 names. -/

namespace Sys2Proof

/-- A byte count n ∈ 1..16. -/
def wfCount (n : Byte) : Bool := 1 ≤ n.toNat && n.toNat ≤ 16

/-- A transmit selector abc ∈ 0..5. -/
def wfSelector (abc : BitVec 3) : Bool := abc.toNat ≤ 5

/-- An FBUF index 0..15. -/
def wfIndex (idx : Byte) : Bool := idx.toNat ≤ 15

/-- The operands lie in the ranges of R91. -/
def Instr.wf : Instr → Bool
  | .rwrseq _ _ n => wfCount n
  | .rrdrx _ _ n => wfCount n
  | .rldtx _ abc n => wfSelector abc && wfCount n
  | .fbwr idx _ => wfIndex idx
  | .fbrd idx => wfIndex idx
  | .wireLoadTx abc => wfSelector abc
  | .tstart _ | .tstop _ | .trestart _ | .tsetcnt _ _ | .tsetcmp _ _ | .trdcnt _ | .trdstat _
  | .tsetie _ _ | .tack _ => true
  | .rsel _ | .rdesel _ | .rxfer _ _ | .rreset _ | .rread _ _ | .rwrite _ _ _ | .rbitmod _ _ _ _
  | .rrdstat _ | .rrts _ _ => true
  | .prdst | .pwrst _ | .parm | .pdisarm | .psleep | .pseterr | .psens _ _ | .pind => true
  | .wireReset | .wireRead | .wireWrite | .wireBitmod | .wireReadStatus | .wireRts _
  | .wireReadRx _ => true

/-- The operand has an encoding that decodes: only load-tx-buffer with abc = 6 or 7 has none (R87). -/
def Instr.encodable : Instr → Bool
  | .wireLoadTx abc => wfSelector abc
  | .tstart _ | .tstop _ | .trestart _ | .tsetcnt _ _ | .tsetcmp _ _ | .trdcnt _ | .trdstat _
  | .tsetie _ _ | .tack _ => true
  | .rsel _ | .rdesel _ | .rxfer _ _ | .rreset _ | .rread _ _ | .rwrite _ _ _ | .rbitmod _ _ _ _
  | .rwrseq _ _ _ | .rrdstat _ | .rrts _ _ | .rrdrx _ _ _ | .rldtx _ _ _ | .fbwr _ _ | .fbrd _ => true
  | .prdst | .pwrst _ | .parm | .pdisarm | .psleep | .pseterr | .psens _ _ | .pind => true
  | .wireReset | .wireRead | .wireWrite | .wireBitmod | .wireReadStatus | .wireRts _
  | .wireReadRx _ => true

end Sys2Proof
end

