-- ==== Sys2Proof/Decode.lean ====
section
/-! DEFINITION. Decoding of operation words (30_encoding.md R80 to R85) and of wire command bytes
(R87), the encoder of both, the opcode table with match and mask (R82, R83), and the assembler's
text (R91). -/

namespace Sys2Proof

/-- What an executing unit decodes: an operation word of the port, or the first byte of a frame. -/
inductive Code
  | word (w : OpWord)
  | wire (b : Byte)
  deriving DecidableEq, Repr

/-- Why nothing is decoded: the illegal encodings of R85 and the reserved wire commands of R89. -/
inductive DecodeError
  | noSuchOpcode
  | reservedField
  | reservedWireCommand
  deriving DecidableEq, Repr

/-- The five fields of an operation word (R80). -/
structure Fields where
  opc : BitVec 7
  s : BitVec 1
  a : Byte
  b : Byte
  c : Byte
  deriving DecidableEq, Repr

def Fields.ofWord (w : OpWord) : Fields where
  opc := w.extractLsb' 25 7
  s := w.extractLsb' 24 1
  a := w.extractLsb' 16 8
  b := w.extractLsb' 8 8
  c := w.extractLsb' 0 8

def Fields.toWord (f : Fields) : OpWord := f.opc ++ f.s ++ f.a ++ f.b ++ f.c

/-- IMM16 = B : C (R80). -/
def Fields.imm16 (f : Fields) : Half := f.b ++ f.c

/-- The channel or chip named by S: both values name one (R84). -/
def unitOfBit (s : BitVec 1) : Fin 2 := s.toFin

def bitOfUnit (i : Fin 2) : BitVec 1 := BitVec.ofFin i

/-- A row's operands are taken when every reserved field is zero (R82, R85). -/
def operands (reservedZero : Bool) (i : Instr) : Except DecodeError Instr :=
  if reservedZero then .ok i else .error .reservedField

/-- The instruction of an operation word's fields (R81, R83): the row of its OPC, if every field its
format does not use is zero. -/
def decodeFields (f : Fields) : Except DecodeError Instr :=
  let c := unitOfBit f.s
  let k := unitOfBit f.s
  match f.opc with
  | 0x10#7 => operands (f.a == 0 && f.b == 0 && f.c == 0) (.tstart c)
  | 0x11#7 => operands (f.a == 0 && f.b == 0 && f.c == 0) (.tstop c)
  | 0x12#7 => operands (f.a == 0 && f.b == 0 && f.c == 0) (.trestart c)
  | 0x13#7 => operands (f.a == 0) (.tsetcnt c f.imm16)
  | 0x14#7 => operands (f.a == 0) (.tsetcmp c f.imm16)
  | 0x15#7 => operands (f.a == 0 && f.b == 0 && f.c == 0) (.trdcnt c)
  | 0x16#7 => operands (f.a == 0 && f.b == 0 && f.c == 0) (.trdstat c)
  | 0x17#7 => operands (f.a == 0 && f.b == 0 && f.c.extractLsb' 1 7 == 0) (.tsetie c (f.c.extractLsb' 0 1))
  | 0x18#7 => operands (f.a == 0 && f.b == 0 && f.c == 0) (.tack c)
  | 0x20#7 => operands (f.a == 0 && f.b == 0 && f.c == 0) (.rsel k)
  | 0x21#7 => operands (f.a == 0 && f.b == 0 && f.c == 0) (.rdesel k)
  | 0x22#7 => operands (f.a == 0 && f.b == 0) (.rxfer k f.c)
  | 0x23#7 => operands (f.a == 0 && f.b == 0 && f.c == 0) (.rreset k)
  | 0x24#7 => operands (f.b == 0 && f.c == 0) (.rread k f.a)
  | 0x25#7 => operands (f.b == 0) (.rwrite k f.a f.c)
  | 0x26#7 => operands true (.rbitmod k f.a f.b f.c)
  | 0x27#7 => operands (f.b == 0) (.rwrseq k f.a f.c)
  | 0x28#7 => operands (f.a == 0 && f.b == 0 && f.c == 0) (.rrdstat k)
  | 0x29#7 => operands (f.a == 0 && f.b == 0 && f.c.extractLsb' 3 5 == 0) (.rrts k (f.c.extractLsb' 0 3))
  | 0x2A#7 => operands (f.a.extractLsb' 2 6 == 0 && f.b == 0) (.rrdrx k (f.a.extractLsb' 0 2) f.c)
  | 0x2B#7 => operands (f.a.extractLsb' 3 5 == 0 && f.b == 0) (.rldtx k (f.a.extractLsb' 0 3) f.c)
  | 0x2C#7 => operands (f.s == 0 && f.b == 0) (.fbwr f.a f.c)
  | 0x2D#7 => operands (f.s == 0 && f.b == 0 && f.c == 0) (.fbrd f.a)
  | 0x30#7 => operands (f.s == 0 && f.a == 0 && f.b == 0 && f.c == 0) .prdst
  | 0x31#7 => operands (f.s == 0 && f.a == 0 && f.b == 0) (.pwrst f.c)
  | 0x32#7 => operands (f.s == 0 && f.a == 0 && f.b == 0 && f.c == 0) .parm
  | 0x33#7 => operands (f.s == 0 && f.a == 0 && f.b == 0 && f.c == 0) .pdisarm
  | 0x34#7 => operands (f.s == 0 && f.a == 0 && f.b == 0 && f.c == 0) .psleep
  | 0x35#7 => operands (f.s == 0 && f.a == 0 && f.b == 0 && f.c == 0) .pseterr
  | 0x36#7 => operands (f.s == 0 && f.a.extractLsb' 2 6 == 0 && f.b == 0) (.psens (f.a.extractLsb' 0 2) f.c)
  | 0x37#7 => operands (f.s == 0 && f.a == 0 && f.b == 0 && f.c == 0) .pind
  | _ => .error .noSuchOpcode

/-- Decoding of an operation word, total (R81). -/
def decodeWord (w : OpWord) : Except DecodeError Instr := decodeFields (Fields.ofWord w)

/-- The wire command of a frame's first byte (R87); none for a reserved byte (R89). Selectors 6 and 7
of load-tx-buffer are reserved. -/
def WireCmd.ofByte (o : Byte) : Option WireCmd :=
  if o = 0xC0 then some .reset
  else if o = 0x03 then some .read
  else if o = 0x02 then some .write
  else if o = 0x05 then some .bitmod
  else if o = 0xA0 then some .readStatus
  else if o &&& 0xF8 = 0x80 then some (.rts (o.extractLsb' 0 3))
  else if o &&& 0xF9 = 0x90 then some (.readRx (o.extractLsb' 1 2))
  else if o &&& 0xF8 = 0x40 && wfSelector (o.extractLsb' 0 3) then some (.loadTx (o.extractLsb' 0 3))
  else none

/-- Decoding of a wire command byte as an instruction. -/
def decodeWire (b : Byte) : Except DecodeError Instr :=
  match WireCmd.ofByte b with
  | some c => .ok c.toInstr
  | none => .error .reservedWireCommand

/-- The decoder: total on every operation word and every first byte. -/
def decode : Code → Except DecodeError Instr
  | .word w => decodeWord w
  | .wire b => decodeWire b

/-! ## The encoder -/

/-- Fields with the operands the row uses; the rest are zero. -/
def opFields (opc : BitVec 7) (s : BitVec 1 := 0) (a b c : Byte := 0) : Fields := ⟨opc, s, a, b, c⟩

/-- IMM16 over B and C: the high byte is B (20_memory.md R61). -/
def immFields (opc : BitVec 7) (s : BitVec 1) (v : Half) : Fields :=
  opFields opc s 0 (v.extractLsb' 8 8) (v.extractLsb' 0 8)

/-- The byte of a wire command (R87, R88). -/
def WireCmd.toByte : WireCmd → Byte
  | .reset => 0xC0
  | .read => 0x03
  | .write => 0x02
  | .bitmod => 0x05
  | .readStatus => 0xA0
  | .rts t => 0x80 ||| t.setWidth 8
  | .readRx nm => 0x90 ||| (nm.setWidth 8 <<< 1)
  | .loadTx abc => 0x40 ||| abc.setWidth 8

/-- The encoding of every instruction (R82, R83, R87). -/
def encode : Instr → Code
  | .tstart c => .word (opFields 0x10 (bitOfUnit c)).toWord
  | .tstop c => .word (opFields 0x11 (bitOfUnit c)).toWord
  | .trestart c => .word (opFields 0x12 (bitOfUnit c)).toWord
  | .tsetcnt c v => .word (immFields 0x13 (bitOfUnit c) v).toWord
  | .tsetcmp c v => .word (immFields 0x14 (bitOfUnit c) v).toWord
  | .trdcnt c => .word (opFields 0x15 (bitOfUnit c)).toWord
  | .trdstat c => .word (opFields 0x16 (bitOfUnit c)).toWord
  | .tsetie c ie => .word (opFields 0x17 (bitOfUnit c) (c := ie.setWidth 8)).toWord
  | .tack c => .word (opFields 0x18 (bitOfUnit c)).toWord
  | .rsel k => .word (opFields 0x20 (bitOfUnit k)).toWord
  | .rdesel k => .word (opFields 0x21 (bitOfUnit k)).toWord
  | .rxfer k o => .word (opFields 0x22 (bitOfUnit k) (c := o)).toWord
  | .rreset k => .word (opFields 0x23 (bitOfUnit k)).toWord
  | .rread k a => .word (opFields 0x24 (bitOfUnit k) (a := a)).toWord
  | .rwrite k a v => .word (opFields 0x25 (bitOfUnit k) (a := a) (c := v)).toWord
  | .rbitmod k a m v => .word (opFields 0x26 (bitOfUnit k) a m v).toWord
  | .rwrseq k s n => .word (opFields 0x27 (bitOfUnit k) (a := s) (c := n)).toWord
  | .rrdstat k => .word (opFields 0x28 (bitOfUnit k)).toWord
  | .rrts k t => .word (opFields 0x29 (bitOfUnit k) (c := t.setWidth 8)).toWord
  | .rrdrx k nm n => .word (opFields 0x2A (bitOfUnit k) (a := nm.setWidth 8) (c := n)).toWord
  | .rldtx k abc n => .word (opFields 0x2B (bitOfUnit k) (a := abc.setWidth 8) (c := n)).toWord
  | .fbwr idx b => .word (opFields 0x2C (a := idx) (c := b)).toWord
  | .fbrd idx => .word (opFields 0x2D (a := idx)).toWord
  | .prdst => .word (opFields 0x30).toWord
  | .pwrst v => .word (opFields 0x31 (c := v)).toWord
  | .parm => .word (opFields 0x32).toWord
  | .pdisarm => .word (opFields 0x33).toWord
  | .psleep => .word (opFields 0x34).toWord
  | .pseterr => .word (opFields 0x35).toWord
  | .psens slot b => .word (opFields 0x36 (a := slot.setWidth 8) (c := b)).toWord
  | .pind => .word (opFields 0x37).toWord
  | .wireReset => .wire WireCmd.reset.toByte
  | .wireRead => .wire WireCmd.read.toByte
  | .wireWrite => .wire WireCmd.write.toByte
  | .wireBitmod => .wire WireCmd.bitmod.toByte
  | .wireReadStatus => .wire WireCmd.readStatus.toByte
  | .wireRts t => .wire (WireCmd.rts t).toByte
  | .wireReadRx nm => .wire (WireCmd.readRx nm).toByte
  | .wireLoadTx abc => .wire (WireCmd.loadTx abc).toByte

/-- The code of `nbits` bits that stands in w, numbered as the opcode table numbers them. An operation
word is passed whole and has no byte order (20_memory.md R61); a wire command is one byte. -/
def codeOf (nbits w : Nat) : Option Code :=
  if nbits ≤ 8 then some (.wire (BitVec.ofNat 8 w))
  else if nbits ≤ 32 then some (.word (BitVec.ofNat 32 w))
  else none

/-- The instruction the decoder reads from an instruction whose bits are w. -/
def decodeTableWord (nbits w : Nat) : Option Instr :=
  match codeOf nbits w with
  | some c => (decode c).toOption
  | none => none

/-! ## The opcode table (R82, R83) -/

/-- One row of the table for operation words: match = OPC << 25, and the format's mask. -/
structure OpRow where
  mnemonic : String
  code : OpWord
  mask : OpWord
  deriving DecidableEq, Repr

/-- The word is one of the row's: (w & mask) == match (R81). -/
def OpRow.accepts (r : OpRow) (w : OpWord) : Bool := w &&& r.mask == r.code

def timerRows : List OpRow := [
  ⟨"TSTART", 0x20000000, 0xFEFFFFFF⟩, ⟨"TSTOP", 0x22000000, 0xFEFFFFFF⟩,
  ⟨"TRESTART", 0x24000000, 0xFEFFFFFF⟩, ⟨"TSETCNT", 0x26000000, 0xFEFF0000⟩,
  ⟨"TSETCMP", 0x28000000, 0xFEFF0000⟩, ⟨"TRDCNT", 0x2A000000, 0xFEFFFFFF⟩,
  ⟨"TRDSTAT", 0x2C000000, 0xFEFFFFFF⟩, ⟨"TSETIE", 0x2E000000, 0xFEFFFFFE⟩,
  ⟨"TACK", 0x30000000, 0xFEFFFFFF⟩]

def regbusRows : List OpRow := [
  ⟨"RSEL", 0x40000000, 0xFEFFFFFF⟩, ⟨"RDESEL", 0x42000000, 0xFEFFFFFF⟩,
  ⟨"RXFER", 0x44000000, 0xFEFFFF00⟩, ⟨"RRESET", 0x46000000, 0xFEFFFFFF⟩,
  ⟨"RREAD", 0x48000000, 0xFE00FFFF⟩, ⟨"RWRITE", 0x4A000000, 0xFE00FF00⟩,
  ⟨"RBITMOD", 0x4C000000, 0xFE000000⟩, ⟨"RWRSEQ", 0x4E000000, 0xFE00FF00⟩,
  ⟨"RRDSTAT", 0x50000000, 0xFEFFFFFF⟩, ⟨"RRTS", 0x52000000, 0xFEFFFFF8⟩,
  ⟨"RRDRX", 0x54000000, 0xFEFCFF00⟩, ⟨"RLDTX", 0x56000000, 0xFEF8FF00⟩,
  ⟨"FBWR", 0x58000000, 0xFF00FF00⟩, ⟨"FBRD", 0x5A000000, 0xFF00FFFF⟩]

def powerRows : List OpRow := [
  ⟨"PRDST", 0x60000000, 0xFFFFFFFF⟩, ⟨"PWRST", 0x62000000, 0xFFFFFF00⟩,
  ⟨"PARM", 0x64000000, 0xFFFFFFFF⟩, ⟨"PDISARM", 0x66000000, 0xFFFFFFFF⟩,
  ⟨"PSLEEP", 0x68000000, 0xFFFFFFFF⟩, ⟨"PSETERR", 0x6A000000, 0xFFFFFFFF⟩,
  ⟨"PSENS", 0x6C000000, 0xFFFCFF00⟩, ⟨"PIND", 0x6E000000, 0xFFFFFFFF⟩]

/-- The 31 operation rows. -/
def opcodeTable : List OpRow := timerRows ++ regbusRows ++ powerRows

/-- The row of an instruction, by its mnemonic in spec/opcode_table.json. -/
def Instr.mnemonic : Instr → String
  | .tstart _ => "TSTART"
  | .tstop _ => "TSTOP"
  | .trestart _ => "TRESTART"
  | .tsetcnt _ _ => "TSETCNT"
  | .tsetcmp _ _ => "TSETCMP"
  | .trdcnt _ => "TRDCNT"
  | .trdstat _ => "TRDSTAT"
  | .tsetie _ _ => "TSETIE"
  | .tack _ => "TACK"
  | .rsel _ => "RSEL"
  | .rdesel _ => "RDESEL"
  | .rxfer _ _ => "RXFER"
  | .rreset _ => "RRESET"
  | .rread _ _ => "RREAD"
  | .rwrite _ _ _ => "RWRITE"
  | .rbitmod _ _ _ _ => "RBITMOD"
  | .rwrseq _ _ _ => "RWRSEQ"
  | .rrdstat _ => "RRDSTAT"
  | .rrts _ _ => "RRTS"
  | .rrdrx _ _ _ => "RRDRX"
  | .rldtx _ _ _ => "RLDTX"
  | .fbwr _ _ => "FBWR"
  | .fbrd _ => "FBRD"
  | .prdst => "PRDST"
  | .pwrst _ => "PWRST"
  | .parm => "PARM"
  | .pdisarm => "PDISARM"
  | .psleep => "PSLEEP"
  | .pseterr => "PSETERR"
  | .psens _ _ => "PSENS"
  | .pind => "PIND"
  | .wireReset => "WIRE_RESET"
  | .wireRead => "WIRE_READ"
  | .wireWrite => "WIRE_WRITE"
  | .wireBitmod => "WIRE_BITMOD"
  | .wireReadStatus => "WIRE_READ_STATUS"
  | .wireRts _ => "WIRE_RTS"
  | .wireReadRx _ => "WIRE_READ_RX"
  | .wireLoadTx _ => "WIRE_LOAD_TX"

/-- The operands in the order the assembler writes them (R91), as numbers. -/
def Instr.asmOperands : Instr → List Nat
  | .tstart c | .tstop c | .trestart c | .trdcnt c | .trdstat c | .tack c => [c.val]
  | .tsetcnt c v | .tsetcmp c v => [c.val, v.toNat]
  | .tsetie c ie => [c.val, ie.toNat]
  | .rsel k | .rdesel k | .rreset k | .rrdstat k => [k.val]
  | .rxfer k o => [k.val, o.toNat]
  | .rread k a => [k.val, a.toNat]
  | .rwrite k a v => [k.val, a.toNat, v.toNat]
  | .rbitmod k a m v => [k.val, a.toNat, m.toNat, v.toNat]
  | .rwrseq k s n => [k.val, s.toNat, n.toNat]
  | .rrts k t => [k.val, t.toNat]
  | .rrdrx k nm n => [k.val, nm.toNat, n.toNat]
  | .rldtx k abc n => [k.val, abc.toNat, n.toNat]
  | .fbwr idx b => [idx.toNat, b.toNat]
  | .fbrd idx => [idx.toNat]
  | .pwrst v => [v.toNat]
  | .psens slot b => [slot.toNat, b.toNat]
  | .prdst | .parm | .pdisarm | .psleep | .pseterr | .pind => []
  | .wireReset | .wireRead | .wireWrite | .wireBitmod | .wireReadStatus => []
  | .wireRts t => [t.toNat]
  | .wireReadRx nm => [nm.toNat]
  | .wireLoadTx abc => [abc.toNat]

/-- One line of assembler (R91): the mnemonic, then the operands in decimal separated by commas. -/
def Instr.asm (i : Instr) : String :=
  match i.asmOperands.map toString with
  | [] => i.mnemonic
  | ops => i.mnemonic ++ " " ++ String.intercalate ", " ops

end Sys2Proof
end

