-- ==== Sys2Proof/Config.lean ====
section
/-! DEFINITION. The implementation parameters of 00_scope.md R6 as plain data, and the values the
spec leaves open as constants without a body. The default values stand in Machine/Params.lean. -/

namespace Sys2Proof

/-- The wake mode passed to the driver's sleep and wakeup (30_encoding.md R92, 42_driver.md R208). -/
inductive WakeMode
  | busActivity
  | manual
  deriving DecidableEq, Repr, Inhabited

/-- The wake pin's sensitivity, WAKE_SENSE (R6, 43_power_fsm.md R247). -/
inductive WakeSense
  | lowLevel
  | falling
  | rising
  deriving DecidableEq, Repr, Inhabited

/-- The serial link's implementation, LINK_IMPL (R6, 41_regbus.md R144): it has no semantic effect. -/
inductive LinkImpl
  | spi
  | bitbang
  deriving DecidableEq, Repr, Inhabited

/-- One entry of BITTIMING (42_driver.md R193). -/
structure BitTiming where
  cnf1 : Byte
  cnf2 : Byte
  cnf3 : Byte
  deriving DecidableEq, Repr, Inhabited

/-- The chip addresses from `lo` to `hi`, both included. -/
structure AddrRange where
  lo : Byte
  hi : Byte
  deriving DecidableEq, Repr, Inhabited

/-- A set of chip addresses (CHIP_IMPL and the like), as a list of ranges. -/
abbrev AddrSet := List AddrRange

/-- The chip register map and bit masks the driver and the reference chip use: named parameters of
42_driver.md R190 and R191. -/
structure ChipMap where
  /-- REG_RXF0SIDH, REG_RXF3SIDH, REG_RXM0SIDH: the starts of the filter and mask runs. -/
  rxf0sidh : Byte
  rxf3sidh : Byte
  rxm0sidh : Byte
  canstat : Byte
  canctrl : Byte
  cnf1 : Byte
  cnf2 : Byte
  cnf3 : Byte
  caninte : Byte
  canintf : Byte
  eflg : Byte
  rxb0ctrl : Byte
  /-- REG_TXBCTRL[0..2]. -/
  txbctrl : Vector Byte 3
  /-- RXSTART(0..3), the start addresses of 30_encoding.md R90. -/
  rxstart : Vector Byte 4
  /-- Registers the map names and no rule of the block uses. -/
  bfpctrl : Byte
  txrtsctrl : Byte
  regTec : Byte
  regRec : Byte
  rxb1ctrl : Byte
  /-- Bit masks of R191. -/
  reqopMask : Byte
  abatBit : Byte
  opmodMask : Byte
  wakieBit : Byte
  wakifBit : Byte
  rx0ifBit : Byte
  rx1ifBit : Byte
  txreqBit : Byte
  filhitMask : Byte
  ewarn : Byte
  rxwar : Byte
  txwar : Byte
  rxep : Byte
  txep : Byte
  txbo : Byte
  deriving DecidableEq, Repr

/-- The implementation parameters of 00_scope.md R6. They are fixed for a machine: no step writes them. -/
structure Config where
  /-- CMP_INACT and CMP_TICK, the compare values Init loads. -/
  cmpInact : Half
  cmpTick : Half
  /-- TICK_IE, whether Init enables the tick channel's event. -/
  tickIe : Bool
  /-- N_POLL, the bound on init's mode polls. -/
  nPoll : Nat
  /-- BITTIMING[0..1] and BITRATE_SEL. -/
  bitTiming : Vector BitTiming 2
  bitrateSel : Fin 2
  /-- PDC_CHIP, the chip the handlers drive. -/
  pdcChip : ChipIx
  /-- PDC_CAN_ID, the sensor frame's identifier. -/
  pdcCanId : BitVec 11
  wakeMode : WakeMode
  wakeSense : WakeSense
  /-- N_BLINK, the indicator toggles of one Error pass. -/
  nBlink : Nat
  linkImpl : LinkImpl
  /-- FULL_BUS_ERRORS, whether getBusErrors decodes the error flags. -/
  fullBusErrors : Bool
  map : ChipMap
  /-- CHIP_IMPL[k], CHIP_VOLATILE[k], CHIP_BITMOD[k], CHIP_CFGONLY[k]. -/
  chipImpl : Vector AddrSet 2
  chipVolatile : Vector AddrSet 2
  chipBitmod : Vector AddrSet 2
  chipCfgonly : Vector AddrSet 2
  /-- CHIP_RESET_IMAGE[k] (41_regbus.md R161), but for its mode fields, which R161 fixes: the registers that
  the reset command leaves, the same ones each time (20_memory.md R67; log entry 28). -/
  chipResetImage : Vector (Vector Byte 256) 2
  /-- The environment's first values for Draw(), for a run that fixes them; every later draw is
  `Config.freeByte`. Empty at reset (log entry 3, DESIGN CHOICE). -/
  draws : List Byte
  deriving DecidableEq, Repr

/-- Draw() of 00_scope.md R8: the value of the n-th draw. Nothing constrains it (log entry 3). -/
opaque Config.freeByte : Nat → Byte

/-- CREG[k][a] at power-on, Draw() by 10_state.md R44 (log entry 4). -/
opaque Config.powerOnReg : ChipIx → Byte → Byte

/-- CHIP_RESET_IMAGE[k][a], Draw() by 41_regbus.md R161 (log entry 28). -/
opaque Config.openResetReg : ChipIx → Byte → Byte

/-- WAKE_IN at reset: whatever the pin drives (10_state.md R39; log entry 5). -/
opaque Config.pinAtReset : Bool

/-- The OPEN parameters of R6 (log entry 2): a compare value less one, so that it is 1..0xFFFF. -/
opaque Config.openCmpInactLessOne : Fin 0xFFFF
opaque Config.openCmpTickLessOne : Fin 0xFFFF
/-- N_POLL and N_BLINK less one, so that each is at least 1. -/
opaque Config.openNPollLessOne : Nat
opaque Config.openNBlinkLessOne : Nat
opaque Config.openBitTiming : Fin 2 → BitTiming
opaque Config.openBitrateSel : Fin 2
opaque Config.openPdcCanId : BitVec 11

end Sys2Proof
end

