-- ==== Sys2Proof/Machine/Params.lean ====
section
/-! DEFINITION. The default values of the parameters (00_scope.md R6; 42_driver.md R190, R191), and
the configuration that State.reset holds. -/

namespace Sys2Proof

/-- The default register map and bit masks of R190 and R191. -/
def ChipMap.standard : ChipMap where
  rxf0sidh := 0x00
  rxf3sidh := 0x10
  rxm0sidh := 0x20
  canstat := 0x0E
  canctrl := 0x0F
  cnf1 := 0x2A
  cnf2 := 0x29
  cnf3 := 0x28
  caninte := 0x2B
  canintf := 0x2C
  eflg := 0x2D
  rxb0ctrl := 0x60
  txbctrl := #v[0x30, 0x40, 0x50]
  rxstart := #v[0x61, 0x66, 0x71, 0x76]
  bfpctrl := 0x0C
  txrtsctrl := 0x0D
  regTec := 0x1C
  regRec := 0x1D
  rxb1ctrl := 0x70
  reqopMask := 0xE0
  abatBit := 0x10
  opmodMask := 0xE0
  wakieBit := 0x40
  wakifBit := 0x40
  rx0ifBit := 0x01
  rx1ifBit := 0x02
  txreqBit := 0x08
  filhitMask := 0x01
  ewarn := 0x01
  rxwar := 0x02
  txwar := 0x04
  rxep := 0x08
  txep := 0x10
  txbo := 0x20

/-- CHIP_IMPL (R190): 0x00-0x7F but for the mirror addresses 0x1E, 0x1F, ..., 0x7E, 0x7F. -/
def AddrSet.implDefault : AddrSet :=
  [⟨0x00, 0x1D⟩, ⟨0x20, 0x2D⟩, ⟨0x30, 0x3D⟩, ⟨0x40, 0x4D⟩, ⟨0x50, 0x5D⟩, ⟨0x60, 0x6D⟩, ⟨0x70, 0x7D⟩]

/-- CHIP_VOLATILE: the rows of R190 with V. -/
def AddrSet.volatileDefault : AddrSet :=
  [⟨0x0D, 0x0E⟩, ⟨0x1C, 0x1D⟩, ⟨0x2C, 0x2D⟩, ⟨0x30, 0x30⟩, ⟨0x40, 0x40⟩, ⟨0x50, 0x50⟩,
   ⟨0x60, 0x6D⟩, ⟨0x70, 0x7D⟩]

/-- CHIP_BITMOD: the rows of R190 with M. -/
def AddrSet.bitmodDefault : AddrSet :=
  [⟨0x0C, 0x0D⟩, ⟨0x0F, 0x0F⟩, ⟨0x28, 0x2D⟩, ⟨0x30, 0x30⟩, ⟨0x40, 0x40⟩, ⟨0x50, 0x50⟩, ⟨0x60, 0x60⟩, ⟨0x70, 0x70⟩]

/-- CHIP_CFGONLY: the rows of R190 with C. -/
def AddrSet.cfgonlyDefault : AddrSet :=
  [⟨0x00, 0x0B⟩, ⟨0x10, 0x1B⟩, ⟨0x20, 0x2A⟩]

/-- The registers of CHIP_RESET_IMAGE[k] as constants without a value (41_regbus.md R161; log entry 28). -/
def Config.openResetImage (k : ChipIx) : Vector Byte 256 :=
  Vector.ofFn fun a => Config.openResetReg k (BitVec.ofFin a)

/-- The configuration at reset: R6's defaults, and the OPEN parameters as constants without a value
(log entry 2). LINK_IMPL, for which R6 gives SPI or BITBANG and no default, is SPI here: DESIGN CHOICE
(log entry 2); it has no semantic effect (41_regbus.md R144). -/
def Config.standard : Config where
  cmpInact := BitVec.ofNat 16 (Config.openCmpInactLessOne.val + 1)
  cmpTick := BitVec.ofNat 16 (Config.openCmpTickLessOne.val + 1)
  tickIe := true
  nPoll := Config.openNPollLessOne + 1
  bitTiming := #v[Config.openBitTiming 0, Config.openBitTiming 1]
  bitrateSel := Config.openBitrateSel
  pdcChip := 0
  pdcCanId := Config.openPdcCanId
  wakeMode := .busActivity
  wakeSense := .lowLevel
  nBlink := Config.openNBlinkLessOne + 1
  linkImpl := .spi
  fullBusErrors := false
  map := ChipMap.standard
  chipImpl := #v[AddrSet.implDefault, AddrSet.implDefault]
  chipVolatile := #v[AddrSet.volatileDefault, AddrSet.volatileDefault]
  chipBitmod := #v[AddrSet.bitmodDefault, AddrSet.bitmodDefault]
  chipCfgonly := #v[AddrSet.cfgonlyDefault, AddrSet.cfgonlyDefault]
  chipResetImage := #v[Config.openResetImage 0, Config.openResetImage 1]
  draws := []

/-- Membership in a register set. -/
def AddrSet.has (s : AddrSet) (a : Byte) : Bool :=
  s.any fun r => r.lo.toNat ≤ a.toNat && a.toNat ≤ r.hi.toNat

/-- CHIP_IMPL[k] and the other sets of chip k. -/
def Config.implemented (cfg : Config) (k : ChipIx) (a : Byte) : Bool := AddrSet.has cfg.chipImpl[k] a
def Config.isVolatile (cfg : Config) (k : ChipIx) (a : Byte) : Bool := AddrSet.has cfg.chipVolatile[k] a
def Config.bitModifiable (cfg : Config) (k : ChipIx) (a : Byte) : Bool := AddrSet.has cfg.chipBitmod[k] a
def Config.configOnly (cfg : Config) (k : ChipIx) (a : Byte) : Bool := AddrSet.has cfg.chipCfgonly[k] a

/-- The n-th Draw() (00_scope.md R8; log entry 3): the environment's own list while it lasts, then a
value that nothing constrains. -/
def Config.draw (cfg : Config) (n : Nat) : Byte := cfg.draws.getD n (Config.freeByte n)

end Sys2Proof
end

