-- ==== Sys2Proof/Machine/State.lean ====
section
/-! DEFINITION. The state of the block and of its environment (10_state.md), the reasons a step can
stop, and the state after reset (R47). -/

namespace Sys2Proof.Machine

open Sys2Proof

/-- The handlers of 43_power_fsm.md, and DISPATCH (10_state.md R20, R231). -/
inductive Handler
  | dispatch
  | init
  | running
  | sleepDet
  | sleeping
  | wakeup
  | unrec
  | error
  deriving DecidableEq, Repr

/-- The sequencer's position pos = (H, i) (R20). -/
structure Pos where
  handler : Handler
  idx : Nat
  deriving DecidableEq, Repr

/-- A CAN message (42_driver.md R197): `valid` frames are the ones that can be constructed. -/
structure CanFrame where
  id : BitVec 11
  rtr : Bool
  len : Nat
  data : List Byte
  deriving DecidableEq, Repr

/-- An acceptance filter (00_scope.md R10; 42_driver.md R196). Both rules write "rtr-flag bits" and give no
count: that it is one bit is a DESIGN CHOICE (log entry 27), without effect, as setFilters has none. -/
structure CanFilter where
  id : BitVec 11
  mask : BitVec 11
  rtr : Bool
  deriving DecidableEq, Repr

/-- SCR, the procedure-local values (10_state.md R48). The loop counters and the sensor index of R48
are the index of `pos` (log entry 14). -/
structure Scratch where
  /-- A copied status byte. -/
  status : Option Byte
  /-- The transmit buffer index j. -/
  j : Option (Fin 3)
  frame : Option CanFrame
  /-- The match indicator, 1 or more. -/
  matchInd : Option Nat
  /-- The result of init: true is SUCCESS. -/
  initResult : Option Bool
  deriving DecidableEq, Repr

/-- One timer channel (R24 to R28). -/
structure Channel where
  run : Bool
  cnt : Half
  cmp : Half
  pend : Bool
  ie : Bool
  deriving DecidableEq, Repr

/-- A chip's register file, one register for each of the 256 addresses (R44). -/
abbrev RegFile := Vector Byte 256

/-- The external chip (R44): CREG and CFRAME. -/
structure Chip where
  creg : RegFile
  cframe : List Byte
  deriving DecidableEq, Repr

/-- Whose step comes next, and what the environment does in it (20_memory.md R70; log entry 1). -/
inductive Turn
  /-- SEQ, after any deliverable interrupt (60_exceptions.md R276). -/
  | seq
  /-- BRIDGE and WAKESYNC, earlier than R276 forces them and in R277's order; no effect where not enabled. -/
  | bridge
  | wakesync
  /-- One count pulse of TICKc (40_timer.md R111). -/
  | tick (c : ChanIx)
  /-- PIN sets WAKE_IN (43_power_fsm.md R247). -/
  | pin (level : Bool)
  /-- CHIPk sets volatile registers of its own to values the environment chooses (41_regbus.md R169). -/
  | chip (k : ChipIx) (sets : List (Byte × Byte))
  /-- Reset, at power-on or by the reset input, with HOSTMODE as sampled and HOSTQ as the host loads it
  (70_reset_and_hazards.md R300, R302; 10_state.md R49). -/
  | reset (powerOn : Bool) (hostmode : Bool) (hostq : List OpWord)
  deriving DecidableEq, Repr

/-- The machine. -/
structure State where
  /-- The parameters (00_scope.md R6), written by no step (log entry 2). -/
  cfg : Config
  pos : Pos
  /-- SCR (R48). -/
  scr : Scratch
  /-- RES, none for ⊥ (R21). -/
  res : Option Half
  /-- FBUF[0..15], none for ⊥ (R22). -/
  fbuf : Vector (Option Byte) 16
  /-- The timer channels (R23 to R28). -/
  tmr : Vector Channel 2
  /-- CSSEL (R30) and RAWOPEN (R31). -/
  cssel : Option ChipIx
  rawopen : Bool
  /-- PSTATE (R33), ERRL (R35), WKEN (R36), WKPEND (R37), LPM (R38). -/
  pstate : Byte
  errl : Bool
  wken : Bool
  wkpend : Bool
  lpm : Bool
  /-- WAKE_IN, WAKE_PREV, WEDGE (R39). -/
  wakeIn : Bool
  wakePrev : Bool
  wedge : Bool
  /-- SENSOR[0..3], none for ⊥, and IND (R40). -/
  sensor : Vector (Option Byte) 4
  ind : Bool
  /-- FAULT (R42). -/
  fault : Byte
  /-- The chips (R44). -/
  chips : Vector Chip 2
  /-- HOSTMODE and HOSTQ (R49). -/
  hostmode : Bool
  hostq : List OpWord
  /-- The environment's schedule; empty gives every step to SEQ (log entry 1). -/
  agenda : List Turn
  /-- How many draws have been taken (log entry 3). -/
  drawn : Nat
  deriving DecidableEq, Repr

/-- What stops the machine itself. The block's own faults (60_exceptions.md R271) are next states. -/
inductive Fault
  /-- Raised by SEQ at a position that no handler has. No run reaches one (log entry 11): safe. -/
  | noStepAtPosition
  deriving DecidableEq, Repr

/-- What the model gives no meaning to. -/
inductive Refusal
  /-- Raised by exec's own arm for an instruction without a meaning: safe. -/
  | notModelled (mnemonic : String)
  /-- Raised by a chip whose frame begins with a reserved wire command (41_regbus.md R167 a): safe. -/
  | reservedWireCommand
  /-- Raised by a chip whose frame reads or writes a register outside CHIP_IMPL (R167 b): safe. -/
  | registerNotImplemented
  /-- Raised by a chip whose frame runs past register 0xFF (R167 b): safe. -/
  | addressPastEnd
  /-- Raised by a driver procedure given a CanFrame that cannot be constructed (42_driver.md R197;
  93_implementation_defined.md I41): safe. -/
  | invalidCanFrame
  deriving DecidableEq, Repr

/-- The outcome of a step or of an instruction. -/
abbrev Out := Host.Outcome State Fault Refusal

/-- SCR with no value held (R48). -/
def Scratch.empty : Scratch := ⟨none, none, none, none, none⟩

/-- A timer channel after reset (R47). -/
def Channel.reset : Channel := ⟨false, 0, 0, false, false⟩

/-- A chip at power-on: every register Draw(), no frame (R44; log entry 4). -/
def Chip.powerOn (k : ChipIx) : Chip :=
  ⟨Vector.ofFn fun a => Config.powerOnReg k (BitVec.ofFin a), []⟩

/-- The state after a power-on reset (R47). -/
def State.reset : State where
  cfg := Config.standard
  pos := ⟨.dispatch, 0⟩
  scr := Scratch.empty
  res := none
  fbuf := Vector.replicate 16 none
  tmr := Vector.replicate 2 Channel.reset
  cssel := none
  rawopen := false
  pstate := 0x00
  errl := false
  wken := false
  wkpend := false
  lpm := false
  wakeIn := Config.pinAtReset
  wakePrev := Config.pinAtReset
  wedge := false
  sensor := Vector.replicate 4 none
  ind := false
  fault := 0x00
  chips := #v[Chip.powerOn 0, Chip.powerOn 1]
  hostmode := false
  hostq := []
  agenda := []
  drawn := 0

end Sys2Proof.Machine
end

