-- ==== Sys2Proof/Machine/Operands.lean ====
section
/-! DEFINITION. Operand forms and their range checks (30_encoding.md R84, R90), the mode codes
(42_driver.md R192), and reads and writes of the indexed spaces FBUF, SENSOR and CREG
(20_memory.md R60). -/

namespace Sys2Proof.Machine

open Sys2Proof

/-- A byte result is zero-extended into RES (10_state.md R21). -/
def zext16 (b : Byte) : Half := b.setWidth 16

/-- A byte count is legal when 1 ≤ n ≤ 16 (R84). -/
def countOk (n : Byte) : Bool := 1 ≤ n.toNat && n.toNat ≤ 16

/-- A transfer of n registers from `start` ends at 0xFF or below (R84). The sum is exact (00_scope.md R7). -/
def endsInSpace (start : Nat) (n : Byte) : Bool := start + n.toNat - 1 ≤ 0xFF

/-- abc ≤ 5 names a transmit buffer (R85 c). -/
def selectorOk (abc : BitVec 3) : Bool := abc.toNat ≤ 5

/-- An FBUF index is legal when idx ≤ 15 (R84). -/
def indexOk (idx : Byte) : Bool := idx.toNat ≤ 15

/-- RXSTART(nm) (R90, 42_driver.md R190). -/
def rxStart (cfg : Config) (nm : BitVec 2) : Byte := cfg.map.rxstart[nm.toNat]'(nm.isLt)

/-- REG_TXBCTRL[j] (R190). -/
def txbctrl (cfg : Config) (j : Fin 3) : Byte := cfg.map.txbctrl[j]

/-- The transmit buffer of a selector abc ≤ 5: 2j and 2j + 1 name buffer j (R90). -/
def bufferOf (abc : BitVec 3) : Fin 3 := Fin.ofNat 3 (abc.toNat / 2)

/-- TXSTART(abc): TXBCTRL[j] + 1 for the identifier, + 6 for the data (R190), an exact sum (00_scope.md R7):
above 0xFF it is no register address. -/
def txStart (cfg : Config) (abc : BitVec 3) : Nat :=
  (txbctrl cfg (bufferOf abc)).toNat + (if abc.toNat % 2 = 0 then 1 else 6)

/-- The chip's operating modes (42_driver.md R192). -/
inductive Mode
  | normal
  | sleep
  | loopback
  | listen
  | config
  deriving DecidableEq, Repr

/-- The code of a mode in the REQOP and OPMOD fields (R192). -/
def Mode.code : Mode → Byte
  | .normal => 0b000
  | .sleep => 0b001
  | .loopback => 0b010
  | .listen => 0b011
  | .config => 0b100

/-- MODE_X << 5, the code in its field. -/
def Mode.bits (m : Mode) : Byte := m.code <<< 5

/-- The register at a chip address (41_regbus.md R160, ChipRead). -/
def RegFile.read (f : RegFile) (a : Byte) : Byte := f[a.toNat]'(a.isLt)

def RegFile.write (f : RegFile) (a v : Byte) : RegFile := f.set a.toNat v a.isLt

/-- FBUF[i], none for ⊥ and for an index past the buffer (10_state.md R22). -/
def fbufRead (f : Vector (Option Byte) 16) (i : Nat) : Option Byte := f[i]?.join

/-- FBUF[i] <- b. -/
def fbufWrite (f : Vector (Option Byte) 16) (i : Nat) (b : Byte) : Vector (Option Byte) 16 :=
  f.setIfInBounds i (some b)

/-- FBUF[i], ..., FBUF[i + n - 1], none if one of them is ⊥. -/
def fbufBytes (f : Vector (Option Byte) 16) (i : Nat) : Nat → Option (List Byte)
  | 0 => some []
  | n + 1 =>
    match fbufRead f i, fbufBytes f (i + 1) n with
    | some b, some bs => some (b :: bs)
    | _, _ => none

/-- FBUF[i], FBUF[i + 1], ... <- the bytes of the list, in order (20_memory.md R61). -/
def fbufStore (f : Vector (Option Byte) 16) (i : Nat) : List Byte → Vector (Option Byte) 16
  | [] => f
  | b :: bs => fbufStore (fbufWrite f i b) (i + 1) bs

/-- SENSOR[slot], none for ⊥ (10_state.md R40). -/
def sensorRead (v : Vector (Option Byte) 4) (slot : BitVec 2) : Option Byte := v[slot.toNat]'(slot.isLt)

def sensorWrite (v : Vector (Option Byte) 4) (slot : BitVec 2) (b : Byte) : Vector (Option Byte) 4 :=
  v.set slot.toNat (some b) slot.isLt

/-- The timer channel c. -/
def State.chan (s : State) (c : ChanIx) : Channel := s.tmr[c]

/-- The chip k. -/
def State.chip (s : State) (k : ChipIx) : Chip := s.chips[k]

/-- CREG[k][a]. -/
def State.creg (s : State) (k : ChipIx) (a : Byte) : Byte := RegFile.read (s.chip k).creg a

/-- CFRAME[k]. -/
def State.cframe (s : State) (k : ChipIx) : List Byte := (s.chip k).cframe

/-- A channel of the state replaced. -/
def State.setChan (s : State) (c : ChanIx) (ch : Channel) : State :=
  { s with tmr := s.tmr.set c.val ch c.isLt }

/-- A chip of the state replaced. -/
def State.setChip (s : State) (k : ChipIx) (ch : Chip) : State :=
  { s with chips := s.chips.set k.val ch k.isLt }

/-- RES <- v (10_state.md R21). -/
def State.setRes (s : State) (v : Half) : State := { s with res := some v }

end Sys2Proof.Machine
end

