-- ==== Sys2Proof/Machine/Flags.lean ====
section
/-! DEFINITION. The status words, interrupt conditions and derived lines: everything the block computes
from its bits without storing it (10_state.md R29, R32, R39, R41, R43; 40_timer.md R125;
42_driver.md R191, R207). -/

namespace Sys2Proof.Machine

open Sys2Proof

/-- The channel status word of TRDSTAT: TIE : TPEND : TRUN (10_state.md R29). -/
def channelStatus (ch : Channel) : Half :=
  (BitVec.ofBool ch.ie ++ BitVec.ofBool ch.pend ++ BitVec.ofBool ch.run).setWidth 16

/-- remaining(c) of 40_timer.md R125. -/
def Channel.remaining (ch : Channel) : Nat := ch.cmp.toNat - ch.cnt.toNat

/-- inactDeliverable (10_state.md R41). -/
def State.inactDeliverable (s : State) : Bool := (s.chan 0).pend && (s.chan 0).ie

/-- wakeActive for the pin's sensitivity (R39). -/
def State.wakeActive (s : State) : Bool :=
  match s.cfg.wakeSense with
  | .lowLevel => !s.wakeIn
  | .falling => s.wedge
  | .rising => s.wedge

/-- wakeDeliverable (R41). -/
def State.wakeDeliverable (s : State) : Bool := s.wken && (!s.wkpend && s.wakeActive)

/-- The change from `old` to `new` is the sensed edge (43_power_fsm.md R247). -/
def sensedEdge (sense : WakeSense) (old new : Bool) : Bool :=
  match sense with
  | .lowLevel => false
  | .falling => old && !new
  | .rising => !old && new

/-- TICK_IRQ (R43). -/
def State.tickIrq (s : State) : Bool := (s.chan 1).pend && (s.chan 1).ie

/-- CS_n[k]: false (asserted, active low) exactly when CSSEL = k (R32). -/
def State.csN (s : State) (k : ChipIx) : Bool := s.cssel != some k

/-- A bit of a mask is set in a register. -/
def anyBit (v mask : Byte) : Bool := v &&& mask != 0

/-- STATUS(k), the byte of the read-status command (42_driver.md R191). -/
def statusByte (cfg : Config) (f : RegFile) : Byte :=
  let intf := RegFile.read f cfg.map.canintf
  let pending (j : Fin 3) : BitVec 1 :=
    BitVec.ofBool (anyBit (RegFile.read f (txbctrl cfg j)) cfg.map.txreqBit)
  BitVec.ofBool (intf.getLsbD 4) ++ pending 2 ++ BitVec.ofBool (intf.getLsbD 3) ++ pending 1
    ++ BitVec.ofBool (intf.getLsbD 2) ++ pending 0
    ++ BitVec.ofBool (anyBit intf cfg.map.rx1ifBit) ++ BitVec.ofBool (anyBit intf cfg.map.rx0ifBit)

/-- The chip is in configuration mode (41_regbus.md R170). -/
def inConfigMode (cfg : Config) (f : RegFile) : Bool :=
  RegFile.read f cfg.map.canstat &&& cfg.map.opmodMask == Mode.config.bits

/-- ErrorKind (30_encoding.md R92, 42_driver.md R206). -/
inductive ErrorKind
  | none
  | busOff
  | txPassive
  | rxPassive
  | txWarning
  | rxWarning
  | warning
  deriving DecidableEq, Repr

/-- The codes of 30_encoding.md R92. -/
def ErrorKind.code : ErrorKind → Nat
  | .none => 0
  | .busOff => 1
  | .txPassive => 2
  | .rxPassive => 3
  | .txWarning => 4
  | .rxWarning => 5
  | .warning => 6

/-- WakeMode's codes (R92). -/
def wakeModeCode : WakeMode → Nat
  | .busActivity => 0
  | .manual => 1

/-- The init result's codes (R92): SUCCESS = 1, FAILURE = 0. -/
def initResultCode (success : Bool) : Nat := if success then 1 else 0

/-- The classification of the error flags by the document's priority order (42_driver.md R207). -/
def classifyErrors (m : ChipMap) (e : Byte) : ErrorKind :=
  if anyBit e m.txbo then .busOff
  else if anyBit e m.txep then .txPassive
  else if anyBit e m.rxep then .rxPassive
  else if anyBit e m.txwar then .txWarning
  else if anyBit e m.rxwar then .rxWarning
  else if anyBit e m.ewarn then .warning
  else .none

/-! ## The FSM states (10_state.md R34) -/

/-- The six defined states. -/
inductive PowerState
  | init
  | running
  | sleepDetected
  | sleeping
  | wakeup
  | error
  deriving DecidableEq, Repr

/-- The encoding of PSTATE (R34). -/
def PowerState.code : PowerState → Byte
  | .init => 0x00
  | .running => 0x01
  | .sleepDetected => 0x02
  | .sleeping => 0x03
  | .wakeup => 0x04
  | .error => 0x05

/-- The handler that dispatch runs for a value of PSTATE (43_power_fsm.md R231): 0x06..0xFF are
unrecognized. -/
def handlerOf (pstate : Byte) : Handler :=
  if pstate = PowerState.init.code then .init
  else if pstate = PowerState.running.code then .running
  else if pstate = PowerState.sleepDetected.code then .sleepDet
  else if pstate = PowerState.sleeping.code then .sleeping
  else if pstate = PowerState.wakeup.code then .wakeup
  else if pstate = PowerState.error.code then .error
  else .unrec

end Sys2Proof.Machine
end

