-- ==== Sys2Proof/Machine/Chip.lean ====
section
/-! DEFINITION. The chip reference model (41_regbus.md R160 to R170): what a byte of a frame means to
the chip, its reply and its effect, and the changes the chip makes by itself. -/

namespace Sys2Proof.Machine

open Sys2Proof

/-- What byte o is to a chip that has received the bytes F since its select (R141, 30_encoding.md R88):
the position in the frame is the length of F. -/
inductive ByteRole
  /-- The first byte: a wire command. -/
  | command (c : WireCmd)
  /-- The reply is the register at this address (R162, R168). -/
  | readReg (a : Nat)
  /-- The byte is stored at this address (R164, R168). -/
  | writeReg (a : Nat)
  /-- The value byte of a bit-modify (R163). -/
  | modify (a m : Byte)
  /-- The reply is the status byte (R165). -/
  | status
  /-- No effect, and a reply that is Draw() (R160). -/
  | ignored
  /-- A first byte that is a reserved wire command (30_encoding.md R89). -/
  | reserved
  deriving DecidableEq, Repr

/-- The role of a byte after the command byte: `args` are the bytes between. -/
def laterRole (cfg : Config) (cmd : WireCmd) (args : List Byte) : ByteRole :=
  match cmd with
  | .reset => .ignored
  | .rts _ => .ignored
  | .read => match args with
    | [] => .ignored
    | a :: data => .readReg (a.toNat + data.length)
  | .write => match args with
    | [] => .ignored
    | a :: data => .writeReg (a.toNat + data.length)
  | .bitmod => match args with
    | [a, m] => .modify a m
    | _ => .ignored
  | .readStatus => .status
  | .readRx nm => .readReg ((rxStart cfg nm).toNat + args.length)
  | .loadTx abc => .writeReg (txStart cfg abc + args.length)

/-- The role of byte o at the position after the bytes F. -/
def byteRole (cfg : Config) (F : List Byte) (o : Byte) : ByteRole :=
  match F with
  | [] => match WireCmd.ofByte o with
    | some c => .command c
    | none => .reserved
  | f :: args => match WireCmd.ofByte f with
    | some c => laterRole cfg c args
    | none => .reserved

/-- An address a frame may read or write (R167 b). -/
def regAddr (cfg : Config) (k : ChipIx) (a : Nat) : Except Refusal Byte :=
  if 0xFF < a then .error .addressPastEnd
  else if cfg.implemented k (BitVec.ofNat 8 a) then .ok (BitVec.ofNat 8 a)
  else .error .registerNotImplemented

/-- A register file whose mode field `mask` of register a reads configuration mode. -/
def withConfigMode (f : RegFile) (a mask : Byte) : RegFile :=
  RegFile.write f a ((RegFile.read f a &&& ~~~mask) ||| Mode.config.bits)

/-- CHIP_RESET_IMAGE[k] (R161): one image for each chip, so that the reset command is idempotent
(20_memory.md R67); every register is Draw() but that the operating-mode fields of CANSTAT and CANCTRL read
configuration mode. -/
def resetImage (cfg : Config) (k : ChipIx) : RegFile :=
  withConfigMode (withConfigMode cfg.chipResetImage[k] cfg.map.canstat cfg.map.opmodMask)
    cfg.map.canctrl cfg.map.reqopMask

/-- Request-to-send for one buffer (R166). -/
def requestBuffer (cfg : Config) (t : BitVec 3) (f : RegFile) (j : Fin 3) : RegFile :=
  if t.getLsbD j.val then
    RegFile.write f (txbctrl cfg j) (RegFile.read f (txbctrl cfg j) ||| cfg.map.txreqBit)
  else f

/-- The registers of chip k after a command byte: reset and request-to-send act at byte 0, the rest do
nothing yet (R161, R166). -/
def commandEffect (cfg : Config) (k : ChipIx) (f : RegFile) : WireCmd → RegFile
  | .reset => resetImage cfg k
  | .rts t => requestBuffer cfg t (requestBuffer cfg t (requestBuffer cfg t f 0) 1) 2
  | .read | .write | .bitmod | .readStatus | .readRx _ | .loadTx _ => f

/-- The value a write leaves in a register (R170): Draw() in a configuration-only register while the
chip is not in configuration mode, a new one at each write (95_test_vectors.md W3: "so the two runs need not
leave the same values"). -/
def storedValue (cfg : Config) (k : ChipIx) (n : Nat) (f : RegFile) (a v : Byte) : Byte :=
  if cfg.configOnly k a && !inConfigMode cfg f then cfg.draw n else v

/-- The value a bit-modify asks for (R163): Draw() in a register that is not modifiable. -/
def modifiedValue (cfg : Config) (k : ChipIx) (n : Nat) (f : RegFile) (a m v : Byte) : Byte :=
  if cfg.bitModifiable k a then (RegFile.read f a &&& ~~~m) ||| (v &&& m) else cfg.draw n

/-- One byte exchange with chip k (R143, R160): the reply, the chip after it, and the count of draws.
The reply takes one draw whether the chip drives it or not, a stored byte and a bit-modify one more. -/
def Chip.exchange (cfg : Config) (k : ChipIx) (n : Nat) (c : Chip) (o : Byte) :
    Except Refusal (Byte × Chip × Nat) :=
  let received (f : RegFile) : Chip := ⟨f, c.cframe ++ [o]⟩
  match byteRole cfg c.cframe o with
  | .reserved => .error .reservedWireCommand
  | .command cmd =>
    .ok (cfg.draw n, received (commandEffect cfg k c.creg cmd), n + 1)
  | .readReg a => match regAddr cfg k a with
    | .error r => .error r
    | .ok a => .ok (RegFile.read c.creg a, received c.creg, n + 1)
  | .writeReg a => match regAddr cfg k a with
    | .error r => .error r
    | .ok a =>
      .ok (cfg.draw n, received (RegFile.write c.creg a (storedValue cfg k (n + 1) c.creg a o)), n + 2)
  | .modify a m => match regAddr cfg k a.toNat with
    | .error r => .error r
    | .ok a =>
      .ok (cfg.draw n, received (RegFile.write c.creg a
        (storedValue cfg k (n + 1) c.creg a (modifiedValue cfg k (n + 1) c.creg a m o))), n + 2)
  | .status => .ok (statusByte cfg c.creg, received c.creg, n + 1)
  | .ignored => .ok (cfg.draw n, received c.creg, n + 1)

/-- The chip's mode field may change only to the mode last requested, or from sleep to listen-only
while the wake interrupt is enabled (R169). -/
def modeChangeOk (cfg : Config) (f : RegFile) (v : Byte) : Bool :=
  let old := RegFile.read f cfg.map.canstat &&& cfg.map.opmodMask
  let new := v &&& cfg.map.opmodMask
  new == old
    || new == (RegFile.read f cfg.map.canctrl &&& cfg.map.reqopMask)
    || (old == Mode.sleep.bits && anyBit (RegFile.read f cfg.map.caninte) cfg.map.wakieBit
        && new == Mode.listen.bits)

/-- The chip may set register a to v by itself (R169). -/
def ownChangeOk (cfg : Config) (k : ChipIx) (f : RegFile) (a v : Byte) : Bool :=
  cfg.isVolatile k a && (a != cfg.map.canstat || modeChangeOk cfg f v)

/-- A chip step: each change the rule admits is made, in order (R169; log entry 12). -/
def ownChanges (cfg : Config) (k : ChipIx) (f : RegFile) : List (Byte × Byte) → RegFile
  | [] => f
  | (a, v) :: rest =>
    ownChanges cfg k (if ownChangeOk cfg k f a v then RegFile.write f a v else f) rest

end Sys2Proof.Machine
end

