-- ==== Sys2Proof/Machine/Ops.lean ====
section
/-! DEFINITION. The shared operations: raising a fault (60_exceptions.md R272), the byte exchange and the
frame (41_regbus.md R143, R145), the interrupt steps (43_power_fsm.md R244, R246) and the resume guard
of the low-power wait (R250). There is no return from a fault or an interrupt (R272, R279): only reset
clears FAULT, and an interrupt step simply ends. -/

namespace Sys2Proof.Machine

open Sys2Proof

/-- The fault codes of R271. -/
inductive FaultCode
  | illegalOp
  | busProtocol
  | fbufRange
  | addrRange
  | unwritten
  deriving DecidableEq, Repr

def FaultCode.code : FaultCode → Byte
  | .illegalOp => 0x01
  | .busProtocol => 0x02
  | .fbufRange => 0x03
  | .addrRange => 0x04
  | .unwritten => 0x05

/-- raise Fault(code): the first fault is kept, and nothing else is written (R272). -/
def State.raise (s : State) (c : FaultCode) : State :=
  if s.fault = 0 then { s with fault := c.code } else s

/-- The outcome of an operation that raises a fault: SEQ goes on to no further step (log entry 8). -/
def raiseFault (c : FaultCode) (s : State) : Out := .next (s.raise c)

/-- Xfer(k, o) (41_regbus.md R143): the byte received, and the state after it. -/
def State.xfer (k : ChipIx) (o : Byte) (s : State) : Except Refusal (Byte × State) :=
  match (s.chip k).exchange s.cfg k s.drawn o with
  | .error r => .error r
  | .ok (reply, chip, drawn) => .ok (reply, { s.setChip k chip with drawn := drawn })

/-- The bytes of a list exchanged in order. -/
def State.xferAll (k : ChipIx) : List Byte → State → Except Refusal (List Byte × State)
  | [], s => .ok ([], s)
  | o :: os, s =>
    match s.xfer k o with
    | .error r => .error r
    | .ok (reply, s') => match s'.xferAll k os with
      | .error r => .error r
      | .ok (replies, t) => .ok (reply :: replies, t)

/-- CFRAME[k] <- [] (R147, R148). -/
def State.clearFrame (s : State) (k : ChipIx) : State :=
  s.setChip k { s.chip k with cframe := [] }

/-- CSSEL <- k ; CFRAME[k] <- [] : CS_n[k] asserted (R145, R147). -/
def State.select (s : State) (k : ChipIx) : State :=
  { s.clearFrame k with cssel := some k }

/-- CFRAME[k] <- [] ; CSSEL <- NONE : CS_n[k] deasserted, the frame ended (R145, R148). -/
def State.deselect (s : State) (k : ChipIx) : State :=
  { s.clearFrame k with cssel := none }

/-- Frame(k, os) (R145): one whole select bracket, with the bytes received. -/
def State.frame (k : ChipIx) (os : List Byte) (s : State) : Except Refusal (List Byte × State) :=
  match (s.select k).xferAll k os with
  | .error r => .error r
  | .ok (rs, t) => .ok (rs, t.deselect k)

/-- A framed operation's frame, and what the block does with the bytes received. -/
def sendFrame (k : ChipIx) (os : List Byte) (s : State) (f : List Byte → State → State) : Out :=
  match s.frame k os with
  | .error r => .refused r
  | .ok (rs, t) => .next (f rs t)

/-- RES <- zext_16(r_i) (R151, R155). -/
def resOfReply (i : Nat) (rs : List Byte) (s : State) : State := s.setRes (zext16 (rs.getD i 0))

/-- A frame whose received bytes are all don't-care (30_encoding.md R88). -/
def discardReplies (_ : List Byte) (s : State) : State := s

/-- FBUF[i] <- r_(i+1) (R157). -/
def fbufOfReplies (rs : List Byte) (s : State) : State := { s with fbuf := fbufStore s.fbuf 0 (rs.drop 1) }

/-- The BRIDGE delivery (43_power_fsm.md R244): one store of SleepDetected and the match acknowledged. -/
def State.bridge (s : State) : State :=
  { s.setChan 0 { s.chan 0 with pend := false } with pstate := PowerState.sleepDetected.code }

/-- The WAKESYNC step (R246): the wake latched, the edge consumed. -/
def State.wakesync (s : State) : State := { s with wkpend := true, wedge := false }

/-- A handler ends: pos <- (DISPATCH, 0), and nothing is held in SCR (10_state.md R20, R48). -/
def State.finish (s : State) : State := { s with pos := ⟨.dispatch, 0⟩, scr := Scratch.empty }

/-- SEQ resumes at the next step of its handler, which for the Sleeping handler is its end (R236). -/
def State.resumed (s : State) : State :=
  if !s.hostmode && s.pos == ⟨.sleeping, 2⟩ then s.finish else s

/-- The resume guard of PSLEEP (R250), one atomic step. -/
def State.resumeGuard (s : State) : State :=
  State.resumed { s with
    pstate := PowerState.wakeup.code
    wken := false
    wkpend := false
    lpm := false }

end Sys2Proof.Machine
end

