-- ==== Sys2Proof/Machine/Timer.lean ====
section
/-! DEFINITION. The timer unit's operations (40_timer.md R114 to R122) and its count rule (R112). -/

namespace Sys2Proof.Machine

open Sys2Proof

/-- A channel changed as an operation says, the other one not (R110). -/
def State.onChan (s : State) (c : ChanIx) (f : Channel → Channel) : State := s.setChan c (f (s.chan c))

/-- TSTART (R114): TRUN[c] <- 1. -/
def execTstart (c : ChanIx) (s : State) : Out := .next (s.onChan c fun ch => { ch with run := true })

/-- TSTOP (R115): TRUN[c] <- 0. -/
def execTstop (c : ChanIx) (s : State) : Out := .next (s.onChan c fun ch => { ch with run := false })

/-- TRESTART (R116): stop, reset the count, start, as one step. -/
def execTrestart (c : ChanIx) (s : State) : Out :=
  .next (s.onChan c fun ch => { ch with cnt := 0, run := true })

/-- TSETCNT (R117): TCNT[c] <- v. -/
def execTsetcnt (c : ChanIx) (v : Half) (s : State) : Out :=
  .next (s.onChan c fun ch => { ch with cnt := v })

/-- TSETCMP (R118): TCMP[c] <- v. -/
def execTsetcmp (c : ChanIx) (v : Half) (s : State) : Out :=
  .next (s.onChan c fun ch => { ch with cmp := v })

/-- TRDCNT (R119): RES <- TCNT[c]. -/
def execTrdcnt (c : ChanIx) (s : State) : Out := .next (s.setRes (s.chan c).cnt)

/-- TRDSTAT (R120): RES <- the status word of R29. -/
def execTrdstat (c : ChanIx) (s : State) : Out := .next (s.setRes (channelStatus (s.chan c)))

/-- TSETIE (R121): TIE[c] <- ie. -/
def execTsetie (c : ChanIx) (ie : BitVec 1) (s : State) : Out :=
  .next (s.onChan c fun ch => { ch with ie := ie == 1 })

/-- TACK (R122): TPEND[c] <- 0. -/
def execTack (c : ChanIx) (s : State) : Out := .next (s.onChan c fun ch => { ch with pend := false })

/-- The count rule on a channel (R112): one count, and the match when it reaches the compare value. -/
def Channel.pulse (ch : Channel) : Channel :=
  if ch.run && ch.cnt.toNat < ch.cmp.toNat then
    { ch with cnt := ch.cnt + 1, pend := ch.pend || ch.cnt + 1 == ch.cmp }
  else ch

/-- The TICKc step (R111, R112). -/
def State.tick (s : State) (c : ChanIx) : State := s.onChan c Channel.pulse

end Sys2Proof.Machine
end

