-- ==== Sys2Proof/Machine/Agents.lean ====
section
/-! DEFINITION. The steps of the environment's agents and of reset: PIN (43_power_fsm.md R247), the
chips (41_regbus.md R169), and reset (70_reset_and_hazards.md R300, R302). -/

namespace Sys2Proof.Machine

open Sys2Proof

/-- The PIN step (R247). -/
def State.pin (s : State) (level : Bool) : State :=
  if level = s.wakeIn then s
  else { s with
    wakeIn := level
    wakePrev := s.wakeIn
    wedge := s.wedge || sensedEdge s.cfg.wakeSense s.wakeIn level }

/-- The CHIPk step (R169). -/
def State.chipStep (s : State) (k : ChipIx) (sets : List (Byte × Byte)) : State :=
  s.setChip k { s.chip k with creg := ownChanges s.cfg k (s.chip k).creg sets }

/-- The registers of chip k at a later power-on: each Draw() (10_state.md R44). -/
def powerOnRegs (s : State) (k : ChipIx) : RegFile :=
  Vector.ofFn fun a => s.cfg.draw (s.drawn + 256 * k.val + a.val)

/-- A chip over reset (R302): its registers are kept but at power-on; its select is released. -/
def chipOverReset (powerOn : Bool) (s : State) (k : ChipIx) : Chip :=
  ⟨if powerOn then powerOnRegs s k else (s.chip k).creg, []⟩

/-- Reset (R300): every element of the block takes its value of 10_state.md R47. The pin, the parameters,
the schedule and the draws are not the block's and go on. -/
def State.resetBlock (s : State) (powerOn hostmode : Bool) (hostq : List OpWord) : State :=
  { State.reset with
    cfg := s.cfg
    wakeIn := s.wakeIn
    wakePrev := s.wakeIn
    chips := #v[chipOverReset powerOn s 0, chipOverReset powerOn s 1]
    hostmode := hostmode
    hostq := hostq
    agenda := s.agenda
    drawn := if powerOn then s.drawn + 512 else s.drawn }

end Sys2Proof.Machine
end

