-- ==== Sys2Proof/Machine/Power.lean ====
section
/-! DEFINITION. The power sequencer's operations (43_power_fsm.md R249 to R256). -/

namespace Sys2Proof.Machine

open Sys2Proof

/-- PRDST (R252): RES <- zext_16(PSTATE). -/
def execPrdst (s : State) : Out := .next (s.setRes (zext16 s.pstate))

/-- PWRST (R253): PSTATE <- v. -/
def execPwrst (value : Byte) (s : State) : Out := .next { s with pstate := value }

/-- PARM (R249): WKEN <- 1. -/
def execParm (s : State) : Out := .next { s with wken := true }

/-- PDISARM (R251): WKEN <- 0. -/
def execPdisarm (s : State) : Out := .next { s with wken := false }

/-- PSLEEP's entry step (R250): LPM <- 1. Its second step is State.resumeGuard, taken by SEQ when the
wake is latched. -/
def execPsleep (s : State) : Out := .next { s with lpm := true }

/-- PSETERR (R254): ERRL <- 1. -/
def execPseterr (s : State) : Out := .next { s with errl := true }

/-- PSENS (R255): SENSOR[slot] <- b. -/
def execPsens (slot : BitVec 2) (byte : Byte) (s : State) : Out :=
  .next { s with sensor := sensorWrite s.sensor slot byte }

/-- PIND (R256): IND <- IND ^ 1. -/
def execPind (s : State) : Out := .next { s with ind := s.ind ^^ true }

end Sys2Proof.Machine
end

