-- ==== Sys2Proof/Machine/RegBus.lean ====
section
/-! DEFINITION. The register-interface unit's operations (41_regbus.md R147 to R158, R171, R172). The
checks stand in the order of R146 and 60_exceptions.md R274. -/

namespace Sys2Proof.Machine

open Sys2Proof

/-- The precondition of a framed operation: no raw bracket is open (R146). -/
def whenClosed (s : State) (out : Out) : Out := if s.rawopen then raiseFault .busProtocol s else out

/-- The precondition of RXFER and RDESEL: the bracket is open on chip k (R148, R149). -/
def whenOpenOn (k : ChipIx) (s : State) (out : Out) : Out :=
  if s.rawopen && s.cssel == some k then out else raiseFault .busProtocol s

/-- The byte count is in 1..16 (R84). -/
def whenCount (n : Byte) (s : State) (out : Out) : Out :=
  if countOk n then out else raiseFault .fbufRange s

/-- The transfer ends at register 0xFF or below (R84). -/
def whenInSpace (start : Nat) (n : Byte) (s : State) (out : Out) : Out :=
  if endsInSpace start n then out else raiseFault .addrRange s

/-- The FBUF index is in 0..15 (R84). -/
def whenIndex (idx : Byte) (s : State) (out : Out) : Out :=
  if indexOk idx then out else raiseFault .fbufRange s

/-- A frame with the command bytes `head` and then FBUF[0..n-1], or UNWRITTEN (R154, R158). -/
def sendBuffer (k : ChipIx) (head : List Byte) (n : Byte) (s : State) : Out :=
  match fbufBytes s.fbuf 0 n.toNat with
  | none => raiseFault .unwritten s
  | some bytes => sendFrame k (head ++ bytes) s discardReplies

/-- RSEL (R147). -/
def execRsel (k : ChipIx) (s : State) : Out :=
  whenClosed s (.next { s.select k with rawopen := true })

/-- RDESEL (R148). -/
def execRdesel (k : ChipIx) (s : State) : Out :=
  whenOpenOn k s (.next { s.deselect k with rawopen := false })

/-- RXFER (R149): one byte exchanged with the selected chip, the reply in RES. -/
def execRxfer (k : ChipIx) (out : Byte) (s : State) : Out :=
  whenOpenOn k s <|
    match s.xfer k out with
    | .error r => .refused r
    | .ok (reply, t) => .next (t.setRes (zext16 reply))

/-- RRESET (R150). -/
def execRreset (k : ChipIx) (s : State) : Out :=
  whenClosed s (sendFrame k [WireCmd.reset.toByte] s discardReplies)

/-- RREAD (R151). -/
def execRread (k : ChipIx) (addr : Byte) (s : State) : Out :=
  whenClosed s (sendFrame k [WireCmd.read.toByte, addr, 0x00] s (resOfReply 2))

/-- RWRITE (R152). -/
def execRwrite (k : ChipIx) (addr value : Byte) (s : State) : Out :=
  whenClosed s (sendFrame k [WireCmd.write.toByte, addr, value] s discardReplies)

/-- RBITMOD (R153). -/
def execRbitmod (k : ChipIx) (addr mask value : Byte) (s : State) : Out :=
  whenClosed s (sendFrame k [WireCmd.bitmod.toByte, addr, mask, value] s discardReplies)

/-- RWRSEQ (R154). -/
def execRwrseq (k : ChipIx) (start n : Byte) (s : State) : Out :=
  whenClosed s <| whenCount n s <| whenInSpace start.toNat n s <|
    sendBuffer k [WireCmd.write.toByte, start] n s

/-- RRDSTAT (R155). -/
def execRrdstat (k : ChipIx) (s : State) : Out :=
  whenClosed s (sendFrame k [WireCmd.readStatus.toByte, 0x00] s (resOfReply 1))

/-- RRTS (R156). -/
def execRrts (k : ChipIx) (txmask : BitVec 3) (s : State) : Out :=
  whenClosed s (sendFrame k [(WireCmd.rts txmask).toByte] s discardReplies)

/-- RRDRX (R157). -/
def execRrdrx (k : ChipIx) (nm : BitVec 2) (n : Byte) (s : State) : Out :=
  whenClosed s <| whenCount n s <| whenInSpace (rxStart s.cfg nm).toNat n s <|
    sendFrame k ((WireCmd.readRx nm).toByte :: List.replicate n.toNat 0x00) s fbufOfReplies

/-- RLDTX (R158): the selector check is part of ILLEGAL_OP and comes first (R274). -/
def execRldtx (k : ChipIx) (abc : BitVec 3) (n : Byte) (s : State) : Out :=
  if selectorOk abc then
    whenClosed s <| whenCount n s <| whenInSpace (txStart s.cfg abc) n s <|
      sendBuffer k [(WireCmd.loadTx abc).toByte] n s
  else raiseFault .illegalOp s

/-- FBWR (R171). -/
def execFbwr (idx byte : Byte) (s : State) : Out :=
  whenIndex idx s (.next { s with fbuf := fbufWrite s.fbuf idx.toNat byte })

/-- FBRD (R172): the range check comes before the ⊥ check. -/
def execFbrd (idx : Byte) (s : State) : Out :=
  whenIndex idx s <|
    match fbufRead s.fbuf idx.toNat with
    | none => raiseFault .unwritten s
    | some b => .next (s.setRes (zext16 b))

end Sys2Proof.Machine
end

