-- ==== Sys2Proof/Machine/Wire.lean ====
section
/-! DEFINITION. The wire commands as instructions of the selected chip (30_encoding.md R87; 41_regbus.md
R142, R143, R160 to R168): the command byte arrives on the link, as the byte exchange inside a raw or
framed operation brings it (log entry 7). Also the bits of one byte exchange on the lines (R144). -/

namespace Sys2Proof.Machine

open Sys2Proof

/-- A command byte on the link: the chip in CSSEL takes it, and a chip not selected ignores the link
(R142). The reply is don't-care (30_encoding.md R88). -/
def takeCommand (c : WireCmd) (s : State) : Out :=
  match s.cssel with
  | none => .next s
  | some k => match s.xfer k c.toByte with
    | .error r => .refused r
    | .ok (_, t) => .next t

/-- reset, 0xC0 (R161). -/
def execWireReset (s : State) : Out := takeCommand .reset s

/-- read, 0x03 (R162). -/
def execWireRead (s : State) : Out := takeCommand .read s

/-- write, 0x02 (R164). -/
def execWireWrite (s : State) : Out := takeCommand .write s

/-- bit-modify, 0x05 (R163). -/
def execWireBitmod (s : State) : Out := takeCommand .bitmod s

/-- read-status, 0xA0 (R165). -/
def execWireReadStatus (s : State) : Out := takeCommand .readStatus s

/-- request-to-send, 0x80 | ttt (R166). -/
def execWireRts (ttt : BitVec 3) (s : State) : Out := takeCommand (.rts ttt) s

/-- read-rx-buffer, 0x90 | nm << 1 (R168). -/
def execWireReadRx (nm : BitVec 2) (s : State) : Out := takeCommand (.readRx nm) s

/-- load-tx-buffer, 0x40 | abc (R168); with abc = 6 or 7 the byte is a reserved wire command. -/
def execWireLoadTx (abc : BitVec 3) (s : State) : Out := takeCommand (.loadTx abc) s

/-! ## The lines of one byte exchange (R144): mode 0, most significant bit first -/

/-- The link's lines at one moment. -/
structure Lines where
  sck : Bool
  mosi : Bool
  miso : Bool
  deriving DecidableEq, Repr

/-- The lines between exchanges: SCK = 0, MOSI = 0 (10_state.md R32); MISO is as the chip leaves it. -/
def Lines.idle (miso : Bool) : Lines := ⟨false, false, miso⟩

/-- The bits b[7], ..., b[0] in the order they stand on a line. -/
def bitsOut (b : Byte) : List Bool := (List.range 8).map fun i => b.getLsbD (7 - i)

/-- One bit of an exchange: the block drives MOSI with SCK low, raises SCK (the edge at which it samples
MISO) and lowers it. That MISO holds its level over the whole bit is a DESIGN CHOICE (log entry 19): R144
gives it at the sampling edge only. -/
def bitCell (mosi miso : Bool) : List Lines :=
  [⟨false, mosi, miso⟩, ⟨true, mosi, miso⟩, ⟨false, mosi, miso⟩]

/-- The waveform of one exchange in which the block sends o and the chip answers `reply`. The bit-bang link
makes the same one (R144), so it does not depend on LINK_IMPL. -/
def waveform (_ : LinkImpl) (o reply : Byte) : List Lines :=
  ((bitsOut o).zip (bitsOut reply)).flatMap fun b => bitCell b.1 b.2

/-- The lines at the rising edges of SCK, starting from the level `prev` of SCK. -/
def risingEdges : Bool → List Lines → List Lines
  | _, [] => []
  | prev, l :: ls => (if !prev && l.sck then [l] else []) ++ risingEdges l.sck ls

/-- m_0, ..., m_7: MISO at the rising edges of an exchange, which starts with SCK low (R144). -/
def misoSamples (w : List Lines) : List Bool := (risingEdges false w).map Lines.miso

/-- What the chip sees at those edges: MOSI. -/
def mosiSamples (w : List Lines) : List Bool := (risingEdges false w).map Lines.mosi

/-- The byte m_0 : m_1 : ... : m_7, m_0 most significant. -/
def byteOfSamples (m : List Bool) : Byte := m.foldl (fun r b => (r <<< 1) ||| (BitVec.ofBool b).setWidth 8) 0

/-- The byte the block receives over an exchange (R144). -/
def receivedByte (w : List Lines) : Byte := byteOfSamples (misoSamples w)

end Sys2Proof.Machine
end

