-- ==== Sys2Proof/Machine/Dispatch.lean ====
section
/-! DEFINITION. The meaning of every instruction: one arm for each constructor. -/

namespace Sys2Proof.Machine

open Sys2Proof

def exec (i : Instr) (s : State) : Host.Outcome State Fault Refusal :=
  match i with
  | .tstart c => Sys2Proof.Machine.execTstart c s
  | .tstop c => Sys2Proof.Machine.execTstop c s
  | .trestart c => Sys2Proof.Machine.execTrestart c s
  | .tsetcnt c v => Sys2Proof.Machine.execTsetcnt c v s
  | .tsetcmp c v => Sys2Proof.Machine.execTsetcmp c v s
  | .trdcnt c => Sys2Proof.Machine.execTrdcnt c s
  | .trdstat c => Sys2Proof.Machine.execTrdstat c s
  | .tsetie c ie => Sys2Proof.Machine.execTsetie c ie s
  | .tack c => Sys2Proof.Machine.execTack c s
  | .rsel k => Sys2Proof.Machine.execRsel k s
  | .rdesel k => Sys2Proof.Machine.execRdesel k s
  | .rxfer k out => Sys2Proof.Machine.execRxfer k out s
  | .rreset k => Sys2Proof.Machine.execRreset k s
  | .rread k addr => Sys2Proof.Machine.execRread k addr s
  | .rwrite k addr value => Sys2Proof.Machine.execRwrite k addr value s
  | .rbitmod k addr mask value => Sys2Proof.Machine.execRbitmod k addr mask value s
  | .rwrseq k start n => Sys2Proof.Machine.execRwrseq k start n s
  | .rrdstat k => Sys2Proof.Machine.execRrdstat k s
  | .rrts k txmask => Sys2Proof.Machine.execRrts k txmask s
  | .rrdrx k nm n => Sys2Proof.Machine.execRrdrx k nm n s
  | .rldtx k abc n => Sys2Proof.Machine.execRldtx k abc n s
  | .fbwr idx byte => Sys2Proof.Machine.execFbwr idx byte s
  | .fbrd idx => Sys2Proof.Machine.execFbrd idx s
  | .prdst => Sys2Proof.Machine.execPrdst s
  | .pwrst value => Sys2Proof.Machine.execPwrst value s
  | .parm => Sys2Proof.Machine.execParm s
  | .pdisarm => Sys2Proof.Machine.execPdisarm s
  | .psleep => Sys2Proof.Machine.execPsleep s
  | .pseterr => Sys2Proof.Machine.execPseterr s
  | .psens slot byte => Sys2Proof.Machine.execPsens slot byte s
  | .pind => Sys2Proof.Machine.execPind s
  | .wireReset => Sys2Proof.Machine.execWireReset s
  | .wireRead => Sys2Proof.Machine.execWireRead s
  | .wireWrite => Sys2Proof.Machine.execWireWrite s
  | .wireBitmod => Sys2Proof.Machine.execWireBitmod s
  | .wireReadStatus => Sys2Proof.Machine.execWireReadStatus s
  | .wireRts ttt => Sys2Proof.Machine.execWireRts ttt s
  | .wireReadRx nm => Sys2Proof.Machine.execWireReadRx nm s
  | .wireLoadTx abc => Sys2Proof.Machine.execWireLoadTx abc s

end Sys2Proof.Machine
end

