-- ==== Sys2Proof/Machine/Driver.lean ====
section
/-! DEFINITION. The driver procedures (42_driver.md R192 to R207): the operations each issues, and the
sequencer's own decision after each (R209). -/

namespace Sys2Proof.Machine

open Sys2Proof

/-! ## Frames (R197, R198) -/

/-- A CanFrame that can be constructed (R197): length at most 8 and as many data bytes. -/
def CanFrame.valid (f : CanFrame) : Bool := f.len ≤ 8 && f.data.length == f.len

/-- TxBytes(f) (R197). -/
def txBytes (f : CanFrame) : List Byte :=
  [f.id.extractLsb' 3 8, (f.id.extractLsb' 0 3).setWidth 8 <<< 5, 0x00, 0x00,
   ((BitVec.ofBool f.rtr).setWidth 8 <<< 6) ||| BitVec.ofNat 8 f.len] ++ f.data

/-- RxFrame(b_0 .. b_12) (R198): the extended-identifier bit is ignored, a length code above 8 is 8. -/
def rxFrame (b : List Byte) : CanFrame :=
  let b0 := b.getD 0 0
  let b1 := b.getD 1 0
  let len := min (b.getD 4 0 &&& 0x0F).toNat 8
  { id := (b0.setWidth 11 <<< 3) ||| (b1 >>> 5).setWidth 11
    rtr := b1.getLsbD 4
    len := len
    data := (b.drop 5).take len }

/-! ## The procedures -/

inductive Proc
  | setMode (k : ChipIx) (m : Mode)
  | init (k : ChipIx) (b : Fin 2) (m : Mode)
  | clearFilters (k : ChipIx)
  | setFilters (k : ChipIx) (filters : List CanFilter)
  | sendMessage (k : ChipIx) (f : CanFrame)
  | hasFreeTxBuffer (k : ChipIx)
  | abortAllTransmissions (k : ChipIx)
  | hasMessage (k : ChipIx)
  | receiveMessage (k : ChipIx)
  | sleep (k : ChipIx) (wm : WakeMode)
  | wakeup (k : ChipIx) (wm : WakeMode)
  | getBusErrors (k : ChipIx)
  deriving DecidableEq, Repr

/-- What a procedure returns. -/
inductive ProcResult
  | unit
  /-- SUCCESS is true (R194). -/
  | init (success : Bool)
  /-- The control-register address of the buffer used, or "no free buffer" (R199). -/
  | bufferAddress (a : Option Byte)
  | bool (b : Bool)
  /-- The frame and the match indicator, or NONE (R203). -/
  | received (x : Option (CanFrame × Nat))
  | errorKind (e : ErrorKind)
  deriving DecidableEq, Repr

/-- RX_PENDING_MASK and TXREQ_STATUS[j], masks on the status byte (R191). -/
def rxPendingMask : Half := 0x01
def txreqStatus (j : Fin 3) : Half := if j = 0 then 0x04 else if j = 1 then 0x10 else 0x40

/-- The operations of setMode (R192). -/
def setModeOps (cfg : Config) (k : ChipIx) (m : Mode) : List Instr :=
  [.rbitmod k cfg.map.canctrl cfg.map.reqopMask m.bits]

/-- The operations of clearFilters (R195). -/
def clearFiltersOps (cfg : Config) (k : ChipIx) : List Instr :=
  (List.range 12).map (fun i => .fbwr (BitVec.ofNat 8 i) 0x00) ++
  [.rwrseq k cfg.map.rxm0sidh 8, .rwrseq k cfg.map.rxf0sidh 12, .rwrseq k cfg.map.rxf3sidh 12]

/-- The operations of init before its mode polls (R194): reset, bit timing, filters, mode. -/
def initSetupOps (cfg : Config) (k : ChipIx) (b : Fin 2) (m : Mode) : List Instr :=
  [.rreset k, .rwrite k cfg.map.cnf1 cfg.bitTiming[b].cnf1, .rwrite k cfg.map.cnf2 cfg.bitTiming[b].cnf2,
   .rwrite k cfg.map.cnf3 cfg.bitTiming[b].cnf3] ++ clearFiltersOps cfg k ++ setModeOps cfg k m

/-- FBWR i, i + 1, ... with the bytes of a list (R199). -/
def fillOps (i : Nat) : List Byte → List Instr
  | [] => []
  | b :: bs => .fbwr (BitVec.ofNat 8 i) b :: fillOps (i + 1) bs

/-- The operations of sendMessage after the buffer j is chosen (R199). -/
def loadOps (k : ChipIx) (f : CanFrame) (j : Fin 3) : List Instr :=
  fillOps 0 (txBytes f) ++
  [.rldtx k (BitVec.ofNat 3 (2 * j.val)) (BitVec.ofNat 8 (5 + f.len)), .rrts k (1 <<< j.val)]

/-- The operations of a procedure, in order; a loop is unrolled, so that the index of an operation is its
position (R209). For sendMessage the buffer index in SCR says which ones follow the status read. -/
def Proc.ops (cfg : Config) (scr : Scratch) : Proc → List Instr
  | .setMode k m => setModeOps cfg k m
  | .init k b m => initSetupOps cfg k b m ++ List.replicate cfg.nPoll (.rread k cfg.map.canstat)
  | .clearFilters k => clearFiltersOps cfg k
  | .setFilters _ _ => []
  | .sendMessage k f => .rrdstat k :: (match scr.j with | none => [] | some j => loadOps k f j)
  | .hasFreeTxBuffer k => [.rrdstat k]
  | .abortAllTransmissions k => [.rbitmod k cfg.map.canctrl cfg.map.abatBit cfg.map.abatBit]
  | .hasMessage k => [.rrdstat k]
  | .receiveMessage k =>
    [.rrdstat k, .rrdrx k 0 13, .rread k cfg.map.rxb0ctrl, .rbitmod k cfg.map.canintf cfg.map.rx0ifBit 0x00]
  | .sleep k .busActivity =>
    [.rbitmod k cfg.map.caninte cfg.map.wakieBit cfg.map.wakieBit,
     .rbitmod k cfg.map.canintf cfg.map.wakifBit 0x00] ++ setModeOps cfg k .sleep
  | .sleep k .manual =>
    .rbitmod k cfg.map.caninte cfg.map.wakieBit 0x00 :: setModeOps cfg k .sleep
  | .wakeup k .manual =>
    .rbitmod k cfg.map.canintf cfg.map.wakifBit cfg.map.wakifBit :: setModeOps cfg k .normal
  | .wakeup _ .busActivity => []
  | .getBusErrors k => if cfg.fullBusErrors then [.rread k cfg.map.eflg] else []

/-- The result of a procedure that issues no operation (R196, R205, R207). -/
def Proc.immediate (cfg : Config) : Proc → Option ProcResult
  | .setFilters _ _ => some .unit
  | .wakeup _ .busActivity => some .unit
  | .getBusErrors _ => if cfg.fullBusErrors then none else some (.errorKind .none)
  | .setMode _ _ | .init _ _ _ | .clearFilters _ | .sendMessage _ _ | .hasFreeTxBuffer _
  | .abortAllTransmissions _ | .hasMessage _ | .receiveMessage _ | .sleep _ _ | .wakeup _ .manual => none

/-- What a procedure does after one of its operations. -/
inductive After
  | goto (i : Nat) (scr : Scratch)
  | ret (r : ProcResult) (scr : Scratch)
  /-- The sequencer read ⊥ (R209). -/
  | unwritten
  deriving DecidableEq, Repr

/-- On to the next operation, or the end of a procedure that decides nothing. -/
def straightAfter (length i : Nat) (scr : Scratch) : After :=
  if i + 1 < length then .goto (i + 1) scr else .ret .unit scr

/-- A decision that reads RES (R209). -/
def onRes (s : State) (f : Half → After) : After :=
  match s.res with
  | none => .unwritten
  | some r => f r

/-- The least-numbered buffer whose request bit is clear in the status byte (R199). -/
def freeBuffer (status : Half) : Option (Fin 3) :=
  if status &&& txreqStatus 0 = 0 then some 0
  else if status &&& txreqStatus 1 = 0 then some 1
  else if status &&& txreqStatus 2 = 0 then some 2
  else none

/-- ack(m) of R192, on the value of RES. -/
def acknowledged (cfg : Config) (m : Mode) (r : Half) : Bool :=
  r &&& zext16 cfg.map.opmodMask == zext16 m.bits

/-- After the j-th poll of init (R194), j from 0. -/
def afterPoll (cfg : Config) (m : Mode) (i j : Nat) (scr : Scratch) (r : Half) : After :=
  if acknowledged cfg m r then .ret (.init true) { scr with initResult := some true }
  else if j + 1 < cfg.nPoll then .goto (i + 1) scr
  else .ret (.init false) { scr with initResult := some false }

/-- The received frame from FBUF[0..12] (R203). -/
def afterReceive (s : State) : After :=
  match fbufBytes s.fbuf 0 13, s.scr.matchInd with
  | some bs, some m => .ret (.received (some (rxFrame bs, m))) { s.scr with frame := some (rxFrame bs) }
  | _, _ => .unwritten

/-- What a procedure does after its i-th operation, on the state that operation left. -/
def Proc.after (i : Nat) (s : State) (p : Proc) : After :=
  match p with
  | .init k b m =>
    let setup := (initSetupOps s.cfg k b m).length
    if i + 1 < setup then .goto (i + 1) s.scr
    else if i + 1 = setup then
      (if s.cfg.nPoll = 0 then .ret (.init false) { s.scr with initResult := some false } else .goto (i + 1) s.scr)
    else onRes s (afterPoll s.cfg m i (i - setup) s.scr)
  | .sendMessage k f =>
    if i = 0 then
      onRes s fun r => match freeBuffer r with
        | none => .ret (.bufferAddress none) s.scr
        | some j => .goto 1 { s.scr with status := some (r.setWidth 8), j := some j }
    else if i + 1 < (Proc.ops s.cfg s.scr (.sendMessage k f)).length then .goto (i + 1) s.scr
    else .ret (.bufferAddress (s.scr.j.map (txbctrl s.cfg))) s.scr
  | .hasFreeTxBuffer _ => onRes s fun r => .ret (.bool (r &&& 0x54 != 0x54)) s.scr
  | .hasMessage _ => onRes s fun r => .ret (.bool (r &&& rxPendingMask != 0)) s.scr
  | .receiveMessage _ =>
    if i = 0 then
      onRes s fun r => if r &&& rxPendingMask != 0 then .goto 1 s.scr else .ret (.received none) s.scr
    else if i = 1 then .goto 2 s.scr
    else if i = 2 then
      onRes s fun r => .goto 3 { s.scr with
        status := some (r.setWidth 8)
        matchInd := some ((r.setWidth 8 &&& s.cfg.map.filhitMask).toNat + 1) }
    else afterReceive s
  | .getBusErrors _ => onRes s fun r => .ret (.errorKind (classifyErrors s.cfg.map (r.setWidth 8))) s.scr
  | .setMode k m => straightAfter (Proc.ops s.cfg s.scr (.setMode k m)).length i s.scr
  | .clearFilters k => straightAfter (Proc.ops s.cfg s.scr (.clearFilters k)).length i s.scr
  | .setFilters _ _ => .ret .unit s.scr
  | .abortAllTransmissions k => straightAfter (Proc.ops s.cfg s.scr (.abortAllTransmissions k)).length i s.scr
  | .sleep k wm => straightAfter (Proc.ops s.cfg s.scr (.sleep k wm)).length i s.scr
  | .wakeup k wm => straightAfter (Proc.ops s.cfg s.scr (.wakeup k wm)).length i s.scr

/-- A procedure's argument can be constructed (R197). -/
def Proc.valid : Proc → Bool
  | .sendMessage _ f => f.valid
  | .setMode _ _ | .init _ _ _ | .clearFilters _ | .setFilters _ _ | .hasFreeTxBuffer _
  | .abortAllTransmissions _ | .hasMessage _ | .receiveMessage _ | .sleep _ _ | .wakeup _ _
  | .getBusErrors _ => true

end Sys2Proof.Machine
end

