-- ==== Sys2Proof/Machine/Handlers.lean ====
section
/-! DEFINITION. Dispatch and the handlers (43_power_fsm.md R231 to R241): the operation at each
position, and the position after it. -/

namespace Sys2Proof.Machine

open Sys2Proof

/-- On to the step i of handler h. -/
def State.goto (s : State) (h : Handler) (i : Nat) (scr : Scratch) : State :=
  { s with pos := ⟨h, i⟩, scr := scr }

/-- The dispatch step (R231, R232). -/
def State.dispatch (s : State) : State :=
  { s with pos := ⟨if s.errl then .error else handlerOf s.pstate, 0⟩ }

/-- The sensor slot of data byte i (R241). -/
def sensorIdx (i : Nat) : Nat := (i &&& 1) + ((i &&& 4) >>> 1)

/-- The frame updates the sensors (R234): PDC_CAN_ID, a data frame of length 8. -/
def isSensorFrame (cfg : Config) (f : CanFrame) : Bool := f.id == cfg.pdcCanId && !f.rtr && f.len == 8

/-- The PSENS operations for the frame in SCR (R234, R241), in the order i = 2, 3, 6, 7. -/
def sensorOps (cfg : Config) (scr : Scratch) : List Instr :=
  match scr.frame with
  | some f =>
    if isSensorFrame cfg f then
      [2, 3, 6, 7].map fun i => .psens (BitVec.ofNat 2 (sensorIdx i)) (f.data.getD i 0)
    else []
  | none => []

/-- The init procedure as the Init handler calls it (R233). -/
def initProc (cfg : Config) : Proc := .init cfg.pdcChip cfg.bitrateSel .normal

/-- The Init handler's operations before it calls init (R233). -/
def initPrologue (cfg : Config) : List Instr :=
  [.tsetcmp 0 cfg.cmpInact, .tsetcmp 1 cfg.cmpTick, .tsetie 0 1, .tsetie 1 (BitVec.ofBool cfg.tickIe),
   .pdisarm]

/-- After init: on SUCCESS the first three, on FAILURE the last (R233). -/
def initEpilogue : List Instr :=
  [.trestart 0, .trestart 1, .pwrst PowerState.running.code, .pwrst PowerState.error.code]

/-- The operations of a handler, procedures inlined (42_driver.md R209); the index is the position. -/
def Handler.ops (cfg : Config) (scr : Scratch) : Handler → List Instr
  | .dispatch => []
  | .init => initPrologue cfg ++ (initProc cfg).ops cfg scr ++ initEpilogue
  | .running =>
    (Proc.hasMessage cfg.pdcChip).ops cfg scr ++ (Proc.receiveMessage cfg.pdcChip).ops cfg scr
      ++ .trestart 0 :: sensorOps cfg scr
  | .sleepDet =>
    [.tstop 0, .tstop 1] ++ (Proc.sleep cfg.pdcChip cfg.wakeMode).ops cfg scr
      ++ [.pwrst PowerState.sleeping.code]
  | .sleeping => [.parm, .psleep]
  | .wakeup =>
    (Proc.wakeup cfg.pdcChip cfg.wakeMode).ops cfg scr
      ++ [.trestart 0, .trestart 1, .pwrst PowerState.running.code]
  | .unrec => [.pwrst PowerState.error.code]
  | .error => .pseterr :: List.replicate cfg.nBlink .pind

/-- The operation SEQ issues at its position. -/
def State.opAt (s : State) : Option Instr := (s.pos.handler.ops s.cfg s.scr)[s.pos.idx]?

/-- On to the handler's next operation, or its end. -/
def straightOn (h : Handler) (i : Nat) (t : State) : State :=
  if i + 1 < (h.ops t.cfg t.scr).length then t.goto h (i + 1) t.scr else t.finish

/-- The Init handler after its i-th operation (R233). -/
def advanceInit (i : Nat) (t : State) : State :=
  let len := ((initProc t.cfg).ops t.cfg t.scr).length
  if i < 4 then t.goto .init (i + 1) t.scr
  else if i = 4 then t.goto .init 5 t.scr
  else if i < 5 + len then
    match (initProc t.cfg).after (i - 5) t with
    | .goto j scr => t.goto .init (5 + j) scr
    | .ret (.init true) scr => t.goto .init (5 + len) scr
    | .ret _ scr => t.goto .init (5 + len + 3) scr
    | .unwritten => t.raise .unwritten
  else if i < 5 + len + 2 then t.goto .init (i + 1) t.scr
  else t.finish

/-- The Running handler after its i-th operation (R234). -/
def advanceRunning (i : Nat) (t : State) : State :=
  if i = 0 then
    match (Proc.hasMessage t.cfg.pdcChip).after 0 t with
    | .ret (.bool true) scr => t.goto .running 1 scr
    | .unwritten => t.raise .unwritten
    | _ => t.finish
  else if i < 5 then
    match (Proc.receiveMessage t.cfg.pdcChip).after (i - 1) t with
    | .goto j scr => t.goto .running (1 + j) scr
    | .ret (.received (some _)) scr => t.goto .running 5 scr
    | .unwritten => t.raise .unwritten
    | _ => t.finish
  else straightOn .running i t

/-- The position after the i-th operation of a handler, on the state the operation left. -/
def advance (h : Handler) (i : Nat) (t : State) : State :=
  match h with
  | .dispatch => t.finish
  | .init => advanceInit i t
  | .running => advanceRunning i t
  | .sleepDet => straightOn .sleepDet i t
  | .sleeping => t.goto .sleeping (i + 1) t.scr
  | .wakeup => straightOn .wakeup i t
  | .unrec => t.goto .error 0 t.scr
  | .error => straightOn .error i t

end Sys2Proof.Machine
end

