-- ==== Sys2Proof/Machine/Sequencer.lean ====
section
/-! DEFINITION. The sequencer's step (43_power_fsm.md R230, R231, R250, R258), the priority of interrupts
over it (60_exceptions.md R276, R277), and the step of whichever agent comes next (20_memory.md R70). -/

namespace Sys2Proof.Machine

open Sys2Proof

/-- An operation word of the host port: decoded and performed, or ILLEGAL_OP (30_encoding.md R81). -/
def performWord (w : OpWord) (s : State) : Out :=
  match decodeWord w with
  | .ok i => exec i s
  | .error _ => raiseFault .illegalOp s

/-- A step of the host port (R258): the first word of HOSTQ is removed and performed. With HOSTQ empty
the run has ended and SEQ does nothing (log entry 9). -/
def hostStep (s : State) : Out :=
  match s.hostq with
  | [] => .next s
  | w :: rest => performWord w { s with hostq := rest }

/-- An operation of a handler, and the control that follows it in the same step (log entry 10). A fault
leaves the position where it is. -/
def handlerStep (i : Instr) (s : State) : Out :=
  match exec i s with
  | .next t => .next (if t.fault = 0 then advance s.pos.handler s.pos.idx t else t)
  | .fault r => .fault r
  | .refused r => .refused r

/-- A step of the fixed handlers (R230, R231). -/
def normalStep (s : State) : Out :=
  if s.pos = ⟨.dispatch, 0⟩ then .next s.dispatch
  else match s.opAt with
    | some i => handlerStep i s
    | none => .fault .noStepAtPosition

/-- A step of SEQ: none while FAULT ≠ 0x00 (R272), only the resume guard while LPM = 1 (R250). -/
def seqStep (s : State) : Out :=
  if s.fault ≠ 0 then .next s
  else if s.lpm then (if s.wkpend then .next s.resumeGuard else .next s)
  else if s.hostmode then hostStep s
  else normalStep s

/-- SEQ's turn: a deliverable interrupt is taken first, BRIDGE before WAKESYNC (R276, R277). `rest` is the
schedule once SEQ has stepped. -/
def seqTurn (rest : List Turn) (s : State) : Out :=
  if s.inactDeliverable then .next s.bridge
  else if s.wakeDeliverable then .next s.wakesync
  else seqStep { s with agenda := rest }

/-- The step of an agent that is not SEQ, on the state with its turn taken off the schedule. A turn that
is not enabled has no effect (log entry 12); WAKESYNC's is not enabled while BRIDGE, which goes first, is to
come (60_exceptions.md R277). -/
def envStep (s : State) : Turn → State
  | .seq => s
  | .bridge => if s.inactDeliverable then s.bridge else s
  | .wakesync => if s.wakeDeliverable && !s.inactDeliverable then s.wakesync else s
  | .tick c => s.tick c
  | .pin level => s.pin level
  | .chip k sets => s.chipStep k sets
  | .reset powerOn hostmode hostq => s.resetBlock powerOn hostmode hostq

/-- One step of the machine: of the agent whose turn it is (R70). -/
def nextStep (s : State) : Out :=
  match s.agenda with
  | [] => seqTurn [] s
  | .seq :: rest => seqTurn rest s
  | turn :: rest => .next (envStep { s with agenda := rest } turn)

/-- The state with an operation word as the next one of the host port. -/
def State.loadWord (s : State) (w : OpWord) : State :=
  { s with hostmode := true, hostq := w :: s.hostq, agenda := .seq :: s.agenda }

/-- The state with a wire command as the next byte on the link: a raw bracket on chip 0 is open with no
byte exchanged, and the host port's next word is `RXFER 0, b` (log entry 7). -/
def State.loadWire (s : State) (b : Byte) : State :=
  { s.select 0 with
    rawopen := true
    hostmode := true
    hostq := (opFields 0x22 0 (c := b)).toWord :: s.hostq
    agenda := .seq :: s.agenda }

/-- The state with an instruction where the machine takes its next one. -/
def State.loadCode (s : State) : Code → State
  | .word w => s.loadWord w
  | .wire b => s.loadWire b

/-! ## Driver procedures run from the host (43_power_fsm.md R258) -/

/-- SEQ takes no operation step: a fault halts it (60_exceptions.md R272), or the block is in low-power mode
(R285). -/
def State.halted (s : State) : Bool := s.fault != 0 || s.lpm

/-- The end of a procedure run: none as a result where SEQ is halted or reset abandoned it. -/
structure ProcEnd where
  state : State
  result : Option ProcResult
  /-- The operations it issued, in order. -/
  issued : List Instr
  deriving DecidableEq, Repr

/-- The deliverable interrupts taken, BRIDGE first (60_exceptions.md R276, R277). -/
def deliver (s : State) : State :=
  let t := if s.inactDeliverable then s.bridge else s
  if t.wakeDeliverable then t.wakesync else t

/-- The steps of other agents that the schedule puts before SEQ's next operation (42_driver.md R209), and
whether reset is one of them. -/
def othersFirst : List Turn → State → Bool × State
  | [], s => (false, deliver { s with agenda := [] })
  | .seq :: rest, s => (false, deliver { s with agenda := rest })
  | .reset powerOn hostmode hostq :: rest, s =>
    (true, envStep { s with agenda := rest } (.reset powerOn hostmode hostq))
  | turn :: rest, s => othersFirst rest (envStep s turn)

/-- A procedure from its i-th operation on. -/
def Proc.runFrom (p : Proc) : Nat → Nat → List Instr → State → Host.Outcome ProcEnd Fault Refusal
  | 0, _, _, _ => .fault .noStepAtPosition
  | fuel + 1, i, issued, s₀ =>
    match othersFirst s₀.agenda s₀ with
    | (true, s) => .next ⟨s, none, issued⟩
    | (false, s) =>
      if s.halted then .next ⟨s, none, issued⟩
      else match (p.ops s.cfg s.scr)[i]? with
        | none => .fault .noStepAtPosition
        | some op => match exec op s with
          | .fault r => .fault r
          | .refused r => .refused r
          | .next t =>
            if t.halted then .next ⟨t, none, issued ++ [op]⟩
            else match p.after i t with
              | .goto j scr => p.runFrom fuel j (issued ++ [op]) { t with scr := scr }
              | .ret r _ => .next ⟨{ t with scr := Scratch.empty }, some r, issued ++ [op]⟩
              | .unwritten => .next ⟨t.raise .unwritten, none, issued ++ [op]⟩

/-- A procedure as one run (42_driver.md; log entry 15). From a state in which SEQ is halted it issues nothing.
Every loop is bounded, so the fuel suffices. -/
def Proc.run (p : Proc) (s : State) : Host.Outcome ProcEnd Fault Refusal :=
  if !p.valid then .refused .invalidCanFrame
  else if s.halted then .next ⟨s, none, []⟩
  else match p.immediate s.cfg with
    | some r => .next ⟨s, some r, []⟩
    | none => p.runFrom (s.cfg.nPoll + 32) 0 [] s

end Sys2Proof.Machine
end

