-- ==== Sys2Proof/Machine/Step.lean ====
section
/-! DEFINITION. One step of the machine, and where a next instruction is placed. -/

namespace Sys2Proof.Machine

open Sys2Proof

/-- One step of the agent whose turn it is. -/
def step (s : State) : Host.Outcome State Fault Refusal := nextStep s

/-- The state with the instruction of `nbits` bits w as the next one performed (log entry 6). -/
def State.withFetchWord (s : State) (nbits w : Nat) : State :=
  match codeOf nbits w with
  | some c => s.loadCode c
  | none => s

end Sys2Proof.Machine
end

