-- ==== Sys2Proof/Safety.lean ====
section
/-! DEFINITION. What a safe run is, and the invariants of the machine. -/

namespace Sys2Proof.Machine

open Sys2Proof

/-- No fault has been raised: a faulted state is never the end of a run, and every claim takes
FAULT = 0x00 as a premise (60_exceptions.md R272). -/
def State.safe (s : State) : Prop := s.fault = 0

/-- A safe run of n steps from s to t: no step stops or is refused, and no state of it has a fault. -/
inductive SafeRun : Nat → State → State → Prop
  | refl (s : State) (h : s.safe) : SafeRun 0 s s
  | step {n : Nat} {s t u : State} (h : s.safe) (hs : step s = .next t) (hr : SafeRun n t u) :
      SafeRun (n + 1) s u

/-- t is reached from s by steps of the machine. -/
inductive Reaches : State → State → Prop
  | refl (s : State) : Reaches s s
  | step {s t u : State} (hs : step s = .next t) (hr : Reaches t u) : Reaches s u

/-- The assumption a claim may make about pulses (40_timer.md R111): in an infinite schedule each TICKc
turn occurs infinitely often. No rule of the model builds it in. -/
def FairPulses (turns : Nat → Turn) : Prop := ∀ c n, ∃ m, n ≤ m ∧ turns m = .tick c

/-- The parameters are in the ranges of 00_scope.md R6, the mode codes fit their fields, and the registers
the driver and the chip's commands use are implemented and apart from each other. -/
structure ConfigOk (cfg : Config) : Prop where
  inact : cfg.cmpInact ≠ 0
  tick : cfg.cmpTick ≠ 0
  poll : 1 ≤ cfg.nPoll
  blink : 1 ≤ cfg.nBlink
  opmod : ∀ m : Mode, m.bits &&& cfg.map.opmodMask = m.bits
  reqop : ∀ m : Mode, m.bits &&& cfg.map.reqopMask = m.bits
  apart : cfg.map.canstat ≠ cfg.map.canctrl

/-- The faults an instruction can raise once it is decoded (60_exceptions.md R273, less the ILLEGAL_OP of an
encoding without a row; for RLDTX it is the selector check). -/
def faultCauses : Instr → List FaultCode
  | .rsel _ | .rdesel _ | .rxfer _ _ | .rreset _ | .rread _ _ | .rwrite _ _ _ | .rbitmod _ _ _ _
  | .rrdstat _ | .rrts _ _ => [.busProtocol]
  | .rwrseq _ _ _ => [.busProtocol, .fbufRange, .addrRange, .unwritten]
  | .rldtx _ _ _ => [.illegalOp, .busProtocol, .fbufRange, .addrRange, .unwritten]
  | .rrdrx _ _ _ => [.busProtocol, .fbufRange, .addrRange]
  | .fbwr _ _ => [.fbufRange]
  | .fbrd _ => [.fbufRange, .unwritten]
  | .tstart _ | .tstop _ | .trestart _ | .tsetcnt _ _ | .tsetcmp _ _ | .trdcnt _ | .trdstat _
  | .tsetie _ _ | .tack _ => []
  | .prdst | .pwrst _ | .parm | .pdisarm | .psleep | .pseterr | .psens _ _ | .pind => []
  | .wireReset | .wireRead | .wireWrite | .wireBitmod | .wireReadStatus | .wireRts _ | .wireReadRx _
  | .wireLoadTx _ => []

/-- Every address a, ..., a + m - 1 lies in the space and is implemented: what a frame that reads or writes
them needs (41_regbus.md R167 b). -/
def RunOk (cfg : Config) (k : ChipIx) (a m : Nat) : Prop :=
  ∀ i < m, a + i ≤ 0xFF ∧ cfg.implemented k (BitVec.ofNat 8 (a + i)) = true

/-- RAWOPEN = 1 exactly when CSSEL ≠ NONE between operations (10_state.md R31). -/
def BracketOk (s : State) : Prop := s.rawopen = s.cssel.isSome

/-- CFRAME[k] is empty while chip k is deselected (R44). -/
def FramesOk (s : State) : Prop := ∀ k, s.cssel ≠ some k → s.cframe k = []

/-- FAULT holds NONE or one of the five codes of 60_exceptions.md R271. -/
def FaultOk (s : State) : Prop := s.fault = 0 ∨ ∃ c : FaultCode, s.fault = c.code

/-- In normal mode SEQ's position has a step: dispatch, an operation of its handler, or the low-power wait
of the Sleeping handler, which is exactly where LPM = 1 (10_state.md R20, R38; 43_power_fsm.md R236). In
host mode it stays at (DISPATCH, 0) (R258). -/
def PositionOk (s : State) : Prop :=
  if s.hostmode then s.pos = ⟨.dispatch, 0⟩
  else if s.lpm then s.pos = ⟨.sleeping, 2⟩
  else s.pos = ⟨.dispatch, 0⟩ ∨ s.opAt.isSome

/-- SCR holds nothing between handlers (10_state.md R48). -/
def ScratchOk (s : State) : Prop := s.pos.handler = .dispatch → s.scr = Scratch.empty

/-- A raw frame that has bytes began with a wire command: any other first byte is refused (41_regbus.md
R167 a). -/
def CommandOk (s : State) : Prop := ∀ k b bs, s.cframe k = b :: bs → (WireCmd.ofByte b).isSome

/-- The invariant of the machine between steps. -/
structure Inv (s : State) : Prop where
  bracket : BracketOk s
  frames : FramesOk s
  command : CommandOk s
  fault : FaultOk s
  position : PositionOk s
  scratch : ScratchOk s

/-- The next step is SEQ's own: the schedule gives it the turn and no interrupt goes first. -/
def State.seqFree (s : State) : Bool :=
  (s.agenda.head?.getD .seq == .seq) && !s.inactDeliverable && !s.wakeDeliverable

/-- The next step is BRIDGE's: the event is deliverable, and the turn is BRIDGE's own or SEQ's, before which
it goes (60_exceptions.md R276, R277). -/
def State.bridgeNext (s : State) : Bool :=
  s.inactDeliverable && (s.agenda.head?.getD .seq == .seq || s.agenda.head? == some .bridge)

/-- The next step is WAKESYNC's: the wake is deliverable with no inactivity event to go first, and the turn is
WAKESYNC's own or SEQ's (R276, R277). -/
def State.wakesyncNext (s : State) : Bool :=
  s.wakeDeliverable && !s.inactDeliverable
    && (s.agenda.head?.getD .seq == .seq || s.agenda.head? == some .wakesync)

/-- The state once SEQ's turn is taken off the schedule. -/
def State.turnTaken (s : State) : State := { s with agenda := s.agenda.tail }

/-- SEQ can perform an operation in the next step: its turn, no fault, not in the low-power wait. -/
def State.seqReady (s : State) : Bool := s.seqFree && s.fault == 0 && !s.lpm

/-- The operation SEQ issues in the next step, from the host port or from its handler. -/
def State.issues (s : State) : Option Instr :=
  if s.seqReady then
    if s.hostmode then
      match s.hostq with
      | [] => none
      | w :: _ => (decodeWord w).toOption
    else if s.pos = ⟨.dispatch, 0⟩ then none
    else s.opAt
  else none

/-- The resume guard of the low-power wait is the next step (43_power_fsm.md R250). -/
def State.guardNext (s : State) : Bool := s.seqFree && s.fault == 0 && s.lpm && s.wkpend

/-- The next step is a reset. -/
def State.resetNext (s : State) : Prop := ∃ p m q, s.agenda.head? = some (.reset p m q)

/-- The frame of a framed operation (30_encoding.md R88), none where it is not framed or FBUF holds ⊥. -/
def frameOf (s : State) : Instr → Option (ChipIx × List Byte)
  | .rreset k => some (k, [0xC0])
  | .rread k a => some (k, [0x03, a, 0x00])
  | .rwrite k a v => some (k, [0x02, a, v])
  | .rbitmod k a m v => some (k, [0x05, a, m, v])
  | .rwrseq k a n => (fbufBytes s.fbuf 0 n.toNat).map fun ds => (k, 0x02 :: a :: ds)
  | .rrdstat k => some (k, [0xA0, 0x00])
  | .rrts k t => some (k, [0x80 ||| t.setWidth 8])
  | .rrdrx k nm n => some (k, (0x90 ||| (nm.setWidth 8 <<< 1)) :: List.replicate n.toNat 0x00)
  | .rldtx k abc n => (fbufBytes s.fbuf 0 n.toNat).map fun ds => (k, (0x40 ||| abc.setWidth 8) :: ds)
  | .tstart _ | .tstop _ | .trestart _ | .tsetcnt _ _ | .tsetcmp _ _ | .trdcnt _ | .trdstat _
  | .tsetie _ _ | .tack _ | .rsel _ | .rdesel _ | .rxfer _ _ | .fbwr _ _ | .fbrd _
  | .prdst | .pwrst _ | .parm | .pdisarm | .psleep | .pseterr | .psens _ _ | .pind
  | .wireReset | .wireRead | .wireWrite | .wireBitmod | .wireReadStatus | .wireRts _ | .wireReadRx _
  | .wireLoadTx _ => none

/-- The operation is one of the nine framed ones (41_regbus.md R140). -/
def isFramed : Instr → Bool
  | .rreset _ | .rread _ _ | .rwrite _ _ _ | .rbitmod _ _ _ _ | .rwrseq _ _ _ | .rrdstat _
  | .rrts _ _ | .rrdrx _ _ _ | .rldtx _ _ _ => true
  | .tstart _ | .tstop _ | .trestart _ | .tsetcnt _ _ | .tsetcmp _ _ | .trdcnt _ | .trdstat _
  | .tsetie _ _ | .tack _ | .rsel _ | .rdesel _ | .rxfer _ _ | .fbwr _ _ | .fbrd _
  | .prdst | .pwrst _ | .parm | .pdisarm | .psleep | .pseterr | .psens _ _ | .pind
  | .wireReset | .wireRead | .wireWrite | .wireBitmod | .wireReadStatus | .wireRts _ | .wireReadRx _
  | .wireLoadTx _ => false

/-- Instructions performed one after another, with no other agent's step between. -/
def execAll : List Instr → State → Out
  | [], s => .next s
  | i :: is, s => match exec i s with
    | .next t => execAll is t
    | .fault r => .fault r
    | .refused r => .refused r

/-- The raw form of a frame: a select, the bytes one by one, a deselect (41_regbus.md R159). -/
def rawForm (k : ChipIx) (os : List Byte) : List Instr := .rsel k :: (os.map (.rxfer k) ++ [.rdesel k])

/-- Byte o would be accepted by chip k at this point of its frame: it is no reserved command and touches
only implemented registers (41_regbus.md R167). -/
def ByteAccepted (s : State) (k : ChipIx) (o : Byte) : Prop :=
  match byteRole s.cfg (s.cframe k) o with
  | .readReg a => RunOk s.cfg k a 1
  | .writeReg a => RunOk s.cfg k a 1
  | .modify a _ => s.cfg.implemented k a = true
  | .reserved => False
  | .command _ | .status | .ignored => True

/-- A register whose new value no rule makes Draw(): it is not configuration-only, or the chip is in
configuration mode (41_regbus.md R170). -/
def Writable (s : State) (k : ChipIx) (a : Byte) : Prop :=
  s.cfg.configOnly k a = true → inConfigMode s.cfg (s.chip k).creg = true

/-- t differs from s at most in the chips and in what a framed operation leaves of the bus: no chip is
selected, and the count of draws. -/
def BusOnly (s t : State) : Prop :=
  t = { s with chips := t.chips, cssel := none, drawn := t.drawn }

/-- Chip k has no frame open and the other chip is as before (20_memory.md R74). -/
def OtherChipKept (s t : State) (k : ChipIx) : Prop :=
  t.cframe k = [] ∧ ∀ j, j ≠ k → t.chip j = s.chip j

/-- s with a fault of this code raised: the first fault is kept and nothing else is written
(60_exceptions.md R272). -/
def State.withFault (s : State) (code : Byte) : State :=
  { s with fault := if s.fault = 0 then code else s.fault }

/-- t differs from s at most in timer channel c. -/
def TimerOnly (s t : State) (c : ChanIx) : Prop :=
  t = { s with tmr := t.tmr } ∧ ∀ d, d ≠ c → t.chan d = s.chan d

/-- Chip k's registers after request-to-send with this mask (41_regbus.md R166). -/
def RequestedToSend (s t : State) (k : ChipIx) (mask : BitVec 3) : Prop :=
  ∀ a, ((∃ j : Fin 3, mask.getLsbD j.val = true ∧ a = txbctrl s.cfg j) →
      t.creg k a = s.creg k a ||| s.cfg.map.txreqBit) ∧
    ((∀ j : Fin 3, mask.getLsbD j.val = true → a ≠ txbctrl s.cfg j) → t.creg k a = s.creg k a)

/-- Chip k's mode fields read configuration mode: all that its reset image fixes (41_regbus.md R161). -/
def ResetToConfig (s t : State) (k : ChipIx) : Prop :=
  t.creg k s.cfg.map.canstat &&& s.cfg.map.opmodMask = Mode.config.bits ∧
  t.creg k s.cfg.map.canctrl &&& s.cfg.map.reqopMask = Mode.config.bits

/-- Register a of chip k takes the byte v unless R170 makes it Draw(), and no other register of the chip
changes. -/
def OneStored (s t : State) (k : ChipIx) (a v : Byte) : Prop :=
  (Writable s k a → t.creg k a = v) ∧ ∀ b, b ≠ a → t.creg k b = s.creg k b

/-- Bits of register a of chip k are modified under the mask m (41_regbus.md R163), unless the register is
not modifiable or R170 makes it Draw(), and no other register of the chip changes. -/
def OneModified (s t : State) (k : ChipIx) (a m v : Byte) : Prop :=
  (s.cfg.bitModifiable k a = true → Writable s k a →
    t.creg k a = (s.creg k a &&& ~~~m) ||| (v &&& m)) ∧ ∀ b, b ≠ a → t.creg k b = s.creg k b

/-- Registers a, a + 1, ... of chip k take FBUF[0], ..., FBUF[n - 1] (41_regbus.md R164, R168), but for a
register that R170 makes Draw() (where the run itself writes CANSTAT first, the mode it leaves is not
stated), and no other register of the chip changes. -/
def RunStored (s t : State) (k : ChipIx) (a n : Nat) : Prop :=
  (∀ i < n, ∀ b, fbufRead s.fbuf i = some b →
    (s.cfg.configOnly k (BitVec.ofNat 8 (a + i)) = true → inConfigMode s.cfg (s.chip k).creg = true ∧
      ∀ j < i, BitVec.ofNat 8 (a + j) ≠ s.cfg.map.canstat) →
    t.creg k (BitVec.ofNat 8 (a + i)) = b) ∧
  ∀ x : Byte, (∀ i < n, x.toNat ≠ a + i) → t.creg k x = s.creg k x

/-- FBUF[0], ..., FBUF[n - 1] are written. -/
def BufferFilled (s : State) (n : Nat) : Prop := ∀ i < n, fbufRead s.fbuf i ≠ none

/-- No register of any chip changes. -/
def RegistersKept (s t : State) : Prop := ∀ j a, t.creg j a = s.creg j a

/-- The schedule has no reset in it. -/
def NoReset (turns : List Turn) : Prop := ∀ p m q, Turn.reset p m q ∉ turns

/-- No other agent steps and SEQ can: nothing is scheduled, no interrupt is deliverable, there is no fault
and the block is not in low-power mode. -/
def Undisturbed (s : State) : Prop :=
  s.agenda = [] ∧ s.inactDeliverable = false ∧ s.wakeDeliverable = false ∧ s.fault = 0 ∧ s.lpm = false

/-- Chip k has the default register map and implemented registers of 42_driver.md R190. -/
def DefaultChip (s : State) (k : ChipIx) : Prop :=
  s.cfg.map = ChipMap.standard ∧ s.cfg.chipImpl[k] = AddrSet.implDefault

/-- Chip k has the default registers of 42_driver.md R190: the map, and the implemented, bit-modifiable and
configuration-only registers. -/
def DefaultRegisters (s : State) (k : ChipIx) : Prop :=
  DefaultChip s k ∧ s.cfg.chipBitmod[k] = AddrSet.bitmodDefault ∧
    s.cfg.chipCfgonly[k] = AddrSet.cfgonlyDefault

/-- A bit-modify request: an address, a mask and a value (41_regbus.md R163). -/
abbrev BitChange := Byte × Byte × Byte

/-- The operations that make bit changes of chip k, in order. -/
def bitChangeOps (k : ChipIx) (l : List BitChange) : List Instr := l.map fun c => .rbitmod k c.1 c.2.1 c.2.2

/-- Chip k's registers after bit changes, made one after another: each changes the bits under its mask in its
register alone. -/
def BitsChanged (s t : State) (k : ChipIx) (l : List BitChange) : Prop :=
  ∀ a, t.creg k a = l.foldl (fun v c => if c.1 = a then (v &&& ~~~c.2.1) ||| (c.2.2 &&& c.2.1) else v)
    (s.creg k a)

/-- The 13 bytes of receive buffer 0 from its SIDH register on (42_driver.md R198), with the default map. -/
def receiveBytes (s : State) (k : ChipIx) : List Byte :=
  (List.range 13).map fun i => s.creg k (BitVec.ofNat 8 (0x61 + i))

/-- The chips' own steps, one after another. -/
def State.chipSteps (s : State) : List (ChipIx × List (Byte × Byte)) → State
  | [] => s
  | (k, sets) :: rest => State.chipSteps (s.chipStep k sets) rest

/-- The five fields of an operation word (30_encoding.md R80). -/
def HasFields (code : Code) (opc : BitVec 7) (s : Fin 2) (a b c : Byte) : Prop :=
  ∃ w : OpWord, code = .word w ∧ w.extractLsb' 25 7 = opc ∧ w.extractLsb' 24 1 = BitVec.ofNat 1 s.val ∧
    w.extractLsb' 16 8 = a ∧ w.extractLsb' 8 8 = b ∧ w.extractLsb' 0 8 = c

/-- The chip an instruction addresses: the k of its operands, or for a wire command the selected chip. -/
def addressed (s : State) : Instr → Option ChipIx
  | .rsel k | .rdesel k | .rxfer k _ | .rreset k | .rread k _ | .rwrite k _ _ | .rbitmod k _ _ _
  | .rwrseq k _ _ | .rrdstat k | .rrts k _ | .rrdrx k _ _ | .rldtx k _ _ => some k
  | .wireReset | .wireRead | .wireWrite | .wireBitmod | .wireReadStatus | .wireRts _ | .wireReadRx _
  | .wireLoadTx _ => s.cssel
  | .tstart _ | .tstop _ | .trestart _ | .tsetcnt _ _ | .tsetcmp _ _ | .trdcnt _ | .trdstat _
  | .tsetie _ _ | .tack _ | .fbwr _ _ | .fbrd _
  | .prdst | .pwrst _ | .parm | .pdisarm | .psleep | .pseterr | .psens _ _ | .pind => none

end Sys2Proof.Machine
end

