-- ==== Sys2Proof/Certificates/Slice0/Obligations.lean ====
section
/-! DEFINITION. The statements about the model, each with the rules of spec/ it formalises. -/

open Sys2Proof Sys2Proof.Machine

/-! ## Encoding (30_encoding.md) -/

/-- Words of the spec's own examples decode to the operations written beside them. -/
def Obligations.ExampleWordsDecode : Prop :=
  decodeWord 0x25000000 = .ok (.trestart 1) ∧
  decodeWord 0x2600000F = .ok (.tsetcnt 0 0x000F) ∧
  decodeWord 0x290000FA = .ok (.tsetcmp 1 250) ∧
  decodeWord 0x2E000001 = .ok (.tsetie 0 1) ∧
  decodeWord 0x44000003 = .ok (.rxfer 0 0x03) ∧
  decodeWord 0x4B2A0003 = .ok (.rwrite 1 0x2A 0x03) ∧
  decodeWord 0x4C0FE000 = .ok (.rbitmod 0 0x0F 0xE0 0x00) ∧
  decodeWord 0x4E200004 = .ok (.rwrseq 0 0x20 4) ∧
  decodeWord 0x52000001 = .ok (.rrts 0 1) ∧
  decodeWord 0x5400000D = .ok (.rrdrx 0 0 13) ∧
  decodeWord 0x56020005 = .ok (.rldtx 0 2 5) ∧
  decodeWord 0x580300AB = .ok (.fbwr 3 0xAB) ∧
  decodeWord 0x62000001 = .ok (.pwrst 0x01) ∧
  decodeWord 0x6C02005A = .ok (.psens 2 0x5A) ∧
  decodeWire 0xC0 = .ok .wireReset ∧ decodeWire 0x82 = .ok (.wireRts 2) ∧
  decodeWire 0x96 = .ok (.wireReadRx 3) ∧ decodeWire 0x42 = .ok (.wireLoadTx 2) ∧
  decodeWire 0x46 = .error .reservedWireCommand

/-- Every operation word carries its operation code in bits 31:25 and each operand in the field R82 gives
its format, every other field being zero; every wire command is the byte of R87. -/
def Obligations.OperandsStandInTheirFields : Prop :=
  ∀ (c k : Fin 2) (v : Half) (ie : BitVec 1) (x y z : Byte) (nm slot : BitVec 2) (abc t : BitVec 3),
    HasFields (encode (.tstart c)) 0x10 c 0 0 0 ∧
    HasFields (encode (.tstop c)) 0x11 c 0 0 0 ∧
    HasFields (encode (.trestart c)) 0x12 c 0 0 0 ∧
    HasFields (encode (.tsetcnt c v)) 0x13 c 0 (v.extractLsb' 8 8) (v.extractLsb' 0 8) ∧
    HasFields (encode (.tsetcmp c v)) 0x14 c 0 (v.extractLsb' 8 8) (v.extractLsb' 0 8) ∧
    HasFields (encode (.trdcnt c)) 0x15 c 0 0 0 ∧
    HasFields (encode (.trdstat c)) 0x16 c 0 0 0 ∧
    HasFields (encode (.tsetie c ie)) 0x17 c 0 0 (ie.setWidth 8) ∧
    HasFields (encode (.tack c)) 0x18 c 0 0 0 ∧
    HasFields (encode (.rsel k)) 0x20 k 0 0 0 ∧
    HasFields (encode (.rdesel k)) 0x21 k 0 0 0 ∧
    HasFields (encode (.rxfer k x)) 0x22 k 0 0 x ∧
    HasFields (encode (.rreset k)) 0x23 k 0 0 0 ∧
    HasFields (encode (.rread k x)) 0x24 k x 0 0 ∧
    HasFields (encode (.rwrite k x y)) 0x25 k x 0 y ∧
    HasFields (encode (.rbitmod k x y z)) 0x26 k x y z ∧
    HasFields (encode (.rwrseq k x y)) 0x27 k x 0 y ∧
    HasFields (encode (.rrdstat k)) 0x28 k 0 0 0 ∧
    HasFields (encode (.rrts k t)) 0x29 k 0 0 (t.setWidth 8) ∧
    HasFields (encode (.rrdrx k nm x)) 0x2A k (nm.setWidth 8) 0 x ∧
    HasFields (encode (.rldtx k abc x)) 0x2B k (abc.setWidth 8) 0 x ∧
    HasFields (encode (.fbwr x y)) 0x2C 0 x 0 y ∧
    HasFields (encode (.fbrd x)) 0x2D 0 x 0 0 ∧
    HasFields (encode .prdst) 0x30 0 0 0 0 ∧
    HasFields (encode (.pwrst x)) 0x31 0 0 0 x ∧
    HasFields (encode .parm) 0x32 0 0 0 0 ∧
    HasFields (encode .pdisarm) 0x33 0 0 0 0 ∧
    HasFields (encode .psleep) 0x34 0 0 0 0 ∧
    HasFields (encode .pseterr) 0x35 0 0 0 0 ∧
    HasFields (encode (.psens slot x)) 0x36 0 (slot.setWidth 8) 0 x ∧
    HasFields (encode .pind) 0x37 0 0 0 0 ∧
    encode .wireReset = .wire 0xC0 ∧ encode .wireRead = .wire 0x03 ∧ encode .wireWrite = .wire 0x02 ∧
    encode .wireBitmod = .wire 0x05 ∧ encode .wireReadStatus = .wire 0xA0 ∧
    encode (.wireRts t) = .wire (0x80 ||| t.setWidth 8) ∧
    encode (.wireReadRx nm) = .wire (0x90 ||| (nm.setWidth 8 <<< 1)) ∧
    encode (.wireLoadTx abc) = .wire (0x40 ||| abc.setWidth 8)

/-- Decoding an encoded instruction gives it back, for every instruction and operand that has an encoding
(only load-tx-buffer with abc = 6 or 7 has none, R87). -/
def Obligations.DecodeOfEncode : Prop :=
  ∀ i : Instr, i.encodable = true → decode (encode i) = .ok i

/-- A code that decodes is the encoding of what it decodes to: no bit of it is dropped, and each
instruction has one code. -/
def Obligations.EncodeOfDecode : Prop :=
  ∀ (code : Code) (i : Instr), decode code = .ok i → i.encodable = true ∧ encode i = code

/-- R81: an operation word decodes exactly when one row of the table matches it; the row is unique and
names the operation; a word with no row raises ILLEGAL_OP with no other effect; and RLDTX's further
legality check comes before any effect. -/
def Obligations.DecoderFindsTheOneRow : Prop :=
  (∀ w : OpWord, (∃ i, decodeWord w = .ok i) ↔ ∃ r ∈ opcodeTable, r.accepts w = true) ∧
  (∀ (w : OpWord), ∀ r ∈ opcodeTable, ∀ r' ∈ opcodeTable,
    r.accepts w = true → r'.accepts w = true → r = r') ∧
  (∀ (w : OpWord) (i : Instr) (s : State), decodeWord w = .ok i →
    performWord w s = exec i s ∧ ∃ r ∈ opcodeTable, r.accepts w = true ∧ r.mnemonic = i.mnemonic) ∧
  (∀ (w : OpWord) (s : State), (∀ r ∈ opcodeTable, r.accepts w = false) →
    performWord w s = .next (s.withFault 0x01)) ∧
  (∀ (k : ChipIx) (abc : BitVec 3) (n : Byte) (s : State), 5 < abc.toNat →
    exec (.rldtx k abc n) s = .next (s.withFault 0x01))

/-- R85: the illegal encodings, the legal RRTS with txmask 0, whose frame is the byte 0x80 and which requests
nothing, and the range violations of R84, which raise faults of their own kind. -/
def Obligations.IllegalEncodings : Prop :=
  ∀ s : State,
    (∀ w : OpWord, (w.extractLsb' 25 7).toNat ≤ 0x0F ∨
        (0x19 ≤ (w.extractLsb' 25 7).toNat ∧ (w.extractLsb' 25 7).toNat ≤ 0x1F) ∨
        (0x2E ≤ (w.extractLsb' 25 7).toNat ∧ (w.extractLsb' 25 7).toNat ≤ 0x2F) ∨
        0x38 ≤ (w.extractLsb' 25 7).toNat → performWord w s = .next (s.withFault 0x01)) ∧
    (∀ w : OpWord, ∀ r ∈ opcodeTable, w &&& 0xFE000000 = r.code → w &&& r.mask ≠ r.code →
      performWord w s = .next (s.withFault 0x01)) ∧
    (∀ w : OpWord, w.extractLsb' 25 7 = 0x2B → w.extractLsb' 16 3 = 6 ∨ w.extractLsb' 16 3 = 7 →
      performWord w s = .next (s.withFault 0x01)) ∧
    performWord 0 s = .next (s.withFault 0x01) ∧
    (s.rawopen = false → ∃ rs t, s.frame 0 [0x80] = .ok (rs, t) ∧ performWord 0x52000000 s = .next t ∧
      RegistersKept s t) ∧
    (s.rawopen = false → ∀ (w : OpWord) (k : ChipIx) (a n : Byte) (nm : BitVec 2) (abc : BitVec 3),
      (decodeWord w = .ok (.rwrseq k a n) →
        (n.toNat = 0 ∨ 16 < n.toNat → performWord w s = .next (s.withFault 0x03)) ∧
        (1 ≤ n.toNat → n.toNat ≤ 16 → 0xFF < a.toNat + n.toNat - 1 →
          performWord w s = .next (s.withFault 0x04))) ∧
      (decodeWord w = .ok (.rrdrx k nm n) →
        (n.toNat = 0 ∨ 16 < n.toNat → performWord w s = .next (s.withFault 0x03)) ∧
        (1 ≤ n.toNat → n.toNat ≤ 16 → 0xFF < (rxStart s.cfg nm).toNat + n.toNat - 1 →
          performWord w s = .next (s.withFault 0x04))) ∧
      (decodeWord w = .ok (.rldtx k abc n) → abc.toNat ≤ 5 →
        (n.toNat = 0 ∨ 16 < n.toNat → performWord w s = .next (s.withFault 0x03)) ∧
        (1 ≤ n.toNat → n.toNat ≤ 16 → 0xFF < txStart s.cfg abc + n.toNat - 1 →
          performWord w s = .next (s.withFault 0x04)))) ∧
    ∀ (w : OpWord) (idx b : Byte), 15 < idx.toNat →
      decodeWord w = .ok (.fbwr idx b) ∨ decodeWord w = .ok (.fbrd idx) →
      performWord w s = .next (s.withFault 0x03)

/-! ## One step runs the decoded instruction -/

/-- In host mode a SEQ step removes the first word of HOSTQ and performs it (R258); an illegal word raises
ILLEGAL_OP. That a word which faults has been removed is the model's reading (log entry 8). A word placed by
withFetchWord is the next one performed: that is the model's choice of where a program is loaded (log
entry 6). -/
def Obligations.StepPerformsTheHostWord : Prop :=
  (∀ (s : State) (w : OpWord) (q : List OpWord), s.seqReady = true → s.hostmode = true →
    s.hostq = w :: q →
    (∀ i, decodeWord w = .ok i → step s = exec i { s.turnTaken with hostq := q }) ∧
    (∀ e, decodeWord w = .error e →
      step s = .next { s.turnTaken with hostq := q, fault := 0x01 })) ∧
  ∀ (s : State) (w : Nat) (i : Instr), s.inactDeliverable = false → s.wakeDeliverable = false →
    s.fault = 0 → s.lpm = false → decodeTableWord 32 w = some i →
    step (s.withFetchWord 32 w) = exec i { s with hostmode := true }

/-- A wire command reaches its chip as the byte of an RXFER word inside a raw bracket: that step is the
command's own execution, wherever the frame stands, with the reply in RES as well. That a wire command is
an instruction, and runs so, is the model's reading (log entry 7), and that both take the same draws is its
choice (log entry 3). -/
def Obligations.StepExecutesTheWireCommand : Prop :=
  ∀ (s : State) (k : ChipIx) (cmd : WireCmd) (w : OpWord) (q : List OpWord), s.seqReady = true →
    s.hostmode = true → s.hostq = w :: q → decodeWord w = .ok (.rxfer k cmd.toByte) →
    s.rawopen = true → s.cssel = some k →
    (∀ t, exec cmd.toInstr { s.turnTaken with hostq := q } = .next t →
      ∃ r, step s = .next (t.setRes (zext16 r))) ∧
    (∀ r, exec cmd.toInstr { s.turnTaken with hostq := q } = .refused r → step s = .refused r)

/-- R230, R209: in normal mode a SEQ step performs the operation at its position and moves on to the next one.
That the move falls in the operation's own step is the model's choice (log entry 10), and that a fault leaves
the position where it is is the model's reading (DEDUCED, log entry 8). -/
def Obligations.StepPerformsTheHandlerOperation : Prop :=
  ∀ (s t : State) (i : Instr), s.seqReady = true → s.hostmode = false → s.pos ≠ ⟨.dispatch, 0⟩ →
    s.opAt = some i →
    (exec i s.turnTaken = .next t → t.fault = 0 →
      step s = .next (advance s.pos.handler s.pos.idx t)) ∧
    (exec i s.turnTaken = .next t → t.fault ≠ 0 → step s = .next t) ∧
    (∀ r, exec i s.turnTaken = .refused r → step s = .refused r)

/-- R231: the dispatch step loads PSTATE once and selects the handler; a store by BRIDGE afterwards does
not move the handler already selected. -/
def Obligations.DispatchSelectsTheHandler : Prop :=
  (∀ s : State, s.seqReady = true → s.hostmode = false → s.pos = ⟨.dispatch, 0⟩ →
    ∃ t, step s = .next t ∧ t = { s.turnTaken with pos := t.pos } ∧ t.pos.idx = 0 ∧
      (s.errl = true → t.pos.handler = .error) ∧
      (s.errl = false → s.pstate = 0x00 → t.pos.handler = .init) ∧
      (s.errl = false → s.pstate = 0x01 → t.pos.handler = .running) ∧
      (s.errl = false → s.pstate = 0x02 → t.pos.handler = .sleepDet) ∧
      (s.errl = false → s.pstate = 0x03 → t.pos.handler = .sleeping) ∧
      (s.errl = false → s.pstate = 0x04 → t.pos.handler = .wakeup) ∧
      (s.errl = false → s.pstate = 0x05 → t.pos.handler = .error) ∧
      (s.errl = false → 0x06 ≤ s.pstate.toNat → t.pos.handler = .unrec)) ∧
  ∀ s t : State, s.seqFree = false → s.agenda.head?.getD .seq = .seq → s.inactDeliverable = true →
    step s = .next t → t.pstate = 0x02 ∧ t.pos = s.pos

/-- Every operation a handler issues, procedures inlined, is an operation word that decodes to it. That a
handler is one list of operations is the model's choice (log entry 11). -/
def Obligations.HandlersIssueOperationWords : Prop :=
  ∀ (cfg : Config) (scr : Scratch) (h : Handler), ∀ i ∈ h.ops cfg scr,
    ∃ w : OpWord, encode i = .word w ∧ decodeWord w = .ok i

/-! ## Timer unit (40_timer.md) -/

/-- R114 to R122: the timer operations. Each writes the one element its rule names on its own channel, or
RES; the status word is R29's. -/
def Obligations.TimerOperations : Prop :=
  ∀ (s : State) (c : ChanIx) (v : Half) (ie : BitVec 1),
    (∃ t, exec (.tstart c) s = .next t ∧ t.chan c = { s.chan c with run := true } ∧ TimerOnly s t c) ∧
    (∃ t, exec (.tstop c) s = .next t ∧ t.chan c = { s.chan c with run := false } ∧ TimerOnly s t c) ∧
    (∃ t, exec (.trestart c) s = .next t ∧ t.chan c = { s.chan c with run := true, cnt := 0 } ∧
      TimerOnly s t c) ∧
    (∃ t, exec (.tsetcnt c v) s = .next t ∧ t.chan c = { s.chan c with cnt := v } ∧ TimerOnly s t c) ∧
    (∃ t, exec (.tsetcmp c v) s = .next t ∧ t.chan c = { s.chan c with cmp := v } ∧ TimerOnly s t c) ∧
    (∃ t, exec (.tsetie c ie) s = .next t ∧ t.chan c = { s.chan c with ie := ie.getLsbD 0 } ∧
      TimerOnly s t c) ∧
    (∃ t, exec (.tack c) s = .next t ∧ t.chan c = { s.chan c with pend := false } ∧ TimerOnly s t c) ∧
    (∃ t, exec (.trdcnt c) s = .next t ∧ t = { s with res := some (s.chan c).cnt }) ∧
    ∃ t r, exec (.trdstat c) s = .next t ∧ t = { s with res := some r } ∧
      r.getLsbD 0 = (s.chan c).run ∧ r.getLsbD 1 = (s.chan c).pend ∧ r.getLsbD 2 = (s.chan c).ie ∧
      ∀ b, 3 ≤ b → r.getLsbD b = false

/-- R112: the count pulse, whatever SEQ is doing. -/
def Obligations.CountPulse : Prop :=
  ∀ (s : State) (c : ChanIx) (rest : List Turn), s.agenda = .tick c :: rest →
    ∃ t, step s = .next t ∧ TimerOnly { s with agenda := rest } t c ∧
      (¬((s.chan c).run = true ∧ (s.chan c).cnt.toNat < (s.chan c).cmp.toNat) → t.chan c = s.chan c) ∧
      ((s.chan c).run = true → (s.chan c).cnt.toNat < (s.chan c).cmp.toNat →
        (t.chan c).cnt.toNat = (s.chan c).cnt.toNat + 1 ∧
        ((t.chan c).pend = true ↔
          (s.chan c).pend = true ∨ (s.chan c).cnt.toNat + 1 = (s.chan c).cmp.toNat) ∧
        (t.chan c).run = true ∧ (t.chan c).cmp = (s.chan c).cmp ∧ (t.chan c).ie = (s.chan c).ie)

/-- R113 and R125: on a running channel with r pulses remaining the r-th pulse is the match and no earlier
one is; the channel then holds at its compare value. With none remaining no pulse does anything. -/
def Obligations.TheRthPulseIsTheMatch : Prop :=
  ∀ (n : Nat) (s : State) (c : ChanIx) (rest : List Turn),
    s.agenda = List.replicate n (.tick c) ++ rest → (s.chan c).run = true →
    ∃ t, Host.Core.run Sys2Proof.core n s = .next t ∧ TimerOnly { s with agenda := rest } t c ∧
      ((s.chan c).remaining = 0 → t.chan c = s.chan c) ∧
      (n < (s.chan c).remaining →
        t.chan c = { s.chan c with cnt := t.chan c |>.cnt } ∧
        (t.chan c).cnt.toNat = (s.chan c).cnt.toNat + n) ∧
      (0 < (s.chan c).remaining → (s.chan c).remaining ≤ n →
        t.chan c = { s.chan c with cnt := (s.chan c).cmp, pend := true })

/-- R27, R113 b: no operation sets a match latch, and only TACK on its own channel clears one. -/
def Obligations.NoOperationCausesAMatch : Prop :=
  ∀ (i : Instr) (s t : State) (c : ChanIx), exec i s = .next t →
    ((t.chan c).pend = true ↔ (s.chan c).pend = true ∧ i ≠ .tack c)

/-! ## Register-interface unit (41_regbus.md) -/

/-- R147, R148 with the select lines of R32: opening and closing a raw bracket. -/
def Obligations.RawBracket : Prop :=
  ∀ (s : State) (k : ChipIx),
    (s.rawopen = true → exec (.rsel k) s = .next (s.withFault 0x02)) ∧
    (s.rawopen = false → ∃ t, exec (.rsel k) s = .next t ∧ t.cssel = some k ∧ t.rawopen = true ∧
      (∀ j, t.csN j = false ↔ j = k) ∧ OtherChipKept s t k ∧ RegistersKept s t ∧
      t = { s with cssel := t.cssel, rawopen := t.rawopen, chips := t.chips }) ∧
    (s.rawopen = false ∨ s.cssel ≠ some k → exec (.rdesel k) s = .next (s.withFault 0x02)) ∧
    (s.rawopen = true → s.cssel = some k → ∃ t, exec (.rdesel k) s = .next t ∧ t.cssel = none ∧
      t.rawopen = false ∧ (∀ j, t.csN j = true) ∧ OtherChipKept s t k ∧ RegistersKept s t ∧
      t = { s with cssel := t.cssel, rawopen := t.rawopen, chips := t.chips })

/-- R149 with the exchange of R143 and the chip's part of R160 to R168: RXFER sends one byte to the
selected chip, which applies its effect, and puts the reply in RES; and what a byte is to the chip, by its
position in the frame and the bytes before it. That no register is read-only to a frame (log entry 22) and
that reset, read-status and request-to-send are accepted whatever is implemented (log entry 17) is the model's
reading. -/
def Obligations.RxferExchangesOneByte : Prop :=
  ∀ (s : State) (k : ChipIx) (o : Byte),
    (¬(s.rawopen = true ∧ s.cssel = some k) → exec (.rxfer k o) s = .next (s.withFault 0x02)) ∧
    (s.rawopen = true → s.cssel = some k → ByteAccepted s k o →
      ∃ t r, exec (.rxfer k o) s = .next t ∧ t.res = some (zext16 r) ∧
        t = { s with res := t.res, chips := t.chips, drawn := t.drawn } ∧
        t.cframe k = s.cframe k ++ [o] ∧ (∀ j, j ≠ k → t.chip j = s.chip j) ∧
        match byteRole s.cfg (s.cframe k) o with
        | .readReg a => r = s.creg k (BitVec.ofNat 8 a) ∧ RegistersKept s t
        | .status => r = statusByte s.cfg (s.chip k).creg ∧ RegistersKept s t
        | .writeReg a => OneStored s t k (BitVec.ofNat 8 a) o
        | .modify a m => OneModified s t k a m o
        | .command .reset => ConfigOk s.cfg → ResetToConfig s t k
        | .command (.rts mask) => RequestedToSend s t k mask
        | .command _ => RegistersKept s t
        | .ignored => RegistersKept s t
        | .reserved => False) ∧
    (byteRole s.cfg [] 0xC0 = .command .reset ∧ byteRole s.cfg [] 0x03 = .command .read ∧
      byteRole s.cfg [] 0x02 = .command .write ∧ byteRole s.cfg [] 0x05 = .command .bitmod ∧
      byteRole s.cfg [] 0xA0 = .command .readStatus ∧
      (∀ m : BitVec 3, byteRole s.cfg [] (0x80 ||| m.setWidth 8) = .command (.rts m)) ∧
      (∀ nm : BitVec 2, byteRole s.cfg [] (0x90 ||| (nm.setWidth 8 <<< 1)) = .command (.readRx nm)) ∧
      (∀ abc : BitVec 3, abc.toNat ≤ 5 →
        byteRole s.cfg [] (0x40 ||| abc.setWidth 8) = .command (.loadTx abc)) ∧
      (byteRole s.cfg [] o = .reserved ↔ o ∉ [0xC0, 0x03, 0x02, 0x05, (0xA0 : Byte)] ∧
        o &&& 0xF8 ≠ 0x80 ∧ o &&& 0xF9 ≠ 0x90 ∧ ¬(0x40 ≤ o.toNat ∧ o.toNat ≤ 0x45))) ∧
    ∀ (a m v : Byte) (later : List Byte) (mask : BitVec 3) (nm : BitVec 2) (abc : BitVec 3),
      byteRole s.cfg (0xC0 :: later) o = .ignored ∧
      byteRole s.cfg ((0x80 ||| mask.setWidth 8) :: later) o = .ignored ∧
      byteRole s.cfg [0x03] o = .ignored ∧
      byteRole s.cfg (0x03 :: a :: later) o = .readReg (a.toNat + later.length) ∧
      byteRole s.cfg [0x02] o = .ignored ∧
      byteRole s.cfg (0x02 :: a :: later) o = .writeReg (a.toNat + later.length) ∧
      byteRole s.cfg [0x05] o = .ignored ∧ byteRole s.cfg [0x05, a] o = .ignored ∧
      byteRole s.cfg [0x05, a, m] o = .modify a m ∧
      byteRole s.cfg (0x05 :: a :: m :: v :: later) o = .ignored ∧
      byteRole s.cfg (0xA0 :: later) o = .status ∧
      byteRole s.cfg ((0x90 ||| (nm.setWidth 8 <<< 1)) :: later) o =
        .readReg ((rxStart s.cfg nm).toNat + later.length) ∧
      (abc.toNat ≤ 5 → byteRole s.cfg ((0x40 ||| abc.setWidth 8) :: later) o =
        .writeReg (txStart s.cfg abc + later.length))

/-- R146, R274: the checks of every operation in their order; the first that fails is the one raised, with
no other effect. -/
def Obligations.ChecksInOrder : Prop :=
  ∀ (s : State) (k : ChipIx),
    (∀ w e, decodeWord w = .error e → performWord w s = .next (s.withFault 0x01)) ∧
    (∀ abc n, 5 < abc.toNat → exec (.rldtx k abc n) s = .next (s.withFault 0x01)) ∧
    (s.rawopen = true → ∀ i, isFramed i = true →
      (∀ j abc n, i = .rldtx j abc n → abc.toNat ≤ 5) → exec i s = .next (s.withFault 0x02)) ∧
    (s.rawopen = false → ∀ (a n : Byte), n.toNat = 0 ∨ 16 < n.toNat →
      exec (.rwrseq k a n) s = .next (s.withFault 0x03) ∧
      (∀ nm, exec (.rrdrx k nm n) s = .next (s.withFault 0x03)) ∧
      (∀ abc, abc.toNat ≤ 5 → exec (.rldtx k abc n) s = .next (s.withFault 0x03))) ∧
    (s.rawopen = false → ∀ (a n : Byte), 1 ≤ n.toNat → n.toNat ≤ 16 →
      (0xFF < a.toNat + n.toNat - 1 → exec (.rwrseq k a n) s = .next (s.withFault 0x04)) ∧
      (∀ nm, 0xFF < (rxStart s.cfg nm).toNat + n.toNat - 1 →
        exec (.rrdrx k nm n) s = .next (s.withFault 0x04)) ∧
      (∀ abc, abc.toNat ≤ 5 → 0xFF < txStart s.cfg abc + n.toNat - 1 →
        exec (.rldtx k abc n) s = .next (s.withFault 0x04)) ∧
      (a.toNat + n.toNat - 1 ≤ 0xFF → ¬BufferFilled s n.toNat →
        exec (.rwrseq k a n) s = .next (s.withFault 0x05)) ∧
      (∀ abc, abc.toNat ≤ 5 → txStart s.cfg abc + n.toNat - 1 ≤ 0xFF →
        ¬BufferFilled s n.toNat → exec (.rldtx k abc n) s = .next (s.withFault 0x05))) ∧
    (∀ idx : Byte, 15 < idx.toNat → (∀ b, exec (.fbwr idx b) s = .next (s.withFault 0x03)) ∧
      exec (.fbrd idx) s = .next (s.withFault 0x03)) ∧
    (∀ idx : Byte, idx.toNat ≤ 15 → fbufRead s.fbuf idx.toNat = none →
      exec (.fbrd idx) s = .next (s.withFault 0x05))

/-- R167, R89: the frames the chip refuses. That a frame is refused at the byte that would read or write the
register (the RXFER of that byte) is the model's reading (log entry 17). No framed operation is refused for a
reserved command or for an address above 0xFF. -/
def Obligations.RefusedFrames : Prop :=
  ∀ (s : State) (k : ChipIx),
    (s.rawopen = true → s.cssel = some k →
      (∀ o, s.cframe k = [] → WireCmd.ofByte o = none →
        exec (.rxfer k o) s = .refused .reservedWireCommand) ∧
      (∀ o a, byteRole s.cfg (s.cframe k) o = .readReg a ∨ byteRole s.cfg (s.cframe k) o = .writeReg a →
        (0xFF < a → exec (.rxfer k o) s = .refused .addressPastEnd) ∧
        (a ≤ 0xFF → s.cfg.implemented k (BitVec.ofNat 8 a) = false →
          exec (.rxfer k o) s = .refused .registerNotImplemented)) ∧
      (∀ o a m, byteRole s.cfg (s.cframe k) o = .modify a m → s.cfg.implemented k a = false →
        exec (.rxfer k o) s = .refused .registerNotImplemented)) ∧
    (s.rawopen = false → ∀ a : Byte, s.cfg.implemented k a = false →
      exec (.rread k a) s = .refused .registerNotImplemented ∧
      (∀ v, exec (.rwrite k a v) s = .refused .registerNotImplemented) ∧
      (∀ m v, exec (.rbitmod k a m v) s = .refused .registerNotImplemented)) ∧
    (s.rawopen = false → ∀ n : Byte, 1 ≤ n.toNat → n.toNat ≤ 16 →
      (∀ a : Byte, a.toNat + n.toNat - 1 ≤ 0xFF → BufferFilled s n.toNat →
        ¬RunOk s.cfg k a.toNat n.toNat → exec (.rwrseq k a n) s = .refused .registerNotImplemented) ∧
      (∀ nm, (rxStart s.cfg nm).toNat + n.toNat - 1 ≤ 0xFF →
        ¬RunOk s.cfg k (rxStart s.cfg nm).toNat n.toNat →
        exec (.rrdrx k nm n) s = .refused .registerNotImplemented) ∧
      (∀ abc, abc.toNat ≤ 5 → txStart s.cfg abc + n.toNat - 1 ≤ 0xFF →
        BufferFilled s n.toNat → ¬RunOk s.cfg k (txStart s.cfg abc) n.toNat →
        exec (.rldtx k abc n) s = .refused .registerNotImplemented)) ∧
    ∀ i, isFramed i = true →
      exec i s ≠ .refused .addressPastEnd ∧ exec i s ≠ .refused .reservedWireCommand

/-- R151, R162: RREAD puts the register in RES and changes no register. -/
def Obligations.RreadReadsTheRegister : Prop :=
  ∀ (s : State) (k : ChipIx) (a : Byte), s.rawopen = false → s.cfg.implemented k a = true →
    ∃ t, exec (.rread k a) s = .next t ∧ t.res = some (zext16 (s.creg k a)) ∧ RegistersKept s t ∧
      OtherChipKept s t k ∧ BusOnly { s with res := t.res } t

/-- R152, R153, R163, R164, R170: RWRITE stores one register and RBITMOD changes one under its mask. That no
register is read-only to a frame is the model's reading (log entry 22). -/
def Obligations.OneRegisterIsWritten : Prop :=
  ∀ (s : State) (k : ChipIx) (a m v : Byte), s.rawopen = false → s.cfg.implemented k a = true →
    (∃ t, exec (.rwrite k a v) s = .next t ∧ OneStored s t k a v ∧ OtherChipKept s t k ∧ BusOnly s t) ∧
    ∃ t, exec (.rbitmod k a m v) s = .next t ∧ OneModified s t k a m v ∧ OtherChipKept s t k ∧
      BusOnly s t

/-- R154, R164, R170: RWRSEQ stores FBUF[0..n-1] in a run of registers; FBUF is unchanged. That no register is
read-only to a frame is the model's reading (log entry 22). -/
def Obligations.RwrseqStoresTheRun : Prop :=
  ∀ (s : State) (k : ChipIx) (a n : Byte), s.rawopen = false → 1 ≤ n.toNat → n.toNat ≤ 16 →
    a.toNat + n.toNat - 1 ≤ 0xFF → BufferFilled s n.toNat → RunOk s.cfg k a.toNat n.toNat →
    ∃ t, exec (.rwrseq k a n) s = .next t ∧ RunStored s t k a.toNat n.toNat ∧ OtherChipKept s t k ∧
      BusOnly s t

/-- R155, R165 with the status byte of R191: RRDSTAT puts the status byte in RES, each bit computed from
the register R191 names. That the frame is not refused, whatever is implemented, is the model's reading (log
entry 17). -/
def Obligations.RrdstatReadsTheStatus : Prop :=
  ∀ (s : State) (k : ChipIx), s.rawopen = false →
    ∃ t st, exec (.rrdstat k) s = .next t ∧ t.res = some (zext16 st) ∧
      (st.getLsbD 0 = true ↔ s.creg k s.cfg.map.canintf &&& s.cfg.map.rx0ifBit ≠ 0) ∧
      (st.getLsbD 1 = true ↔ s.creg k s.cfg.map.canintf &&& s.cfg.map.rx1ifBit ≠ 0) ∧
      (∀ j : Fin 3, (st.getLsbD (2 + 2 * j.val) = true ↔
        s.creg k (txbctrl s.cfg j) &&& s.cfg.map.txreqBit ≠ 0) ∧
        st.getLsbD (3 + 2 * j.val) = (s.creg k s.cfg.map.canintf).getLsbD (2 + j.val)) ∧
      RegistersKept s t ∧ OtherChipKept s t k ∧ BusOnly { s with res := t.res } t

/-- R150, R156, R161, R166: the frames of one byte. RRTS sets the transmit-request bit of each buffer its
mask names; RRESET leaves the mode fields reading configuration mode, and every other register bit is
Draw(), so nothing is said of its value. The last clause is the model's choice, not the spec's (DESIGN CHOICE,
log entry 28): a chip has one reset image, so any two resets of it, from any two states with the same
parameters, leave the same registers. That neither frame is refused, whatever is implemented, is the model's
reading (log entry 17). -/
def Obligations.CommandByteFrames : Prop :=
  ∀ (s : State) (k : ChipIx) (mask : BitVec 3), s.rawopen = false →
    (∃ t, exec (.rrts k mask) s = .next t ∧ RequestedToSend s t k mask ∧ OtherChipKept s t k ∧
      BusOnly s t) ∧
    (ConfigOk s.cfg → ∃ t, exec (.rreset k) s = .next t ∧ ResetToConfig s t k ∧ OtherChipKept s t k ∧
      BusOnly s t) ∧
    ∀ s' t t' : State, s'.cfg = s.cfg → s'.rawopen = false → exec (.rreset k) s = .next t →
      exec (.rreset k) s' = .next t' → ∀ a, t'.creg k a = t.creg k a

/-- R157, R168: RRDRX copies n registers from RXSTART(nm) on into FBUF[0..n-1]; FBUF[n..15] and every
register are unchanged. -/
def Obligations.RrdrxFillsTheBuffer : Prop :=
  ∀ (s : State) (k : ChipIx) (nm : BitVec 2) (n : Byte), s.rawopen = false → 1 ≤ n.toNat →
    n.toNat ≤ 16 → (rxStart s.cfg nm).toNat + n.toNat - 1 ≤ 0xFF →
    RunOk s.cfg k (rxStart s.cfg nm).toNat n.toNat →
    ∃ t, exec (.rrdrx k nm n) s = .next t ∧
      (∀ i < n.toNat, fbufRead t.fbuf i =
        some (s.creg k (BitVec.ofNat 8 ((rxStart s.cfg nm).toNat + i)))) ∧
      (∀ i, n.toNat ≤ i → fbufRead t.fbuf i = fbufRead s.fbuf i) ∧
      RegistersKept s t ∧ OtherChipKept s t k ∧ BusOnly { s with fbuf := t.fbuf } t

/-- R158, R168, R170: RLDTX stores FBUF[0..n-1] from TXSTART(abc) on, the exact sum of R190 and R7. That no
register is read-only to a frame is the model's reading (log entry 22). -/
def Obligations.RldtxLoadsTheBuffer : Prop :=
  (∀ (cfg : Config) (j : Fin 3), txStart cfg (BitVec.ofNat 3 (2 * j.val)) = (txbctrl cfg j).toNat + 1 ∧
    txStart cfg (BitVec.ofNat 3 (2 * j.val + 1)) = (txbctrl cfg j).toNat + 6) ∧
  ∀ (s : State) (k : ChipIx) (abc : BitVec 3) (n : Byte), abc.toNat ≤ 5 → s.rawopen = false →
    1 ≤ n.toNat → n.toNat ≤ 16 → txStart s.cfg abc + n.toNat - 1 ≤ 0xFF →
    BufferFilled s n.toNat → RunOk s.cfg k (txStart s.cfg abc) n.toNat →
    ∃ t, exec (.rldtx k abc n) s = .next t ∧
      RunStored s t k (txStart s.cfg abc) n.toNat ∧ OtherChipKept s t k ∧ BusOnly s t

/-- R171, R172: the frame buffer's two operations, with their faults. -/
def Obligations.FrameBufferOperations : Prop :=
  ∀ (s : State) (idx b : Byte),
    (15 < idx.toNat → exec (.fbwr idx b) s = .next (s.withFault 0x03) ∧
      exec (.fbrd idx) s = .next (s.withFault 0x03)) ∧
    (idx.toNat ≤ 15 → ∃ t, exec (.fbwr idx b) s = .next t ∧ fbufRead t.fbuf idx.toNat = some b ∧
      (∀ i, i ≠ idx.toNat → fbufRead t.fbuf i = fbufRead s.fbuf i) ∧ t = { s with fbuf := t.fbuf }) ∧
    (idx.toNat ≤ 15 → fbufRead s.fbuf idx.toNat = none →
      exec (.fbrd idx) s = .next (s.withFault 0x05)) ∧
    (idx.toNat ≤ 15 → ∀ v, fbufRead s.fbuf idx.toNat = some v →
      exec (.fbrd idx) s = .next { s with res := some (zext16 v) })

/-- R159: the raw form of a framed operation has the same chip effects and the same received bytes, and is
refused alike; RES holds the last byte received. Where a register becomes Draw() (R163, R170) the chips agree
because both forms take the same draw, which is the model's choice (DESIGN CHOICE, log entry 3). -/
def Obligations.RawFormEqualsFramedForm : Prop :=
  ∀ (s : State) (i : Instr) (k : ChipIx) (os : List Byte), s.rawopen = false → s.fault = 0 →
    frameOf s i = some (k, os) →
    (∀ r, exec i s = .refused r → execAll (rawForm k os) s = .refused r) ∧
    (∀ t, exec i s = .next t → t.fault = 0 →
      ∃ (u : State) (rs : List Byte), execAll (rawForm k os) s = .next u ∧ rs.length = os.length ∧
        u = { s with res := u.res, chips := t.chips, cssel := none, drawn := u.drawn } ∧
        (∀ n < os.length, ∃ v, execAll ((rawForm k os).take (n + 2)) s = .next v ∧
          v.res = some (zext16 (rs.getD n 0))) ∧
        u.res = some (zext16 (rs.getLastD 0)) ∧
        (∀ a, i = .rread k a → t.res = some (zext16 (rs.getD 2 0))) ∧
        (i = .rrdstat k → t.res = some (zext16 (rs.getD 1 0))) ∧
        (∀ nm n, i = .rrdrx k nm n → ∀ m < n.toNat, fbufRead t.fbuf m = some (rs.getD (m + 1) 0)))

/-- R173: a register outside CHIP_VOLATILE, writable in the chip's mode, reads back as written, and a
bit-modify changes exactly the bits under the mask, whatever steps the chips take between. That no register
is read-only to a frame is the model's reading (log entry 22). -/
def Obligations.RoundTripAndBitModify : Prop :=
  ∀ (s : State) (k : ChipIx) (a m v : Byte) (between : List (ChipIx × List (Byte × Byte))),
    s.rawopen = false → s.cfg.implemented k a = true → s.cfg.isVolatile k a = false → Writable s k a →
    (∃ t u, exec (.rwrite k a v) s = .next t ∧ exec (.rread k a) (t.chipSteps between) = .next u ∧
      u.res = some (zext16 v)) ∧
    (s.cfg.bitModifiable k a = true →
      ∃ t u w, exec (.rbitmod k a m v) s = .next t ∧
        exec (.rread k a) (t.chipSteps between) = .next u ∧ u.res = some (zext16 w) ∧
        ∀ b < 8, w.getLsbD b = if m.getLsbD b then v.getLsbD b else (s.creg k a).getLsbD b)

/-- R169: a chip's own step changes no register outside CHIP_VOLATILE and nothing else of the machine; any
volatile register may take any value, but for the mode field's restriction. A turn that lists several changes
(the model's choice, log entry 12) is the turns of its changes one after another, and where the chip's own
changes do not touch the requested mode and the wake enable its mode field ends as R169 allows. -/
def Obligations.ChipStepsAreBounded : Prop :=
  ∀ (s : State) (k : ChipIx) (sets : List (Byte × Byte)) (rest : List Turn),
    s.agenda = .chip k sets :: rest →
    ∃ t, step s = .next t ∧ t = { s with agenda := rest, chips := t.chips } ∧
      t.cframe k = s.cframe k ∧ (∀ j, j ≠ k → t.chip j = s.chip j) ∧
      (∀ a, s.cfg.isVolatile k a = false → t.creg k a = s.creg k a) ∧
      (∀ a v, sets = [(a, v)] → s.cfg.isVolatile k a = true →
        (∀ b, b ≠ a → t.creg k b = s.creg k b) ∧
        (a ≠ s.cfg.map.canstat → t.creg k a = v) ∧
        (a = s.cfg.map.canstat →
          (v &&& s.cfg.map.opmodMask = s.creg k a &&& s.cfg.map.opmodMask ∨
            v &&& s.cfg.map.opmodMask = s.creg k s.cfg.map.canctrl &&& s.cfg.map.reqopMask ∨
            (s.creg k a &&& s.cfg.map.opmodMask = Mode.sleep.bits ∧
              s.creg k s.cfg.map.caninte &&& s.cfg.map.wakieBit ≠ 0 ∧
              v &&& s.cfg.map.opmodMask = Mode.listen.bits) →
            t.creg k a = v) ∧
          (¬(v &&& s.cfg.map.opmodMask = s.creg k a &&& s.cfg.map.opmodMask ∨
            v &&& s.cfg.map.opmodMask = s.creg k s.cfg.map.canctrl &&& s.cfg.map.reqopMask ∨
            (s.creg k a &&& s.cfg.map.opmodMask = Mode.sleep.bits ∧
              s.creg k s.cfg.map.caninte &&& s.cfg.map.wakieBit ≠ 0 ∧
              v &&& s.cfg.map.opmodMask = Mode.listen.bits)) →
            t.creg k a = s.creg k a))) ∧
      (sets = [] → t = { s with agenda := rest }) ∧
      (∀ x xs, sets = x :: xs → Host.Core.run Sys2Proof.core 2
        { s with agenda := .chip k [x] :: .chip k xs :: rest } = .next t) ∧
      (s.cfg.isVolatile k s.cfg.map.canctrl = false → s.cfg.isVolatile k s.cfg.map.caninte = false →
        let old := s.creg k s.cfg.map.canstat &&& s.cfg.map.opmodMask
        let asked := s.creg k s.cfg.map.canctrl &&& s.cfg.map.reqopMask
        let new := t.creg k s.cfg.map.canstat &&& s.cfg.map.opmodMask
        new = old ∨ new = asked ∨
          (new = Mode.listen.bits ∧ s.creg k s.cfg.map.caninte &&& s.cfg.map.wakieBit ≠ 0 ∧
            (old = Mode.sleep.bits ∨ asked = Mode.sleep.bits)))

/-- R74: an instruction changes only the chip it addresses. That a wire command, as an instruction, addresses
the chip of the open select is the model's reading (log entry 7). -/
def Obligations.ChipsAreIndependent : Prop :=
  ∀ (i : Instr) (s t : State) (j : ChipIx), exec i s = .next t → addressed s i ≠ some j →
    t.chip j = s.chip j

/-- R144, R62: on the lines of an exchange a byte goes most significant bit first, one rising clock edge for
each bit. At the i-th one MOSI is bit 7 - i of the byte sent and MISO bit 7 - i of the chip's reply, and the
byte made of the samples of MISO, the first most significant, is what the exchange receives. The waveform does
not depend on the implementation. That MISO holds over the whole bit is the model's choice (log entry 19); the
statement is of the edges. -/
def Obligations.SerialBitFraming : Prop :=
  (∀ (link link' : LinkImpl) (o reply : Byte),
    waveform link o reply = waveform link' o reply ∧
    (mosiSamples (waveform link o reply)).length = 8 ∧ (misoSamples (waveform link o reply)).length = 8 ∧
    (∀ i < 8, (mosiSamples (waveform link o reply))[i]? = some (o.getLsbD (7 - i)) ∧
      (misoSamples (waveform link o reply))[i]? = some (reply.getLsbD (7 - i))) ∧
    receivedByte (waveform link o reply) = reply) ∧
  (∀ m : List Bool, m.length = 8 → ∀ i < 8, (byteOfSamples m).getLsbD (7 - i) = m.getD i false) ∧
  ∀ (s t : State) (k : ChipIx) (o reply : Byte), s.xfer k o = .ok (reply, t) →
    receivedByte (waveform s.cfg.linkImpl o reply) = reply

/-! ## Wire commands (30_encoding.md R87 to R89; 41_regbus.md R160 to R168) -/

/-- R162 to R165, R168 at byte 0: read, write, bit-modify, read-status, read-rx-buffer and load-tx-buffer
only begin a frame; with no chip selected (R142) any command byte changes nothing. Wire commands as
instructions are the model's reading (log entry 7). -/
def Obligations.WireCommandsThatBeginAFrame : Prop :=
  (∀ (s : State) (cmd : WireCmd), s.cssel = none → exec cmd.toInstr s = .next s) ∧
  ∀ (s : State) (k : ChipIx) (nm : BitVec 2) (abc : BitVec 3), s.cssel = some k → s.cframe k = [] →
    ∀ i b, (i, b) ∈ [(Instr.wireRead, (0x03 : Byte)), (.wireWrite, 0x02), (.wireBitmod, 0x05),
        (.wireReadStatus, 0xA0), (.wireReadRx nm, 0x90 ||| (nm.setWidth 8 <<< 1))] ∨
      (abc.toNat ≤ 5 ∧ i = .wireLoadTx abc ∧ b = 0x40 ||| abc.setWidth 8) →
    ∃ t, exec i s = .next t ∧ t.cframe k = [b] ∧ RegistersKept s t ∧ (∀ j, j ≠ k → t.chip j = s.chip j) ∧
      t = { s with chips := t.chips, drawn := t.drawn }

/-- R161, R166 at byte 0: reset and request-to-send act at once; load-tx-buffer with abc = 6 or 7 is a
reserved command (R87, R89, R167). Wire commands as instructions, and that these two are accepted whatever is
implemented, are the model's reading (log entries 7 and 17). -/
def Obligations.WireCommandsThatActAtOnce : Prop :=
  ∀ (s : State) (k : ChipIx) (ttt abc : BitVec 3), s.cssel = some k → s.cframe k = [] →
    (ConfigOk s.cfg → ∃ t, exec .wireReset s = .next t ∧ t.cframe k = [0xC0] ∧ ResetToConfig s t k ∧
      (∀ j, j ≠ k → t.chip j = s.chip j) ∧ t = { s with chips := t.chips, drawn := t.drawn }) ∧
    (∃ t, exec (.wireRts ttt) s = .next t ∧ t.cframe k = [0x80 ||| ttt.setWidth 8] ∧
      RequestedToSend s t k ttt ∧ (∀ j, j ≠ k → t.chip j = s.chip j) ∧
      t = { s with chips := t.chips, drawn := t.drawn }) ∧
    (5 < abc.toNat → exec (.wireLoadTx abc) s = .refused .reservedWireCommand)

/-! ## Power sequencer and interrupts (43_power_fsm.md, 60_exceptions.md) -/

/-- R249, R251 to R256: the power sequencer's one-step operations. -/
def Obligations.PowerOperations : Prop :=
  ∀ (s : State) (v b : Byte) (slot : BitVec 2),
    exec .parm s = .next { s with wken := true } ∧
    exec .pdisarm s = .next { s with wken := false } ∧
    (∃ t r, exec .prdst s = .next t ∧ t = { s with res := some r } ∧ r.toNat = s.pstate.toNat) ∧
    exec (.pwrst v) s = .next { s with pstate := v } ∧
    exec .pseterr s = .next { s with errl := true } ∧
    (∃ t, exec (.psens slot b) s = .next t ∧ t = { s with sensor := t.sensor } ∧
      sensorRead t.sensor slot = some b ∧
      ∀ x, x ≠ slot → sensorRead t.sensor x = sensorRead s.sensor x) ∧
    (∃ t, exec .pind s = .next t ∧ t = { s with ind := t.ind } ∧ t.ind = !s.ind)

/-- R250: PSLEEP's entry step, the wait and the resume guard, which is one step; SEQ then resumes at the
next step of its handler, and the Sleeping handler has none left. That SEQ's turn in the wait is a step which
changes nothing but the schedule is the model's choice (log entry 9), and so is the number of the wait's
position, 2 (log entry 11). -/
def Obligations.LowPowerEntryAndResume : Prop :=
  ∀ s : State,
    exec .psleep s = .next { s with lpm := true } ∧
    (s.seqFree = true → s.fault = 0 → s.lpm = true → s.wkpend = false →
      step s = .next s.turnTaken) ∧
    (s.guardNext = true → ∃ t, step s = .next t ∧ t.pstate = 0x04 ∧ t.wken = false ∧ t.wkpend = false ∧
      t.lpm = false ∧
      t = { s.turnTaken with
        pstate := t.pstate, wken := t.wken, wkpend := t.wkpend, lpm := t.lpm, pos := t.pos, scr := t.scr } ∧
      (s.hostmode = true → t.pos = s.pos ∧ t.scr = s.scr) ∧
      (s.hostmode = false → s.pos = ⟨.sleeping, 2⟩ → t.pos = ⟨.dispatch, 0⟩)) ∧
    (s.lpm = true → s.agenda.head?.getD .seq = .seq → s.inactDeliverable = true →
      ∃ t, step s = .next t ∧ t.lpm = true ∧ t.pstate = 0x02)

/-- R315, R250: in the low-power wait with no wake armed and none latched, SEQ is stuck for ever, whatever
the other agents do; only reset ends it. That every turn of such a run is a step is the model's choice: SEQ's
turn in the wait changes nothing but the schedule (log entry 9), as does a turn that is not enabled (log
entry 12). -/
def Obligations.UnarmedSleepHangs : Prop :=
  ∀ (n : Nat) (s : State), NoReset s.agenda → s.lpm = true → s.wken = false → s.wkpend = false →
    ∃ t, Host.Core.run Sys2Proof.core n s = .next t ∧ t.lpm = true ∧ t.wkpend = false ∧ t.wken = false ∧
      t.pos = s.pos ∧ t.scr = s.scr ∧ t.res = s.res ∧ t.fbuf = s.fbuf ∧ t.sensor = s.sensor ∧
      t.ind = s.ind ∧ t.errl = s.errl ∧ t.hostq = s.hostq ∧ t.issues = none

/-- R244, R276: a deliverable inactivity event is taken on SEQ's turn before anything SEQ does, whatever SEQ
is doing; it writes PSTATE and its own latch only, and does not end the wait. -/
def Obligations.BridgeDelivery : Prop :=
  ∀ s : State, s.agenda.head?.getD .seq = .seq → s.inactDeliverable = true →
    ∃ t, step s = .next t ∧ t.pstate = 0x02 ∧ t.chan 0 = { s.chan 0 with pend := false } ∧
      t.chan 1 = s.chan 1 ∧ t = { s with pstate := t.pstate, tmr := t.tmr } ∧ t.inactDeliverable = false

/-- R246: the wake is latched before SEQ's next step, once for each arming, and PSTATE is not written; a wake
latched before PSLEEP ends the wait in the step after PSLEEP's entry. -/
def Obligations.WakeIsLatched : Prop :=
  (∀ s : State, s.agenda.head?.getD .seq = .seq → s.inactDeliverable = false →
    s.wakeDeliverable = true →
    step s = .next { s with wkpend := true, wedge := false }) ∧
  (∀ s : State, s.wkpend = true → s.wakeDeliverable = false) ∧
  (∀ s t : State, s.wkpend = true → s.seqReady = true → s.agenda = [] → exec .psleep s = .next t →
    t.guardNext = true)

/-- R277: when both interrupts are deliverable BRIDGE goes first and WAKESYNC next, both before SEQ; whatever
the schedule, no step takes WAKESYNC first; and the two commute: their writes are disjoint, each leaves the
other deliverable, and BRIDGE after WAKESYNC's writes gives the same state. -/
def Obligations.SimultaneousInterrupts : Prop :=
  ∀ s : State, s.agenda.head?.getD .seq = .seq → s.inactDeliverable = true → s.wakeDeliverable = true →
    ∃ t u, step s = .next t ∧ step t = .next u ∧
      t.wkpend = s.wkpend ∧ t.wakeDeliverable = true ∧ u.inactDeliverable = false ∧
      u.wakeDeliverable = false ∧ t = { s with pstate := 0x02, tmr := t.tmr } ∧
      u = { t with wkpend := true, wedge := false } ∧
      (∀ rest, step { s with agenda := .bridge :: .wakesync :: rest } =
          .next { t with agenda := .wakesync :: rest } ∧
        step { t with agenda := .wakesync :: rest } = .next { u with agenda := rest }) ∧
      (∀ agenda v, step { s with agenda := agenda } = .next v → v.wkpend = s.wkpend) ∧
      ({ s with wkpend := true, wedge := false } : State).inactDeliverable = true ∧
      step { s with wkpend := true, wedge := false } = .next u

/-- R247: the wake pin's step. That a latched edge stays over a later change is the model's reading (log
entry 13). -/
def Obligations.PinStep : Prop :=
  ∀ (s : State) (level : Bool) (rest : List Turn), s.agenda = .pin level :: rest →
    ∃ t, step s = .next t ∧
      (level = s.wakeIn → t = { s with agenda := rest }) ∧
      (level ≠ s.wakeIn → t.wakeIn = level ∧ t.wakePrev = s.wakeIn ∧
        t = { s with agenda := rest, wakeIn := t.wakeIn, wakePrev := t.wakePrev, wedge := t.wedge } ∧
        (t.wedge = true ↔ s.wedge = true ∨
          (s.cfg.wakeSense = .falling ∧ s.wakeIn = true ∧ level = false) ∨
          (s.cfg.wakeSense = .rising ∧ s.wakeIn = false ∧ level = true))) ∧
      (s.cfg.wakeSense = .lowLevel → (t.wakeActive = true ↔ t.wakeIn = false))

/-- R232, R35: once the Error latch is set it stays set in every run without a reset, and every dispatch
then runs the Error handler whatever PSTATE holds. -/
def Obligations.ErrorLatchIsForever : Prop :=
  ∀ (n : Nat) (s t : State), NoReset s.agenda → s.errl = true →
    Host.Core.run Sys2Proof.core n s = .next t →
    t.errl = true ∧
      (t.seqReady = true → t.hostmode = false → t.pos = ⟨.dispatch, 0⟩ →
        ∃ u, step t = .next u ∧ u.pos = ⟨.error, 0⟩)

/-- R272: while FAULT is not NONE, SEQ takes no step in any run without a reset: FAULT and everything SEQ
writes stays, and only the other agents go on. That every turn of such a run is a step is the model's choice:
the turn of a halted SEQ changes nothing but the schedule (log entry 9), as does a turn that is not enabled
(log entry 12). -/
def Obligations.FaultHaltsTheSequencer : Prop :=
  ∀ (n : Nat) (s : State), NoReset s.agenda → s.fault ≠ 0 →
    ∃ t, Host.Core.run Sys2Proof.core n s = .next t ∧ t.fault = s.fault ∧ t.issues = none ∧
      t = { s with
        tmr := t.tmr, pstate := t.pstate, wkpend := t.wkpend, wakeIn := t.wakeIn, wakePrev := t.wakePrev,
        wedge := t.wedge, chips := t.chips, agenda := t.agenda } ∧
      (∀ k a, s.cfg.isVolatile k a = false → t.creg k a = s.creg k a) ∧
      (∀ k, t.cframe k = s.cframe k) ∧
      (∀ c, (t.chan c).run = (s.chan c).run ∧ (t.chan c).cmp = (s.chan c).cmp ∧
        (t.chan c).ie = (s.chan c).ie)

/-- R273, R271: an operation raises only the faults its row lists, with the code R271 gives, and a faulting
operation has no other effect. -/
def Obligations.FaultCausesPerOperation : Prop :=
  ∀ (i : Instr) (s t : State), exec i s = .next t → s.fault = 0 → t.fault ≠ 0 →
    t = { s with fault := t.fault } ∧
    match i with
    | .rsel _ | .rdesel _ | .rxfer _ _ | .rreset _ | .rread _ _ | .rwrite _ _ _ | .rbitmod _ _ _ _
    | .rrdstat _ | .rrts _ _ => t.fault = 0x02
    | .rwrseq _ _ _ => t.fault = 0x02 ∨ t.fault = 0x03 ∨ t.fault = 0x04 ∨ t.fault = 0x05
    | .rldtx _ abc _ => (t.fault = 0x01 ∧ 5 < abc.toNat) ∨
        (abc.toNat ≤ 5 ∧ (t.fault = 0x02 ∨ t.fault = 0x03 ∨ t.fault = 0x04 ∨ t.fault = 0x05))
    | .rrdrx _ _ _ => t.fault = 0x02 ∨ t.fault = 0x03 ∨ t.fault = 0x04
    | .fbwr _ _ => t.fault = 0x03
    | .fbrd _ => t.fault = 0x03 ∨ t.fault = 0x05
    | _ => False

/-! ## The whole machine -/

/-- R46 with R20 to R49: who writes each element. A step that is not a reset changes an element only through
the operation, interrupt step or environment step that the access summary names. That a turn on which its agent
cannot step changes nothing but the schedule is the model's choice (log entries 9 and 12). -/
def Obligations.WritersOfEveryElement : Prop :=
  ∀ s t : State, Inv s → ¬s.resetNext → step s = .next t →
    t.cfg = s.cfg ∧ t.hostmode = s.hostmode ∧
    (t.res ≠ s.res → (∃ c, s.issues = some (.trdcnt c) ∨ s.issues = some (.trdstat c)) ∨
      (∃ k, (∃ o, s.issues = some (.rxfer k o)) ∨ (∃ a, s.issues = some (.rread k a)) ∨
        s.issues = some (.rrdstat k)) ∨
      (∃ i, s.issues = some (.fbrd i)) ∨ s.issues = some .prdst) ∧
    (t.fbuf ≠ s.fbuf → (∃ i b, s.issues = some (.fbwr i b)) ∨
      ∃ k nm n, s.issues = some (.rrdrx k nm n)) ∧
    (∀ c, ((t.chan c).run ≠ (s.chan c).run → s.issues = some (.tstart c) ∨ s.issues = some (.tstop c) ∨
        s.issues = some (.trestart c)) ∧
      ((t.chan c).cnt ≠ (s.chan c).cnt → (∃ v, s.issues = some (.tsetcnt c v)) ∨
        s.issues = some (.trestart c) ∨ s.agenda.head? = some (.tick c)) ∧
      ((t.chan c).cmp ≠ (s.chan c).cmp → ∃ v, s.issues = some (.tsetcmp c v)) ∧
      ((t.chan c).ie ≠ (s.chan c).ie → ∃ v, s.issues = some (.tsetie c v)) ∧
      ((s.chan c).pend = false → (t.chan c).pend = true → s.agenda.head? = some (.tick c)) ∧
      ((s.chan c).pend = true → (t.chan c).pend = false → s.issues = some (.tack c) ∨
        (c = 0 ∧ s.bridgeNext = true))) ∧
    (t.cssel ≠ s.cssel ∨ t.rawopen ≠ s.rawopen →
      ∃ k, s.issues = some (.rsel k) ∨ s.issues = some (.rdesel k)) ∧
    (t.pstate ≠ s.pstate → (∃ v, s.issues = some (.pwrst v)) ∨ s.guardNext = true ∨
      (s.bridgeNext = true ∧ t.pstate = 0x02)) ∧
    (t.errl ≠ s.errl → s.issues = some .pseterr ∧ t.errl = true) ∧
    (t.wken ≠ s.wken → s.issues = some .parm ∨ s.issues = some .pdisarm ∨ s.guardNext = true) ∧
    (t.wkpend ≠ s.wkpend → (s.wakesyncNext = true ∧ t.wkpend = true) ∨ s.guardNext = true) ∧
    (t.lpm ≠ s.lpm → (s.issues = some .psleep ∧ t.lpm = true) ∨ (s.guardNext = true ∧ t.lpm = false)) ∧
    (t.wakeIn ≠ s.wakeIn ∨ t.wakePrev ≠ s.wakePrev → ∃ l, s.agenda.head? = some (.pin l)) ∧
    (t.wedge ≠ s.wedge → (∃ l, s.agenda.head? = some (.pin l)) ∨
      (s.wakesyncNext = true ∧ t.wedge = false)) ∧
    (t.sensor ≠ s.sensor → ∃ x b, s.issues = some (.psens x b)) ∧
    (t.ind ≠ s.ind → s.issues = some .pind) ∧
    (t.fault ≠ s.fault → s.fault = 0 ∧ s.seqReady = true) ∧
    (t.pos ≠ s.pos ∨ t.scr ≠ s.scr → s.hostmode = false ∧ (s.seqReady = true ∨ s.guardNext = true)) ∧
    (t.hostq ≠ s.hostq → s.hostmode = true ∧ s.seqReady = true) ∧
    (∀ k, t.cframe k ≠ s.cframe k →
      (∃ o, s.issues = some (.rxfer k o) ∧ t.cframe k = s.cframe k ++ [o]) ∨
      (s.issues = some (.rdesel k) ∧ t.cframe k = [])) ∧
    (∀ k a, t.creg k a ≠ s.creg k a →
      (∃ sets, s.agenda.head? = some (.chip k sets) ∧ s.cfg.isVolatile k a = true) ∨
      ∃ i, s.issues = some i ∧ ((∃ os, frameOf s i = some (k, os)) ∨ ∃ o, i = .rxfer k o))

/-- The invariant of the machine: RAWOPEN agrees with CSSEL (R31), a deselected chip has no frame (R44) and
an open one began with a command (R167), FAULT is NONE or a code of R271, SEQ's position has a step (R20,
R38) and nothing is held in SCR between handlers (R48). Every step keeps it. Which positions have a step (log
entry 11) and where SCR is emptied (log entry 14) is the model's choice; that a fault leaves the position is
its reading (log entry 8). -/
def Obligations.EveryStepKeepsTheInvariant : Prop :=
  ∀ s t : State, Inv s → step s = .next t → Inv t

/-- The state after reset satisfies the invariant. -/
def Obligations.ResetSatisfiesTheInvariant : Prop := Inv State.reset

/-- R230, R167: from a state with the invariant the machine itself never stops: every step is taken, unless a
frame is refused. R287 has SEQ make no progress after a fault and in the low-power wait; that SEQ's turn there,
or with HOSTQ empty, is a step that changes nothing but the schedule is the model's choice (log entry 9), and so
is the fault of a position without a step, which the invariant rules out (log entry 11). -/
def Obligations.TheMachineNeverStops : Prop :=
  ∀ s : State, Inv s → (∃ t, step s = .next t) ∨
    ∃ r, step s = .refused r ∧ (r = .reservedWireCommand ∨ r = .registerNotImplemented ∨
      r = .addressPastEnd)

/-- R47 and R300: the values after reset, in State.reset; no interrupt is deliverable, and the first step
dispatches to the Init handler. (The values of the fields the spec leaves to the environment are not
stated; that HOSTMODE = 0 is what the input drives is a premise, log entry 5.) -/
def Obligations.ResetValues : Prop :=
  let s := State.reset
  s.pos = ⟨.dispatch, 0⟩ ∧ s.res = none ∧ (∀ i, fbufRead s.fbuf i = none) ∧
  (∀ c, s.chan c = ⟨false, 0, 0, false, false⟩) ∧ s.cssel = none ∧ (∀ k, s.csN k = true) ∧
  s.rawopen = false ∧ s.pstate = 0x00 ∧ s.errl = false ∧ s.wken = false ∧ s.wkpend = false ∧
  s.lpm = false ∧ s.wakePrev = s.wakeIn ∧ s.wedge = false ∧ (∀ x, sensorRead s.sensor x = none) ∧
  s.ind = false ∧ s.fault = 0x00 ∧ (∀ k, s.cframe k = []) ∧ s.scr = Scratch.empty ∧
  s.inactDeliverable = false ∧ s.wakeDeliverable = false ∧
  ∀ hostq, ∃ t, step { s with hostmode := false, hostq := hostq } = .next t ∧ t.pos = ⟨.init, 0⟩

/-- R300, R302: the reset step, from any state: every element of the block takes its value of R47 at once;
the chips' registers are kept but at power-on, and the pin goes on (DEDUCED, log entry 18). That the parameters,
the schedule and the count of draws go on is the model's choice (log entries 1, 2, 3). -/
def Obligations.ResetStep : Prop :=
  ∀ (s : State) (powerOn hostmode : Bool) (hostq : List OpWord) (rest : List Turn),
    s.agenda = .reset powerOn hostmode hostq :: rest →
    ∃ t, step s = .next t ∧
      t = { State.reset with
        cfg := s.cfg, wakeIn := s.wakeIn, wakePrev := s.wakeIn, chips := t.chips, hostmode := hostmode,
        hostq := hostq, agenda := rest, drawn := t.drawn } ∧
      (∀ k, t.cframe k = []) ∧ (powerOn = false → RegistersKept s t) ∧
      t.inactDeliverable = false ∧ t.wakeDeliverable = false

/-! ## Handlers (43_power_fsm.md) -/

/-- R237 with R205, R232: a Wakeup pass restarts both timers, writes Running and returns to dispatch; with
MANUAL it first asks the chip to wake and to go to normal mode. That it takes four steps, with MANUAL six, is
the model's choice (log entry 10: a decision falls in the step of the operation before it). -/
def Obligations.WakeupPass : Prop :=
  ∀ s : State, Undisturbed s → s.hostmode = false → s.pos = ⟨.dispatch, 0⟩ → s.errl = false →
    s.pstate = 0x04 →
    (s.cfg.wakeMode = .busActivity →
      ∃ t, Host.Core.run Sys2Proof.core 4 s = .next t ∧ t.pos = ⟨.dispatch, 0⟩ ∧ t.pstate = 0x01 ∧
        (∀ c, t.chan c = { s.chan c with run := true, cnt := 0 }) ∧
        t = { s with pos := t.pos, scr := t.scr, pstate := t.pstate, tmr := t.tmr }) ∧
    (s.cfg.wakeMode = .manual → s.rawopen = false → DefaultRegisters s s.cfg.pdcChip →
      ∃ t, Host.Core.run Sys2Proof.core 6 s = .next t ∧ t.pos = ⟨.dispatch, 0⟩ ∧ t.pstate = 0x01 ∧
        (∀ c, t.chan c = { s.chan c with run := true, cnt := 0 }) ∧
        BitsChanged s t s.cfg.pdcChip [(0x2C, 0x40, 0x40), (0x0F, 0xE0, 0x00)] ∧
        OtherChipKept s t s.cfg.pdcChip ∧
        t = { s with
          pos := t.pos, scr := t.scr, pstate := t.pstate, tmr := t.tmr, chips := t.chips, cssel := none,
          drawn := t.drawn })

/-- R236, R246, R250, R257: a Sleeping pass with the pin already active: the wake is armed, latched before
PSLEEP, the wait ends at once, and the next dispatch runs Wakeup with the wake disarmed, never Sleeping
again. The count of five steps rests on the model's choices of log entries 10 and 11. -/
def Obligations.SleepingPassWithTheWakePending : Prop :=
  ∀ s : State, Undisturbed s → s.hostmode = false → s.pos = ⟨.dispatch, 0⟩ →
    s.errl = false → s.pstate = 0x03 → s.cfg.wakeSense = .lowLevel → s.wakeIn = false →
    s.wkpend = false →
    ∃ t u, Host.Core.run Sys2Proof.core 5 s = .next t ∧ t.pos = ⟨.dispatch, 0⟩ ∧ t.pstate = 0x04 ∧
      t.wken = false ∧ t.wkpend = false ∧ t.lpm = false ∧ step t = .next u ∧ u.pos = ⟨.wakeup, 0⟩ ∧
      u.wken = false ∧ u.wakeDeliverable = false

/-- R238, R239: a pass on an unrecognized state writes Error, sets the Error latch, toggles the indicator
N_BLINK times and returns to dispatch. The count of steps rests on the model's choice of log entry 10. -/
def Obligations.UnrecognizedStatePass : Prop :=
  ∀ s : State, Undisturbed s → s.hostmode = false → s.pos = ⟨.dispatch, 0⟩ →
    s.errl = false → 0x06 ≤ s.pstate.toNat → 1 ≤ s.cfg.nBlink →
    ∃ t, Host.Core.run Sys2Proof.core (3 + s.cfg.nBlink) s = .next t ∧ t.pos = ⟨.dispatch, 0⟩ ∧
      t.pstate = 0x05 ∧ t.errl = true ∧ (t.ind = s.ind ↔ s.cfg.nBlink % 2 = 0) ∧
      t = { s with pos := t.pos, scr := t.scr, pstate := t.pstate, errl := t.errl, ind := t.ind }

/-- R234, R241: once a frame is decoded the Running handler's operations are the two status reads, the
buffer read, the match read, the flag clear and TRESTART 0, and then, for the sensor frame (PDC_CAN_ID, data,
length 8), PSENS 0 to 3 with data bytes 2, 3, 6 and 7 in that order; for any other frame nothing more. That a
handler is one list of operations is the model's choice (log entry 11). -/
def Obligations.SensorUpdate : Prop :=
  ∀ (cfg : Config) (scr : Scratch) (f : CanFrame), scr.frame = some f → f.valid = true →
    (f.id = cfg.pdcCanId → f.rtr = false → f.len = 8 →
      Handler.ops cfg scr .running =
        [.rrdstat cfg.pdcChip, .rrdstat cfg.pdcChip, .rrdrx cfg.pdcChip 0 13,
          .rread cfg.pdcChip cfg.map.rxb0ctrl,
          .rbitmod cfg.pdcChip cfg.map.canintf cfg.map.rx0ifBit 0x00, .trestart 0,
          .psens 0 (f.data.getD 2 0), .psens 1 (f.data.getD 3 0), .psens 2 (f.data.getD 6 0),
          .psens 3 (f.data.getD 7 0)]) ∧
    (¬(f.id = cfg.pdcCanId ∧ f.rtr = false ∧ f.len = 8) →
      Handler.ops cfg scr .running =
        [.rrdstat cfg.pdcChip, .rrdstat cfg.pdcChip, .rrdrx cfg.pdcChip 0 13,
          .rread cfg.pdcChip cfg.map.rxb0ctrl,
          .rbitmod cfg.pdcChip cfg.map.canintf cfg.map.rx0ifBit 0x00, .trestart 0])

/-! ## Driver procedures (42_driver.md), run by Proc.run, which is the model's choice (log entry 15) -/

/-- R195, R210: clearFilters in configuration mode zeroes the masks and filters and no other register, in
three frames, and a second run changes no register. Proc.run is the model's choice (log entry 15). -/
def Obligations.ClearFiltersIsIdempotent : Prop :=
  ∀ (s : State) (k : ChipIx), Undisturbed s → DefaultChip s k → s.rawopen = false →
    inConfigMode s.cfg (s.chip k).creg = true →
    ∃ e d, (Proc.clearFilters k).run s = .next e ∧ (Proc.clearFilters k).run e.state = .next d ∧
      e.result = some .unit ∧
      e.issued = (List.range 12).map (fun i => Instr.fbwr (BitVec.ofNat 8 i) 0x00) ++
        [.rwrseq k 0x20 8, .rwrseq k 0x00 12, .rwrseq k 0x10 12] ∧
      (∀ a : Byte, a.toNat ≤ 0x0B ∨ (0x10 ≤ a.toNat ∧ a.toNat ≤ 0x1B) ∨
        (0x20 ≤ a.toNat ∧ a.toNat ≤ 0x27) → e.state.creg k a = 0x00) ∧
      (∀ a : Byte, (0x0C ≤ a.toNat ∧ a.toNat ≤ 0x0F) ∨ (0x1C ≤ a.toNat ∧ a.toNat ≤ 0x1F) ∨
        0x28 ≤ a.toNat → e.state.creg k a = s.creg k a) ∧
      (∀ i < 12, fbufRead e.state.fbuf i = some 0x00) ∧
      (∀ i, 12 ≤ i → fbufRead e.state.fbuf i = fbufRead s.fbuf i) ∧
      (∀ a, d.state.creg k a = e.state.creg k a)

/-- R194, R319: init with a chip that takes no step of its own. It sends the reset, the bit timing, the
filters and the mode request, polls at most N_POLL times, and succeeds exactly when configuration mode was
requested; the bit timing and the cleared filters are in the chip. Proc.run is the model's choice (log
entry 15). -/
def Obligations.InitWithASilentChip : Prop :=
  ∀ (s : State) (k : ChipIx) (b : Fin 2) (m : Mode), Undisturbed s → DefaultChip s k →
    s.rawopen = false → 1 ≤ s.cfg.nPoll →
    ∃ e, (Proc.init k b m).run s = .next e ∧ e.result = some (.init (m == .config)) ∧
      e.issued = [.rreset k, .rwrite k 0x2A s.cfg.bitTiming[b].cnf1, .rwrite k 0x29 s.cfg.bitTiming[b].cnf2,
          .rwrite k 0x28 s.cfg.bitTiming[b].cnf3] ++
        (List.range 12).map (fun i => Instr.fbwr (BitVec.ofNat 8 i) 0x00) ++
        [.rwrseq k 0x20 8, .rwrseq k 0x00 12, .rwrseq k 0x10 12, .rbitmod k 0x0F 0xE0 (m.code <<< 5)] ++
        List.replicate (if m = .config then 1 else s.cfg.nPoll) (.rread k 0x0E) ∧
      e.state.creg k 0x2A = s.cfg.bitTiming[b].cnf1 ∧ e.state.creg k 0x29 = s.cfg.bitTiming[b].cnf2 ∧
      e.state.creg k 0x28 = s.cfg.bitTiming[b].cnf3 ∧
      (∀ a : Byte, a.toNat ≤ 0x0B ∨ (0x10 ≤ a.toNat ∧ a.toNat ≤ 0x1B) ∨
        (0x20 ≤ a.toNat ∧ a.toNat ≤ 0x27) → e.state.creg k a = 0x00) ∧
      e.state.fault = 0

/-- R199, R197: sendMessage takes the least-numbered buffer whose request bit is clear, loads the frame's
bytes into it and requests it; with none clear it sends only the status read. Proc.run is the model's choice
(log entry 15). -/
def Obligations.SendMessageTakesTheLeastFreeBuffer : Prop :=
  ∀ (s : State) (k : ChipIx) (f : CanFrame), Undisturbed s → DefaultChip s k → s.rawopen = false →
    f.valid = true → (∀ a, s.cfg.configOnly k a = AddrSet.has AddrSet.cfgonlyDefault a) →
    ((∀ j, s.creg k (txbctrl s.cfg j) &&& 0x08 ≠ 0) →
      ∃ e, (Proc.sendMessage k f).run s = .next e ∧ e.result = some (.bufferAddress none) ∧
        e.issued = [.rrdstat k] ∧ RegistersKept s e.state) ∧
    (∀ j : Fin 3, s.creg k (txbctrl s.cfg j) &&& 0x08 = 0 →
      (∀ i : Fin 3, i < j → s.creg k (txbctrl s.cfg i) &&& 0x08 ≠ 0) →
      ∃ e, (Proc.sendMessage k f).run s = .next e ∧
        e.result = some (.bufferAddress (some (txbctrl s.cfg j))) ∧
        e.state.creg k (txbctrl s.cfg j) = s.creg k (txbctrl s.cfg j) ||| 0x08 ∧
        (∀ i < 5 + f.len, e.state.creg k (txbctrl s.cfg j + 1 + BitVec.ofNat 8 i) =
          (txBytes f).getD i 0) ∧
        (∀ a : Byte, a.toNat < (txbctrl s.cfg j).toNat ∨ (txbctrl s.cfg j).toNat + 5 + f.len < a.toNat →
          e.state.creg k a = s.creg k a))

/-- R192, R196, R200 to R207: the driver's other procedures. The queries send one frame and answer from the
registers; getBusErrors classifies by the document's priority, or is the stub that sends no frame; setFilters
and wakeup with BUS_ACTIVITY send nothing; setMode, sleep, wakeup and abortAllTransmissions are the
bit-modifies of their rules; receiveMessage copies the buffer and clears its flag, or ends after the status
read. Proc.run is the model's choice (log entry 15), and the last clause says how it stands to the machine:
the operations a procedure issues without a fault, as words of HOSTQ, leave the same state in as many
steps, with the same draws in both runs (log entry 3). -/
def Obligations.DriverProceduresRunAlone : Prop :=
  ∀ (s : State) (k : ChipIx), Undisturbed s →
    (∀ l, (Proc.setFilters k l).run s = .next ⟨s, some .unit, []⟩) ∧
    (Proc.wakeup k .busActivity).run s = .next ⟨s, some .unit, []⟩ ∧
    (s.cfg.fullBusErrors = false →
      (Proc.getBusErrors k).run s = .next ⟨s, some (.errorKind .none), []⟩) ∧
    (DefaultChip s k → s.rawopen = false →
      (∃ e, (Proc.hasMessage k).run s = .next e ∧ e.issued = [.rrdstat k] ∧
        ∃ b, e.result = some (.bool b) ∧ (b = true ↔ s.creg k 0x2C &&& 0x01 ≠ 0)) ∧
      (∃ e, (Proc.hasFreeTxBuffer k).run s = .next e ∧ e.issued = [.rrdstat k] ∧
        ∃ b, e.result = some (.bool b) ∧
          (b = true ↔ s.creg k 0x30 &&& 0x08 = 0 ∨ s.creg k 0x40 &&& 0x08 = 0 ∨
            s.creg k 0x50 &&& 0x08 = 0)) ∧
      (s.cfg.fullBusErrors = true →
        ∃ e r, (Proc.getBusErrors k).run s = .next e ∧ e.issued = [.rread k 0x2D] ∧
          e.result = some (.errorKind r) ∧
          (r = .busOff ↔ s.creg k 0x2D &&& 0x20 ≠ 0) ∧
          (r = .txPassive ↔ s.creg k 0x2D &&& 0x20 = 0 ∧ s.creg k 0x2D &&& 0x10 ≠ 0) ∧
          (r = .rxPassive ↔ s.creg k 0x2D &&& 0x30 = 0 ∧ s.creg k 0x2D &&& 0x08 ≠ 0) ∧
          (r = .txWarning ↔ s.creg k 0x2D &&& 0x38 = 0 ∧ s.creg k 0x2D &&& 0x04 ≠ 0) ∧
          (r = .rxWarning ↔ s.creg k 0x2D &&& 0x3C = 0 ∧ s.creg k 0x2D &&& 0x02 ≠ 0) ∧
          (r = .warning ↔ s.creg k 0x2D &&& 0x3E = 0 ∧ s.creg k 0x2D &&& 0x01 ≠ 0) ∧
          (r = .none ↔ s.creg k 0x2D &&& 0x3F = 0))) ∧
    (DefaultRegisters s k → s.rawopen = false →
      (∀ p l, (p, l) ∈ [(Proc.setMode k .normal, [(0x0F, 0xE0, (0x00 : Byte))]),
          (.setMode k .sleep, [(0x0F, 0xE0, 0x20)]), (.setMode k .loopback, [(0x0F, 0xE0, 0x40)]),
          (.setMode k .listen, [(0x0F, 0xE0, 0x60)]), (.setMode k .config, [(0x0F, 0xE0, 0x80)]),
          (.sleep k .busActivity, [(0x2B, 0x40, 0x40), (0x2C, 0x40, 0x00), (0x0F, 0xE0, 0x20)]),
          (.sleep k .manual, [(0x2B, 0x40, 0x00), (0x0F, 0xE0, 0x20)]),
          (.wakeup k .manual, [(0x2C, 0x40, 0x40), (0x0F, 0xE0, 0x00)]),
          (.abortAllTransmissions k, [(0x0F, 0x10, 0x10)])] →
        ∃ e, p.run s = .next e ∧ e.result = some .unit ∧ e.issued = bitChangeOps k l ∧
          BitsChanged s e.state k l ∧ OtherChipKept s e.state k ∧
          BusOnly { s with scr := Scratch.empty } e.state) ∧
      (s.creg k 0x2C &&& 0x01 = 0 →
        ∃ e, (Proc.receiveMessage k).run s = .next e ∧ e.result = some (.received none) ∧
          e.issued = [.rrdstat k] ∧ RegistersKept s e.state) ∧
      (s.creg k 0x2C &&& 0x01 ≠ 0 →
        ∃ e, (Proc.receiveMessage k).run s = .next e ∧
          e.result = some (.received (some (rxFrame (receiveBytes s k),
            (s.creg k 0x60 &&& 0x01).toNat + 1))) ∧
          e.issued = [.rrdstat k, .rrdrx k 0 13, .rread k 0x60, .rbitmod k 0x2C 0x01 0x00] ∧
          BitsChanged s e.state k [(0x2C, 0x01, 0x00)] ∧ OtherChipKept s e.state k)) ∧
    ∀ (p : Proc) (e : ProcEnd) (words rest : List OpWord), p.run s = .next e → e.state.fault = 0 →
      s.hostmode = true → s.hostq = words ++ rest → words.map decodeWord = e.issued.map .ok →
      Host.Core.run Sys2Proof.core words.length s = .next { e.state with hostq := rest, scr := s.scr }

/-- R197, R198: the bytes of the two layouts. A decoded frame can always be constructed, and the receive
layout reads back the identifier, length and data that the transmit layout wrote. -/
def Obligations.FrameLayoutsAgree : Prop :=
  (∀ b : List Byte, b.length = 13 → (rxFrame b).valid = true ∧
    (rxFrame b).id.toNat = 8 * (b.getD 0 0).toNat + (b.getD 1 0).toNat / 32 ∧
    (rxFrame b).rtr = (b.getD 1 0).getLsbD 4 ∧ (rxFrame b).len = min ((b.getD 4 0).toNat % 16) 8 ∧
    (rxFrame b).data = (b.drop 5).take (rxFrame b).len) ∧
  ∀ (f : CanFrame) (pad : List Byte), f.valid = true →
    (txBytes f).length = 5 + f.len ∧
    ((txBytes f).getD 0 0).toNat = f.id.toNat / 8 ∧ ((txBytes f).getD 1 0).toNat = f.id.toNat % 8 * 32 ∧
    (txBytes f).getD 2 0 = 0x00 ∧ (txBytes f).getD 3 0 = 0x00 ∧
    ((txBytes f).getD 4 0).toNat = (if f.rtr then 64 else 0) + f.len ∧ (txBytes f).drop 5 = f.data ∧
    (rxFrame (txBytes f ++ pad)).id = f.id ∧ (rxFrame (txBytes f ++ pad)).len = f.len ∧
    (rxFrame (txBytes f ++ pad)).data = f.data

/-! ## The other passes of the handlers (43_power_fsm.md) -/

/-- R233, R234, R235, R239: what a pass of Init, Running, SleepDetected and Error does, with no other agent
between its steps. The counts of steps and the positions named rest on the model's choices of log entries 10
and 11. -/
def Obligations.HandlerPasses : Prop :=
  ∀ s : State, Undisturbed s → s.hostmode = false →
    (s.pos = ⟨.dispatch, 0⟩ → s.errl = true ∨ s.pstate = 0x05 → 1 ≤ s.cfg.nBlink →
      ∃ t, Host.Core.run Sys2Proof.core (2 + s.cfg.nBlink) s = .next t ∧ t.pos = ⟨.dispatch, 0⟩ ∧
        t.errl = true ∧ (t.ind = s.ind ↔ s.cfg.nBlink % 2 = 0) ∧
        t = { s with pos := t.pos, scr := t.scr, errl := t.errl, ind := t.ind }) ∧
    (s.rawopen = false → ∀ k : ChipIx, s.cfg.pdcChip = k → DefaultRegisters s k →
      (s.pos = ⟨.dispatch, 0⟩ → s.errl = false → s.pstate = 0x00 → (s.chan 0).pend = false →
        1 ≤ s.cfg.nPoll →
        ∃ t, Host.Core.run Sys2Proof.core 26 s = .next t ∧ t.pos = ⟨.init, 25⟩ ∧
          t.chan 0 = { s.chan 0 with cmp := s.cfg.cmpInact, ie := true } ∧
          t.chan 1 = { s.chan 1 with cmp := s.cfg.cmpTick, ie := s.cfg.tickIe } ∧ t.wken = false ∧
          t.creg k 0x2A = s.cfg.bitTiming[s.cfg.bitrateSel].cnf1 ∧
          t.creg k 0x29 = s.cfg.bitTiming[s.cfg.bitrateSel].cnf2 ∧
          t.creg k 0x28 = s.cfg.bitTiming[s.cfg.bitrateSel].cnf3 ∧
          (∀ a : Byte, a.toNat ≤ 0x0B ∨ (0x10 ≤ a.toNat ∧ a.toNat ≤ 0x1B) ∨
            (0x20 ≤ a.toNat ∧ a.toNat ≤ 0x27) → t.creg k a = 0x00) ∧
          t.creg k 0x0F &&& 0xE0 = 0x00 ∧ OtherChipKept s t k ∧
          t = { s with
            pos := t.pos, scr := t.scr, tmr := t.tmr, wken := t.wken, chips := t.chips, cssel := none,
            drawn := t.drawn, fbuf := t.fbuf, res := t.res }) ∧
      (∀ j < s.cfg.nPoll, s.pos = ⟨.init, 25 + j⟩ →
        (s.creg k 0x0E &&& 0xE0 = 0x00 →
          ∃ t, Host.Core.run Sys2Proof.core 4 s = .next t ∧ t.pos = ⟨.dispatch, 0⟩ ∧ t.pstate = 0x01 ∧
            (∀ c, t.chan c = { s.chan c with run := true, cnt := 0 }) ∧ RegistersKept s t) ∧
        (s.creg k 0x0E &&& 0xE0 ≠ 0x00 → j + 1 < s.cfg.nPoll →
          ∃ t, step s = .next t ∧ t.pos = ⟨.init, 25 + (j + 1)⟩ ∧ t.pstate = s.pstate ∧ t.tmr = s.tmr ∧
            RegistersKept s t) ∧
        (s.creg k 0x0E &&& 0xE0 ≠ 0x00 → j + 1 = s.cfg.nPoll →
          ∃ t, Host.Core.run Sys2Proof.core 2 s = .next t ∧ t.pos = ⟨.dispatch, 0⟩ ∧ t.pstate = 0x05 ∧
            t.tmr = s.tmr ∧ RegistersKept s t)) ∧
      (s.pos = ⟨.dispatch, 0⟩ → s.errl = false → s.pstate = 0x01 →
        (s.creg k 0x2C &&& 0x01 = 0 →
          ∃ t, Host.Core.run Sys2Proof.core 2 s = .next t ∧ t.pos = ⟨.dispatch, 0⟩ ∧
            RegistersKept s t ∧
            t = { s with
              pos := t.pos, scr := t.scr, res := t.res, chips := t.chips, cssel := none,
              drawn := t.drawn }) ∧
        (s.creg k 0x2C &&& 0x01 ≠ 0 →
          ∃ n t, Host.Core.run Sys2Proof.core n s = .next t ∧ t.pos = ⟨.dispatch, 0⟩ ∧
            t.chan 0 = { s.chan 0 with run := true, cnt := 0 } ∧ t.chan 1 = s.chan 1 ∧
            BitsChanged s t k [(0x2C, 0x01, 0x00)] ∧ OtherChipKept s t k ∧
            (let f := rxFrame (receiveBytes s k)
             let sensors := f.id = s.cfg.pdcCanId ∧ f.rtr = false ∧ f.len = 8
             (sensors → n = 11 ∧ sensorRead t.sensor 0 = some (s.creg k 0x68) ∧
               sensorRead t.sensor 1 = some (s.creg k 0x69) ∧
               sensorRead t.sensor 2 = some (s.creg k 0x6C) ∧
               sensorRead t.sensor 3 = some (s.creg k 0x6D)) ∧
             (¬sensors → n = 7 ∧ t.sensor = s.sensor)) ∧
            t = { s with
              pos := t.pos, scr := t.scr, res := t.res, fbuf := t.fbuf, tmr := t.tmr, sensor := t.sensor,
              chips := t.chips, cssel := none, drawn := t.drawn })) ∧
      (s.pos = ⟨.running, 1⟩ → s.creg k 0x2C &&& 0x01 = 0 →
        ∃ t, step s = .next t ∧ t.pos = ⟨.dispatch, 0⟩ ∧ t.tmr = s.tmr ∧ t.sensor = s.sensor ∧
          RegistersKept s t) ∧
      (s.pos = ⟨.dispatch, 0⟩ → s.errl = false → s.pstate = 0x02 →
        ∀ n l, (s.cfg.wakeMode = .busActivity ∧ n = 7 ∧
              l = [(0x2B, 0x40, 0x40), (0x2C, 0x40, 0x00), (0x0F, 0xE0, (0x20 : Byte))]) ∨
            (s.cfg.wakeMode = .manual ∧ n = 6 ∧
              l = [(0x2B, 0x40, 0x00), (0x0F, 0xE0, (0x20 : Byte))]) →
          ∃ t, Host.Core.run Sys2Proof.core n s = .next t ∧ t.pos = ⟨.dispatch, 0⟩ ∧ t.pstate = 0x03 ∧
            (∀ c, t.chan c = { s.chan c with run := false }) ∧ BitsChanged s t k l ∧
            OtherChipKept s t k ∧
            t = { s with
              pos := t.pos, scr := t.scr, pstate := t.pstate, tmr := t.tmr, chips := t.chips,
              cssel := none, drawn := t.drawn }))
end

