-- ==== Sys2Proof/Laws/State.lean ====
section
/-! SUPPORT. One lemma for each field of the state under each named update, and the reads of the indexed
parts after their writes. -/

namespace Sys2Proof.Machine

open Sys2Proof

section
variable (s : State) (v : Half)
@[simp] theorem State.setRes_cfg : (s.setRes v).cfg = s.cfg := rfl
@[simp] theorem State.setRes_pos : (s.setRes v).pos = s.pos := rfl
@[simp] theorem State.setRes_scr : (s.setRes v).scr = s.scr := rfl
@[simp] theorem State.setRes_res : (s.setRes v).res = some v := rfl
@[simp] theorem State.setRes_fbuf : (s.setRes v).fbuf = s.fbuf := rfl
@[simp] theorem State.setRes_tmr : (s.setRes v).tmr = s.tmr := rfl
@[simp] theorem State.setRes_cssel : (s.setRes v).cssel = s.cssel := rfl
@[simp] theorem State.setRes_rawopen : (s.setRes v).rawopen = s.rawopen := rfl
@[simp] theorem State.setRes_pstate : (s.setRes v).pstate = s.pstate := rfl
@[simp] theorem State.setRes_errl : (s.setRes v).errl = s.errl := rfl
@[simp] theorem State.setRes_wken : (s.setRes v).wken = s.wken := rfl
@[simp] theorem State.setRes_wkpend : (s.setRes v).wkpend = s.wkpend := rfl
@[simp] theorem State.setRes_lpm : (s.setRes v).lpm = s.lpm := rfl
@[simp] theorem State.setRes_wakeIn : (s.setRes v).wakeIn = s.wakeIn := rfl
@[simp] theorem State.setRes_wakePrev : (s.setRes v).wakePrev = s.wakePrev := rfl
@[simp] theorem State.setRes_wedge : (s.setRes v).wedge = s.wedge := rfl
@[simp] theorem State.setRes_sensor : (s.setRes v).sensor = s.sensor := rfl
@[simp] theorem State.setRes_ind : (s.setRes v).ind = s.ind := rfl
@[simp] theorem State.setRes_fault : (s.setRes v).fault = s.fault := rfl
@[simp] theorem State.setRes_chips : (s.setRes v).chips = s.chips := rfl
@[simp] theorem State.setRes_hostmode : (s.setRes v).hostmode = s.hostmode := rfl
@[simp] theorem State.setRes_hostq : (s.setRes v).hostq = s.hostq := rfl
@[simp] theorem State.setRes_agenda : (s.setRes v).agenda = s.agenda := rfl
@[simp] theorem State.setRes_drawn : (s.setRes v).drawn = s.drawn := rfl
end

section
variable (s : State) (c : ChanIx) (ch : Channel)
@[simp] theorem State.setChan_cfg : (s.setChan c ch).cfg = s.cfg := rfl
@[simp] theorem State.setChan_pos : (s.setChan c ch).pos = s.pos := rfl
@[simp] theorem State.setChan_scr : (s.setChan c ch).scr = s.scr := rfl
@[simp] theorem State.setChan_res : (s.setChan c ch).res = s.res := rfl
@[simp] theorem State.setChan_fbuf : (s.setChan c ch).fbuf = s.fbuf := rfl
@[simp] theorem State.setChan_tmr : (s.setChan c ch).tmr = s.tmr.set c.val ch c.isLt := rfl
@[simp] theorem State.setChan_cssel : (s.setChan c ch).cssel = s.cssel := rfl
@[simp] theorem State.setChan_rawopen : (s.setChan c ch).rawopen = s.rawopen := rfl
@[simp] theorem State.setChan_pstate : (s.setChan c ch).pstate = s.pstate := rfl
@[simp] theorem State.setChan_errl : (s.setChan c ch).errl = s.errl := rfl
@[simp] theorem State.setChan_wken : (s.setChan c ch).wken = s.wken := rfl
@[simp] theorem State.setChan_wkpend : (s.setChan c ch).wkpend = s.wkpend := rfl
@[simp] theorem State.setChan_lpm : (s.setChan c ch).lpm = s.lpm := rfl
@[simp] theorem State.setChan_wakeIn : (s.setChan c ch).wakeIn = s.wakeIn := rfl
@[simp] theorem State.setChan_wakePrev : (s.setChan c ch).wakePrev = s.wakePrev := rfl
@[simp] theorem State.setChan_wedge : (s.setChan c ch).wedge = s.wedge := rfl
@[simp] theorem State.setChan_sensor : (s.setChan c ch).sensor = s.sensor := rfl
@[simp] theorem State.setChan_ind : (s.setChan c ch).ind = s.ind := rfl
@[simp] theorem State.setChan_fault : (s.setChan c ch).fault = s.fault := rfl
@[simp] theorem State.setChan_chips : (s.setChan c ch).chips = s.chips := rfl
@[simp] theorem State.setChan_hostmode : (s.setChan c ch).hostmode = s.hostmode := rfl
@[simp] theorem State.setChan_hostq : (s.setChan c ch).hostq = s.hostq := rfl
@[simp] theorem State.setChan_agenda : (s.setChan c ch).agenda = s.agenda := rfl
@[simp] theorem State.setChan_drawn : (s.setChan c ch).drawn = s.drawn := rfl
end

section
variable (s : State) (k : ChipIx) (ch : Chip)
@[simp] theorem State.setChip_cfg : (s.setChip k ch).cfg = s.cfg := rfl
@[simp] theorem State.setChip_pos : (s.setChip k ch).pos = s.pos := rfl
@[simp] theorem State.setChip_scr : (s.setChip k ch).scr = s.scr := rfl
@[simp] theorem State.setChip_res : (s.setChip k ch).res = s.res := rfl
@[simp] theorem State.setChip_fbuf : (s.setChip k ch).fbuf = s.fbuf := rfl
@[simp] theorem State.setChip_tmr : (s.setChip k ch).tmr = s.tmr := rfl
@[simp] theorem State.setChip_cssel : (s.setChip k ch).cssel = s.cssel := rfl
@[simp] theorem State.setChip_rawopen : (s.setChip k ch).rawopen = s.rawopen := rfl
@[simp] theorem State.setChip_pstate : (s.setChip k ch).pstate = s.pstate := rfl
@[simp] theorem State.setChip_errl : (s.setChip k ch).errl = s.errl := rfl
@[simp] theorem State.setChip_wken : (s.setChip k ch).wken = s.wken := rfl
@[simp] theorem State.setChip_wkpend : (s.setChip k ch).wkpend = s.wkpend := rfl
@[simp] theorem State.setChip_lpm : (s.setChip k ch).lpm = s.lpm := rfl
@[simp] theorem State.setChip_wakeIn : (s.setChip k ch).wakeIn = s.wakeIn := rfl
@[simp] theorem State.setChip_wakePrev : (s.setChip k ch).wakePrev = s.wakePrev := rfl
@[simp] theorem State.setChip_wedge : (s.setChip k ch).wedge = s.wedge := rfl
@[simp] theorem State.setChip_sensor : (s.setChip k ch).sensor = s.sensor := rfl
@[simp] theorem State.setChip_ind : (s.setChip k ch).ind = s.ind := rfl
@[simp] theorem State.setChip_fault : (s.setChip k ch).fault = s.fault := rfl
@[simp] theorem State.setChip_chips : (s.setChip k ch).chips = s.chips.set k.val ch k.isLt := rfl
@[simp] theorem State.setChip_hostmode : (s.setChip k ch).hostmode = s.hostmode := rfl
@[simp] theorem State.setChip_hostq : (s.setChip k ch).hostq = s.hostq := rfl
@[simp] theorem State.setChip_agenda : (s.setChip k ch).agenda = s.agenda := rfl
@[simp] theorem State.setChip_drawn : (s.setChip k ch).drawn = s.drawn := rfl
end

section
variable (s : State) (c : ChanIx) (f : Channel → Channel)
@[simp] theorem State.onChan_cfg : (s.onChan c f).cfg = s.cfg := rfl
@[simp] theorem State.onChan_pos : (s.onChan c f).pos = s.pos := rfl
@[simp] theorem State.onChan_scr : (s.onChan c f).scr = s.scr := rfl
@[simp] theorem State.onChan_res : (s.onChan c f).res = s.res := rfl
@[simp] theorem State.onChan_fbuf : (s.onChan c f).fbuf = s.fbuf := rfl
@[simp] theorem State.onChan_tmr : (s.onChan c f).tmr = s.tmr.set c.val (f (s.chan c)) c.isLt := rfl
@[simp] theorem State.onChan_cssel : (s.onChan c f).cssel = s.cssel := rfl
@[simp] theorem State.onChan_rawopen : (s.onChan c f).rawopen = s.rawopen := rfl
@[simp] theorem State.onChan_pstate : (s.onChan c f).pstate = s.pstate := rfl
@[simp] theorem State.onChan_errl : (s.onChan c f).errl = s.errl := rfl
@[simp] theorem State.onChan_wken : (s.onChan c f).wken = s.wken := rfl
@[simp] theorem State.onChan_wkpend : (s.onChan c f).wkpend = s.wkpend := rfl
@[simp] theorem State.onChan_lpm : (s.onChan c f).lpm = s.lpm := rfl
@[simp] theorem State.onChan_wakeIn : (s.onChan c f).wakeIn = s.wakeIn := rfl
@[simp] theorem State.onChan_wakePrev : (s.onChan c f).wakePrev = s.wakePrev := rfl
@[simp] theorem State.onChan_wedge : (s.onChan c f).wedge = s.wedge := rfl
@[simp] theorem State.onChan_sensor : (s.onChan c f).sensor = s.sensor := rfl
@[simp] theorem State.onChan_ind : (s.onChan c f).ind = s.ind := rfl
@[simp] theorem State.onChan_fault : (s.onChan c f).fault = s.fault := rfl
@[simp] theorem State.onChan_chips : (s.onChan c f).chips = s.chips := rfl
@[simp] theorem State.onChan_hostmode : (s.onChan c f).hostmode = s.hostmode := rfl
@[simp] theorem State.onChan_hostq : (s.onChan c f).hostq = s.hostq := rfl
@[simp] theorem State.onChan_agenda : (s.onChan c f).agenda = s.agenda := rfl
@[simp] theorem State.onChan_drawn : (s.onChan c f).drawn = s.drawn := rfl
end

section
variable (s : State) (k : ChipIx)
@[simp] theorem State.clearFrame_cfg : (s.clearFrame k).cfg = s.cfg := rfl
@[simp] theorem State.clearFrame_pos : (s.clearFrame k).pos = s.pos := rfl
@[simp] theorem State.clearFrame_scr : (s.clearFrame k).scr = s.scr := rfl
@[simp] theorem State.clearFrame_res : (s.clearFrame k).res = s.res := rfl
@[simp] theorem State.clearFrame_fbuf : (s.clearFrame k).fbuf = s.fbuf := rfl
@[simp] theorem State.clearFrame_tmr : (s.clearFrame k).tmr = s.tmr := rfl
@[simp] theorem State.clearFrame_cssel : (s.clearFrame k).cssel = s.cssel := rfl
@[simp] theorem State.clearFrame_rawopen : (s.clearFrame k).rawopen = s.rawopen := rfl
@[simp] theorem State.clearFrame_pstate : (s.clearFrame k).pstate = s.pstate := rfl
@[simp] theorem State.clearFrame_errl : (s.clearFrame k).errl = s.errl := rfl
@[simp] theorem State.clearFrame_wken : (s.clearFrame k).wken = s.wken := rfl
@[simp] theorem State.clearFrame_wkpend : (s.clearFrame k).wkpend = s.wkpend := rfl
@[simp] theorem State.clearFrame_lpm : (s.clearFrame k).lpm = s.lpm := rfl
@[simp] theorem State.clearFrame_wakeIn : (s.clearFrame k).wakeIn = s.wakeIn := rfl
@[simp] theorem State.clearFrame_wakePrev : (s.clearFrame k).wakePrev = s.wakePrev := rfl
@[simp] theorem State.clearFrame_wedge : (s.clearFrame k).wedge = s.wedge := rfl
@[simp] theorem State.clearFrame_sensor : (s.clearFrame k).sensor = s.sensor := rfl
@[simp] theorem State.clearFrame_ind : (s.clearFrame k).ind = s.ind := rfl
@[simp] theorem State.clearFrame_fault : (s.clearFrame k).fault = s.fault := rfl
@[simp] theorem State.clearFrame_chips : (s.clearFrame k).chips = s.chips.set k.val { s.chip k with cframe := [] } k.isLt := rfl
@[simp] theorem State.clearFrame_hostmode : (s.clearFrame k).hostmode = s.hostmode := rfl
@[simp] theorem State.clearFrame_hostq : (s.clearFrame k).hostq = s.hostq := rfl
@[simp] theorem State.clearFrame_agenda : (s.clearFrame k).agenda = s.agenda := rfl
@[simp] theorem State.clearFrame_drawn : (s.clearFrame k).drawn = s.drawn := rfl
end

section
variable (s : State) (k : ChipIx)
@[simp] theorem State.select_cfg : (s.select k).cfg = s.cfg := rfl
@[simp] theorem State.select_pos : (s.select k).pos = s.pos := rfl
@[simp] theorem State.select_scr : (s.select k).scr = s.scr := rfl
@[simp] theorem State.select_res : (s.select k).res = s.res := rfl
@[simp] theorem State.select_fbuf : (s.select k).fbuf = s.fbuf := rfl
@[simp] theorem State.select_tmr : (s.select k).tmr = s.tmr := rfl
@[simp] theorem State.select_cssel : (s.select k).cssel = some k := rfl
@[simp] theorem State.select_rawopen : (s.select k).rawopen = s.rawopen := rfl
@[simp] theorem State.select_pstate : (s.select k).pstate = s.pstate := rfl
@[simp] theorem State.select_errl : (s.select k).errl = s.errl := rfl
@[simp] theorem State.select_wken : (s.select k).wken = s.wken := rfl
@[simp] theorem State.select_wkpend : (s.select k).wkpend = s.wkpend := rfl
@[simp] theorem State.select_lpm : (s.select k).lpm = s.lpm := rfl
@[simp] theorem State.select_wakeIn : (s.select k).wakeIn = s.wakeIn := rfl
@[simp] theorem State.select_wakePrev : (s.select k).wakePrev = s.wakePrev := rfl
@[simp] theorem State.select_wedge : (s.select k).wedge = s.wedge := rfl
@[simp] theorem State.select_sensor : (s.select k).sensor = s.sensor := rfl
@[simp] theorem State.select_ind : (s.select k).ind = s.ind := rfl
@[simp] theorem State.select_fault : (s.select k).fault = s.fault := rfl
@[simp] theorem State.select_chips : (s.select k).chips = (s.clearFrame k).chips := rfl
@[simp] theorem State.select_hostmode : (s.select k).hostmode = s.hostmode := rfl
@[simp] theorem State.select_hostq : (s.select k).hostq = s.hostq := rfl
@[simp] theorem State.select_agenda : (s.select k).agenda = s.agenda := rfl
@[simp] theorem State.select_drawn : (s.select k).drawn = s.drawn := rfl
end

section
variable (s : State) (k : ChipIx)
@[simp] theorem State.deselect_cfg : (s.deselect k).cfg = s.cfg := rfl
@[simp] theorem State.deselect_pos : (s.deselect k).pos = s.pos := rfl
@[simp] theorem State.deselect_scr : (s.deselect k).scr = s.scr := rfl
@[simp] theorem State.deselect_res : (s.deselect k).res = s.res := rfl
@[simp] theorem State.deselect_fbuf : (s.deselect k).fbuf = s.fbuf := rfl
@[simp] theorem State.deselect_tmr : (s.deselect k).tmr = s.tmr := rfl
@[simp] theorem State.deselect_cssel : (s.deselect k).cssel = none := rfl
@[simp] theorem State.deselect_rawopen : (s.deselect k).rawopen = s.rawopen := rfl
@[simp] theorem State.deselect_pstate : (s.deselect k).pstate = s.pstate := rfl
@[simp] theorem State.deselect_errl : (s.deselect k).errl = s.errl := rfl
@[simp] theorem State.deselect_wken : (s.deselect k).wken = s.wken := rfl
@[simp] theorem State.deselect_wkpend : (s.deselect k).wkpend = s.wkpend := rfl
@[simp] theorem State.deselect_lpm : (s.deselect k).lpm = s.lpm := rfl
@[simp] theorem State.deselect_wakeIn : (s.deselect k).wakeIn = s.wakeIn := rfl
@[simp] theorem State.deselect_wakePrev : (s.deselect k).wakePrev = s.wakePrev := rfl
@[simp] theorem State.deselect_wedge : (s.deselect k).wedge = s.wedge := rfl
@[simp] theorem State.deselect_sensor : (s.deselect k).sensor = s.sensor := rfl
@[simp] theorem State.deselect_ind : (s.deselect k).ind = s.ind := rfl
@[simp] theorem State.deselect_fault : (s.deselect k).fault = s.fault := rfl
@[simp] theorem State.deselect_chips : (s.deselect k).chips = (s.clearFrame k).chips := rfl
@[simp] theorem State.deselect_hostmode : (s.deselect k).hostmode = s.hostmode := rfl
@[simp] theorem State.deselect_hostq : (s.deselect k).hostq = s.hostq := rfl
@[simp] theorem State.deselect_agenda : (s.deselect k).agenda = s.agenda := rfl
@[simp] theorem State.deselect_drawn : (s.deselect k).drawn = s.drawn := rfl
end

section
variable (s : State) 
@[simp] theorem State.finish_cfg : (s.finish).cfg = s.cfg := rfl
@[simp] theorem State.finish_pos : (s.finish).pos = ⟨.dispatch, 0⟩ := rfl
@[simp] theorem State.finish_scr : (s.finish).scr = Scratch.empty := rfl
@[simp] theorem State.finish_res : (s.finish).res = s.res := rfl
@[simp] theorem State.finish_fbuf : (s.finish).fbuf = s.fbuf := rfl
@[simp] theorem State.finish_tmr : (s.finish).tmr = s.tmr := rfl
@[simp] theorem State.finish_cssel : (s.finish).cssel = s.cssel := rfl
@[simp] theorem State.finish_rawopen : (s.finish).rawopen = s.rawopen := rfl
@[simp] theorem State.finish_pstate : (s.finish).pstate = s.pstate := rfl
@[simp] theorem State.finish_errl : (s.finish).errl = s.errl := rfl
@[simp] theorem State.finish_wken : (s.finish).wken = s.wken := rfl
@[simp] theorem State.finish_wkpend : (s.finish).wkpend = s.wkpend := rfl
@[simp] theorem State.finish_lpm : (s.finish).lpm = s.lpm := rfl
@[simp] theorem State.finish_wakeIn : (s.finish).wakeIn = s.wakeIn := rfl
@[simp] theorem State.finish_wakePrev : (s.finish).wakePrev = s.wakePrev := rfl
@[simp] theorem State.finish_wedge : (s.finish).wedge = s.wedge := rfl
@[simp] theorem State.finish_sensor : (s.finish).sensor = s.sensor := rfl
@[simp] theorem State.finish_ind : (s.finish).ind = s.ind := rfl
@[simp] theorem State.finish_fault : (s.finish).fault = s.fault := rfl
@[simp] theorem State.finish_chips : (s.finish).chips = s.chips := rfl
@[simp] theorem State.finish_hostmode : (s.finish).hostmode = s.hostmode := rfl
@[simp] theorem State.finish_hostq : (s.finish).hostq = s.hostq := rfl
@[simp] theorem State.finish_agenda : (s.finish).agenda = s.agenda := rfl
@[simp] theorem State.finish_drawn : (s.finish).drawn = s.drawn := rfl
end

section
variable (s : State) (h : Handler) (i : Nat) (scr : Scratch)
@[simp] theorem State.goto_cfg : (s.goto h i scr).cfg = s.cfg := rfl
@[simp] theorem State.goto_pos : (s.goto h i scr).pos = ⟨h, i⟩ := rfl
@[simp] theorem State.goto_scr : (s.goto h i scr).scr = scr := rfl
@[simp] theorem State.goto_res : (s.goto h i scr).res = s.res := rfl
@[simp] theorem State.goto_fbuf : (s.goto h i scr).fbuf = s.fbuf := rfl
@[simp] theorem State.goto_tmr : (s.goto h i scr).tmr = s.tmr := rfl
@[simp] theorem State.goto_cssel : (s.goto h i scr).cssel = s.cssel := rfl
@[simp] theorem State.goto_rawopen : (s.goto h i scr).rawopen = s.rawopen := rfl
@[simp] theorem State.goto_pstate : (s.goto h i scr).pstate = s.pstate := rfl
@[simp] theorem State.goto_errl : (s.goto h i scr).errl = s.errl := rfl
@[simp] theorem State.goto_wken : (s.goto h i scr).wken = s.wken := rfl
@[simp] theorem State.goto_wkpend : (s.goto h i scr).wkpend = s.wkpend := rfl
@[simp] theorem State.goto_lpm : (s.goto h i scr).lpm = s.lpm := rfl
@[simp] theorem State.goto_wakeIn : (s.goto h i scr).wakeIn = s.wakeIn := rfl
@[simp] theorem State.goto_wakePrev : (s.goto h i scr).wakePrev = s.wakePrev := rfl
@[simp] theorem State.goto_wedge : (s.goto h i scr).wedge = s.wedge := rfl
@[simp] theorem State.goto_sensor : (s.goto h i scr).sensor = s.sensor := rfl
@[simp] theorem State.goto_ind : (s.goto h i scr).ind = s.ind := rfl
@[simp] theorem State.goto_fault : (s.goto h i scr).fault = s.fault := rfl
@[simp] theorem State.goto_chips : (s.goto h i scr).chips = s.chips := rfl
@[simp] theorem State.goto_hostmode : (s.goto h i scr).hostmode = s.hostmode := rfl
@[simp] theorem State.goto_hostq : (s.goto h i scr).hostq = s.hostq := rfl
@[simp] theorem State.goto_agenda : (s.goto h i scr).agenda = s.agenda := rfl
@[simp] theorem State.goto_drawn : (s.goto h i scr).drawn = s.drawn := rfl
end

section
variable (s : State) 
@[simp] theorem State.dispatch_cfg : (s.dispatch).cfg = s.cfg := rfl
@[simp] theorem State.dispatch_pos : (s.dispatch).pos = ⟨if s.errl then .error else handlerOf s.pstate, 0⟩ := rfl
@[simp] theorem State.dispatch_scr : (s.dispatch).scr = s.scr := rfl
@[simp] theorem State.dispatch_res : (s.dispatch).res = s.res := rfl
@[simp] theorem State.dispatch_fbuf : (s.dispatch).fbuf = s.fbuf := rfl
@[simp] theorem State.dispatch_tmr : (s.dispatch).tmr = s.tmr := rfl
@[simp] theorem State.dispatch_cssel : (s.dispatch).cssel = s.cssel := rfl
@[simp] theorem State.dispatch_rawopen : (s.dispatch).rawopen = s.rawopen := rfl
@[simp] theorem State.dispatch_pstate : (s.dispatch).pstate = s.pstate := rfl
@[simp] theorem State.dispatch_errl : (s.dispatch).errl = s.errl := rfl
@[simp] theorem State.dispatch_wken : (s.dispatch).wken = s.wken := rfl
@[simp] theorem State.dispatch_wkpend : (s.dispatch).wkpend = s.wkpend := rfl
@[simp] theorem State.dispatch_lpm : (s.dispatch).lpm = s.lpm := rfl
@[simp] theorem State.dispatch_wakeIn : (s.dispatch).wakeIn = s.wakeIn := rfl
@[simp] theorem State.dispatch_wakePrev : (s.dispatch).wakePrev = s.wakePrev := rfl
@[simp] theorem State.dispatch_wedge : (s.dispatch).wedge = s.wedge := rfl
@[simp] theorem State.dispatch_sensor : (s.dispatch).sensor = s.sensor := rfl
@[simp] theorem State.dispatch_ind : (s.dispatch).ind = s.ind := rfl
@[simp] theorem State.dispatch_fault : (s.dispatch).fault = s.fault := rfl
@[simp] theorem State.dispatch_chips : (s.dispatch).chips = s.chips := rfl
@[simp] theorem State.dispatch_hostmode : (s.dispatch).hostmode = s.hostmode := rfl
@[simp] theorem State.dispatch_hostq : (s.dispatch).hostq = s.hostq := rfl
@[simp] theorem State.dispatch_agenda : (s.dispatch).agenda = s.agenda := rfl
@[simp] theorem State.dispatch_drawn : (s.dispatch).drawn = s.drawn := rfl
end

section
variable (s : State) 
@[simp] theorem State.bridge_cfg : (s.bridge).cfg = s.cfg := rfl
@[simp] theorem State.bridge_pos : (s.bridge).pos = s.pos := rfl
@[simp] theorem State.bridge_scr : (s.bridge).scr = s.scr := rfl
@[simp] theorem State.bridge_res : (s.bridge).res = s.res := rfl
@[simp] theorem State.bridge_fbuf : (s.bridge).fbuf = s.fbuf := rfl
@[simp] theorem State.bridge_tmr : (s.bridge).tmr = s.tmr.set 0 { s.chan 0 with pend := false } := rfl
@[simp] theorem State.bridge_cssel : (s.bridge).cssel = s.cssel := rfl
@[simp] theorem State.bridge_rawopen : (s.bridge).rawopen = s.rawopen := rfl
@[simp] theorem State.bridge_pstate : (s.bridge).pstate = 0x02 := rfl
@[simp] theorem State.bridge_errl : (s.bridge).errl = s.errl := rfl
@[simp] theorem State.bridge_wken : (s.bridge).wken = s.wken := rfl
@[simp] theorem State.bridge_wkpend : (s.bridge).wkpend = s.wkpend := rfl
@[simp] theorem State.bridge_lpm : (s.bridge).lpm = s.lpm := rfl
@[simp] theorem State.bridge_wakeIn : (s.bridge).wakeIn = s.wakeIn := rfl
@[simp] theorem State.bridge_wakePrev : (s.bridge).wakePrev = s.wakePrev := rfl
@[simp] theorem State.bridge_wedge : (s.bridge).wedge = s.wedge := rfl
@[simp] theorem State.bridge_sensor : (s.bridge).sensor = s.sensor := rfl
@[simp] theorem State.bridge_ind : (s.bridge).ind = s.ind := rfl
@[simp] theorem State.bridge_fault : (s.bridge).fault = s.fault := rfl
@[simp] theorem State.bridge_chips : (s.bridge).chips = s.chips := rfl
@[simp] theorem State.bridge_hostmode : (s.bridge).hostmode = s.hostmode := rfl
@[simp] theorem State.bridge_hostq : (s.bridge).hostq = s.hostq := rfl
@[simp] theorem State.bridge_agenda : (s.bridge).agenda = s.agenda := rfl
@[simp] theorem State.bridge_drawn : (s.bridge).drawn = s.drawn := rfl
end

section
variable (s : State) 
@[simp] theorem State.wakesync_cfg : (s.wakesync).cfg = s.cfg := rfl
@[simp] theorem State.wakesync_pos : (s.wakesync).pos = s.pos := rfl
@[simp] theorem State.wakesync_scr : (s.wakesync).scr = s.scr := rfl
@[simp] theorem State.wakesync_res : (s.wakesync).res = s.res := rfl
@[simp] theorem State.wakesync_fbuf : (s.wakesync).fbuf = s.fbuf := rfl
@[simp] theorem State.wakesync_tmr : (s.wakesync).tmr = s.tmr := rfl
@[simp] theorem State.wakesync_cssel : (s.wakesync).cssel = s.cssel := rfl
@[simp] theorem State.wakesync_rawopen : (s.wakesync).rawopen = s.rawopen := rfl
@[simp] theorem State.wakesync_pstate : (s.wakesync).pstate = s.pstate := rfl
@[simp] theorem State.wakesync_errl : (s.wakesync).errl = s.errl := rfl
@[simp] theorem State.wakesync_wken : (s.wakesync).wken = s.wken := rfl
@[simp] theorem State.wakesync_wkpend : (s.wakesync).wkpend = true := rfl
@[simp] theorem State.wakesync_lpm : (s.wakesync).lpm = s.lpm := rfl
@[simp] theorem State.wakesync_wakeIn : (s.wakesync).wakeIn = s.wakeIn := rfl
@[simp] theorem State.wakesync_wakePrev : (s.wakesync).wakePrev = s.wakePrev := rfl
@[simp] theorem State.wakesync_wedge : (s.wakesync).wedge = false := rfl
@[simp] theorem State.wakesync_sensor : (s.wakesync).sensor = s.sensor := rfl
@[simp] theorem State.wakesync_ind : (s.wakesync).ind = s.ind := rfl
@[simp] theorem State.wakesync_fault : (s.wakesync).fault = s.fault := rfl
@[simp] theorem State.wakesync_chips : (s.wakesync).chips = s.chips := rfl
@[simp] theorem State.wakesync_hostmode : (s.wakesync).hostmode = s.hostmode := rfl
@[simp] theorem State.wakesync_hostq : (s.wakesync).hostq = s.hostq := rfl
@[simp] theorem State.wakesync_agenda : (s.wakesync).agenda = s.agenda := rfl
@[simp] theorem State.wakesync_drawn : (s.wakesync).drawn = s.drawn := rfl
end

section
variable (s : State) (k : ChipIx) (sets : List (Byte × Byte))
@[simp] theorem State.chipStep_cfg : (s.chipStep k sets).cfg = s.cfg := rfl
@[simp] theorem State.chipStep_pos : (s.chipStep k sets).pos = s.pos := rfl
@[simp] theorem State.chipStep_scr : (s.chipStep k sets).scr = s.scr := rfl
@[simp] theorem State.chipStep_res : (s.chipStep k sets).res = s.res := rfl
@[simp] theorem State.chipStep_fbuf : (s.chipStep k sets).fbuf = s.fbuf := rfl
@[simp] theorem State.chipStep_tmr : (s.chipStep k sets).tmr = s.tmr := rfl
@[simp] theorem State.chipStep_cssel : (s.chipStep k sets).cssel = s.cssel := rfl
@[simp] theorem State.chipStep_rawopen : (s.chipStep k sets).rawopen = s.rawopen := rfl
@[simp] theorem State.chipStep_pstate : (s.chipStep k sets).pstate = s.pstate := rfl
@[simp] theorem State.chipStep_errl : (s.chipStep k sets).errl = s.errl := rfl
@[simp] theorem State.chipStep_wken : (s.chipStep k sets).wken = s.wken := rfl
@[simp] theorem State.chipStep_wkpend : (s.chipStep k sets).wkpend = s.wkpend := rfl
@[simp] theorem State.chipStep_lpm : (s.chipStep k sets).lpm = s.lpm := rfl
@[simp] theorem State.chipStep_wakeIn : (s.chipStep k sets).wakeIn = s.wakeIn := rfl
@[simp] theorem State.chipStep_wakePrev : (s.chipStep k sets).wakePrev = s.wakePrev := rfl
@[simp] theorem State.chipStep_wedge : (s.chipStep k sets).wedge = s.wedge := rfl
@[simp] theorem State.chipStep_sensor : (s.chipStep k sets).sensor = s.sensor := rfl
@[simp] theorem State.chipStep_ind : (s.chipStep k sets).ind = s.ind := rfl
@[simp] theorem State.chipStep_fault : (s.chipStep k sets).fault = s.fault := rfl
@[simp] theorem State.chipStep_chips : (s.chipStep k sets).chips = s.chips.set k.val { s.chip k with creg := ownChanges s.cfg k (s.chip k).creg sets } k.isLt := rfl
@[simp] theorem State.chipStep_hostmode : (s.chipStep k sets).hostmode = s.hostmode := rfl
@[simp] theorem State.chipStep_hostq : (s.chipStep k sets).hostq = s.hostq := rfl
@[simp] theorem State.chipStep_agenda : (s.chipStep k sets).agenda = s.agenda := rfl
@[simp] theorem State.chipStep_drawn : (s.chipStep k sets).drawn = s.drawn := rfl
end

section
variable (s : State) (c : FaultCode)
@[simp] theorem State.raise_cfg : (s.raise c).cfg = s.cfg := by unfold State.raise; split <;> rfl
@[simp] theorem State.raise_pos : (s.raise c).pos = s.pos := by unfold State.raise; split <;> rfl
@[simp] theorem State.raise_scr : (s.raise c).scr = s.scr := by unfold State.raise; split <;> rfl
@[simp] theorem State.raise_res : (s.raise c).res = s.res := by unfold State.raise; split <;> rfl
@[simp] theorem State.raise_fbuf : (s.raise c).fbuf = s.fbuf := by unfold State.raise; split <;> rfl
@[simp] theorem State.raise_tmr : (s.raise c).tmr = s.tmr := by unfold State.raise; split <;> rfl
@[simp] theorem State.raise_cssel : (s.raise c).cssel = s.cssel := by unfold State.raise; split <;> rfl
@[simp] theorem State.raise_rawopen : (s.raise c).rawopen = s.rawopen := by unfold State.raise; split <;> rfl
@[simp] theorem State.raise_pstate : (s.raise c).pstate = s.pstate := by unfold State.raise; split <;> rfl
@[simp] theorem State.raise_errl : (s.raise c).errl = s.errl := by unfold State.raise; split <;> rfl
@[simp] theorem State.raise_wken : (s.raise c).wken = s.wken := by unfold State.raise; split <;> rfl
@[simp] theorem State.raise_wkpend : (s.raise c).wkpend = s.wkpend := by unfold State.raise; split <;> rfl
@[simp] theorem State.raise_lpm : (s.raise c).lpm = s.lpm := by unfold State.raise; split <;> rfl
@[simp] theorem State.raise_wakeIn : (s.raise c).wakeIn = s.wakeIn := by unfold State.raise; split <;> rfl
@[simp] theorem State.raise_wakePrev : (s.raise c).wakePrev = s.wakePrev := by unfold State.raise; split <;> rfl
@[simp] theorem State.raise_wedge : (s.raise c).wedge = s.wedge := by unfold State.raise; split <;> rfl
@[simp] theorem State.raise_sensor : (s.raise c).sensor = s.sensor := by unfold State.raise; split <;> rfl
@[simp] theorem State.raise_ind : (s.raise c).ind = s.ind := by unfold State.raise; split <;> rfl
theorem State.raise_fault : (s.raise c).fault = if s.fault = 0 then c.code else s.fault := by
  unfold State.raise; split <;> rfl
@[simp] theorem State.raise_chips : (s.raise c).chips = s.chips := by unfold State.raise; split <;> rfl
@[simp] theorem State.raise_hostmode : (s.raise c).hostmode = s.hostmode := by unfold State.raise; split <;> rfl
@[simp] theorem State.raise_hostq : (s.raise c).hostq = s.hostq := by unfold State.raise; split <;> rfl
@[simp] theorem State.raise_agenda : (s.raise c).agenda = s.agenda := by unfold State.raise; split <;> rfl
@[simp] theorem State.raise_drawn : (s.raise c).drawn = s.drawn := by unfold State.raise; split <;> rfl
end

section
variable (s : State) (level : Bool)
@[simp] theorem State.pin_cfg : (s.pin level).cfg = s.cfg := by unfold State.pin; split <;> rfl
@[simp] theorem State.pin_pos : (s.pin level).pos = s.pos := by unfold State.pin; split <;> rfl
@[simp] theorem State.pin_scr : (s.pin level).scr = s.scr := by unfold State.pin; split <;> rfl
@[simp] theorem State.pin_res : (s.pin level).res = s.res := by unfold State.pin; split <;> rfl
@[simp] theorem State.pin_fbuf : (s.pin level).fbuf = s.fbuf := by unfold State.pin; split <;> rfl
@[simp] theorem State.pin_tmr : (s.pin level).tmr = s.tmr := by unfold State.pin; split <;> rfl
@[simp] theorem State.pin_cssel : (s.pin level).cssel = s.cssel := by unfold State.pin; split <;> rfl
@[simp] theorem State.pin_rawopen : (s.pin level).rawopen = s.rawopen := by unfold State.pin; split <;> rfl
@[simp] theorem State.pin_pstate : (s.pin level).pstate = s.pstate := by unfold State.pin; split <;> rfl
@[simp] theorem State.pin_errl : (s.pin level).errl = s.errl := by unfold State.pin; split <;> rfl
@[simp] theorem State.pin_wken : (s.pin level).wken = s.wken := by unfold State.pin; split <;> rfl
@[simp] theorem State.pin_wkpend : (s.pin level).wkpend = s.wkpend := by unfold State.pin; split <;> rfl
@[simp] theorem State.pin_lpm : (s.pin level).lpm = s.lpm := by unfold State.pin; split <;> rfl
@[simp] theorem State.pin_sensor : (s.pin level).sensor = s.sensor := by unfold State.pin; split <;> rfl
@[simp] theorem State.pin_ind : (s.pin level).ind = s.ind := by unfold State.pin; split <;> rfl
@[simp] theorem State.pin_fault : (s.pin level).fault = s.fault := by unfold State.pin; split <;> rfl
@[simp] theorem State.pin_chips : (s.pin level).chips = s.chips := by unfold State.pin; split <;> rfl
@[simp] theorem State.pin_hostmode : (s.pin level).hostmode = s.hostmode := by unfold State.pin; split <;> rfl
@[simp] theorem State.pin_hostq : (s.pin level).hostq = s.hostq := by unfold State.pin; split <;> rfl
@[simp] theorem State.pin_agenda : (s.pin level).agenda = s.agenda := by unfold State.pin; split <;> rfl
@[simp] theorem State.pin_drawn : (s.pin level).drawn = s.drawn := by unfold State.pin; split <;> rfl
@[simp] theorem State.pin_wakeIn : (s.pin level).wakeIn = level := by
  unfold State.pin; split <;> simp_all
end

section
variable (s : State)
@[simp] theorem State.resumeGuard_cfg : s.resumeGuard.cfg = s.cfg := by
  unfold State.resumeGuard State.resumed; split <;> rfl
@[simp] theorem State.resumeGuard_res : s.resumeGuard.res = s.res := by
  unfold State.resumeGuard State.resumed; split <;> rfl
@[simp] theorem State.resumeGuard_fbuf : s.resumeGuard.fbuf = s.fbuf := by
  unfold State.resumeGuard State.resumed; split <;> rfl
@[simp] theorem State.resumeGuard_tmr : s.resumeGuard.tmr = s.tmr := by
  unfold State.resumeGuard State.resumed; split <;> rfl
@[simp] theorem State.resumeGuard_cssel : s.resumeGuard.cssel = s.cssel := by
  unfold State.resumeGuard State.resumed; split <;> rfl
@[simp] theorem State.resumeGuard_rawopen : s.resumeGuard.rawopen = s.rawopen := by
  unfold State.resumeGuard State.resumed; split <;> rfl
@[simp] theorem State.resumeGuard_pstate : s.resumeGuard.pstate = 0x04 := by
  unfold State.resumeGuard State.resumed; split <;> rfl
@[simp] theorem State.resumeGuard_errl : s.resumeGuard.errl = s.errl := by
  unfold State.resumeGuard State.resumed; split <;> rfl
@[simp] theorem State.resumeGuard_wken : s.resumeGuard.wken = false := by
  unfold State.resumeGuard State.resumed; split <;> rfl
@[simp] theorem State.resumeGuard_wkpend : s.resumeGuard.wkpend = false := by
  unfold State.resumeGuard State.resumed; split <;> rfl
@[simp] theorem State.resumeGuard_lpm : s.resumeGuard.lpm = false := by
  unfold State.resumeGuard State.resumed; split <;> rfl
@[simp] theorem State.resumeGuard_wakeIn : s.resumeGuard.wakeIn = s.wakeIn := by
  unfold State.resumeGuard State.resumed; split <;> rfl
@[simp] theorem State.resumeGuard_wakePrev : s.resumeGuard.wakePrev = s.wakePrev := by
  unfold State.resumeGuard State.resumed; split <;> rfl
@[simp] theorem State.resumeGuard_wedge : s.resumeGuard.wedge = s.wedge := by
  unfold State.resumeGuard State.resumed; split <;> rfl
@[simp] theorem State.resumeGuard_sensor : s.resumeGuard.sensor = s.sensor := by
  unfold State.resumeGuard State.resumed; split <;> rfl
@[simp] theorem State.resumeGuard_ind : s.resumeGuard.ind = s.ind := by
  unfold State.resumeGuard State.resumed; split <;> rfl
@[simp] theorem State.resumeGuard_fault : s.resumeGuard.fault = s.fault := by
  unfold State.resumeGuard State.resumed; split <;> rfl
@[simp] theorem State.resumeGuard_chips : s.resumeGuard.chips = s.chips := by
  unfold State.resumeGuard State.resumed; split <;> rfl
@[simp] theorem State.resumeGuard_hostmode : s.resumeGuard.hostmode = s.hostmode := by
  unfold State.resumeGuard State.resumed; split <;> rfl
@[simp] theorem State.resumeGuard_hostq : s.resumeGuard.hostq = s.hostq := by
  unfold State.resumeGuard State.resumed; split <;> rfl
@[simp] theorem State.resumeGuard_agenda : s.resumeGuard.agenda = s.agenda := by
  unfold State.resumeGuard State.resumed; split <;> rfl
@[simp] theorem State.resumeGuard_drawn : s.resumeGuard.drawn = s.drawn := by
  unfold State.resumeGuard State.resumed; split <;> rfl
theorem State.resumeGuard_pos :
    s.resumeGuard.pos = if s.hostmode = false ∧ s.pos = ⟨.sleeping, 2⟩ then ⟨.dispatch, 0⟩ else s.pos := by
  unfold State.resumeGuard State.resumed
  cases h : s.hostmode <;> simp [State.finish, apply_ite State.pos]
theorem State.resumeGuard_scr :
    s.resumeGuard.scr = if s.hostmode = false ∧ s.pos = ⟨.sleeping, 2⟩ then Scratch.empty else s.scr := by
  unfold State.resumeGuard State.resumed
  cases h : s.hostmode <;> simp [State.finish, apply_ite State.scr]
end

/-! ## The indexed parts -/

section
variable (s : State)

@[simp] theorem State.chan_setChan (c : ChanIx) (ch : Channel) : (s.setChan c ch).chan c = ch := by
  simp [State.chan]

@[simp] theorem State.chan_setChan_ne {c c' : ChanIx} (ch : Channel) (h : c' ≠ c) :
    (s.setChan c ch).chan c' = s.chan c' := by
  have : c.val ≠ c'.val := fun e => h (Fin.ext e.symm)
  simp [State.chan, this]

@[simp] theorem State.chan_onChan (c : ChanIx) (f : Channel → Channel) :
    (s.onChan c f).chan c = f (s.chan c) := s.chan_setChan c _

@[simp] theorem State.chan_onChan_ne {c c' : ChanIx} (f : Channel → Channel) (h : c' ≠ c) :
    (s.onChan c f).chan c' = s.chan c' := s.chan_setChan_ne _ h

@[simp] theorem State.chip_setChip (k : ChipIx) (ch : Chip) : (s.setChip k ch).chip k = ch := by
  simp [State.chip]

@[simp] theorem State.chip_setChip_ne {k k' : ChipIx} (ch : Chip) (h : k' ≠ k) :
    (s.setChip k ch).chip k' = s.chip k' := by
  have : k.val ≠ k'.val := fun e => h (Fin.ext e.symm)
  simp [State.chip, this]

theorem State.chan_eq_of_tmr {s t : State} (h : t.tmr = s.tmr) (c : ChanIx) : t.chan c = s.chan c := by
  simp [State.chan, h]

theorem State.chip_eq_of_chips {s t : State} (h : t.chips = s.chips) (k : ChipIx) :
    t.chip k = s.chip k := by
  simp [State.chip, h]
end

section
variable (f : RegFile)

@[simp] theorem RegFile.read_write (a v : Byte) : RegFile.read (RegFile.write f a v) a = v := by
  simp [RegFile.read, RegFile.write]

@[simp] theorem RegFile.read_write_ne {a b : Byte} (v : Byte) (h : b ≠ a) :
    RegFile.read (RegFile.write f a v) b = RegFile.read f b := by
  have : a.toNat ≠ b.toNat := fun e => h (BitVec.eq_of_toNat_eq e.symm)
  simp [RegFile.read, RegFile.write, this]

theorem RegFile.read_write_eq (a b v : Byte) :
    RegFile.read (RegFile.write f a v) b = if b = a then v else RegFile.read f b := by
  split
  · next h => subst h; simp
  · next h => simp [h]

theorem RegFile.ext_read {f g : RegFile} (h : ∀ a, RegFile.read f a = RegFile.read g a) : f = g := by
  apply Vector.ext
  intro i hi
  have := h (BitVec.ofNat 8 i)
  simpa [RegFile.read, Nat.mod_eq_of_lt hi] using this
end

section
variable (f : Vector (Option Byte) 16)

theorem fbufRead_fbufWrite (i j : Nat) (b : Byte) (hi : i < 16) :
    fbufRead (fbufWrite f i b) j = if j = i then some b else fbufRead f j := by
  unfold fbufRead fbufWrite
  rw [Vector.getElem?_setIfInBounds]
  split
  · next h => subst h; simp
  · next h => simp [Ne.symm h]

@[simp] theorem fbufRead_reset (i : Nat) : fbufRead State.reset.fbuf i = none := by
  unfold fbufRead State.reset
  simp [Vector.getElem?_replicate]
  split <;> rfl
end

section
variable (v : Vector (Option Byte) 4)

theorem sensorRead_sensorWrite (i j : BitVec 2) (b : Byte) :
    sensorRead (sensorWrite v i b) j = if j = i then some b else sensorRead v j := by
  unfold sensorRead sensorWrite
  rw [Vector.getElem_set]
  split
  · next h => rw [if_pos (BitVec.eq_of_toNat_eq h.symm)]
  · next h => rw [if_neg fun e => h (congrArg BitVec.toNat e.symm)]
end

end Sys2Proof.Machine
end

