-- ==== Sys2Proof/Laws/Chip.lean ====
section
/-! SUPPORT. What one byte exchange does to the chip (41_regbus.md R160 to R170), said once, and what the
chip's own step does (R169). -/

namespace Sys2Proof.Machine

open Sys2Proof

section
variable {cfg : Config} {k : ChipIx} {n n' : Nat} {c c' : Chip} {o r : Byte}

/-- What a byte exchange that is not refused can do to the registers. -/
theorem Chip.exchange_cases (h : c.exchange cfg k n o = .ok (r, c', n')) :
    (∃ cmd, byteRole cfg c.cframe o = .command cmd ∧ c'.creg = commandEffect cfg k c.creg cmd ∧
        n' = n + 1) ∨
    (∃ a : Nat, byteRole cfg c.cframe o = .readReg a ∧ a ≤ 0xFF ∧ cfg.implemented k (BitVec.ofNat 8 a) ∧
        r = RegFile.read c.creg (BitVec.ofNat 8 a) ∧ c'.creg = c.creg ∧ n' = n + 1) ∨
    (∃ a : Nat, byteRole cfg c.cframe o = .writeReg a ∧ a ≤ 0xFF ∧ cfg.implemented k (BitVec.ofNat 8 a) ∧
        c'.creg = RegFile.write c.creg (BitVec.ofNat 8 a)
          (storedValue cfg k (n + 1) c.creg (BitVec.ofNat 8 a) o) ∧ n' = n + 2) ∨
    (∃ a m : Byte, byteRole cfg c.cframe o = .modify a m ∧ cfg.implemented k a ∧
        c'.creg = RegFile.write c.creg a
          (storedValue cfg k (n + 1) c.creg a (modifiedValue cfg k (n + 1) c.creg a m o)) ∧ n' = n + 2) ∨
    (byteRole cfg c.cframe o = .status ∧ r = statusByte cfg c.creg ∧ c'.creg = c.creg ∧ n' = n + 1) ∨
    (byteRole cfg c.cframe o = .ignored ∧ c'.creg = c.creg ∧ n' = n + 1) := by
  unfold Chip.exchange at h
  cases hr : byteRole cfg c.cframe o <;> simp only [hr] at h
  case command cmd => simp at h; grind
  case readReg a =>
    unfold regAddr at h
    split at h <;> grind
  case writeReg a =>
    unfold regAddr at h
    split at h <;> grind
  case modify a m =>
    unfold regAddr at h
    have : ¬ 255 < a.toNat := by omega
    simp [this] at h
    split at h <;> grind
  case status => simp at h; grind
  case ignored => simp at h; grind
  case reserved => simp at h

/-- The byte joins the frame. -/
theorem Chip.exchange_cframe (h : c.exchange cfg k n o = .ok (r, c', n')) :
    c'.cframe = c.cframe ++ [o] := by
  unfold Chip.exchange at h
  split at h <;> (try split at h) <;> simp at h <;> grind

/-- The first byte of a frame is a wire command, or the exchange is refused (R167 a). -/
theorem Chip.exchange_first (h : c.exchange cfg k n o = .ok (r, c', n')) (hf : c.cframe = []) :
    (WireCmd.ofByte o).isSome := by
  unfold Chip.exchange byteRole at h
  rw [hf] at h
  cases hc : WireCmd.ofByte o with
  | some _ => rfl
  | none => simp [hc] at h

end

/-- Why a byte exchange can be refused (R167). -/
theorem Chip.exchange_error {cfg : Config} {k : ChipIx} {n : Nat} {c : Chip} {o : Byte} {r : Refusal}
    (h : c.exchange cfg k n o = .error r) :
    r = .reservedWireCommand ∨ r = .registerNotImplemented ∨ r = .addressPastEnd := by
  unfold Chip.exchange regAddr at h
  split at h
  · cases h; simp
  · cases h
  all_goals first | (cases h) | skip
  all_goals
    split at h
    · next he => split at he <;> simp at he h <;> grind
    · cases h

/-! ## The exchange for each role -/

section
variable {cfg : Config} {k : ChipIx} {n : Nat} {c : Chip} {o : Byte}

theorem Chip.exchange_command {cmd : WireCmd} (h : byteRole cfg c.cframe o = .command cmd) :
    c.exchange cfg k n o =
      .ok (cfg.draw n, ⟨commandEffect cfg k c.creg cmd, c.cframe ++ [o]⟩, n + 1) := by
  simp only [Chip.exchange, h]

theorem Chip.exchange_readReg {a : Nat} (h : byteRole cfg c.cframe o = .readReg a) (ha : a ≤ 0xFF)
    (hi : cfg.implemented k (BitVec.ofNat 8 a)) :
    c.exchange cfg k n o =
      .ok (RegFile.read c.creg (BitVec.ofNat 8 a), ⟨c.creg, c.cframe ++ [o]⟩, n + 1) := by
  simp only [Chip.exchange, h, regAddr, if_neg (Nat.not_lt.mpr ha), hi, if_true]

theorem Chip.exchange_writeReg {a : Nat} (h : byteRole cfg c.cframe o = .writeReg a) (ha : a ≤ 0xFF)
    (hi : cfg.implemented k (BitVec.ofNat 8 a)) :
    c.exchange cfg k n o = .ok (cfg.draw n, ⟨RegFile.write c.creg (BitVec.ofNat 8 a)
      (storedValue cfg k (n + 1) c.creg (BitVec.ofNat 8 a) o), c.cframe ++ [o]⟩, n + 2) := by
  simp only [Chip.exchange, h, regAddr, if_neg (Nat.not_lt.mpr ha), hi, if_true]

theorem Chip.exchange_modify {a m : Byte} (h : byteRole cfg c.cframe o = .modify a m)
    (hi : cfg.implemented k a) :
    c.exchange cfg k n o = .ok (cfg.draw n, ⟨RegFile.write c.creg a
      (storedValue cfg k (n + 1) c.creg a (modifiedValue cfg k (n + 1) c.creg a m o)),
      c.cframe ++ [o]⟩, n + 2) := by
  have ha : ¬ 0xFF < a.toNat := by omega
  simp only [Chip.exchange, h, regAddr, if_neg ha, BitVec.ofNat_toNat, BitVec.setWidth_eq, hi, if_true]

theorem Chip.exchange_status (h : byteRole cfg c.cframe o = .status) :
    c.exchange cfg k n o = .ok (statusByte cfg c.creg, ⟨c.creg, c.cframe ++ [o]⟩, n + 1) := by
  simp only [Chip.exchange, h]

theorem Chip.exchange_ignored (h : byteRole cfg c.cframe o = .ignored) :
    c.exchange cfg k n o = .ok (cfg.draw n, ⟨c.creg, c.cframe ++ [o]⟩, n + 1) := by
  simp only [Chip.exchange, h]

theorem Chip.exchange_reserved (h : byteRole cfg c.cframe o = .reserved) :
    c.exchange cfg k n o = .error .reservedWireCommand := by
  simp only [Chip.exchange, h]

theorem Chip.exchange_unimplemented {a : Nat} (ha : a ≤ 0xFF)
    (hi : cfg.implemented k (BitVec.ofNat 8 a) = false)
    (h : byteRole cfg c.cframe o = .readReg a ∨ byteRole cfg c.cframe o = .writeReg a) :
    c.exchange cfg k n o = .error .registerNotImplemented := by
  rcases h with h | h <;>
    simp [Chip.exchange, h, regAddr, if_neg (Nat.not_lt.mpr ha), hi]

end

/-! ## Wire commands and their bytes -/

@[simp] theorem WireCmd.ofByte_toByte (c : WireCmd) (h : c.toInstr.encodable) :
    WireCmd.ofByte c.toByte = some c := by
  cases c with
  | rts t => revert t; decide
  | readRx nm => revert nm; decide
  | loadTx abc => revert abc; decide
  | _ => rfl

theorem byteRole_nil (cfg : Config) {o : Byte} {c : WireCmd} (h : WireCmd.ofByte o = some c) :
    byteRole cfg [] o = .command c := by
  simp [byteRole, h]

theorem byteRole_cons (cfg : Config) {f : Byte} {c : WireCmd} (args : List Byte) (o : Byte)
    (h : WireCmd.ofByte f = some c) : byteRole cfg (f :: args) o = laterRole cfg c args := by
  simp [byteRole, h]

/-! ## Registers after a command -/

theorem read_requestBuffer (cfg : Config) (t : BitVec 3) (f : RegFile) (j : Fin 3) (a : Byte) :
    RegFile.read (requestBuffer cfg t f j) a =
      if t.getLsbD j.val ∧ a = txbctrl cfg j then RegFile.read f a ||| cfg.map.txreqBit
      else RegFile.read f a := by
  unfold requestBuffer
  split
  · next h =>
    rw [RegFile.read_write_eq]
    by_cases ha : a = txbctrl cfg j
    · subst ha; simp [h]
    · simp [ha]
  · next h => rw [if_neg fun e => h e.1]

/-- The register whose mode field is set has configuration mode's code in it, its other bits as before. -/
theorem read_withConfigMode (f : RegFile) (a mask : Byte) :
    RegFile.read (withConfigMode f a mask) a = (RegFile.read f a &&& ~~~mask) ||| Mode.config.bits := by
  simp [withConfigMode]

theorem read_withConfigMode_ne (f : RegFile) {a b : Byte} (mask : Byte) (h : b ≠ a) :
    RegFile.read (withConfigMode f a mask) b = RegFile.read f b := by
  simp [withConfigMode, h]

/-- The mode registers of the reset image, and its other registers, which are the chip's own. -/
theorem read_resetImage (cfg : Config) (k : ChipIx) (h : cfg.map.canstat ≠ cfg.map.canctrl) :
    RegFile.read (resetImage cfg k) cfg.map.canstat =
        (RegFile.read cfg.chipResetImage[k] cfg.map.canstat &&& ~~~cfg.map.opmodMask) ||| Mode.config.bits ∧
    RegFile.read (resetImage cfg k) cfg.map.canctrl =
        (RegFile.read cfg.chipResetImage[k] cfg.map.canctrl &&& ~~~cfg.map.reqopMask) ||| Mode.config.bits ∧
    ∀ a, a ≠ cfg.map.canstat → a ≠ cfg.map.canctrl →
      RegFile.read (resetImage cfg k) a = RegFile.read cfg.chipResetImage[k] a := by
  refine ⟨?_, ?_, fun a h1 h2 => ?_⟩
  · rw [resetImage, read_withConfigMode_ne _ _ h, read_withConfigMode]
  · rw [resetImage, read_withConfigMode, read_withConfigMode_ne _ _ (Ne.symm h)]
  · rw [resetImage, read_withConfigMode_ne _ _ h2, read_withConfigMode_ne _ _ h1]

/-! ## The chip's own step -/

theorem ownChanges_outside {cfg : Config} {k : ChipIx} {a : Byte} (ha : cfg.isVolatile k a = false)
    (sets : List (Byte × Byte)) (f : RegFile) :
    RegFile.read (ownChanges cfg k f sets) a = RegFile.read f a := by
  induction sets generalizing f with
  | nil => rfl
  | cons p rest ih =>
    obtain ⟨b, v⟩ := p
    simp only [ownChanges]
    rw [ih]
    split
    · next h =>
      have hb : a ≠ b := by
        rintro rfl
        simp [ownChangeOk, ha] at h
      simp [hb]
    · rfl

/-- Where the mode requested and the wake enable are not the chip's own, a chip step leaves its mode field as
R169 allows. -/
theorem ownChanges_mode {cfg : Config} {k : ChipIx} (h1 : cfg.isVolatile k cfg.map.canctrl = false)
    (h2 : cfg.isVolatile k cfg.map.caninte = false) (sets : List (Byte × Byte)) : ∀ f : RegFile,
    let mode (f : RegFile) := RegFile.read f cfg.map.canstat &&& cfg.map.opmodMask
    let asked := RegFile.read f cfg.map.canctrl &&& cfg.map.reqopMask
    let new := mode (ownChanges cfg k f sets)
    new = mode f ∨ new = asked ∨ (new = Mode.listen.bits ∧ RegFile.read f cfg.map.caninte &&& cfg.map.wakieBit ≠ 0 ∧
      (mode f = Mode.sleep.bits ∨ asked = Mode.sleep.bits)) := by
  induction sets with
  | nil => intro f; exact .inl rfl
  | cons p rest ih =>
    intro f
    obtain ⟨a, v⟩ := p
    simp only [ownChanges]
    by_cases h : ownChangeOk cfg k f a v = true
    · rw [if_pos h]
      have hv : cfg.isVolatile k a = true := by
        simp only [ownChangeOk, Bool.and_eq_true] at h; exact h.1
      have n1 : cfg.map.canctrl ≠ a := by rintro rfl; simp [h1] at hv
      have n2 : cfg.map.caninte ≠ a := by rintro rfl; simp [h2] at hv
      have ih := ih (RegFile.write f a v)
      simp only [RegFile.read_write_ne _ _ n1, RegFile.read_write_ne _ _ n2] at ih
      by_cases hc : cfg.map.canstat = a
      · subst hc
        simp only [RegFile.read_write] at ih
        have hm : modeChangeOk cfg f v = true := by simpa [ownChangeOk, hv] using h
        simp only [modeChangeOk, anyBit, Bool.or_eq_true, Bool.and_eq_true, beq_iff_eq, bne_iff_ne] at hm
        have : (Mode.listen.bits : Byte) ≠ Mode.sleep.bits := by decide
        grind
      · simp only [RegFile.read_write_ne _ _ hc] at ih
        exact ih
    · rw [if_neg h]; exact ih f

end Sys2Proof.Machine
end

