-- ==== Sys2Proof/Laws/Frame.lean ====
section
/-! SUPPORT. What a byte exchange and a whole frame do to the state (41_regbus.md R143, R145), and the
registers and replies of each frame of 30_encoding.md R88. -/

namespace Sys2Proof.Machine

open Sys2Proof

/-- The exchanges of a list of bytes with one chip. -/
def Chip.exchangeAll (cfg : Config) (k : ChipIx) :
    Nat → Chip → List Byte → Except Refusal (List Byte × Chip × Nat)
  | n, c, [] => .ok ([], c, n)
  | n, c, o :: os =>
    match c.exchange cfg k n o with
    | .error r => .error r
    | .ok (reply, c', n') => match Chip.exchangeAll cfg k n' c' os with
      | .error r => .error r
      | .ok (replies, c'', n'') => .ok (reply :: replies, c'', n'')

/-- The state once chip k and the count of draws are c and n. -/
def State.withChip (s : State) (k : ChipIx) (c : Chip) (n : Nat) : State :=
  { s.setChip k c with drawn := n }

section
variable (s : State) (k : ChipIx) (c c' : Chip) (n n' : Nat)

@[simp] theorem State.withChip_chip : (s.withChip k c n).chip k = c := State.chip_setChip s k c

@[simp] theorem State.withChip_chip_ne {k' : ChipIx} (h : k' ≠ k) :
    (s.withChip k c n).chip k' = s.chip k' := State.chip_setChip_ne s c h

@[simp] theorem State.withChip_drawn : (s.withChip k c n).drawn = n := rfl
@[simp] theorem State.withChip_cfg : (s.withChip k c n).cfg = s.cfg := rfl

theorem State.withChip_withChip : (s.withChip k c n).withChip k c' n' = s.withChip k c' n' := by
  simp [State.withChip, State.setChip]

theorem State.withChip_self : s.withChip k (s.chip k) s.drawn = s := by
  simp [State.withChip, State.setChip, State.chip]

theorem State.xfer_eq (o : Byte) :
    s.xfer k o = match (s.chip k).exchange s.cfg k s.drawn o with
      | .error r => .error r
      | .ok (reply, c, n) => .ok (reply, s.withChip k c n) := rfl

theorem State.xferAll_eq (os : List Byte) :
    s.xferAll k os = match Chip.exchangeAll s.cfg k s.drawn (s.chip k) os with
      | .error r => .error r
      | .ok (replies, c, n) => .ok (replies, s.withChip k c n) := by
  induction os generalizing s with
  | nil => simp [State.xferAll, Chip.exchangeAll, State.withChip_self]
  | cons o os ih =>
    simp only [State.xferAll, Chip.exchangeAll, State.xfer_eq]
    cases h : (s.chip k).exchange s.cfg k s.drawn o with
    | error r => rfl
    | ok x =>
      obtain ⟨reply, c1, n1⟩ := x
      simp only [ih, State.withChip_chip, State.withChip_drawn, State.withChip_cfg]
      cases Chip.exchangeAll s.cfg k n1 c1 os with
      | error r => rfl
      | ok y =>
        obtain ⟨replies, c2, n2⟩ := y
        simp [State.withChip_withChip]

/-- The state after a frame that left chip k's registers f: no chip is selected and no frame is open on k. -/
def State.afterFrame (s : State) (k : ChipIx) (f : RegFile) (n : Nat) : State :=
  { s.setChip k ⟨f, []⟩ with cssel := none, drawn := n }

theorem State.frame_eq (os : List Byte) :
    s.frame k os = match Chip.exchangeAll s.cfg k s.drawn ⟨(s.chip k).creg, []⟩ os with
      | .error r => .error r
      | .ok (replies, c, n) => .ok (replies, s.afterFrame k c.creg n) := by
  have hc : (s.select k).chip k = ⟨(s.chip k).creg, []⟩ := State.chip_setChip s k _
  rw [State.frame, State.xferAll_eq, hc]
  have hd : (s.select k).drawn = s.drawn := rfl
  have hf : (s.select k).cfg = s.cfg := rfl
  rw [hd, hf]
  cases Chip.exchangeAll s.cfg k s.drawn ⟨(s.chip k).creg, []⟩ os with
  | error r => rfl
  | ok y =>
    obtain ⟨replies, c2, n2⟩ := y
    simp [State.deselect, State.clearFrame, State.withChip, State.afterFrame, State.select, State.setChip,
      State.chip]

end

/-! ## The fields of the state after a frame -/

section
variable (s : State) (k : ChipIx) (f : RegFile) (n : Nat)

@[simp] theorem State.afterFrame_chip : (s.afterFrame k f n).chip k = ⟨f, []⟩ := State.chip_setChip s k _

@[simp] theorem State.afterFrame_chip_ne {k' : ChipIx} (h : k' ≠ k) :
    (s.afterFrame k f n).chip k' = s.chip k' := State.chip_setChip_ne s _ h

@[simp] theorem State.afterFrame_creg (a : Byte) : (s.afterFrame k f n).creg k a = RegFile.read f a := by
  simp [State.creg]

@[simp] theorem State.afterFrame_creg_ne {k' : ChipIx} (h : k' ≠ k) (a : Byte) :
    (s.afterFrame k f n).creg k' a = s.creg k' a := by
  simp [State.creg, h]

/-- A frame leaves everything but the chip, the select and the count of draws. -/
theorem State.afterFrame_rest :
    s.afterFrame k f n = { s with
      cssel := none, chips := (s.afterFrame k f n).chips, drawn := (s.afterFrame k f n).drawn } := rfl

theorem sendFrame_eq (os : List Byte) (g : List Byte → State → State) :
    sendFrame k os s g = match Chip.exchangeAll s.cfg k s.drawn ⟨(s.chip k).creg, []⟩ os with
      | .error r => .refused r
      | .ok (replies, c, n) => .next (g replies (s.afterFrame k c.creg n)) := by
  rw [sendFrame, State.frame_eq]
  cases Chip.exchangeAll s.cfg k s.drawn ⟨(s.chip k).creg, []⟩ os <;> rfl
end

/-! ## The frames of R88 -/

/-- The registers after data bytes are stored at addresses a, a + 1, ... from the n-th draw on (R164, R168,
R170). -/
def storeData (cfg : Config) (k : ChipIx) : Nat → RegFile → Nat → List Byte → RegFile
  | _, f, _, [] => f
  | n, f, a, d :: ds =>
    storeData cfg k (n + 2)
      (RegFile.write f (BitVec.ofNat 8 a) (storedValue cfg k (n + 1) f (BitVec.ofNat 8 a) d)) (a + 1) ds

/-- The registers at a, a + 1, ..., a + m - 1. -/
def readData (f : RegFile) (a : Nat) : Nat → List Byte
  | 0 => []
  | m + 1 => RegFile.read f (BitVec.ofNat 8 a) :: readData f (a + 1) m

theorem RunOk.tail {cfg : Config} {k : ChipIx} {a m : Nat}
    (h : RunOk cfg k a (m + 1)) :
    (a ≤ 0xFF ∧ cfg.implemented k (BitVec.ofNat 8 a) = true) ∧ RunOk cfg k (a + 1) m := by
  refine ⟨by simpa using h 0 (by omega), fun i hi => ?_⟩
  have := h (i + 1) (by omega)
  rwa [show a + 1 + i = a + (i + 1) by omega]

@[simp] theorem readData_length (f : RegFile) (a m : Nat) : (readData f a m).length = m := by
  induction m generalizing a with
  | zero => rfl
  | succ m ih => simp [readData, ih]

theorem readData_getElem? (f : RegFile) (a m i : Nat) (hi : i < m) :
    (readData f a m)[i]? = some (RegFile.read f (BitVec.ofNat 8 (a + i))) := by
  induction m generalizing a i with
  | zero => omega
  | succ m ih =>
    cases i with
    | zero => simp [readData]
    | succ i =>
      rw [readData, List.getElem?_cons_succ, ih (a + 1) i (by omega)]
      congr 3; omega

section
variable {cfg : Config} {k : ChipIx}

/-- The data bytes of a write or load frame, whose roles are stores at a, a + 1, ... . -/
theorem exchangeAll_store {cmd : WireCmd} {fb : Byte} (hcmd : WireCmd.ofByte fb = some cmd)
    (ds : List Byte) : ∀ (n a : Nat) (c : Chip) (args : List Byte), c.cframe = fb :: args →
    (∀ xs : List Byte, laterRole cfg cmd (args ++ xs) = .writeReg (a + xs.length)) →
    RunOk cfg k a ds.length →
    ∃ replies, replies.length = ds.length ∧ Chip.exchangeAll cfg k n c ds =
      .ok (replies, ⟨storeData cfg k n c.creg a ds, c.cframe ++ ds⟩, n + 2 * ds.length) := by
  induction ds with
  | nil => intro n a c args hf hr hi; exact ⟨[], rfl, by simp [Chip.exchangeAll, storeData]⟩
  | cons d ds ih =>
    intro n a c args hf hr hi
    obtain ⟨⟨ha, hai⟩, hrest⟩ := RunOk.tail hi
    have h0 : byteRole cfg c.cframe d = .writeReg a := by
      rw [hf, byteRole_cons cfg args d hcmd]; simpa using hr []
    have hx := Chip.exchange_writeReg (k := k) (n := n) h0 ha hai
    obtain ⟨rs, hl, he⟩ := ih (n + 2) (a + 1)
      ⟨RegFile.write c.creg (BitVec.ofNat 8 a) (storedValue cfg k (n + 1) c.creg (BitVec.ofNat 8 a) d),
        c.cframe ++ [d]⟩ (args ++ [d]) (by simp [hf])
      (fun xs => by simpa [Nat.add_assoc, Nat.add_comm 1] using hr (d :: xs)) hrest
    refine ⟨cfg.draw n :: rs, by simp [hl], ?_⟩
    simp only [Chip.exchangeAll, hx, he]
    simp [storeData, Nat.mul_add, Nat.add_assoc, Nat.add_comm 2]

/-- The data bytes of a read frame, whose replies are the registers from a on. -/
theorem exchangeAll_read {cmd : WireCmd} {fb : Byte} (hcmd : WireCmd.ofByte fb = some cmd)
    (os : List Byte) : ∀ (n a : Nat) (c : Chip) (args : List Byte), c.cframe = fb :: args →
    (∀ xs : List Byte, laterRole cfg cmd (args ++ xs) = .readReg (a + xs.length)) →
    RunOk cfg k a os.length →
    Chip.exchangeAll cfg k n c os =
      .ok (readData c.creg a os.length, ⟨c.creg, c.cframe ++ os⟩, n + os.length) := by
  induction os with
  | nil => intro n a c args hf hr hi; simp [Chip.exchangeAll, readData]
  | cons o os ih =>
    intro n a c args hf hr hi
    obtain ⟨⟨ha, hai⟩, hrest⟩ := RunOk.tail hi
    have h0 : byteRole cfg c.cframe o = .readReg a := by
      rw [hf, byteRole_cons cfg args o hcmd]; simpa using hr []
    have hx := Chip.exchange_readReg (k := k) (n := n) h0 ha hai
    have he := ih (n + 1) (a + 1) ⟨c.creg, c.cframe ++ [o]⟩ (args ++ [o]) (by simp [hf])
      (fun xs => by simpa [Nat.add_assoc, Nat.add_comm 1] using hr (o :: xs)) hrest
    simp only [Chip.exchangeAll, hx, he]
    simp [readData, Nat.add_assoc, Nat.add_comm 1]

theorem exchangeAll_cons {n n' : Nat} {c c' : Chip} {o r : Byte} (os : List Byte)
    (h : c.exchange cfg k n o = .ok (r, c', n')) :
    Chip.exchangeAll cfg k n c (o :: os) = match Chip.exchangeAll cfg k n' c' os with
      | .error e => .error e
      | .ok (replies, c'', n'') => .ok (r :: replies, c'', n'') := by
  simp only [Chip.exchangeAll, h]

variable (n : Nat) (f : RegFile)

/-- The command byte of a frame that does nothing at byte 0. -/
theorem exchange_head {cmd : WireCmd} (hc : cmd.toInstr.encodable)
    (he : commandEffect cfg k f cmd = f) :
    Chip.exchange cfg k n ⟨f, []⟩ cmd.toByte = .ok (cfg.draw n, ⟨f, [cmd.toByte]⟩, n + 1) := by
  rw [Chip.exchange_command (byteRole_nil cfg (WireCmd.ofByte_toByte cmd hc)), he]; rfl

theorem exchangeAll_reset : Chip.exchangeAll cfg k n ⟨f, []⟩ [WireCmd.reset.toByte] =
    .ok ([cfg.draw n], ⟨resetImage cfg k, [0xC0]⟩, n + 1) := by
  rw [exchangeAll_cons [] (Chip.exchange_command (byteRole_nil cfg (WireCmd.ofByte_toByte .reset rfl)))]
  rfl

theorem exchangeAll_rts (t : BitVec 3) : Chip.exchangeAll cfg k n ⟨f, []⟩ [(WireCmd.rts t).toByte] =
    .ok ([cfg.draw n], ⟨commandEffect cfg k f (.rts t), [(WireCmd.rts t).toByte]⟩, n + 1) := by
  rw [exchangeAll_cons [] (Chip.exchange_command (byteRole_nil cfg (WireCmd.ofByte_toByte (.rts t) rfl)))]
  rfl

theorem exchangeAll_readReg (a : Byte) (hi : cfg.implemented k a = true) :
    Chip.exchangeAll cfg k n ⟨f, []⟩ [WireCmd.read.toByte, a, 0x00] =
      .ok ([cfg.draw n, cfg.draw (n + 1), RegFile.read f a], ⟨f, [0x03, a, 0x00]⟩, n + 3) := by
  have h1 : Chip.exchange cfg k (n + 1) ⟨f, [0x03]⟩ a = .ok (cfg.draw (n + 1), ⟨f, [0x03, a]⟩, n + 2) :=
    Chip.exchange_ignored (c := ⟨f, [0x03]⟩) rfl
  have h2 : Chip.exchange cfg k (n + 2) ⟨f, [0x03, a]⟩ 0x00 =
      .ok (RegFile.read f a, ⟨f, [0x03, a, 0x00]⟩, n + 3) := by
    have := Chip.exchange_readReg (cfg := cfg) (k := k) (n := n + 2) (c := ⟨f, [0x03, a]⟩) (o := 0x00)
      (a := a.toNat) rfl (by omega) (by simpa using hi)
    simpa using this
  rw [exchangeAll_cons _ (exchange_head n f (cmd := .read) rfl rfl)]
  rw [show WireCmd.read.toByte = 0x03 from rfl, exchangeAll_cons _ h1, exchangeAll_cons _ h2]
  rfl

theorem exchangeAll_status : Chip.exchangeAll cfg k n ⟨f, []⟩ [WireCmd.readStatus.toByte, 0x00] =
    .ok ([cfg.draw n, statusByte cfg f], ⟨f, [0xA0, 0x00]⟩, n + 2) := by
  have h1 : Chip.exchange cfg k (n + 1) ⟨f, [0xA0]⟩ 0x00 =
      .ok (statusByte cfg f, ⟨f, [0xA0, 0x00]⟩, n + 2) :=
    Chip.exchange_status (c := ⟨f, [0xA0]⟩) rfl
  rw [exchangeAll_cons _ (exchange_head n f (cmd := .readStatus) rfl rfl)]
  rw [show WireCmd.readStatus.toByte = 0xA0 from rfl, exchangeAll_cons _ h1]
  rfl

theorem exchangeAll_bitmod (a m v : Byte) (hi : cfg.implemented k a = true) :
    Chip.exchangeAll cfg k n ⟨f, []⟩ [WireCmd.bitmod.toByte, a, m, v] =
      .ok ([cfg.draw n, cfg.draw (n + 1), cfg.draw (n + 2), cfg.draw (n + 3)],
        ⟨RegFile.write f a (storedValue cfg k (n + 4) f a (modifiedValue cfg k (n + 4) f a m v)),
          [0x05, a, m, v]⟩, n + 5) := by
  have h1 : Chip.exchange cfg k (n + 1) ⟨f, [0x05]⟩ a = .ok (cfg.draw (n + 1), ⟨f, [0x05, a]⟩, n + 2) :=
    Chip.exchange_ignored (c := ⟨f, [0x05]⟩) rfl
  have h2 : Chip.exchange cfg k (n + 2) ⟨f, [0x05, a]⟩ m =
      .ok (cfg.draw (n + 2), ⟨f, [0x05, a, m]⟩, n + 3) :=
    Chip.exchange_ignored (c := ⟨f, [0x05, a]⟩) rfl
  have h3 := Chip.exchange_modify (cfg := cfg) (k := k) (n := n + 3) (c := ⟨f, [0x05, a, m]⟩) (o := v)
    (a := a) (m := m) rfl hi
  rw [exchangeAll_cons _ (exchange_head n f (cmd := .bitmod) rfl rfl)]
  rw [show WireCmd.bitmod.toByte = 0x05 from rfl, exchangeAll_cons _ h1, exchangeAll_cons _ h2,
    exchangeAll_cons _ h3]
  rfl

/-- A write frame: the registers a, a + 1, ... take the data bytes, subject to R170. -/
theorem exchangeAll_write (a : Byte) (ds : List Byte) (hi : RunOk cfg k a.toNat ds.length) :
    ∃ replies, replies.length = ds.length + 2 ∧
      Chip.exchangeAll cfg k n ⟨f, []⟩ (WireCmd.write.toByte :: a :: ds) =
        .ok (replies, ⟨storeData cfg k (n + 2) f a.toNat ds, 0x02 :: a :: ds⟩,
          n + 2 + 2 * ds.length) := by
  have h1 : Chip.exchange cfg k (n + 1) ⟨f, [0x02]⟩ a = .ok (cfg.draw (n + 1), ⟨f, [0x02, a]⟩, n + 2) :=
    Chip.exchange_ignored (c := ⟨f, [0x02]⟩) rfl
  obtain ⟨rs, hl, he⟩ := exchangeAll_store (cfg := cfg) (k := k) (cmd := .write) (fb := 0x02) rfl ds
    (n + 2) a.toNat ⟨f, [0x02, a]⟩ [a] rfl (fun xs => rfl) hi
  refine ⟨cfg.draw n :: cfg.draw (n + 1) :: rs, by simp [hl], ?_⟩
  rw [exchangeAll_cons _ (exchange_head n f (cmd := .write) rfl rfl)]
  rw [show WireCmd.write.toByte = 0x02 from rfl, exchangeAll_cons _ h1, he]
  rfl

theorem exchangeAll_loadTx (abc : BitVec 3) (habc : wfSelector abc = true) (ds : List Byte)
    (hi : RunOk cfg k (txStart cfg abc) ds.length) :
    ∃ replies, replies.length = ds.length + 1 ∧
      Chip.exchangeAll cfg k n ⟨f, []⟩ ((WireCmd.loadTx abc).toByte :: ds) =
        .ok (replies, ⟨storeData cfg k (n + 1) f (txStart cfg abc) ds,
          (WireCmd.loadTx abc).toByte :: ds⟩, n + 1 + 2 * ds.length) := by
  obtain ⟨rs, hl, he⟩ := exchangeAll_store (cfg := cfg) (k := k) (cmd := .loadTx abc)
    (fb := (WireCmd.loadTx abc).toByte) (WireCmd.ofByte_toByte _ habc) ds
    (n + 1) (txStart cfg abc) ⟨f, [(WireCmd.loadTx abc).toByte]⟩ [] rfl (fun xs => rfl) hi
  refine ⟨cfg.draw n :: rs, by simp [hl], ?_⟩
  rw [exchangeAll_cons _ (exchange_head n f (cmd := .loadTx abc) habc rfl), he]
  rfl

theorem exchangeAll_readRx (nm : BitVec 2) (os : List Byte)
    (hi : RunOk cfg k (rxStart cfg nm).toNat os.length) :
    Chip.exchangeAll cfg k n ⟨f, []⟩ ((WireCmd.readRx nm).toByte :: os) =
      .ok (cfg.draw n :: readData f (rxStart cfg nm).toNat os.length,
        ⟨f, (WireCmd.readRx nm).toByte :: os⟩, n + 1 + os.length) := by
  have he := exchangeAll_read (cfg := cfg) (k := k) (cmd := .readRx nm)
    (fb := (WireCmd.readRx nm).toByte) (WireCmd.ofByte_toByte _ rfl) os
    (n + 1) (rxStart cfg nm).toNat ⟨f, [(WireCmd.readRx nm).toByte]⟩ [] rfl (fun xs => rfl) hi
  rw [exchangeAll_cons _ (exchange_head n f (cmd := .readRx nm) rfl rfl), he]
  rfl
end

/-! ## Registers after the stores of a frame -/

theorem read_storeData_outside {cfg : Config} {k : ChipIx} (ds : List Byte) (b : Byte) :
    ∀ (n a : Nat) (f : RegFile), a + ds.length ≤ 0x100 → (∀ i < ds.length, b.toNat ≠ a + i) →
    RegFile.read (storeData cfg k n f a ds) b = RegFile.read f b := by
  induction ds with
  | nil => intros; rfl
  | cons d ds ih =>
    intro n a f hend hb
    simp only [List.length_cons] at hend hb
    rw [storeData, ih _ _ _ (by omega) (fun i hi => by have := hb (i + 1) (by omega); omega)]
    have h0 := hb 0 (by omega)
    refine RegFile.read_write_ne _ _ fun e => h0 ?_
    rw [e, BitVec.toNat_ofNat]; omega

/-- A stored register that no rule makes a free value holds its data byte. -/
theorem read_storeData {cfg : Config} {k : ChipIx} (ds : List Byte) :
    ∀ (n a : Nat) (f : RegFile), a + ds.length ≤ 0x100 → ∀ i, (hi : i < ds.length) →
    (cfg.configOnly k (BitVec.ofNat 8 (a + i)) = true → inConfigMode cfg f = true ∧
      ∀ j < i, BitVec.ofNat 8 (a + j) ≠ cfg.map.canstat) →
    RegFile.read (storeData cfg k n f a ds) (BitVec.ofNat 8 (a + i)) = ds[i] := by
  induction ds with
  | nil => intro n a f _ i hi; simp at hi
  | cons d ds ih =>
    intro n a f hend i hi hc
    simp only [List.length_cons] at hend hi
    rw [storeData]
    cases i with
    | zero =>
      rw [read_storeData_outside _ _ _ _ _ (by omega)
        (fun j hj => by simp only [BitVec.toNat_ofNat]; omega)]
      simp only [Nat.add_zero, RegFile.read_write, List.getElem_cons_zero]
      unfold storedValue
      cases h : cfg.configOnly k (BitVec.ofNat 8 a) with
      | false => simp
      | true => simp [(hc (by simpa using h)).1]
    | succ i =>
      have := ih (n + 2) (a + 1)
        (RegFile.write f (BitVec.ofNat 8 a) (storedValue cfg k (n + 1) f (BitVec.ofNat 8 a) d)) (by omega)
        i (by omega) (fun h => by
          have h' := hc (by rwa [show a + (i + 1) = a + 1 + i by omega])
          refine ⟨?_, fun j hj => ?_⟩
          · have h1 := h'.1
            unfold inConfigMode at h1 ⊢
            rwa [RegFile.read_write_ne _ _ (Ne.symm (by simpa using h'.2 0 (by omega)))]
          · have := h'.2 (j + 1) (by omega)
            rwa [show a + 1 + j = a + (j + 1) by omega])
      simp only [List.getElem_cons_succ]
      rwa [show a + (i + 1) = a + 1 + i by omega]

/-! ## Refused frames (R167) -/

/-- The data bytes of a write or load frame that reach a register that is not implemented. -/
theorem exchangeAll_store_refused {cfg : Config} {k : ChipIx} {cmd : WireCmd} {fb : Byte}
    (hcmd : WireCmd.ofByte fb = some cmd)
    (ds : List Byte) : ∀ (n a : Nat) (c : Chip) (args : List Byte), c.cframe = fb :: args →
    (∀ xs : List Byte, laterRole cfg cmd (args ++ xs) = .writeReg (a + xs.length)) →
    a + ds.length ≤ 0x100 → (∃ i < ds.length, cfg.implemented k (BitVec.ofNat 8 (a + i)) = false) →
    Chip.exchangeAll cfg k n c ds = .error .registerNotImplemented := by
  induction ds with
  | nil => rintro n a c args - - - ⟨i, hi, -⟩; simp at hi
  | cons d ds ih =>
    rintro n a c args hf hr hend ⟨i, hi, hni⟩
    simp only [List.length_cons] at hend hi
    have h0 : byteRole cfg c.cframe d = .writeReg a := by
      rw [hf, byteRole_cons cfg args d hcmd]; simpa using hr []
    cases hai : cfg.implemented k (BitVec.ofNat 8 a) with
    | false =>
      simp only [Chip.exchangeAll, Chip.exchange_unimplemented (n := n) (by omega) hai (.inr h0)]
    | true =>
      have hx := Chip.exchange_writeReg (k := k) (n := n) h0 (by omega) hai
      have hi0 : i ≠ 0 := by rintro rfl; rw [Nat.add_zero, hai] at hni; cases hni
      have he := ih (n + 2) (a + 1)
        ⟨RegFile.write c.creg (BitVec.ofNat 8 a) (storedValue cfg k (n + 1) c.creg (BitVec.ofNat 8 a) d),
          c.cframe ++ [d]⟩ (args ++ [d]) (by simp [hf])
        (fun xs => by simpa [Nat.add_assoc, Nat.add_comm 1] using hr (d :: xs)) (by omega)
        ⟨i - 1, by omega, by rwa [show a + 1 + (i - 1) = a + i by omega]⟩
      simp only [Chip.exchangeAll, hx, he]

/-- The dummy bytes of a buffer read that reach a register that is not implemented. -/
theorem exchangeAll_read_refused {cfg : Config} {k : ChipIx} {cmd : WireCmd} {fb : Byte}
    (hcmd : WireCmd.ofByte fb = some cmd)
    (os : List Byte) : ∀ (n a : Nat) (c : Chip) (args : List Byte), c.cframe = fb :: args →
    (∀ xs : List Byte, laterRole cfg cmd (args ++ xs) = .readReg (a + xs.length)) →
    a + os.length ≤ 0x100 → (∃ i < os.length, cfg.implemented k (BitVec.ofNat 8 (a + i)) = false) →
    Chip.exchangeAll cfg k n c os = .error .registerNotImplemented := by
  induction os with
  | nil => rintro n a c args - - - ⟨i, hi, -⟩; simp at hi
  | cons o os ih =>
    rintro n a c args hf hr hend ⟨i, hi, hni⟩
    simp only [List.length_cons] at hend hi
    have h0 : byteRole cfg c.cframe o = .readReg a := by
      rw [hf, byteRole_cons cfg args o hcmd]; simpa using hr []
    cases hai : cfg.implemented k (BitVec.ofNat 8 a) with
    | false =>
      simp only [Chip.exchangeAll, Chip.exchange_unimplemented (n := n) (by omega) hai (.inl h0)]
    | true =>
      have hx := Chip.exchange_readReg (k := k) (n := n) h0 (by omega) hai
      have hi0 : i ≠ 0 := by rintro rfl; rw [Nat.add_zero, hai] at hni; cases hni
      have he := ih (n + 1) (a + 1) ⟨c.creg, c.cframe ++ [o]⟩ (args ++ [o]) (by simp [hf])
        (fun xs => by simpa [Nat.add_assoc, Nat.add_comm 1] using hr (o :: xs)) (by omega)
        ⟨i - 1, by omega, by rwa [show a + 1 + (i - 1) = a + i by omega]⟩
      simp only [Chip.exchangeAll, hx, he]

/-! ## What a frame leaves -/

theorem busOnly_afterFrame (s : State) (k : ChipIx) (f : RegFile) (n : Nat) : BusOnly s (s.afterFrame k f n) :=
  rfl

theorem otherChipKept_afterFrame (s : State) (k : ChipIx) (f : RegFile) (n : Nat) :
    OtherChipKept s (s.afterFrame k f n) k :=
  ⟨by simp [State.cframe], fun j hj => by simp [hj]⟩

/-- A frame that leaves chip k's registers as they are leaves every register. -/
theorem registersKept_afterFrame (s : State) (k : ChipIx) (n : Nat) :
    RegistersKept s (s.afterFrame k (s.chip k).creg n) := by
  intro j a
  by_cases h : j = k
  · subst h; simp [State.creg]
  · simp [h]

/-- The registers after request-to-send (R166). -/
theorem requestedToSend_of_read {s t : State} {k : ChipIx} {mask : BitVec 3}
    (h : ∀ a, t.creg k a = RegFile.read (commandEffect s.cfg k (s.chip k).creg (.rts mask)) a) :
    RequestedToSend s t k mask := by
  intro a
  have key : t.creg k a =
      if ∃ j : Fin 3, mask.getLsbD j.val = true ∧ a = txbctrl s.cfg j then
        s.creg k a ||| s.cfg.map.txreqBit
      else s.creg k a := by
    rw [h, commandEffect, read_requestBuffer, read_requestBuffer, read_requestBuffer]
    show _ = if _ then RegFile.read (s.chip k).creg a ||| _ else RegFile.read (s.chip k).creg a
    generalize RegFile.read (s.chip k).creg a = v
    generalize s.cfg.map.txreqBit = b
    have hex : (∃ j : Fin 3, mask.getLsbD j.val = true ∧ a = txbctrl s.cfg j) ↔
        (mask.getLsbD 0 = true ∧ a = txbctrl s.cfg 0) ∨ (mask.getLsbD 1 = true ∧ a = txbctrl s.cfg 1) ∨
          (mask.getLsbD 2 = true ∧ a = txbctrl s.cfg 2) := by
      simp [Fin.exists_fin_succ]
    rw [if_congr hex rfl rfl]
    have twice : ∀ v : Byte, v ||| b ||| b = v ||| b := by intro v; rw [BitVec.or_assoc]; simp
    simp only [show ((0 : Fin 3) : Nat) = 0 from rfl, show ((1 : Fin 3) : Nat) = 1 from rfl,
      show ((2 : Fin 3) : Nat) = 2 from rfl]
    split <;> split <;> split <;> simp_all
  refine ⟨fun h' => by rw [key, if_pos h'], fun h' => by rw [key, if_neg]; rintro ⟨j, hj, ha⟩; exact h' j hj ha⟩

/-- The registers after the reset command (R161). -/
theorem resetToConfig_of_read {s t : State} {k : ChipIx} (hc : ConfigOk s.cfg)
    (h : ∀ a, t.creg k a = RegFile.read (resetImage s.cfg k) a) : ResetToConfig s t k := by
  have field : ∀ x mask v : Byte, x &&& mask = x → ((v &&& ~~~mask) ||| x) &&& mask = x := by
    intro x mask v hx
    ext i hi
    have := congrArg (·.getLsbD i) hx
    simp at this ⊢
    grind
  obtain ⟨e1, e2, -⟩ := read_resetImage s.cfg k hc.apart
  exact ⟨by rw [h, e1]; exact field _ _ _ (hc.opmod .config), by rw [h, e2]; exact field _ _ _ (hc.reqop .config)⟩

/-! ## FBUF as a run of bytes -/

theorem fbufBytes_of_filled {f : Vector (Option Byte) 16} :
    ∀ n i : Nat, (∀ j < n, fbufRead f (i + j) ≠ none) →
    ∃ bs, fbufBytes f i n = some bs ∧ bs.length = n ∧
      ∀ j, (hj : j < bs.length) → fbufRead f (i + j) = some bs[j] := by
  intro n
  induction n with
  | zero => intro i h; exact ⟨[], rfl, rfl, by simp⟩
  | succ n ih =>
    intro i h
    obtain ⟨bs, hb, hl, hr⟩ := ih (i + 1) fun j hj => by
      have := h (j + 1) (by omega); rwa [show i + 1 + j = i + (j + 1) by omega]
    obtain ⟨b, hb0⟩ := Option.ne_none_iff_exists'.mp (h 0 (by omega))
    simp only [Nat.add_zero] at hb0
    refine ⟨b :: bs, by simp [fbufBytes, hb0, hb], by simp [hl], fun j hj => ?_⟩
    cases j with
    | zero => simpa using hb0
    | succ j =>
      simp only [List.length_cons] at hj
      rw [show i + (j + 1) = i + 1 + j by omega, hr j (by omega)]; simp

theorem fbufBytes_of_unwritten {f : Vector (Option Byte) 16} :
    ∀ n i : Nat, (∃ j < n, fbufRead f (i + j) = none) → fbufBytes f i n = none := by
  intro n
  induction n with
  | zero => rintro i ⟨j, h, _⟩; omega
  | succ n ih =>
    rintro i ⟨j, hj, hn⟩
    cases j with
    | zero => simp at hn; simp [fbufBytes, hn]
    | succ j =>
      have := ih (i + 1) ⟨j, by omega, by rwa [show i + 1 + j = i + (j + 1) by omega]⟩
      simp only [fbufBytes, this]; split <;> simp_all

theorem fbufRead_fbufStore : ∀ (bs : List Byte) (f : Vector (Option Byte) 16) (i m : Nat),
    i + bs.length ≤ 16 →
    fbufRead (fbufStore f i bs) m = if i ≤ m ∧ m < i + bs.length then bs[m - i]? else fbufRead f m := by
  intro bs
  induction bs with
  | nil => intro f i m h; simp [fbufStore]
  | cons b bs ih =>
    intro f i m h
    simp only [List.length_cons] at h
    rw [fbufStore, ih _ _ _ (by omega)]
    by_cases h1 : m = i
    · subst h1
      rw [if_neg (by omega), if_pos (by simp)]
      simp [fbufRead, fbufWrite, show m < 16 by omega]
    · by_cases h2 : i + 1 ≤ m ∧ m < i + 1 + bs.length
      · rw [if_pos h2, if_pos (by simp; omega)]
        obtain ⟨j, rfl⟩ : ∃ j, m = i + 1 + j := ⟨m - (i + 1), by omega⟩
        simp [show i + 1 + j - i = j + 1 by omega]
      · rw [if_neg h2, if_neg (by simp; omega)]
        simp [fbufRead, fbufWrite, Ne.symm h1]

end Sys2Proof.Machine
end

