-- ==== Sys2Proof/Laws/Exec.lean ====
section
/-! SUPPORT. What an instruction can do, said once: the shared operations' inversion lemmas, and the parts
of the state that no instruction writes. -/

namespace Sys2Proof.Machine

open Sys2Proof

section
variable {s t : State} {k : ChipIx} {c : FaultCode}

/-- An operation that raises a fault writes FAULT and nothing else (60_exceptions.md R272). -/
theorem raise_eq (s : State) (c : FaultCode) :
    s.raise c = { s with fault := if s.fault = 0 then c.code else s.fault } := by
  unfold State.raise
  split <;> rfl

theorem raise_fault_ne (s : State) (c : FaultCode) : (s.raise c).fault ≠ 0 := by
  rw [raise_eq]
  show (if s.fault = 0 then c.code else s.fault) ≠ 0
  split
  · cases c <;> decide
  · assumption

/-- A framed operation that is not refused leaves chip k's registers as some f, and then does f's part. -/
theorem sendFrame_next {os : List Byte} {g : List Byte → State → State} (h : sendFrame k os s g = .next t) :
    ∃ rs f n, t = g rs (s.afterFrame k f n) := by
  rw [sendFrame_eq] at h
  split at h
  · cases h
  · next rs c n _ => exact ⟨rs, c.creg, n, by simpa using h.symm⟩

theorem whenClosed_next {out : Out} (h : whenClosed s out = .next t) :
    (s.rawopen = true ∧ t = s.raise .busProtocol) ∨ (s.rawopen = false ∧ out = .next t) := by
  unfold whenClosed raiseFault at h
  cases hr : s.rawopen <;> simp [hr] at h <;> grind

theorem whenOpenOn_next {out : Out} (h : whenOpenOn k s out = .next t) :
    t = s.raise .busProtocol ∨ (s.rawopen = true ∧ s.cssel = some k ∧ out = .next t) := by
  unfold whenOpenOn raiseFault at h
  split at h
  · next hc => simp only [Bool.and_eq_true, beq_iff_eq] at hc; exact .inr ⟨hc.1, hc.2, h⟩
  · left; simpa using h.symm

theorem whenCount_next {n : Byte} {out : Out} (h : whenCount n s out = .next t) :
    t = s.raise .fbufRange ∨ (countOk n = true ∧ out = .next t) := by
  unfold whenCount raiseFault at h
  split at h
  · exact .inr ⟨‹_›, h⟩
  · left; simpa using h.symm

theorem whenInSpace_next {a : Nat} {n : Byte} {out : Out} (h : whenInSpace a n s out = .next t) :
    t = s.raise .addrRange ∨ (endsInSpace a n = true ∧ out = .next t) := by
  unfold whenInSpace raiseFault at h
  split at h
  · exact .inr ⟨‹_›, h⟩
  · left; simpa using h.symm

theorem whenIndex_next {n : Byte} {out : Out} (h : whenIndex n s out = .next t) :
    t = s.raise .fbufRange ∨ (indexOk n = true ∧ out = .next t) := by
  unfold whenIndex raiseFault at h
  split at h
  · exact .inr ⟨‹_›, h⟩
  · left; simpa using h.symm

theorem sendBuffer_next {head : List Byte} {n : Byte} (h : sendBuffer k head n s = .next t) :
    t = s.raise .unwritten ∨
      ∃ bytes, fbufBytes s.fbuf 0 n.toNat = some bytes ∧
        sendFrame k (head ++ bytes) s discardReplies = .next t := by
  unfold sendBuffer raiseFault at h
  split at h
  · left; simpa using h.symm
  · next bytes hb => exact .inr ⟨bytes, hb, h⟩

/-- A byte exchange changes chip k and the count of draws, and the chip's frame grows by the byte. -/
theorem xfer_ok {o r : Byte} (h : s.xfer k o = .ok (r, t)) :
    ∃ c n, (s.chip k).exchange s.cfg k s.drawn o = .ok (r, c, n) ∧ t = s.withChip k c n := by
  rw [State.xfer_eq] at h
  split at h
  · cases h
  · next r' c n hx =>
    obtain ⟨rfl, rfl⟩ : r' = r ∧ s.withChip k c n = t := by simpa using h
    exact ⟨c, n, hx, rfl⟩

theorem takeCommand_next {cmd : WireCmd} (h : takeCommand cmd s = .next t) :
    (s.cssel = none ∧ t = s) ∨ ∃ k r c n, s.cssel = some k ∧
      (s.chip k).exchange s.cfg k s.drawn cmd.toByte = .ok (r, c, n) ∧ t = s.withChip k c n := by
  unfold takeCommand at h
  cases hk : s.cssel with
  | none => simp only [hk] at h; exact .inl ⟨rfl, by simpa using h.symm⟩
  | some k =>
    simp only [hk] at h
    split at h
    · cases h
    · next r u hx =>
      obtain ⟨c, n, he, hu⟩ := xfer_ok hx
      exact .inr ⟨k, r, c, n, rfl, he, by rw [← hu]; simpa using h.symm⟩
end

/-- The parts of the state that no instruction writes: the parameters, SEQ's position and scratch, the wake
latch and the pin, the host port and the schedule. -/
structure ExecKeeps (s t : State) : Prop where
  cfg : t.cfg = s.cfg
  pos : t.pos = s.pos
  scr : t.scr = s.scr
  wkpend : t.wkpend = s.wkpend
  wakeIn : t.wakeIn = s.wakeIn
  wakePrev : t.wakePrev = s.wakePrev
  wedge : t.wedge = s.wedge
  hostmode : t.hostmode = s.hostmode
  hostq : t.hostq = s.hostq
  agenda : t.agenda = s.agenda

theorem ExecKeeps.refl (s : State) : ExecKeeps s s := by constructor <;> rfl

theorem ExecKeeps.raise (s : State) (c : FaultCode) : ExecKeeps s (s.raise c) := by
  rw [raise_eq]; constructor <;> rfl

theorem ExecKeeps.afterFrame (s : State) (k : ChipIx) (f : RegFile) (n : Nat) :
    ExecKeeps s (s.afterFrame k f n) := by constructor <;> rfl

/-- A command byte taken by the selected chip, if one is selected. -/
def WireEffect (cmd : WireCmd) (s t : State) : Prop :=
  (s.cssel = none ∧ t = s) ∨ ∃ k r c n, s.cssel = some k ∧
    (s.chip k).exchange s.cfg k s.drawn cmd.toByte = .ok (r, c, n) ∧ t = s.withChip k c n

/-- An instruction's own effect: the state it leaves when it raises no fault and is not refused. -/
def Effect (i : Instr) (s t : State) : Prop :=
  match i with
  | .tstart c => t = s.onChan c fun ch => { ch with run := true }
  | .tstop c => t = s.onChan c fun ch => { ch with run := false }
  | .trestart c => t = s.onChan c fun ch => { ch with cnt := 0, run := true }
  | .tsetcnt c v => t = s.onChan c fun ch => { ch with cnt := v }
  | .tsetcmp c v => t = s.onChan c fun ch => { ch with cmp := v }
  | .tsetie c ie => t = s.onChan c fun ch => { ch with ie := ie == 1 }
  | .tack c => t = s.onChan c fun ch => { ch with pend := false }
  | .trdcnt c => t = s.setRes (s.chan c).cnt
  | .trdstat c => t = s.setRes (channelStatus (s.chan c))
  | .rsel k => s.rawopen = false ∧ t = { s.select k with rawopen := true }
  | .rdesel k => s.rawopen = true ∧ s.cssel = some k ∧ t = { s.deselect k with rawopen := false }
  | .rxfer k o => s.rawopen = true ∧ s.cssel = some k ∧ ∃ r c n,
      (s.chip k).exchange s.cfg k s.drawn o = .ok (r, c, n) ∧ t = (s.withChip k c n).setRes (zext16 r)
  | .rreset k | .rwrite k _ _ | .rbitmod k _ _ _ | .rwrseq k _ _ | .rrts k _ | .rldtx k _ _ =>
    s.rawopen = false ∧ ∃ f n, t = s.afterFrame k f n
  | .rread k _ | .rrdstat k => s.rawopen = false ∧ ∃ f n v, t = (s.afterFrame k f n).setRes v
  | .rrdrx k _ _ => s.rawopen = false ∧ ∃ f n rs, t = fbufOfReplies rs (s.afterFrame k f n)
  | .fbwr idx b => indexOk idx = true ∧ t = { s with fbuf := fbufWrite s.fbuf idx.toNat b }
  | .fbrd idx => indexOk idx = true ∧ ∃ b, fbufRead s.fbuf idx.toNat = some b ∧ t = s.setRes (zext16 b)
  | .prdst => t = s.setRes (zext16 s.pstate)
  | .pwrst v => t = { s with pstate := v }
  | .parm => t = { s with wken := true }
  | .pdisarm => t = { s with wken := false }
  | .psleep => t = { s with lpm := true }
  | .pseterr => t = { s with errl := true }
  | .psens slot b => t = { s with sensor := sensorWrite s.sensor slot b }
  | .pind => t = { s with ind := s.ind ^^ true }
  | .wireReset => WireEffect .reset s t
  | .wireRead => WireEffect .read s t
  | .wireWrite => WireEffect .write s t
  | .wireBitmod => WireEffect .bitmod s t
  | .wireReadStatus => WireEffect .readStatus s t
  | .wireRts ttt => WireEffect (.rts ttt) s t
  | .wireReadRx nm => WireEffect (.readRx nm) s t
  | .wireLoadTx abc => WireEffect (.loadTx abc) s t

/-- What an instruction that is not refused can do: raise one of its faults, or its own effect. -/
theorem exec_cases {i : Instr} {s t : State} (h : exec i s = .next t) :
    (∃ c ∈ faultCauses i, t = s.raise c) ∨ Effect i s t := by
  cases i <;> simp only [exec] at h
  case rsel k =>
    rcases whenClosed_next h with ⟨-, rfl⟩ | ⟨hr, h⟩
    · exact .inl ⟨.busProtocol, by simp [faultCauses], rfl⟩
    · cases h; exact .inr ⟨hr, rfl⟩
  case rdesel k =>
    rcases whenOpenOn_next h with rfl | ⟨hr, hk, h⟩
    · exact .inl ⟨.busProtocol, by simp [faultCauses], rfl⟩
    · cases h; exact .inr ⟨hr, hk, rfl⟩
  case rxfer k o =>
    rcases whenOpenOn_next h with rfl | ⟨hr, hk, h⟩
    · exact .inl ⟨.busProtocol, by simp [faultCauses], rfl⟩
    · split at h
      · cases h
      · next hx =>
        obtain ⟨c, n, he, rfl⟩ := xfer_ok hx
        cases h
        exact .inr ⟨hr, hk, _, c, n, he, rfl⟩
  case rwrseq k a n =>
    rcases whenClosed_next h with ⟨-, rfl⟩ | ⟨hr, h⟩
    · exact .inl ⟨.busProtocol, by simp [faultCauses], rfl⟩
    rcases whenCount_next h with rfl | ⟨-, h⟩
    · exact .inl ⟨.fbufRange, by simp [faultCauses], rfl⟩
    rcases whenInSpace_next h with rfl | ⟨-, h⟩
    · exact .inl ⟨.addrRange, by simp [faultCauses], rfl⟩
    rcases sendBuffer_next h with rfl | ⟨_, -, h⟩
    · exact .inl ⟨.unwritten, by simp [faultCauses], rfl⟩
    obtain ⟨_, f, m, rfl⟩ := sendFrame_next h
    exact .inr ⟨hr, f, m, rfl⟩
  case rrdrx k nm n =>
    rcases whenClosed_next h with ⟨-, rfl⟩ | ⟨hr, h⟩
    · exact .inl ⟨.busProtocol, by simp [faultCauses], rfl⟩
    rcases whenCount_next h with rfl | ⟨-, h⟩
    · exact .inl ⟨.fbufRange, by simp [faultCauses], rfl⟩
    rcases whenInSpace_next h with rfl | ⟨-, h⟩
    · exact .inl ⟨.addrRange, by simp [faultCauses], rfl⟩
    obtain ⟨rs, f, m, rfl⟩ := sendFrame_next h
    exact .inr ⟨hr, f, m, rs, rfl⟩
  case rldtx k abc n =>
    unfold execRldtx at h
    split at h
    · rcases whenClosed_next h with ⟨-, rfl⟩ | ⟨hr, h⟩
      · exact .inl ⟨.busProtocol, by simp [faultCauses], rfl⟩
      rcases whenCount_next h with rfl | ⟨-, h⟩
      · exact .inl ⟨.fbufRange, by simp [faultCauses], rfl⟩
      rcases whenInSpace_next h with rfl | ⟨-, h⟩
      · exact .inl ⟨.addrRange, by simp [faultCauses], rfl⟩
      rcases sendBuffer_next h with rfl | ⟨_, -, h⟩
      · exact .inl ⟨.unwritten, by simp [faultCauses], rfl⟩
      obtain ⟨_, f, m, rfl⟩ := sendFrame_next h
      exact .inr ⟨hr, f, m, rfl⟩
    · cases h; exact .inl ⟨.illegalOp, by simp [faultCauses], rfl⟩
  case fbwr idx b =>
    rcases whenIndex_next h with rfl | ⟨hi, h⟩
    · exact .inl ⟨.fbufRange, by simp [faultCauses], rfl⟩
    · cases h; exact .inr ⟨hi, rfl⟩
  case fbrd idx =>
    rcases whenIndex_next h with rfl | ⟨hi, h⟩
    · exact .inl ⟨.fbufRange, by simp [faultCauses], rfl⟩
    · split at h
      · cases h; exact .inl ⟨.unwritten, by simp [faultCauses], rfl⟩
      · next b hb => cases h; exact .inr ⟨hi, b, hb, rfl⟩
  case rreset | rwrite | rbitmod | rrts =>
    all_goals
      rcases whenClosed_next h with ⟨-, rfl⟩ | ⟨hr, h⟩
      · exact .inl ⟨.busProtocol, by simp [faultCauses], rfl⟩
      · obtain ⟨_, f, m, rfl⟩ := sendFrame_next h
        exact .inr ⟨hr, f, m, rfl⟩
  case rread | rrdstat =>
    all_goals
      rcases whenClosed_next h with ⟨-, rfl⟩ | ⟨hr, h⟩
      · exact .inl ⟨.busProtocol, by simp [faultCauses], rfl⟩
      · obtain ⟨_, f, m, rfl⟩ := sendFrame_next h
        exact .inr ⟨hr, f, m, _, rfl⟩
  case wireReset | wireRead | wireWrite | wireBitmod | wireReadStatus | wireRts | wireReadRx | wireLoadTx =>
    all_goals exact .inr (takeCommand_next h)
  all_goals (cases h; exact .inr rfl)

theorem WireEffect.keeps {cmd : WireCmd} {s t : State} (h : WireEffect cmd s t) :
    ExecKeeps s t ∧ t.fault = s.fault := by
  obtain ⟨-, rfl⟩ | ⟨_, _, _, _, -, -, rfl⟩ := h <;> exact ⟨by constructor <;> rfl, rfl⟩

theorem Effect.keeps {i : Instr} {s t : State} (h : Effect i s t) : ExecKeeps s t ∧ t.fault = s.fault := by
  cases i
  case rsel | fbwr => all_goals (obtain ⟨-, rfl⟩ := h; exact ⟨by constructor <;> rfl, rfl⟩)
  case rdesel => obtain ⟨-, -, rfl⟩ := h; exact ⟨by constructor <;> rfl, rfl⟩
  case rxfer => obtain ⟨-, -, _, _, _, -, rfl⟩ := h; exact ⟨by constructor <;> rfl, rfl⟩
  case rreset | rwrite | rbitmod | rwrseq | rrts | rldtx =>
    all_goals (obtain ⟨-, _, _, rfl⟩ := h; exact ⟨by constructor <;> rfl, rfl⟩)
  case rread | rrdstat | rrdrx =>
    all_goals (obtain ⟨-, _, _, _, rfl⟩ := h; exact ⟨by constructor <;> rfl, rfl⟩)
  case fbrd => obtain ⟨-, _, -, rfl⟩ := h; exact ⟨by constructor <;> rfl, rfl⟩
  case wireReset | wireRead | wireWrite | wireBitmod | wireReadStatus | wireRts | wireReadRx | wireLoadTx =>
    all_goals exact WireEffect.keeps h
  all_goals (obtain rfl := h; exact ⟨by constructor <;> rfl, rfl⟩)

/-- What every instruction keeps, faulting or not. -/
theorem exec_keeps {i : Instr} {s t : State} (h : exec i s = .next t) : ExecKeeps s t := by
  rcases exec_cases h with ⟨c, -, rfl⟩ | h
  · exact .raise s c
  · exact h.keeps.1

/-- FAULT after an instruction that did not start faulted is NONE exactly when the instruction had its own
effect. -/
theorem exec_effect {i : Instr} {s t : State} (h : exec i s = .next t) (hf : t.fault = 0) :
    Effect i s t := by
  rcases exec_cases h with ⟨c, -, rfl⟩ | h
  · exact absurd hf (raise_fault_ne s c)
  · exact h

/-! ## An instruction never stops the machine but by a refused frame (R167, R287) -/

/-- The outcome is a next state or the refusal of a frame. -/
def Total (out : Out) : Prop :=
  (∃ t, out = .next t) ∨
    ∃ r, out = .refused r ∧ (r = .reservedWireCommand ∨ r = .registerNotImplemented ∨ r = .addressPastEnd)

theorem exchangeAll_error {cfg : Config} {k : ChipIx} : ∀ os n c r, Chip.exchangeAll cfg k n c os = .error r →
    r = .reservedWireCommand ∨ r = .registerNotImplemented ∨ r = .addressPastEnd := by
  intro os
  induction os with
  | nil => intro n c r h; cases h
  | cons o os ih =>
    intro n c r h
    simp only [Chip.exchangeAll] at h
    split at h
    · next he => cases h; exact Chip.exchange_error he
    · split at h
      · next he => cases h; exact ih _ _ _ he
      · cases h

theorem Total.sendFrame (k : ChipIx) (os : List Byte) (s : State) (g : List Byte → State → State) :
    Total (sendFrame k os s g) := by
  rw [sendFrame_eq]
  split
  · next he => exact .inr ⟨_, rfl, exchangeAll_error _ _ _ _ he⟩
  · exact .inl ⟨_, rfl⟩

theorem State.xfer_error {s : State} {k : ChipIx} {o : Byte} {r : Refusal} (h : s.xfer k o = .error r) :
    r = .reservedWireCommand ∨ r = .registerNotImplemented ∨ r = .addressPastEnd := by
  rw [State.xfer_eq] at h
  split at h
  · next he => cases h; exact Chip.exchange_error he
  · cases h

theorem Total.guard {p : Prop} [Decidable p] {out : Out} (h : Total out) (c : FaultCode) (s : State) :
    Total (if p then out else raiseFault c s) ∧ Total (if p then raiseFault c s else out) :=
  ⟨by split; exacts [h, .inl ⟨_, rfl⟩], by split; exacts [.inl ⟨_, rfl⟩, h]⟩

theorem Total.takeCommand (cmd : WireCmd) (s : State) : Total (takeCommand cmd s) := by
  unfold Sys2Proof.Machine.takeCommand
  split
  · exact .inl ⟨_, rfl⟩
  · split
    · next h => exact .inr ⟨_, rfl, State.xfer_error h⟩
    · exact .inl ⟨_, rfl⟩

theorem Total.sendBuffer (k : ChipIx) (head : List Byte) (n : Byte) (s : State) :
    Total (sendBuffer k head n s) := by
  unfold Sys2Proof.Machine.sendBuffer
  split
  · exact .inl ⟨_, rfl⟩
  · exact .sendFrame ..

/-- Every instruction takes a next state or is a refused frame. -/
theorem exec_total (i : Instr) (s : State) : Total (exec i s) := by
  have closed {out} (h : Total out) : Total (whenClosed s out) := (h.guard _ _).2
  have openOn {k out} (h : Total out) : Total (whenOpenOn k s out) := (h.guard _ _).1
  have count {n out} (h : Total out) : Total (whenCount n s out) := (h.guard _ _).1
  have inSpace {a n out} (h : Total out) : Total (whenInSpace a n s out) := (h.guard _ _).1
  have index {x out} (h : Total out) : Total (whenIndex x s out) := (h.guard _ _).1
  cases i <;> simp only [exec]
  case rsel => exact closed (.inl ⟨_, rfl⟩)
  case rdesel => exact openOn (.inl ⟨_, rfl⟩)
  case rxfer =>
    refine openOn ?_
    split
    · next h => exact .inr ⟨_, rfl, State.xfer_error h⟩
    · exact .inl ⟨_, rfl⟩
  case rreset | rread | rwrite | rbitmod | rrdstat | rrts => all_goals exact closed (.sendFrame ..)
  case rwrseq => exact closed (count (inSpace (.sendBuffer ..)))
  case rrdrx => exact closed (count (inSpace (.sendFrame ..)))
  case rldtx => exact ((closed (count (inSpace (.sendBuffer ..)))).guard _ _).1
  case fbwr => exact index (.inl ⟨_, rfl⟩)
  case fbrd =>
    refine index ?_
    split
    · exact .inl ⟨_, rfl⟩
    · exact .inl ⟨_, rfl⟩
  case wireReset | wireRead | wireWrite | wireBitmod | wireReadStatus | wireRts | wireReadRx | wireLoadTx =>
    all_goals exact .takeCommand ..
  all_goals exact .inl ⟨_, rfl⟩

/-- The levels of the two data lines at the clock edges of an exchange (41_regbus.md R144). -/
theorem samples_waveform (l : LinkImpl) (o r : Byte) : mosiSamples (waveform l o r) = bitsOut o ∧ misoSamples (waveform l o r) = bitsOut r := by
  have go : ∀ (a b : List Bool), a.length = b.length →
     ((risingEdges false ((a.zip b).flatMap fun b => bitCell b.1 b.2)).map Lines.mosi = a ∧ (risingEdges false ((a.zip b).flatMap fun b => bitCell b.1 b.2)).map Lines.miso = b) := by
    intro a
    induction a with
    | nil => intro b h; cases b <;> simp [risingEdges] at h ⊢
    | cons x a ih =>
      intro b h
      cases b with
      | nil => simp at h
      | cons y b =>
        simp only [List.length_cons, Nat.add_right_cancel_iff] at h
        have := ih b h
        simp [bitCell, risingEdges] at this ⊢
        exact this
  exact go _ _ (by simp [bitsOut])

end Sys2Proof.Machine
end

