-- ==== Sys2Proof/Laws/Step.lean ====
section
/-! SUPPORT. What one step of the machine can do, said once (60_exceptions.md R276; 43_power_fsm.md R230,
R250, R258), and what the sequencer's control keeps. -/

namespace Sys2Proof.Machine

open Sys2Proof

section
variable {s t : State} {rest : List Turn}

/-- The step belongs to SEQ when the schedule is empty or names it first. -/
def SeqTurn (s : State) (rest : List Turn) : Prop :=
  (s.agenda = [] ∧ rest = []) ∨ s.agenda = .seq :: rest

/-- Another agent's turn. -/
def EnvTurn (s : State) (turn : Turn) (rest : List Turn) : Prop :=
  turn ≠ .seq ∧ s.agenda = turn :: rest

theorem step_of_seqTurn (h : SeqTurn s rest) : step s = seqTurn rest s := by
  obtain ⟨h, rfl⟩ | h := h <;> simp only [step, nextStep, h]

theorem step_of_envTurn {turn : Turn} (h : EnvTurn s turn rest) :
    step s = .next (envStep { s with agenda := rest } turn) := by
  obtain ⟨hne, h⟩ := h
  cases turn <;> simp only [step, nextStep, h] at hne ⊢
  exact absurd rfl hne

theorem turn_cases (s : State) : (∃ rest, SeqTurn s rest) ∨ ∃ turn rest, EnvTurn s turn rest := by
  cases h : s.agenda with
  | nil => exact .inl ⟨[], .inl ⟨h, rfl⟩⟩
  | cons turn rest =>
    by_cases ht : turn = .seq
    · subst ht; exact .inl ⟨rest, .inr h⟩
    · exact .inr ⟨turn, rest, ht, h⟩

/-- What SEQ's own step can do, once no interrupt is deliverable. -/
theorem seqStep_cases (h : seqStep s = .next t) :
    (t = s ∧ (s.fault ≠ 0 ∨ (s.lpm = true ∧ s.wkpend = false) ∨
      (s.lpm = false ∧ s.hostmode = true ∧ s.hostq = []))) ∨
    (s.fault = 0 ∧ s.lpm = true ∧ s.wkpend = true ∧ t = s.resumeGuard) ∨
    (s.fault = 0 ∧ s.lpm = false ∧ s.hostmode = true ∧ ∃ w q, s.hostq = w :: q ∧
      ((∃ i, decodeWord w = .ok i ∧ exec i { s with hostq := q } = .next t) ∨
        ((∃ e, decodeWord w = .error e) ∧ t = State.raise { s with hostq := q } .illegalOp))) ∨
    (s.fault = 0 ∧ s.lpm = false ∧ s.hostmode = false ∧ s.pos = ⟨.dispatch, 0⟩ ∧ t = s.dispatch) ∨
    (s.fault = 0 ∧ s.lpm = false ∧ s.hostmode = false ∧ s.pos ≠ ⟨.dispatch, 0⟩ ∧
      ∃ i u, s.opAt = some i ∧ exec i s = .next u ∧
        t = if u.fault = 0 then advance s.pos.handler s.pos.idx u else u) := by
  unfold seqStep at h
  split at h
  · next hf => cases h; exact .inl ⟨rfl, .inl hf⟩
  next hf =>
  have hf : s.fault = 0 := by simpa using hf
  rcases Bool.eq_false_or_eq_true s.lpm with hl | hl
  · rw [if_pos hl] at h
    rcases Bool.eq_false_or_eq_true s.wkpend with hw | hw
    · rw [if_pos hw] at h
      cases h
      exact .inr (.inl ⟨hf, hl, hw, rfl⟩)
    · rw [if_neg (by simp [hw])] at h
      cases h
      exact .inl ⟨rfl, .inr (.inl ⟨hl, hw⟩)⟩
  rw [if_neg (by simp [hl])] at h
  rcases Bool.eq_false_or_eq_true s.hostmode with hm | hm
  · rw [if_pos hm] at h
    unfold hostStep at h
    split at h
    · next hq => cases h; exact .inl ⟨rfl, .inr (.inr ⟨hl, hm, hq⟩)⟩
    · next w q hq =>
      refine .inr (.inr (.inl ⟨hf, hl, hm, w, q, hq, ?_⟩))
      unfold performWord at h
      split at h
      · next i hi => exact .inl ⟨i, hi, h⟩
      · next e he => cases h; exact .inr ⟨⟨e, he⟩, rfl⟩
  · rw [if_neg (by simp [hm])] at h
    unfold normalStep at h
    split at h
    · next hp => cases h; exact .inr (.inr (.inr (.inl ⟨hf, hl, hm, hp, rfl⟩)))
    · next hp =>
      split at h
      · next i hi =>
        unfold handlerStep at h
        split at h
        · next u hu => cases h; exact .inr (.inr (.inr (.inr ⟨hf, hl, hm, hp, i, u, hi, hu, rfl⟩)))
        · cases h
        · cases h
      · cases h

/-- What a step of the machine can do: an interrupt taken on SEQ's turn, a step of SEQ, or the turn of
another agent. -/
theorem step_cases (h : step s = .next t) :
    (∃ rest, SeqTurn s rest ∧
      ((s.inactDeliverable = true ∧ t = s.bridge) ∨
       (s.inactDeliverable = false ∧ s.wakeDeliverable = true ∧ t = s.wakesync) ∨
       (s.inactDeliverable = false ∧ s.wakeDeliverable = false ∧
        seqStep { s with agenda := rest } = .next t))) ∨
    ∃ turn rest, EnvTurn s turn rest ∧ t = envStep { s with agenda := rest } turn := by
  rcases turn_cases s with ⟨rest, hr⟩ | ⟨turn, rest, ht⟩
  · left
    rw [step_of_seqTurn hr] at h
    refine ⟨rest, hr, ?_⟩
    unfold seqTurn at h
    cases h1 : s.inactDeliverable <;> simp only [h1, if_true, Bool.false_eq_true, if_false] at h
    · cases h2 : s.wakeDeliverable <;> simp only [h2, if_true, Bool.false_eq_true, if_false] at h
      · exact .inr (.inr ⟨rfl, rfl, h⟩)
      · cases h; exact .inr (.inl ⟨rfl, rfl, rfl⟩)
    · cases h; exact .inl ⟨rfl, rfl⟩
  · right
    rw [step_of_envTurn ht] at h
    cases h
    exact ⟨turn, rest, ht, rfl⟩
end

/-! ## What the sequencer's control keeps -/

/-- Control writes only the position and the scratch, and FAULT where the sequencer reads ⊥. -/
structure ControlKeeps (s t : State) : Prop where
  rest : t = { s with pos := t.pos, scr := t.scr, fault := t.fault }
  fault : t.fault = s.fault ∨ (t = s.raise .unwritten)

theorem ControlKeeps.goto (s : State) (h : Handler) (i : Nat) (scr : Scratch) :
    ControlKeeps s (s.goto h i scr) := ⟨rfl, .inl rfl⟩

theorem ControlKeeps.finish (s : State) : ControlKeeps s s.finish := ⟨rfl, .inl rfl⟩

theorem ControlKeeps.raise (s : State) : ControlKeeps s (s.raise .unwritten) :=
  ⟨by rw [raise_eq], .inr rfl⟩

theorem straightOn_keeps (h : Handler) (i : Nat) (t : State) : ControlKeeps t (straightOn h i t) := by
  unfold straightOn
  split
  · exact .goto ..
  · exact .finish t

theorem advance_keeps (h : Handler) (i : Nat) (t : State) : ControlKeeps t (advance h i t) := by
  cases h <;> simp only [advance]
  case dispatch => exact .finish t
  case init =>
    unfold advanceInit
    dsimp only
    split
    · exact .goto ..
    split
    · exact .goto ..
    split
    · split
      · exact .goto ..
      · exact .goto ..
      · exact .goto ..
      · exact .raise t
    split
    · exact .goto ..
    · exact .finish t
  case running =>
    unfold advanceRunning
    split
    · split
      · exact .goto ..
      · exact .raise t
      · exact .finish t
    split
    · split
      · exact .goto ..
      · exact .goto ..
      · exact .raise t
      · exact .finish t
    · exact straightOn_keeps ..
  case sleeping => exact .goto ..
  case unrec => exact .goto ..
  all_goals exact straightOn_keeps ..

end Sys2Proof.Machine
end

