-- ==== Sys2Proof/Laws/Agents.lean ====
section
/-! SUPPORT. What the agents other than SEQ keep (20_memory.md R70; 40_timer.md R112), and a turn's step, said
once. -/

namespace Sys2Proof.Machine

open Sys2Proof

/-- Raising a fault is the `withFault` of Safety.lean. -/
theorem raise_withFault (s : State) (c : FaultCode) : s.raise c = s.withFault c.code := raise_eq s c

/-- An empty schedule, or one that names SEQ first, gives SEQ the turn. -/
theorem seqTurn_of_head (s : State) (h : s.agenda.head?.getD .seq = .seq) : SeqTurn s s.agenda.tail := by
  cases ha : s.agenda with
  | nil => exact .inl ⟨ha, rfl⟩
  | cons a l => simp [ha] at h; subst h; exact .inr ha

/-- What `seqFree` says. -/
theorem seqFree_parts {s : State} (h : s.seqFree = true) : s.agenda.head?.getD .seq = .seq ∧
    s.inactDeliverable = false ∧ s.wakeDeliverable = false := by
  simpa [State.seqFree, and_assoc] using h

/-- With the turn and no deliverable interrupt the step is SEQ's own. -/
theorem step_of_seqFree {s : State} (h : s.seqFree = true) : step s = seqStep s.turnTaken := by
  obtain ⟨a, b, c⟩ := seqFree_parts h
  rw [step_of_seqTurn (seqTurn_of_head s a), seqTurn]; simp [b, c]; rfl

/-- What `seqReady` says. -/
theorem seqReady_parts {s : State} (h : s.seqReady = true) : s.seqFree = true ∧ s.fault = 0 ∧
    s.lpm = false := by
  simpa [State.seqReady, and_assoc] using h

/-- A run of n + 1 steps goes on from the state after its first step. -/
theorem run_succ {n s t} (h : step s = .next t) : Host.Core.run Sys2Proof.core
    (n+1) s = Host.Core.run Sys2Proof.core n t := by
  simp only [Host.Core.run]
  have : core.step s = .next t := h
  rw [this]

/-- A schedule without a reset has none after SEQ's turn. -/
theorem noReset_of_seqTurn {s rest} (h : SeqTurn s rest) (hn : NoReset s.agenda) : NoReset rest := by
  rcases h with ⟨-, rfl⟩ | h
  · simp [NoReset]
  · intro p m q hm; exact hn p m q (by rw [h]; simp [hm])

/-- A schedule without a reset has none after another agent's turn, which is no reset. -/
theorem noReset_of_envTurn {s t rest} (h : EnvTurn s t rest) (hn : NoReset s.agenda) : NoReset rest ∧
    ∀ p m q, t ≠ .reset p m q := by
  refine ⟨fun p m q hm => hn p m q (by rw [h.2]; simp [hm]), ?_⟩
  rintro p m q rfl; exact hn p m q (by rw [h.2]; simp)

/-- An agent turn that is no reset: it writes no element of SEQ, no register outside CHIP_VOLATILE and no
timer control (20_memory.md R70; 41_regbus.md R169). -/
theorem envStep_keeps (s : State) (t : Turn) (h : ∀ p m q, t ≠ .reset p m q) :
    ∃ u, envStep s t = u ∧ u = { s with tmr := u.tmr, pstate := u.pstate, wkpend := u.wkpend, wakeIn := u.wakeIn, wakePrev := u.wakePrev, wedge := u.wedge, chips := u.chips } ∧
     (s.wkpend = false → s.wakeDeliverable = false → u.wkpend = false) ∧
     (∀ k a, s.cfg.isVolatile k a = false → u.creg k a = s.creg k a) ∧ (∀ k, u.cframe k = s.cframe k) ∧
     (∀ c, (u.chan c).run = (s.chan c).run ∧ (u.chan c).cmp = (s.chan c).cmp ∧ (u.chan c).ie = (s.chan c).ie) := by
  refine ⟨_, rfl, ?_⟩
  have br : s.bridge = { s with tmr := s.bridge.tmr, pstate := s.bridge.pstate } ∧ (∀ c, (s.bridge.chan c).run = (s.chan c).run ∧ (s.bridge.chan c).cmp = (s.chan c).cmp ∧ (s.bridge.chan c).ie = (s.chan c).ie) := by
    refine ⟨rfl, fun c => ?_⟩
    by_cases hc : c = 0
    · subst hc; have : s.bridge.chan 0 = { s.chan 0 with pend := false } := s.chan_setChan 0 _
      rw [this]; simp
    · have : s.bridge.chan c = s.chan c := s.chan_setChan_ne _ hc
      rw [this]; simp
  cases t with
  | seq => exact ⟨rfl, fun h _ => h, fun _ _ _ => rfl, fun _ => rfl, fun _ => ⟨rfl, rfl, rfl⟩⟩
  | bridge =>
    simp only [envStep]; split
    · exact ⟨rfl, fun h _ => h, fun _ _ _ => rfl, fun _ => rfl, br.2⟩
    · exact ⟨rfl, fun h _ => h, fun _ _ _ => rfl, fun _ => rfl, fun _ => ⟨rfl, rfl, rfl⟩⟩
  | wakesync =>
    simp only [envStep]; split
    · next hh => exact ⟨rfl, fun h h' => (by simp [h'] at hh), fun _ _ _ => rfl, fun _ => rfl, fun _ => ⟨rfl, rfl, rfl⟩⟩
    · exact ⟨rfl, fun h _ => h, fun _ _ _ => rfl, fun _ => rfl, fun _ => ⟨rfl, rfl, rfl⟩⟩
  | tick c =>
    refine ⟨rfl, fun h _ => h, fun _ _ _ => rfl, fun _ => rfl, fun d => ?_⟩
    by_cases hd : d = c
    · subst hd; rw [show (envStep s (.tick d)).chan d = (s.chan d).pulse from State.chan_onChan ..]
      unfold Channel.pulse; split <;> simp
    · rw [show (envStep s (.tick c)).chan d = s.chan d from State.chan_onChan_ne _ _ hd]; simp
  | pin l =>
    simp only [envStep, State.pin]; split
    · exact ⟨rfl, fun h _ => h, fun _ _ _ => rfl, fun _ => rfl, fun _ => ⟨rfl, rfl, rfl⟩⟩
    · exact ⟨rfl, fun h _ => h, fun _ _ _ => rfl, fun _ => rfl, fun _ => ⟨rfl, rfl, rfl⟩⟩
  | chip k sets =>
    have e : ∀ j, (envStep s (.chip k sets)).chip j = if j = k then { s.chip k with creg := ownChanges s.cfg k (s.chip k).creg sets } else s.chip j := by
      intro j; split
      · next h => subst h; exact State.chip_setChip s j _
      · next h => exact State.chip_setChip_ne s _ h
    refine ⟨rfl, fun h _ => h, fun j a ha => ?_, fun j => ?_, fun _ => ⟨rfl, rfl, rfl⟩⟩
    · simp only [State.creg, e]; split
      · next h => subst h; exact ownChanges_outside ha ..
      · rfl
    · simp only [State.cframe, e]; split <;> simp_all
  | reset p m q => exact absurd rfl (h p m q)

/-- The count rule (40_timer.md R112), each field apart. -/
theorem Channel.pulse_facts (ch : Channel) :
    (¬(ch.run = true ∧ ch.cnt.toNat < ch.cmp.toNat) → ch.pulse = ch) ∧
      (ch.run = true → ch.cnt.toNat < ch.cmp.toNat →
        ch.pulse.cnt.toNat = ch.cnt.toNat + 1 ∧ (ch.pulse.pend = true ↔ ch.pend = true ∨ ch.cnt.toNat + 1 = ch.cmp.toNat) ∧
        ch.pulse.run = true ∧ ch.pulse.cmp = ch.cmp ∧ ch.pulse.ie = ch.ie) := by
  unfold Channel.pulse
  refine ⟨fun h => ?_, fun h1 h2 => ?_⟩
  · rw [if_neg]; simpa using h
  · rw [if_pos (by simp [h1, h2])]
    have h : (ch.cnt + 1).toNat = ch.cnt.toNat + 1 := by
      rw [BitVec.toNat_add]; simp; omega
    refine ⟨h, ?_, h1, rfl, rfl⟩
    simp only [Bool.or_eq_true, beq_iff_eq]
    rw [← h, BitVec.toNat_inj]

/-- The step of a TICKc turn. -/
theorem step_tick {s : State} {c rest} (h : s.agenda = .tick c :: rest) : step s = .next
    (State.tick { s with agenda := rest } c) :=
  step_of_envTurn (turn := .tick c) ⟨by simp, h⟩

/-- An operation that raises a fault goes on with it. -/
theorem raiseFault_withFault (s : State) (c : FaultCode) : raiseFault c s = .next (s.withFault c.code) := by rw [raiseFault, raise_withFault]

/-- Clearing a frame keeps the other chip and every register. -/
theorem otherChipKept_of_cleared (s t : State) (k) (h : t.chips = (s.clearFrame k).chips) :
    OtherChipKept s t k ∧ RegistersKept s t := by
  have e1 : ∀ j, t.chip j = if j = k then { s.chip k with cframe := [] } else s.chip j := by
    intro j
    have : t.chip j = (s.clearFrame k).chip j := by simp only [State.chip, h]
    rw [this]
    split
    · next h => subst h; exact State.chip_setChip s j _
    · next h => exact State.chip_setChip_ne s _ h
  refine ⟨⟨by simp [State.cframe, e1], fun j hj => by simp [e1, hj]⟩, fun j a => ?_⟩
  simp only [State.creg, e1]; split <;> simp_all

/-- Opening or closing a select keeps the other chip and every register. -/
theorem otherChipKept_cleared (s : State) (k) (c: Option ChipIx) (r : Bool) :
    OtherChipKept s { s.clearFrame k with cssel := c, rawopen := r } k ∧ RegistersKept s { s.clearFrame k with cssel := c, rawopen := r } := otherChipKept_of_cleared s _ k rfl

/-- A chip replaced by one with the same registers keeps every register. -/
theorem registersKept_withChip {s : State} {k c n} (h : c.creg = (s.chip k).creg) : RegistersKept s
    (s.withChip k c n) := by
  intro j a
  by_cases hj : j = k
  · subst hj; simp [State.creg, h]
  · simp [State.creg, hj]

/-- The registers of a replaced chip. -/
theorem State.withChip_creg (s : State) (k c n a) : (s.withChip k c n).creg k a = RegFile.read c.creg a := by simp [State.creg]

end Sys2Proof.Machine
end

