-- ==== Sys2Proof/Laws/Decode.lean ====
section
/-! SUPPORT. The fields of an operation word and the word of its fields (30_encoding.md R80), and the units
named by the bit S (R84). -/

namespace Sys2Proof

@[simp] theorem Fields.ofWord_toWord (f : Fields) : Fields.ofWord f.toWord = f := by
  obtain ⟨o, s, a, b, c⟩ := f
  simp only [Fields.ofWord, Fields.toWord, Fields.mk.injEq]
  refine ⟨?_, ?_, ?_, ?_, ?_⟩ <;> ext i hi <;> simp <;> grind

@[simp] theorem Fields.toWord_ofWord (w : OpWord) : (Fields.ofWord w).toWord = w := by
  simp only [Fields.ofWord, Fields.toWord]
  ext i hi
  simp
  grind

theorem Fields.toWord_injective {f g : Fields} (h : f.toWord = g.toWord) : f = g := by
  rw [← Fields.ofWord_toWord f, h, Fields.ofWord_toWord]

@[simp] theorem decodeWord_toWord (f : Fields) : decodeWord f.toWord = decodeFields f := by
  simp [decodeWord]

@[simp] theorem unitOfBit_bitOfUnit (i : Fin 2) : unitOfBit (bitOfUnit i) = i := by
  revert i; decide

@[simp] theorem bitOfUnit_unitOfBit (s : BitVec 1) : bitOfUnit (unitOfBit s) = s := by
  revert s; decide

/-- IMM16 read back from the fields that hold it. -/
@[simp] theorem imm16_immFields (opc : BitVec 7) (s : BitVec 1) (v : Half) :
    (immFields opc s v).imm16 = v := by
  simp only [immFields, opFields, Fields.imm16]
  ext i hi
  simp
  grind

/-- Decoding takes a row's operands exactly when its reserved fields are zero (R85 b). -/
@[simp] theorem operands_eq_ok (z : Bool) (i j : Instr) : operands z i = .ok j ↔ z = true ∧ i = j := by
  cases z <;> simp [operands]

end Sys2Proof
end

