-- ==== Sys2Proof/Laws/Driver.lean ====
section
/-! SUPPORT. A driver procedure that no other agent disturbs issues its operations in order (42_driver.md
R209). -/

namespace Sys2Proof.Machine

open Sys2Proof

/-- t differs from s at most in the bus, RES and FBUF. -/
def BusOrBuffer (s t : State) : Prop := t = { s with chips := t.chips, cssel := t.cssel, drawn := t.drawn, fbuf := t.fbuf, res := t.res }

theorem BusOrBuffer.refl (s : State) : BusOrBuffer s s := rfl

theorem BusOrBuffer.trans {s t u : State} (h : BusOrBuffer s t) (h' : BusOrBuffer t u) : BusOrBuffer s u := by
  unfold BusOrBuffer at *; rw [h', h]

theorem BusOrBuffer.und {s t : State} (h : BusOrBuffer s t) (hu : Undisturbed s) : Undisturbed t := by
  rw [h]; exact hu

/-- An undisturbed SEQ is not halted. -/
theorem Undisturbed.not_halted {s : State} (h : Undisturbed s) : s.halted = false := by
  simp [State.halted, h.2.2.2.1, h.2.2.2.2]

theorem BusOrBuffer.cfg {s t : State} (h : BusOrBuffer s t) : t.cfg = s.cfg := by rw [h]

theorem BusOrBuffer.raw {s t : State} (h : BusOrBuffer s t) : t.rawopen = s.rawopen := by rw [h]

theorem BusOrBuffer.scr {s t : State} (h : BusOrBuffer s t) : t.scr = s.scr := by rw [h]

theorem BusOrBuffer.fault {s t : State} (h : BusOrBuffer s t) : t.fault = s.fault := by rw [h]

theorem BusOrBuffer.of_busOnly {s t} (h : BusOnly s t) : BusOrBuffer s t := by
  have h1 : t.cssel = none := by rw [h]
  have h2 : t.fbuf = s.fbuf := by rw [h]
  have h3 : t.res = s.res := by rw [h]
  unfold BusOrBuffer; rw [h1, h2, h3]; exact h

/-- Operations performed one after another, none of them beyond the bus, RES and FBUF. -/
inductive QuietRun : List Instr → State → State → Prop
  | nil (s) : QuietRun [] s s
  | cons {i l s t u} : exec i s = .next t → BusOrBuffer s t → QuietRun l t u → QuietRun (i :: l) s u

theorem QuietRun.bl {l s t} (h : QuietRun l s t) : BusOrBuffer s t := by
  induction h with
  | nil => exact .refl _
  | cons _ h _ ih => exact h.trans ih

theorem QuietRun.append {l l' s t u} (h : QuietRun l s t) (h' : QuietRun l' t u) : QuietRun (l ++ l') s u := by
  induction h with
  | nil => exact h'
  | cons h1 h2 _ ih => exact .cons h1 h2 (ih h')

theorem QuietRun.one {i s t} (h : exec i s = .next t) (h' : BusOrBuffer s t) :
    QuietRun [i] s t := .cons h h' (.nil _)

/-- With nothing scheduled and no interrupt deliverable no other agent steps. -/
theorem othersFirst_undisturbed {s : State} (hu : Undisturbed s) : othersFirst s.agenda s = (false, s) := by
  rw [hu.1]
  have e : ({ s with agenda := [] } : State) = s := by have := hu.1; cases s; simp_all
  simp only [othersFirst, e, deliver, hu.2.1]
  simp [hu.2.2.1]

/-- One operation of a procedure and the decision after it. -/
theorem Proc.runFrom_step (p : Proc) {s t : State} (hu : Undisturbed s) {i fuel iss op} (ho :
    (p.ops s.cfg s.scr)[i]? = some op) (he : exec op s = .next t) (hb : BusOrBuffer s t) :
   p.runFrom (fuel+1) i iss s = match p.after i t with
            | .goto j scr => p.runFrom fuel j (iss ++ [op]) { t with scr := scr }
            | .ret r _ => .next ⟨{ t with scr := Scratch.empty }, some r, iss ++ [op]⟩
            | .unwritten => .next ⟨t.raise .unwritten, none, iss ++ [op]⟩ := by
  have hs : s.halted = false := hu.not_halted
  have ht : t.halted = false := (hb.und hu).not_halted
  rw [Proc.runFrom, othersFirst_undisturbed hu]
  simp only [hs, ho, he, ht, Bool.false_eq_true, if_false]
  all_goals (cases p.after i t <;> rfl)

/-- A run of operations with no decision between. -/
theorem Proc.runFrom_prefix (p : Proc) : ∀ (l : List Instr) (s t : State) (i fuel : Nat)
    (iss), Undisturbed s → QuietRun l s t →
    (∀ j, j < l.length → (p.ops s.cfg s.scr)[i + j]? = l[j]?) →
    (∀ j u, j < l.length → BusOrBuffer s u → p.after (i+j) u = .goto (i+j+1) u.scr) →
    p.runFrom (fuel + l.length) i iss s = p.runFrom fuel (i + l.length) (iss ++ l) t := by
  intro l
  induction l with
  | nil => intro s t i fuel iss hu h _ _; cases h; simp
  | cons op l ih =>
    intro s t i fuel iss hu h hl ha
    cases h with
    | @cons _ _ _ v _ h1 h2 h3 =>
    rw [List.length_cons, ← Nat.add_assoc, Proc.runFrom_step p hu (op := op) (by simpa using hl 0 (by simp)) h1 h2]
    have := ha 0 v (by simp) h2
    rw [Nat.add_zero] at this
    rw [this]
    simp only []
    rw [ih v t (i+1) fuel _ (h2.und hu) h3 ?_ ?_]
    · rw [show i + 1 + l.length = i + (l.length + 1) by omega, List.append_assoc]; rfl
    · intro j hj
      rw [h2.cfg, h2.scr]
      have := hl (j+1) (by simp; omega)
      rw [show i + 1 + j = i + (j+1) by omega, this]; simp
    · intro j u hj hb
      have := ha (j+1) u (by simp; omega) (h2.trans hb)
      rw [show i + 1 + j = i + (j+1) by omega, this]

/-- A procedure that decides nothing. -/
theorem Proc.runFrom_straight (p : Proc) (ops : List Instr) (op : Instr) (s v t : State) (fuel : Nat) (hu :
    Undisturbed s) (ho : ∀ u, BusOrBuffer s u → p.ops u.cfg u.scr = ops ++ [op])
   (ha : ∀ j u, BusOrBuffer s u → p.after j u = straightAfter (ops ++ [op]).length j u.scr) (h :
     QuietRun ops s v) (he : exec op v = .next t) (hb : BusOrBuffer v t) (hf : ops.length < fuel) :
   p.runFrom fuel 0 [] s = .next ⟨{ t with scr := Scratch.empty }, some .unit, ops ++ [op]⟩ := by
  obtain ⟨f, rfl⟩ : ∃ f, fuel = (f + 1) + ops.length := ⟨fuel - ops.length - 1, by omega⟩
  rw [Proc.runFrom_prefix p ops s v 0 (f+1) [] hu h ?_ ?_]
  · rw [Proc.runFrom_step p (h.bl.und hu) (op := op) ?_ he hb, ha _ _ (h.bl.trans hb)]
    · simp [straightAfter]
    · rw [ho _ h.bl]; simp
  · intro j hj; rw [ho _ (.refl s)]; simp [hj, List.getElem?_append_left hj]
  · intro j u hj hb'; rw [ha _ _ hb', straightAfter, if_pos (by simp; omega)]

theorem QuietRun.split (l : List Instr) (i : Instr) (s t : State) (h : QuietRun (l ++ [i]) s t) :
    ∃ v, QuietRun l s v ∧ exec i v = .next t ∧ BusOrBuffer v t := by
    induction l generalizing s with
    | nil => cases h with | cons a b c => cases c; exact ⟨s, .nil s, a, b⟩
    | cons j l ih => cases h with | cons a b c => obtain ⟨v, h1, h2, h3⟩ := ih _ c; exact ⟨v, .cons a b h1, h2, h3⟩

end Sys2Proof.Machine
end

