-- ==== Sys2Proof/Laws/Handlers.lean ====
section
/-! SUPPORT. Handlers and procedures step by step: no instruction looks at where SEQ stands, so its effect is
the same at any position, with any SCR and host queue; and a handler that nothing disturbs performs its
operations in order (43_power_fsm.md R230; 42_driver.md R209). -/

namespace Sys2Proof.Machine

open Sys2Proof

/-- s with SEQ at another place: its position, SCR and the host queue. -/
def State.placed (s : State) (p : Pos) (c : Scratch) (q : List OpWord) : State :=
  { s with pos := p, scr := c, hostq := q }

/-- An outcome with its next state changed. -/
def mapNext (f : State → State) : Out → Out
  | .next t => .next (f t)
  | .fault r => .fault r
  | .refused r => .refused r

section
variable (p : Pos) (c : Scratch) (q : List OpWord)

theorem raise_placed (s : State) (e : FaultCode) : State.raise (State.placed s p c q) e = State.placed (s.raise e) p c q := by
  rw [raise_eq, raise_eq]; rfl

theorem raiseFault_placed (s : State) (e : FaultCode) : raiseFault e (State.placed s p c q) = mapNext (State.placed · p c q) (raiseFault e s) := by
  simp only [raiseFault, raise_placed]; rfl

theorem sendFrame_placed (s : State) (k os g) (hg : ∀ rs t, g rs (State.placed t p c q) = State.placed (g rs t) p c q) : sendFrame k os (State.placed s p c q) g = mapNext (State.placed · p c q) (sendFrame k os s g) := by
  rw [sendFrame_eq, sendFrame_eq]
  show (match Chip.exchangeAll s.cfg k s.drawn ⟨(s.chip k).creg, []⟩ os with
      | .error r => _
      | .ok (replies, c, n) => _) = _
  cases Chip.exchangeAll s.cfg k s.drawn ⟨(s.chip k).creg, []⟩ os with
  | error r => rfl
  | ok x => exact congrArg Host.Outcome.next (hg x.1 (s.afterFrame k x.2.1.creg x.2.2))

theorem whenClosed_placed (s : State) {o o' : Out} (h : o' = mapNext (State.placed · p c q) o) : whenClosed (State.placed s p c q) o' = mapNext (State.placed · p c q) (whenClosed s o) := by
  unfold whenClosed
  show (if s.rawopen then _ else _) = _
  split
  · exact raiseFault_placed ..
  · exact h
theorem whenOpenOn_placed (k) (s : State) {o o' : Out} (h : o' = mapNext (State.placed · p c q) o) : whenOpenOn k (State.placed s p c q) o' = mapNext (State.placed · p c q) (whenOpenOn k s o) := by
  unfold whenOpenOn
  show (if s.rawopen && s.cssel == some k then _ else _) = _
  split
  · exact h
  · exact raiseFault_placed ..
theorem whenCount_placed (n) (s : State) {o o' : Out} (h : o' = mapNext (State.placed · p c q) o) : whenCount n (State.placed s p c q) o' = mapNext (State.placed · p c q) (whenCount n s o) := by
  unfold whenCount
  split
  · exact h
  · exact raiseFault_placed ..
theorem whenInSpace_placed (a n) (s : State) {o o' : Out} (h : o' = mapNext (State.placed · p c q) o) : whenInSpace a n (State.placed s p c q) o' = mapNext (State.placed · p c q) (whenInSpace a n s o) := by
  unfold whenInSpace
  split
  · exact h
  · exact raiseFault_placed ..
theorem whenIndex_placed (n) (s : State) {o o' : Out} (h : o' = mapNext (State.placed · p c q) o) : whenIndex n (State.placed s p c q) o' = mapNext (State.placed · p c q) (whenIndex n s o) := by
  unfold whenIndex
  split
  · exact h
  · exact raiseFault_placed ..
theorem sendBuffer_placed (k hd n) (s : State) : sendBuffer k hd n (State.placed s p c q) = mapNext (State.placed · p c q) (sendBuffer k hd n s) := by
  unfold sendBuffer
  have e : (State.placed s p c q).fbuf = s.fbuf := rfl
  rw [e]
  cases fbufBytes s.fbuf 0 n.toNat with
  | none => exact raiseFault_placed ..
  | some b => exact sendFrame_placed p c q s _ _ _ (fun _ _ => rfl)
theorem takeCommand_placed (cmd) (s : State) : takeCommand cmd (State.placed s p c q) = mapNext (State.placed · p c q) (takeCommand cmd s) := by
  unfold takeCommand
  have e : (State.placed s p c q).cssel = s.cssel := rfl
  rw [e]
  cases s.cssel with
  | none => rfl
  | some k =>
    simp only [State.xfer_eq]
    have e1 : (State.placed s p c q).cfg = s.cfg := rfl
    have e2 : (State.placed s p c q).drawn = s.drawn := rfl
    have e3 : (State.placed s p c q).chip k = s.chip k := rfl
    rw [e1, e2, e3]
    cases (s.chip k).exchange s.cfg k s.drawn cmd.toByte <;> rfl

/-- An instruction does the same wherever SEQ stands. -/
theorem exec_placed (i : Instr) (s : State) : exec i (State.placed s p c q) = mapNext (State.placed · p c q) (exec i s) := by
  cases i <;> simp only [exec]
  case rsel => exact whenClosed_placed _ _ _ _ rfl
  case rdesel => exact whenOpenOn_placed _ _ _ _ _ rfl
  case rxfer k o =>
    refine whenOpenOn_placed _ _ _ _ _ ?_
    simp only [State.xfer_eq]
    have e1 : (State.placed s p c q).cfg = s.cfg := rfl
    have e2 : (State.placed s p c q).drawn = s.drawn := rfl
    have e3 : (State.placed s p c q).chip k = s.chip k := rfl
    rw [e1, e2, e3]
    cases (s.chip k).exchange s.cfg k s.drawn o <;> rfl
  case rreset | rread | rwrite | rbitmod | rrdstat | rrts => all_goals exact whenClosed_placed _ _ _ _ (sendFrame_placed p c q s _ _ _ (fun _ _ => rfl))
  case rwrseq => exact whenClosed_placed _ _ _ _ (whenCount_placed _ _ _ _ _ (whenInSpace_placed _ _ _ _ _ _ (sendBuffer_placed ..)))
  case rrdrx => exact whenClosed_placed _ _ _ _ (whenCount_placed _ _ _ _ _ (whenInSpace_placed _ _ _ _ _ _ (sendFrame_placed p c q s _ _ _ (fun _ _ => rfl))))
  case rldtx =>
    unfold execRldtx
    split
    · exact whenClosed_placed _ _ _ _ (whenCount_placed _ _ _ _ _ (whenInSpace_placed _ _ _ _ _ _ (sendBuffer_placed ..)))
    · exact raiseFault_placed ..
  case fbwr => exact whenIndex_placed _ _ _ _ _ rfl
  case fbrd idx =>
    refine whenIndex_placed _ _ _ _ _ ?_
    have e : (State.placed s p c q).fbuf = s.fbuf := rfl
    rw [e]
    cases fbufRead s.fbuf idx.toNat with
    | none => exact raiseFault_placed ..
    | some b => rfl
  case wireReset | wireRead | wireWrite | wireBitmod | wireReadStatus | wireRts | wireReadRx | wireLoadTx => all_goals exact takeCommand_placed ..
  all_goals rfl

/-- The same, for a next state. -/
theorem exec_placed_next {i s t} (h : exec i s = .next t) : exec i (State.placed s p c q) = .next (State.placed t p c q) := by
  rw [exec_placed, h]; rfl
end

/-- SEQ alone steps, in normal mode. -/
structure Quiet (s : State) : Prop where
  und : Undisturbed s
  host : s.hostmode = false

theorem Quiet.lpm {s} (h : Quiet s) : s.lpm = false := h.und.2.2.2.2
theorem Quiet.fault {s} (h : Quiet s) : s.fault = 0 := h.und.2.2.2.1

/-- The step of SEQ alone. -/
theorem Quiet.step {s : State} (h : Quiet s) : step s = normalStep s := by
  obtain ⟨⟨h1, h2, h3, h4, h5⟩, h6⟩ := h
  have : SeqTurn s [] := .inl ⟨h1, rfl⟩
  rw [step_of_seqTurn this, seqTurn]
  have e : ({ s with agenda := [] } : State) = s := by rw [← h1]
  rw [e]
  simp [h2, h3, seqStep, h4, h5, h6]

/-- The dispatch step of SEQ alone. -/
theorem Quiet.disp {s : State} (h : Quiet s) (hp : s.pos = ⟨.dispatch, 0⟩) : Machine.step s = .next s.dispatch ∧ Quiet s.dispatch := by
  refine ⟨by rw [h.step, normalStep, if_pos hp], ⟨h.und, h.host⟩⟩

/-- An operation step of SEQ alone. -/
theorem Quiet.op {s : State} (h : Quiet s) {i t} (hp : s.pos ≠ ⟨.dispatch, 0⟩) (ho : s.opAt = some i) (he : exec i s = .next t) (hf : t.fault = 0) :
    Machine.step s = .next (advance s.pos.handler s.pos.idx t) := by
  rw [h.step, normalStep, if_neg hp, ho]
  show handlerStep i s = _
  simp [handlerStep, he, show t.fault = 0#8 from hf]

/-- Operations performed one after another, each leaving SEQ alone to step. -/
inductive SoloRun : List Instr → State → State → Prop
  | nil (s) : SoloRun [] s s
  | cons {i l s t u} : exec i s = .next t → Quiet t → SoloRun l t u → SoloRun (i :: l) s u

theorem SoloRun.append {l l' s t u} (h : SoloRun l s t) (h' : SoloRun l' t u) : SoloRun (l ++ l') s u := by
  induction h with
  | nil => exact h'
  | cons h1 h2 _ ih => exact .cons h1 h2 (ih h')

theorem SoloRun.one {i s t} (h : exec i s = .next t) (h' : Quiet t) : SoloRun [i] s t := .cons h h' (.nil _)

theorem SoloRun.quiet {l s t} (h : SoloRun l s t) (hs : Quiet s) : Quiet t := by
  induction h with
  | nil => exact hs
  | cons _ h _ ih => exact ih h

theorem SoloRun.keeps {l s t} (h : SoloRun l s t) : t.cfg = s.cfg ∧ t.pos = s.pos ∧ t.scr = s.scr ∧ t.hostq = s.hostq := by
  induction h with
  | nil => exact ⟨rfl, rfl, rfl, rfl⟩
  | cons h _ _ ih => 
    have k := exec_keeps h
    exact ⟨ih.1.trans k.cfg, ih.2.1.trans k.pos, ih.2.2.1.trans k.scr, ih.2.2.2.trans k.hostq⟩

theorem Quiet.placed {s} (h : Quiet s) (p c q) : Quiet (State.placed s p c q) := ⟨h.und, h.host⟩
theorem SoloRun.placed {l s t} (h : SoloRun l s t) (p c q) : SoloRun l (State.placed s p c q) (State.placed t p c q) := by
  induction h with
  | nil => exact .nil _
  | cons h h' _ ih => exact .cons (exec_placed_next _ _ _ h) (h'.placed _ _ _) ih

theorem SoloRun.of_quietRun {l s t} (h : QuietRun l s t) (hs : Quiet s) : SoloRun l s t := by
  induction h with
  | nil => exact .nil _
  | cons h h' _ ih => 
    have hq : Quiet _ := ⟨h'.und hs.und, by rw [h']; exact hs.host⟩
    exact .cons h hq (ih hq)

theorem goto_eq_placed (s : State) (h i scr) : s.goto h i scr = State.placed s ⟨h, i⟩ scr s.hostq := rfl

/-- SEQ alone goes through a run of operations of a handler that decides nothing between them. -/
theorem handler_walk (h : Handler) (hh : h ≠ .dispatch) : ∀ (l : List Instr) (s t : State) (i : Nat), Quiet s → s.pos = ⟨h, i⟩ → SoloRun l s t →
    (∀ j, j < l.length → (h.ops s.cfg s.scr)[i + j]? = l[j]?) →
    (∀ j u, j < l.length → u.cfg = s.cfg → u.scr = s.scr → advance h (i + j) u = u.goto h (i + j + 1) u.scr) →
    Host.Core.run Sys2Proof.core l.length s = .next (t.goto h (i + l.length) s.scr) ∧ Quiet (t.goto h (i + l.length) s.scr) := by
  intro l
  induction l with
  | nil =>
    intro s t i hq hp hr _ _
    cases hr
    have : s.goto h (i + 0) s.scr = s := by
      show ({ s with pos := ⟨h, i⟩, scr := s.scr } : State) = s
      rw [← hp]
    simp only [List.length_nil]
    rw [this]; exact ⟨rfl, hq⟩
  | cons op l ih =>
    intro s t i hq hp hr ho ha
    cases hr with
    | @cons _ _ _ v _ h1 h2 h3 =>
    have hk := exec_keeps h1
    have st := hq.op (by rw [hp]; intro e; injection e with e _; exact hh e) (i := op) (by rw [State.opAt, hp]; simpa using ho 0 (by simp)) h1 h2.fault
    rw [hp] at st
    have a0 := ha 0 v (by simp) hk.cfg hk.scr
    simp only [Nat.add_zero] at a0
    rw [a0] at st
    rw [List.length_cons, run_succ st]
    have hk3 := h3.keeps
    have := ih (v.goto h (i+1) v.scr) (State.placed t ⟨h, i+1⟩ v.scr v.hostq) (i+1) ⟨h2.und, h2.host⟩ rfl (by rw [goto_eq_placed]; exact h3.placed _ _ _) ?_ ?_
    · have e1 : (State.placed t ⟨h, i+1⟩ v.scr v.hostq).goto h (i + 1 + l.length) (v.goto h (i+1) v.scr).scr = t.goto h (i + (l.length + 1)) s.scr := by
        show State.placed t ⟨h, i + 1 + l.length⟩ v.scr v.hostq = State.placed t ⟨h, i + (l.length + 1)⟩ s.scr t.hostq
        rw [hk.scr, ← hk3.2.2.2, show i + 1 + l.length = i + (l.length + 1) by omega]
      rw [e1] at this; exact this
    · intro j hj
      show (h.ops v.cfg v.scr)[i+1+j]? = _
      rw [hk.cfg, hk.scr]
      have := ho (j+1) (by simp; omega)
      rw [show i + 1 + j = i + (j+1) by omega, this]; simp
    · intro j u hj h4 h5
      have := ha (j+1) u (by simp; omega) (h4.trans hk.cfg) (h5.trans hk.scr)
      rw [show i + 1 + j = i + (j+1) by omega, this]

/-- Runs one after another. -/
theorem run_append : ∀ {n m : Nat} {s t : State}, Host.Core.run Sys2Proof.core n s = .next t → Host.Core.run Sys2Proof.core (n + m) s = Host.Core.run Sys2Proof.core m t := by
  intro n
  induction n with
  | zero => intro m s t h; have : s = t := by injection h
            subst this; rw [Nat.zero_add]
  | succ n ih =>
    intro m s t h
    rw [show n + 1 + m = (n + m) + 1 by omega]
    cases hs : step s with
    | next u =>
      rw [run_succ hs] at h ⊢
      exact ih h
    | fault r => simp only [Host.Core.run] at h; have e : Sys2Proof.core.step s = step s := rfl; rw [e, hs] at h; cases h
    | refused r => simp only [Host.Core.run] at h; have e : Sys2Proof.core.step s = step s := rfl; rw [e, hs] at h; cases h

theorem run_snoc {n : Nat} {s t u : State} (h : Host.Core.run Sys2Proof.core n s = .next t) (h' : step t = .next u) : Host.Core.run Sys2Proof.core (n + 1) s = .next u := by
  rw [run_append h, show (1 : Nat) = 0 + 1 from rfl, run_succ h']; rfl

/-- A handler without decisions, from its first operation to its end. -/
theorem straight_pass (h : Handler) (hadv : ∀ i u, advance h i u = straightOn h i u) (hh : h ≠ .dispatch) {l op} {s v w : State} (hq : Quiet s) (hp : s.pos = ⟨h, 0⟩)
    (hops : h.ops s.cfg s.scr = l ++ [op]) (hl : SoloRun l s v) (he : exec op v = .next w) (hf : w.fault = 0) :
    Host.Core.run Sys2Proof.core (l.length + 1) s = .next w.finish := by
  have := handler_walk h hh l s v 0 hq hp hl (fun j hj => by rw [hops, Nat.zero_add, List.getElem?_append_left hj]) (fun j u hj h1 h2 => by
    rw [hadv, straightOn, if_pos (by rw [h1, h2, hops]; simp; omega)])
  obtain ⟨h1, h2⟩ := this
  rw [Nat.zero_add] at h1 h2
  have k := hl.keeps
  have hv := exec_keeps he
  have st := h2.op (i := op) (t := State.placed w ⟨h, l.length⟩ s.scr v.hostq) (by
      intro e; injection e with e _; exact hh e) (by
      show (h.ops v.cfg s.scr)[l.length]? = _
      rw [k.1, hops]; simp) (exec_placed_next _ _ _ he) hf
  have e1 : advance h l.length (State.placed w ⟨h, l.length⟩ s.scr v.hostq) = w.finish := by
    rw [hadv, straightOn, if_neg]
    · show State.placed w ⟨.dispatch, 0⟩ Scratch.empty v.hostq = State.placed w ⟨.dispatch, 0⟩ Scratch.empty w.hostq
      rw [hv.hostq]
    · show ¬ (l.length + 1 < (h.ops w.cfg s.scr).length)
      rw [hv.cfg, k.1, hops]; simp
  have st : step (v.goto h l.length s.scr) = .next (advance h l.length (State.placed w ⟨h, l.length⟩ s.scr v.hostq)) := st
  rw [e1] at st
  exact run_snoc h1 st

/-- The same from dispatch on. -/
theorem straight_pass_dispatch (h : Handler) (hadv : ∀ i u, advance h i u = straightOn h i u) (hh : h ≠ .dispatch) {l op} {s v w : State} (hq : Quiet s) (hp : s.pos = ⟨.dispatch, 0⟩)
    (hd : s.dispatch.pos = ⟨h, 0⟩)
    (hops : h.ops s.cfg s.scr = l ++ [op]) (hl : SoloRun l s v) (he : exec op v = .next w) (hf : w.fault = 0) :
    Host.Core.run Sys2Proof.core (l.length + 2) s = .next w.finish := by
  obtain ⟨st0, q1⟩ := hq.disp hp
  rw [show l.length + 2 = (l.length + 1) + 1 by omega, run_succ st0]
  have e : s.dispatch = State.placed s ⟨h, 0⟩ s.scr s.hostq := by
    have : s.dispatch = { s with pos := s.dispatch.pos } := rfl
    rw [this, hd]; rfl
  have := straight_pass h hadv hh q1 hd (by rw [e]; exact hops) (v := State.placed v ⟨h,0⟩ s.scr s.hostq) (w := State.placed w ⟨h,0⟩ s.scr s.hostq)
    (by rw [e]; exact hl.placed _ _ _) (exec_placed_next _ _ _ he) hf
  rw [this]
  have : (State.placed w ⟨h,0⟩ s.scr s.hostq).finish = w.finish := by
    show State.placed w ⟨.dispatch, 0⟩ Scratch.empty s.hostq = State.placed w ⟨.dispatch, 0⟩ Scratch.empty w.hostq
    rw [(exec_keeps he).hostq, hl.keeps.2.2.2]
  rw [this]

/-- A procedure that SEQ can start and that issues operations. -/
theorem Proc.run_eq_runFrom (p : Proc) {s : State} (hu : Undisturbed s) (h1 : p.valid = true)
    (h2 : p.immediate s.cfg = none) : p.run s = p.runFrom (s.cfg.nPoll + 32) 0 [] s := by
  unfold Proc.run
  simp only [h1, h2, hu.not_halted, Bool.not_true, Bool.false_eq_true, if_false]

end Sys2Proof.Machine
end

