-- ==== Sys2Proof/Laws/Inv.lean ====
section
/-! SUPPORT. The parts of the invariant of Safety.lean under one instruction, one agent turn and one control decision. -/

namespace Sys2Proof.Machine

open Sys2Proof

/-- The bus part of the invariant. -/
structure BusInv (s : State) : Prop where
  bracket : BracketOk s
  frames : FramesOk s
  command : CommandOk s

theorem BusInv.of_eq {s t : State} (h : BusInv s) (h1 : t.cssel = s.cssel) (h2 : t.rawopen = s.rawopen) (h3 :
    ∀ k, t.cframe k = s.cframe k) : BusInv t :=
  ⟨by simp only [BracketOk, h1, h2]; exact h.bracket, fun k hk => by rw [h3]; exact h.frames k (by rwa [h1] at hk), fun k b bs hb => h.command k b bs (by rwa [h3] at hb)⟩

/-- With no raw bracket open no chip is selected and no frame is open. -/
theorem busInv_closed {s : State} (h : BusInv s) (hr : s.rawopen = false) : s.cssel = none ∧
    ∀ k, s.cframe k = [] := by
  have := h.bracket
  simp only [BracketOk, hr] at this
  have hn : s.cssel = none := by
    generalize s.cssel = x at this; cases x with
    | none => rfl
    | some _ => cases this
  exact ⟨hn, fun k => h.frames k (by simp [hn])⟩

/-- A framed operation keeps the bus part of the invariant. -/
theorem busInv_afterFrame {s : State} (h : BusInv s) (hr : s.rawopen = false) (k f n) : BusInv
    (s.afterFrame k f n) := by
  obtain ⟨h1, h2⟩ := busInv_closed h hr
  have : ∀ j, (s.afterFrame k f n).cframe j = [] := by
    intro j
    by_cases hj : j = k
    · subst hj; simp [State.cframe]
    · simp [State.cframe, hj]; exact h2 j
  exact ⟨by simp only [BracketOk]; exact hr, fun j _ => this j, fun j b bs hb => by rw [this] at hb; cases hb⟩

/-- A byte exchange with the selected chip keeps it. -/
theorem busInv_exchange {s : State} (h : BusInv s) {k o r c n} (hk : s.cssel = some k) (he :
    (s.chip k).exchange s.cfg k s.drawn o = .ok (r, c, n)) : BusInv (s.withChip k c n) := by
  have hf := Chip.exchange_cframe he
  have fr : ∀ j, (s.withChip k c n).cframe j = if j = k then s.cframe k ++ [o] else s.cframe j := by
    intro j; split
    · next h => subst h; simp [State.cframe, hf]
    · next h => simp [State.cframe, h]
  refine ⟨h.bracket, fun j hj => ?_, fun j b bs hb => ?_⟩
  · have : j ≠ k := by rintro rfl; exact hj hk
    rw [fr, if_neg this]; exact h.frames j hj
  · rw [fr] at hb
    split at hb
    · cases hc : s.cframe k with
      | nil =>
        rw [hc] at hb; simp at hb
        rw [← hb.1]; exact Chip.exchange_first he hc
      | cons x xs =>
        rw [hc] at hb; simp at hb
        rw [← hb.1]; exact h.command k x xs hc
    · exact h.command j b bs hb

/-- The effect of any instruction keeps it. -/
theorem busInv_effect {i s t} (h : BusInv s) (he : Effect i s t) : BusInv t := by
  have wire : ∀ cmd, WireEffect cmd s t → BusInv t := by
    rintro cmd (⟨-, rfl⟩ | ⟨k, r, c, n, hk, hx, rfl⟩)
    · exact h
    · exact busInv_exchange h hk hx
  cases i <;> simp only [Effect] at he
  case rsel k =>
    obtain ⟨hr, rfl⟩ := he
    obtain ⟨h1, h2⟩ := busInv_closed h hr
    have o := (otherChipKept_cleared s k (some k) true).1
    have : ∀ j, State.cframe { s.select k with rawopen := true } j = [] := by
      intro j; by_cases hj : j = k
      · subst hj; exact o.1
      · have := congrArg Chip.cframe (o.2 j hj); exact this.trans (h2 j)
    exact ⟨rfl, fun j _ => this j, fun j b bs hb => by rw [this] at hb; cases hb⟩
  case rdesel k =>
    obtain ⟨hr, hk, rfl⟩ := he
    have o := (otherChipKept_cleared s k none false).1
    have : ∀ j, State.cframe { s.deselect k with rawopen := false } j = [] := by
      intro j; by_cases hj : j = k
      · subst hj; exact o.1
      · have := congrArg Chip.cframe (o.2 j hj); exact this.trans (h.frames j (by rw [hk]; simpa using Ne.symm hj))
    exact ⟨rfl, fun j _ => this j, fun j b bs hb => by rw [this] at hb; cases hb⟩
  case rxfer k o => obtain ⟨-, hk, r, c, n, hx, rfl⟩ := he; exact (busInv_exchange h hk hx).of_eq rfl rfl (fun _ => rfl)
  case rreset | rwrite | rbitmod | rwrseq | rrts | rldtx => all_goals obtain ⟨hr, f, n, rfl⟩ := he; exact busInv_afterFrame h hr ..
  case rread | rrdstat | rrdrx => all_goals obtain ⟨hr, f, n, _, rfl⟩ := he; exact (busInv_afterFrame h hr _ f n).of_eq rfl rfl (fun _ => rfl)
  case wireReset | wireRead | wireWrite | wireBitmod | wireReadStatus | wireRts | wireReadRx | wireLoadTx => all_goals exact wire _ he
  case fbwr => obtain ⟨-, rfl⟩ := he; exact h.of_eq rfl rfl (fun _ => rfl)
  case fbrd => obtain ⟨-, _, -, rfl⟩ := he; exact h.of_eq rfl rfl (fun _ => rfl)
  all_goals (subst he; exact h.of_eq rfl rfl (fun _ => rfl))

/-- Any instruction keeps it. -/
theorem busInv_exec {i s t} (h : BusInv s) (he : exec i s = .next t) : BusInv t := by
  rcases exec_cases he with ⟨c, -, rfl⟩ | he
  · rw [raise_eq]; exact h.of_eq rfl rfl (fun _ => rfl)
  · exact busInv_effect h he

/-- Raising a fault leaves a code of 60_exceptions.md R271. -/
theorem faultOk_raise (s : State) (h : FaultOk s) (c) : FaultOk (s.raise c) := by
  rw [raise_eq]
  rcases h with h | ⟨d, h⟩
  · exact .inr ⟨c, by simp [h]⟩
  · have : s.fault ≠ 0 := by rw [h]; cases d <;> decide
    exact .inr ⟨d, by simp only [if_neg this]; exact h⟩

/-- Any instruction leaves NONE or a code of R271. -/
theorem faultOk_exec {i s t} (h : FaultOk s) (he : exec i s = .next t) : FaultOk t := by
  rcases exec_cases he with ⟨c, -, rfl⟩ | he
  · exact faultOk_raise s h c
  · unfold FaultOk; rw [he.keeps.2]; exact h

/-- Only PSLEEP enters the low-power wait. -/
theorem effect_lpm {i : Instr} {s t : State} (h : Effect i s t) : (i ≠ .psleep ∧ t.lpm = s.lpm) ∨
    (i = .psleep ∧ t = { s with lpm := true }) := by
  cases i <;> simp only [Effect, WireEffect] at h
  case psleep => subst h; exact .inr ⟨rfl, rfl⟩
  all_goals
    refine .inl ⟨by simp, ?_⟩
    first | (obtain ⟨-, rfl⟩ | ⟨_, _, _, _, -, -, rfl⟩ := h <;> rfl) | (subst h; rfl) | (obtain ⟨-, rfl⟩ := h; rfl) | (obtain ⟨-, -, rfl⟩ := h; rfl) | (obtain ⟨-, _, -, rfl⟩ := h; rfl) | (obtain ⟨-, _, _, rfl⟩ := h; rfl) | (obtain ⟨-, _, _, _, rfl⟩ := h; rfl) | (obtain ⟨-, -, _, _, _, -, rfl⟩ := h; rfl)

/-- Only PSLEEP enters the low-power wait, and a fault does not. -/
theorem exec_lpm {i : Instr} {s t : State} (h : exec i s = .next t) : (i ≠ .psleep ∧ t.lpm = s.lpm) ∨
    (i = .psleep ∧ t = { s with lpm := true }) := by
  rcases exec_cases h with ⟨c, hc, rfl⟩ | h
  · left
    refine ⟨by rintro rfl; simp [faultCauses] at hc, by rw [raise_eq]⟩
  · exact effect_lpm h

/-- SEQ is at dispatch with nothing in SCR, or at a step of a handler. -/
def PlaceOk (s : State) : Prop := s.pos = ⟨.dispatch, 0⟩ ∧ s.scr = Scratch.empty ∨
    (s.pos.handler ≠ .dispatch ∧ s.opAt.isSome)

theorem placeOk_finish (s : State) : PlaceOk s.finish := .inl ⟨rfl, rfl⟩

theorem placeOk_goto (s : State) (h : Handler) (i scr) (hh : h ≠ .dispatch) (hi : i <
    (h.ops s.cfg scr).length) : PlaceOk (s.goto h i scr) :=
  .inr ⟨hh, by simp [State.opAt, hi]⟩

theorem placeOk_straightOn (h i s) (hh : h ≠ .dispatch) : PlaceOk (straightOn h i s) := by
  unfold straightOn; split
  · exact placeOk_goto _ _ _ _ hh (by assumption)
  · exact placeOk_finish s

/-- The control decision after an operation leaves SEQ at dispatch or at a step of a handler. -/
theorem placeOk_advance (h : Handler) (i : Nat) (t : State) (hp : t.pos = ⟨h, i⟩) (ho : t.opAt.isSome) (hnp :
    ¬ (h = .sleeping ∧ 1 ≤ i)) : PlaceOk (advance h i t) := by
  have hr : ∀ c, h ≠ .dispatch → PlaceOk (t.raise c) := by
    intro c hh; rw [raise_eq]; exact .inr ⟨by simp [hp, hh], ho⟩
  cases h <;> simp only [advance]
  case dispatch => exact placeOk_finish t
  case sleepDet => exact placeOk_straightOn _ _ _ (by decide)
  case wakeup => exact placeOk_straightOn _ _ _ (by decide)
  case error => exact placeOk_straightOn _ _ _ (by decide)
  case unrec => exact placeOk_goto _ _ _ _ (by decide) (by simp [Handler.ops])
  case sleeping =>
    have : i = 0 := by simp at hnp; exact hnp
    subst this
    exact placeOk_goto _ _ _ _ (by decide) (by simp [Handler.ops])
  case running =>
    have l5 : ∀ (scr : Scratch) i, i ≤ 5 → i < (Handler.ops t.cfg scr .running).length := by
      intro scr i hi; simp [Handler.ops, Proc.ops]; omega
    unfold advanceRunning
    split
    · split
      · exact placeOk_goto _ _ _ _ (by decide) (l5 _ _ (by omega))
      · exact hr _ (by decide)
      · exact placeOk_finish t
    split
    · split
      · next h1 h2 j scr hj =>
        refine placeOk_goto _ _ _ _ (by decide) (l5 _ _ ?_)
        simp only [Proc.after, afterReceive, onRes] at hj
        grind
      · exact placeOk_goto _ _ _ _ (by decide) (l5 _ _ (by omega))
      · exact hr _ (by decide)
      · exact placeOk_finish t
    · exact placeOk_straightOn _ _ _ (by decide)
  case init =>
    have ll : ∀ (scr : Scratch), (Handler.ops t.cfg scr .init).length = 5 + ((initProc t.cfg).ops t.cfg t.scr).length + 4 := by
      intro scr; simp [Handler.ops, initPrologue, initEpilogue, initProc, Proc.ops]; omega
    have l2 : ((initProc t.cfg).ops t.cfg t.scr).length = (initSetupOps t.cfg t.cfg.pdcChip t.cfg.bitrateSel .normal).length + t.cfg.nPoll := by simp [initProc, Proc.ops]
    unfold advanceInit
    dsimp only
    split
    · exact placeOk_goto _ _ _ _ (by decide) (by rw [ll]; omega)
    split
    · exact placeOk_goto _ _ _ _ (by decide) (by rw [ll]; omega)
    split
    · split
      · next h1 h2 h3 j scr hj =>
        refine placeOk_goto _ _ _ _ (by decide) ?_
        rw [ll]
        simp only [Proc.after, initProc, afterPoll, onRes] at hj
        grind
      · exact placeOk_goto _ _ _ _ (by decide) (by rw [ll]; omega)
      · exact placeOk_goto _ _ _ _ (by decide) (by rw [ll]; omega)
      · exact hr _ (by decide)
    split
    · exact placeOk_goto _ _ _ _ (by decide) (by rw [ll]; omega)
    · exact placeOk_finish t

/-- An agent turn that is no reset keeps the bus part of the invariant. -/
theorem busInv_envStep {s : State} (h : BusInv s) (t) (hr : ∀ p m q, t ≠ .reset p m q) : BusInv
    (envStep s t) := by
  obtain ⟨u, hu, he, -, -, hf, -⟩ := envStep_keeps s t hr
  rw [hu]; exact h.of_eq (by rw [he]) (by rw [he]) hf

/-- The invariant, from its bus part and the fields it reads. -/
theorem inv_of_eq {s t : State} (hi : Inv s) (hb : BusInv t) (hf : t.fault = s.fault) (hp : t.pos = s.pos)
    (hs : t.scr = s.scr) (hc : t.cfg = s.cfg) (hm : t.hostmode = s.hostmode) (hl : t.lpm = s.lpm) : Inv t := by
  refine ⟨hb.1, hb.2, hb.3, ?_, ?_, ?_⟩
  · unfold FaultOk; rw [hf]; exact hi.fault
  · have := hi.position; unfold PositionOk State.opAt at *; rw [hm, hl, hp, hs, hc]; exact this
  · have := hi.scratch; unfold ScratchOk at *; rw [hp, hs]; exact this

theorem handlerOf_ne_dispatch : ∀ b : Byte, handlerOf b ≠ .dispatch := by intro b; unfold handlerOf; split_ifs <;> simp

end Sys2Proof.Machine
end

