-- ==== Sys2Proof/Laws/PerInstr.lean ====
section
/-! SUPPORT. Laws stated per instruction. RowMatch: an encoded operation word is one of its own row's
(30_encoding.md R81 to R83), and an encoded wire command is a byte of its pattern (R87). -/

namespace Sys2Proof.Laws.RowMatch

open Sys2Proof

/-- The byte lies under a pattern of R87. -/
def under (b mask pattern : Byte) : Prop := b &&& mask = pattern

/-- The pattern and mask of a wire command's row (R87). -/
def wirePattern : Instr → Option (Byte × Byte)
  | .wireReset => some (0xFF, 0xC0)
  | .wireRead => some (0xFF, 0x03)
  | .wireWrite => some (0xFF, 0x02)
  | .wireBitmod => some (0xFF, 0x05)
  | .wireReadStatus => some (0xFF, 0xA0)
  | .wireRts _ => some (0xF8, 0x80)
  | .wireReadRx _ => some (0xF9, 0x90)
  | .wireLoadTx _ => some (0xF8, 0x40)
  | .tstart _ | .tstop _ | .trestart _ | .tsetcnt _ _ | .tsetcmp _ _ | .trdcnt _ | .trdstat _
  | .tsetie _ _ | .tack _ | .rsel _ | .rdesel _ | .rxfer _ _ | .rreset _ | .rread _ _ | .rwrite _ _ _
  | .rbitmod _ _ _ _ | .rwrseq _ _ _ | .rrdstat _ | .rrts _ _ | .rrdrx _ _ _ | .rldtx _ _ _
  | .fbwr _ _ | .fbrd _ | .prdst | .pwrst _ | .parm | .pdisarm | .psleep | .pseterr | .psens _ _
  | .pind => none

/-- An operation word is accepted by a row with its mnemonic; a wire byte lies under its pattern. -/
def Statement (i : Instr) : Prop :=
  match encode i with
  | .word w => ∃ r ∈ opcodeTable, r.mnemonic = i.mnemonic ∧ r.accepts w = true
  | .wire b => ∃ m p, wirePattern i = some (m, p) ∧ under b m p

theorem masked (f : Fields) (o : BitVec 7) (s : BitVec 1) (a b c : Byte) :
    f.toWord &&& (Fields.mk o s a b c).toWord =
      (Fields.mk (f.opc &&& o) (f.s &&& s) (f.a &&& a) (f.b &&& b) (f.c &&& c)).toWord := by
  simp only [Fields.toWord]
  ext i hi
  simp only [BitVec.getElem_and, BitVec.getElem_append]
  grind

/-- A word with these fields is the row's, when the fields agree under the row's mask. -/
theorem accepts_of_fields {r : OpRow} {f : Fields} (m : Fields) (hm : r.mask = m.toWord)
    (h : (Fields.mk (f.opc &&& m.opc) (f.s &&& m.s) (f.a &&& m.a) (f.b &&& m.b) (f.c &&& m.c)).toWord =
      r.code) : r.accepts f.toWord = true := by
  have := masked f m.opc m.s m.a m.b m.c
  simp only [OpRow.accepts, beq_iff_eq, hm]
  exact this.trans h

section
variable (c : ChanIx) (k : ChipIx) (v : Half) (x y z : Byte)

/-- The rows at their places in the table. -/
theorem row_mem (n : Nat) (h : n < opcodeTable.length) : opcodeTable[n] ∈ opcodeTable :=
  List.getElem_mem h

theorem tstart : Statement (.tstart c) :=
  ⟨_, row_mem 0 (by decide), rfl, by revert c; decide⟩
theorem tstop : Statement (.tstop c) :=
  ⟨_, row_mem 1 (by decide), rfl, by revert c; decide⟩
theorem trestart : Statement (.trestart c) :=
  ⟨_, row_mem 2 (by decide), rfl, by revert c; decide⟩
theorem tsetcnt : Statement (.tsetcnt c v) :=
  ⟨_, row_mem 3 (by decide), rfl, accepts_of_fields ⟨0x7F, 0, 0xFF, 0, 0⟩ rfl (by simp [immFields, opFields]; rfl)⟩
theorem tsetcmp : Statement (.tsetcmp c v) :=
  ⟨_, row_mem 4 (by decide), rfl, accepts_of_fields ⟨0x7F, 0, 0xFF, 0, 0⟩ rfl (by simp [immFields, opFields]; rfl)⟩
theorem trdcnt : Statement (.trdcnt c) :=
  ⟨_, row_mem 5 (by decide), rfl, by revert c; decide⟩
theorem trdstat : Statement (.trdstat c) :=
  ⟨_, row_mem 6 (by decide), rfl, by revert c; decide⟩
theorem tsetie (ie : BitVec 1) : Statement (.tsetie c ie) :=
  ⟨_, row_mem 7 (by decide), rfl, by revert c ie; decide⟩
theorem tack : Statement (.tack c) :=
  ⟨_, row_mem 8 (by decide), rfl, by revert c; decide⟩
theorem rsel : Statement (.rsel k) :=
  ⟨_, row_mem 9 (by decide), rfl, by revert k; decide⟩
theorem rdesel : Statement (.rdesel k) :=
  ⟨_, row_mem 10 (by decide), rfl, by revert k; decide⟩
theorem rxfer : Statement (.rxfer k x) :=
  ⟨_, row_mem 11 (by decide), rfl, accepts_of_fields ⟨0x7F, 0, 0xFF, 0xFF, 0⟩ rfl (by simp [opFields]; rfl)⟩
theorem rreset : Statement (.rreset k) :=
  ⟨_, row_mem 12 (by decide), rfl, by revert k; decide⟩
theorem rread : Statement (.rread k x) :=
  ⟨_, row_mem 13 (by decide), rfl, accepts_of_fields ⟨0x7F, 0, 0, 0xFF, 0xFF⟩ rfl (by simp [opFields]; rfl)⟩
theorem rwrite : Statement (.rwrite k x y) :=
  ⟨_, row_mem 14 (by decide), rfl, accepts_of_fields ⟨0x7F, 0, 0, 0xFF, 0⟩ rfl (by simp [opFields]; rfl)⟩
theorem rbitmod : Statement (.rbitmod k x y z) :=
  ⟨_, row_mem 15 (by decide), rfl, accepts_of_fields ⟨0x7F, 0, 0, 0, 0⟩ rfl (by simp [opFields]; rfl)⟩
theorem rwrseq : Statement (.rwrseq k x y) :=
  ⟨_, row_mem 16 (by decide), rfl, accepts_of_fields ⟨0x7F, 0, 0, 0xFF, 0⟩ rfl (by simp [opFields]; rfl)⟩
theorem rrdstat : Statement (.rrdstat k) :=
  ⟨_, row_mem 17 (by decide), rfl, by revert k; decide⟩
theorem rrts (t : BitVec 3) : Statement (.rrts k t) :=
  ⟨_, row_mem 18 (by decide), rfl, by revert k t; decide⟩
theorem rrdrx (nm : BitVec 2) : Statement (.rrdrx k nm x) :=
  ⟨_, row_mem 19 (by decide), rfl, accepts_of_fields ⟨0x7F, 0, 0xFC, 0xFF, 0⟩ rfl
    (by simp [opFields]; revert nm; decide)⟩
theorem rldtx (abc : BitVec 3) : Statement (.rldtx k abc x) :=
  ⟨_, row_mem 20 (by decide), rfl, accepts_of_fields ⟨0x7F, 0, 0xF8, 0xFF, 0⟩ rfl
    (by simp [opFields]; revert abc; decide)⟩
theorem fbwr : Statement (.fbwr x y) :=
  ⟨_, row_mem 21 (by decide), rfl, accepts_of_fields ⟨0x7F, 1, 0, 0xFF, 0⟩ rfl (by simp [opFields]; rfl)⟩
theorem fbrd : Statement (.fbrd x) :=
  ⟨_, row_mem 22 (by decide), rfl, accepts_of_fields ⟨0x7F, 1, 0, 0xFF, 0xFF⟩ rfl (by simp [opFields]; rfl)⟩
theorem prdst : Statement .prdst := ⟨_, row_mem 23 (by decide), rfl, by decide⟩
theorem pwrst : Statement (.pwrst x) :=
  ⟨_, row_mem 24 (by decide), rfl, accepts_of_fields ⟨0x7F, 1, 0xFF, 0xFF, 0⟩ rfl (by simp [opFields]; rfl)⟩
theorem parm : Statement .parm := ⟨_, row_mem 25 (by decide), rfl, by decide⟩
theorem pdisarm : Statement .pdisarm := ⟨_, row_mem 26 (by decide), rfl, by decide⟩
theorem psleep : Statement .psleep := ⟨_, row_mem 27 (by decide), rfl, by decide⟩
theorem pseterr : Statement .pseterr := ⟨_, row_mem 28 (by decide), rfl, by decide⟩
theorem psens (slot : BitVec 2) : Statement (.psens slot x) :=
  ⟨_, row_mem 29 (by decide), rfl, accepts_of_fields ⟨0x7F, 1, 0xFC, 0xFF, 0⟩ rfl
    (by simp [opFields]; revert slot; decide)⟩
theorem pind : Statement .pind := ⟨_, row_mem 30 (by decide), rfl, by decide⟩
end

theorem wireReset : Statement .wireReset := ⟨_, _, rfl, rfl⟩
theorem wireRead : Statement .wireRead := ⟨_, _, rfl, rfl⟩
theorem wireWrite : Statement .wireWrite := ⟨_, _, rfl, rfl⟩
theorem wireBitmod : Statement .wireBitmod := ⟨_, _, rfl, rfl⟩
theorem wireReadStatus : Statement .wireReadStatus := ⟨_, _, rfl, rfl⟩
theorem wireRts (t : BitVec 3) : Statement (.wireRts t) :=
  ⟨_, _, rfl, show (WireCmd.rts t).toByte &&& 0xF8 = 0x80 by revert t; decide⟩
theorem wireReadRx (nm : BitVec 2) : Statement (.wireReadRx nm) :=
  ⟨_, _, rfl, show (WireCmd.readRx nm).toByte &&& 0xF9 = 0x90 by revert nm; decide⟩
theorem wireLoadTx (abc : BitVec 3) : Statement (.wireLoadTx abc) :=
  ⟨_, _, rfl, show (WireCmd.loadTx abc).toByte &&& 0xF8 = 0x40 by revert abc; decide⟩

end Sys2Proof.Laws.RowMatch
end

