-- ==== Sys2Proof/Laws/Writers.lean ====
section
/-! SUPPORT. What each instruction writes, as the access summary of 10_state.md R46 gives it. -/

namespace Sys2Proof.Machine

open Sys2Proof

/-- Everything the access summary says of one instruction. -/
def WritesOnly (i : Instr) (s t : State) : Prop :=
    (t.res ≠ s.res → (∃ c, i = (.trdcnt c) ∨ i = (.trdstat c)) ∨
      (∃ k, (∃ o, i = (.rxfer k o)) ∨ (∃ a, i = (.rread k a)) ∨ i = (.rrdstat k)) ∨
      (∃ j, i = (.fbrd j)) ∨ i = .prdst) ∧
    (t.fbuf ≠ s.fbuf → (∃ j b, i = (.fbwr j b)) ∨ ∃ k nm n, i = (.rrdrx k nm n)) ∧
    (∀ c, ((t.chan c).run ≠ (s.chan c).run → i = (.tstart c) ∨ i = (.tstop c) ∨ i = (.trestart c)) ∧
      ((t.chan c).cnt ≠ (s.chan c).cnt → (∃ v, i = (.tsetcnt c v)) ∨ i = (.trestart c)) ∧
      ((t.chan c).cmp ≠ (s.chan c).cmp → ∃ v, i = (.tsetcmp c v)) ∧
      ((t.chan c).ie ≠ (s.chan c).ie → ∃ v, i = (.tsetie c v)) ∧
      ((s.chan c).pend = false → (t.chan c).pend = false) ∧
      ((s.chan c).pend = true → (t.chan c).pend = false → i = (.tack c))) ∧
    (t.cssel ≠ s.cssel ∨ t.rawopen ≠ s.rawopen → ∃ k, i = (.rsel k) ∨ i = (.rdesel k)) ∧
    (t.pstate ≠ s.pstate → (∃ v, i = (.pwrst v))) ∧
    (t.errl ≠ s.errl → i = .pseterr ∧ t.errl = true) ∧
    (t.wken ≠ s.wken → i = .parm ∨ i = .pdisarm) ∧
    (t.lpm ≠ s.lpm → (i = .psleep ∧ t.lpm = true)) ∧
    (t.sensor ≠ s.sensor → ∃ x b, i = (.psens x b)) ∧
    (t.ind ≠ s.ind → i = .pind) ∧
    (∀ k a, t.creg k a ≠ s.creg k a → ((∃ os, frameOf s i = some (k, os)) ∨ ∃ o, i = .rxfer k o) ∨ (∃ cmd :
      WireCmd, i = cmd.toInstr))

theorem writesOnly_refl (i s) : WritesOnly i s s := by
  refine ⟨by simp, by simp, fun c => ⟨by simp, by simp, by simp, by simp, fun h => h, fun h h' => by rw [h] at h'; cases h'⟩, by simp, by simp, by simp, by simp, by simp, by simp, by simp, by simp⟩

/-- A timer operation writes only its channel. -/
theorem writesOnly_chan {i} {s t : State} (ht : t = { s with tmr := t.tmr })
   (h : ∀ c, ((t.chan c).run ≠ (s.chan c).run → i = (.tstart c) ∨ i = (.tstop c) ∨ i = (.trestart c)) ∧
      ((t.chan c).cnt ≠ (s.chan c).cnt → (∃ v, i = (.tsetcnt c v)) ∨ i = (.trestart c)) ∧
      ((t.chan c).cmp ≠ (s.chan c).cmp → ∃ v, i = (.tsetcmp c v)) ∧
      ((t.chan c).ie ≠ (s.chan c).ie → ∃ v, i = (.tsetie c v)) ∧
      ((s.chan c).pend = false → (t.chan c).pend = false) ∧
      ((s.chan c).pend = true → (t.chan c).pend = false → i = (.tack c))) : WritesOnly i s t := by
  rw [ht] at h ⊢
  exact ⟨by simp, by simp, h, by simp, by simp, by simp, by simp, by simp, by simp, by simp, fun k a h => absurd rfl h⟩

/-- The summary, from the elements an operation can write, the timers apart. -/
theorem writesOnly_rest {i} {s t : State} (ht : t.tmr = s.tmr)
   (h : (t.res ≠ s.res → (∃ c, i = (.trdcnt c) ∨ i = (.trdstat c)) ∨
      (∃ k, (∃ o, i = (.rxfer k o)) ∨ (∃ a, i = (.rread k a)) ∨ i = (.rrdstat k)) ∨
      (∃ j, i = (.fbrd j)) ∨ i = .prdst))
    (h1 : (t.fbuf ≠ s.fbuf → (∃ j b, i = (.fbwr j b)) ∨ ∃ k nm n, i = (.rrdrx k nm n)))
    (h2 : (t.cssel ≠ s.cssel ∨ t.rawopen ≠ s.rawopen → ∃ k, i = (.rsel k) ∨ i = (.rdesel k)) ∧
    (t.pstate ≠ s.pstate → (∃ v, i = (.pwrst v))) ∧
    (t.errl ≠ s.errl → i = .pseterr ∧ t.errl = true) ∧
    (t.wken ≠ s.wken → i = .parm ∨ i = .pdisarm) ∧
    (t.lpm ≠ s.lpm → (i = .psleep ∧ t.lpm = true)) ∧
    (t.sensor ≠ s.sensor → ∃ x b, i = (.psens x b)) ∧
    (t.ind ≠ s.ind → i = .pind))
    (h3 : ∀ k a, t.creg k a ≠ s.creg k a → ((∃ os, frameOf s i = some (k, os)) ∨ ∃ o, i = .rxfer k o) ∨
      (∃ cmd : WireCmd, i = cmd.toInstr)) : WritesOnly i s t := by
  have e : ∀ c, t.chan c = s.chan c := fun c => State.chan_eq_of_tmr ht c
  obtain ⟨a, b, c, d, e', f, g⟩ := h2
  exact ⟨h, h1, fun c => by rw [e]; exact (writesOnly_refl i s).2.2.1 c, a, b, c, d, e', f, g, h3⟩


theorem chip_ne_of_creg {s t : State} {k a} (h : t.creg k a ≠ s.creg k a) : t.chip k ≠ s.chip k := by
  intro e; apply h; simp [State.creg, e]

/-- A buffer frame without a fault had its bytes. -/
theorem sendBuffer_bytes {s : State} {k hd n t} (hf : t.fault = 0) (h : sendBuffer k hd n s = .next t) :
    ∃ bs, fbufBytes s.fbuf 0 n.toNat = some bs := by
  rcases sendBuffer_next h with rfl | ⟨bs, hb, -⟩
  · exact absurd hf (raise_fault_ne _ _)
  · exact ⟨bs, hb⟩

/-- The effect of any instruction is within the access summary. -/
theorem writesOnly_effect {i s t} (hb : BusInv s) (hx : exec i s = .next t) (hf : t.fault = 0) (h :
    Effect i s t) : WritesOnly i s t := by
  have chan : ∀ c f, t = s.onChan c f → (∀ d, d ≠ c → t.chan d = s.chan d) ∧ t.chan c = f (s.chan c) ∧ t = { s with tmr := t.tmr } := by
    rintro c f rfl; exact ⟨fun d hd => s.chan_onChan_ne f hd, s.chan_onChan c f, rfl⟩
  have wire : ∀ cmd : WireCmd, i = cmd.toInstr → WireEffect cmd s t → WritesOnly i s t := by
    rintro cmd hi (⟨-, rfl⟩ | ⟨k, r, c, n, hk, -, rfl⟩)
    · exact writesOnly_refl ..
    · exact writesOnly_rest rfl (fun h => absurd rfl h) (fun h => absurd rfl h) ⟨by simp [State.withChip], fun h => absurd rfl h, fun h => absurd rfl h, fun h => absurd rfl h, fun h => absurd rfl h, fun h => absurd rfl h, fun h => absurd rfl h⟩ (fun k a h => .inr ⟨cmd, hi⟩)
  have frame : ∀ k f n (t : State), s.rawopen = false → t = { s.afterFrame k f n with res := t.res, fbuf := t.fbuf } →
     (t.res ≠ s.res → (∃ a, i = .rread k a) ∨ i = .rrdstat k) → (t.fbuf ≠ s.fbuf → ∃ nm n, i = .rrdrx k nm n) →
     (∃ os, frameOf s i = some (k, os)) → WritesOnly i s t := by
    intro k f n t hr ht h1 h2 h3
    obtain ⟨hc, -⟩ := busInv_closed hb hr
    refine writesOnly_rest (by rw [ht]; rfl) (fun h => .inr (.inl ⟨k, .inr (h1 h)⟩)) (fun h => .inr ⟨k, h2 h⟩) ⟨?_, ?_, ?_, ?_, ?_, ?_, ?_⟩ (fun j a h => ?_)
    · rw [ht]; intro h; rcases h with h | h
      · exact absurd hc.symm h
      · exact absurd rfl h
    iterate 6 (rw [ht]; exact fun h => absurd rfl h)
    · by_cases hj : j = k
      · subst hj; exact .inl (.inl h3)
      · exfalso; apply h; rw [ht]; exact State.afterFrame_creg_ne s k f n hj a
  cases i <;> simp only [Effect] at h
  case tstart c | tstop c | trestart c | tsetcnt c v | tsetcmp c v | tsetie c v | tack c =>
    all_goals
      obtain ⟨h1, h2, h3⟩ := chan _ _ h
      refine writesOnly_chan h3 fun d => ?_
      by_cases hd : d = c
      · subst hd; rw [h2]; refine ⟨?_, ?_, ?_, ?_, ?_, ?_⟩ <;> simp <;> grind
      · rw [h1 d hd]; exact (writesOnly_refl _ s).2.2.1 d
  case rsel k =>
    obtain ⟨hr, rfl⟩ := h
    refine writesOnly_rest rfl (fun h => absurd rfl h) (fun h => absurd rfl h) ⟨fun _ => ⟨k, .inl rfl⟩, fun h => absurd rfl h, fun h => absurd rfl h, fun h => absurd rfl h, fun h => absurd rfl h, fun h => absurd rfl h, fun h => absurd rfl h⟩ (fun j a h => absurd ((otherChipKept_cleared s k (some k) true).2 j a) h)
  case rdesel k =>
    obtain ⟨-, -, rfl⟩ := h
    refine writesOnly_rest rfl (fun h => absurd rfl h) (fun h => absurd rfl h) ⟨fun _ => ⟨k, .inr rfl⟩, fun h => absurd rfl h, fun h => absurd rfl h, fun h => absurd rfl h, fun h => absurd rfl h, fun h => absurd rfl h, fun h => absurd rfl h⟩ (fun j a h => absurd ((otherChipKept_cleared s k none false).2 j a) h)
  case rxfer k o =>
    obtain ⟨-, hk, r, c, n, hx, rfl⟩ := h
    refine writesOnly_rest rfl (fun h => .inr (.inl ⟨k, .inl ⟨o, rfl⟩⟩)) (fun h => absurd rfl h) ⟨by simp [State.withChip], fun h => absurd rfl h, fun h => absurd rfl h, fun h => absurd rfl h, fun h => absurd rfl h, fun h => absurd rfl h, fun h => absurd rfl h⟩ (fun j a h => ?_)
    by_cases hj : j = k
    · subst hj; exact .inl (.inr ⟨o, rfl⟩)
    · exfalso; apply h; unfold State.creg; exact congrArg (fun c => RegFile.read (Chip.creg c) a) (State.withChip_chip_ne s k c n hj)
  case rreset k | rwrite k _ _ | rbitmod k _ _ _ | rrts k _ =>
    all_goals
      obtain ⟨hr, f, n, rfl⟩ := h
      exact frame k f n _ hr rfl (fun h => absurd rfl h) (fun h => absurd rfl h) ⟨_, rfl⟩
  case rread k _ | rrdstat k =>
    all_goals
      obtain ⟨hr, f, n, v, rfl⟩ := h
      exact frame k f n _ hr rfl (fun h => by simp) (fun h => absurd rfl h) ⟨_, rfl⟩
  case rrdrx k nm m =>
      obtain ⟨hr, f, n, v, rfl⟩ := h
      exact frame k f n _ hr rfl (fun h => absurd rfl h) (fun h => ⟨nm, m, rfl⟩) ⟨_, rfl⟩
  case rwrseq k a m =>
      obtain ⟨hr, f, n, rfl⟩ := h
      refine frame k f n _ hr rfl (fun h => absurd rfl h) (fun h => absurd rfl h) ?_
      simp only [exec, execRwrseq] at hx
      rcases whenClosed_next hx with ⟨-, hx⟩ | ⟨-, hx⟩
      · exact absurd hf (hx ▸ raise_fault_ne _ _)
      rcases whenCount_next hx with hx | ⟨-, hx⟩
      · exact absurd hf (hx ▸ raise_fault_ne _ _)
      rcases whenInSpace_next hx with hx | ⟨-, hx⟩
      · exact absurd hf (hx ▸ raise_fault_ne _ _)
      obtain ⟨bs, hbs⟩ := sendBuffer_bytes hf hx
      exact ⟨_, by simp only [frameOf, hbs]; rfl⟩
  case rldtx k abc m =>
      obtain ⟨hr, f, n, rfl⟩ := h
      refine frame k f n _ hr rfl (fun h => absurd rfl h) (fun h => absurd rfl h) ?_
      simp only [exec, execRldtx] at hx
      split at hx
      · rcases whenClosed_next hx with ⟨-, hx⟩ | ⟨-, hx⟩
        · exact absurd hf (hx ▸ raise_fault_ne _ _)
        rcases whenCount_next hx with hx | ⟨-, hx⟩
        · exact absurd hf (hx ▸ raise_fault_ne _ _)
        rcases whenInSpace_next hx with hx | ⟨-, hx⟩
        · exact absurd hf (hx ▸ raise_fault_ne _ _)
        obtain ⟨bs, hbs⟩ := sendBuffer_bytes hf hx
        exact ⟨_, by simp only [frameOf, hbs]; rfl⟩
      · have hx : s.raise .illegalOp = s.afterFrame k f n := by simpa [raiseFault] using hx
        exact absurd hf (hx ▸ raise_fault_ne _ _)
  case wireReset | wireRead | wireWrite | wireBitmod | wireReadStatus | wireRts | wireReadRx | wireLoadTx => all_goals exact wire _ rfl h
  case fbwr x b =>
    obtain ⟨-, rfl⟩ := h
    exact writesOnly_rest rfl (fun h => absurd rfl h) (fun h => .inl ⟨x, b, rfl⟩) ⟨by simp, fun h => absurd rfl h, fun h => absurd rfl h, fun h => absurd rfl h, fun h => absurd rfl h, fun h => absurd rfl h, fun h => absurd rfl h⟩ (fun j a h => absurd rfl h)
  case fbrd x =>
    obtain ⟨-, _, -, rfl⟩ := h
    exact writesOnly_rest rfl (fun h => .inr (.inr (.inl ⟨x, rfl⟩))) (fun h => absurd rfl h) ⟨by simp, fun h => absurd rfl h, fun h => absurd rfl h, fun h => absurd rfl h, fun h => absurd rfl h, fun h => absurd rfl h, fun h => absurd rfl h⟩ (fun j a h => absurd rfl h)
  all_goals
    subst h
    refine writesOnly_rest rfl ?_ (fun h => absurd rfl h) ⟨by simp, ?_, ?_, ?_, ?_, ?_, ?_⟩ (fun j a h => absurd rfl h)
    all_goals first | exact fun h => absurd rfl h | simp

/-- Any instruction is within the access summary. -/
theorem writesOnly_exec {i s t} (hb : BusInv s) (hx : exec i s = .next t) (h0 : s.fault = 0) :
    WritesOnly i s t := by
  rcases exec_cases hx with ⟨c, -, rfl⟩ | h
  · rw [raise_eq]; exact writesOnly_refl ..
  · exact writesOnly_effect hb hx (h.keeps.2.trans h0) h

end Sys2Proof.Machine
end

