-- ==== Sys2Proof/Tests/Slice0.lean ====
section
/-! SUPPORT. The model's own tests: the smoke test of WellFormed, each word written out from the fields of
30_encoding.md R80 to R83 and R87, the worked example that ends each operation's rule (40_timer.md,
41_regbus.md, 43_power_fsm.md), and for each statement with hypotheses a state that meets them. -/

namespace Sys2Proof.Tests

open Sys2Proof Sys2Proof.Machine

/-! ## WellFormed: an ill-formed term for each check -/

theorem test_wf_count_zero : (Instr.rwrseq 0 0x20 0).wf = false := by decide
theorem test_wf_count_seventeen : (Instr.rrdrx 0 0 17).wf = false := by decide
theorem test_wf_selector_six : (Instr.rldtx 0 6 5).wf = false := by decide
theorem test_wf_load_count : (Instr.rldtx 0 5 17).wf = false := by decide
theorem test_wf_index_write : (Instr.fbwr 16 0).wf = false := by decide
theorem test_wf_index_read : (Instr.fbrd 16).wf = false := by decide
theorem test_wf_wire_selector : (Instr.wireLoadTx 6).wf = false := by decide
theorem test_wf_accepts :
    (Instr.rwrseq 0 0x20 16).wf = true ∧ (Instr.rldtx 1 5 1).wf = true ∧ (Instr.fbrd 15).wf = true := by
  decide

/-! ## Words written out from the spec's fields OPC, S, A, B, C -/

theorem test_decode_timer :
    decodeTableWord 32 0b0010000_1_00000000_00000000_00000000 = some (.tstart 1) ∧
    decodeTableWord 32 0b0010001_0_00000000_00000000_00000000 = some (.tstop 0) ∧
    decodeTableWord 32 0b0010010_1_00000000_00000000_00000000 = some (.trestart 1) ∧
    decodeTableWord 32 0b0010011_0_00000000_00010010_00110100 = some (.tsetcnt 0 0x1234) ∧
    decodeTableWord 32 0b0010100_1_00000000_10000000_00000001 = some (.tsetcmp 1 0x8001) ∧
    decodeTableWord 32 0b0010101_0_00000000_00000000_00000000 = some (.trdcnt 0) ∧
    decodeTableWord 32 0b0010110_1_00000000_00000000_00000000 = some (.trdstat 1) ∧
    decodeTableWord 32 0b0010111_0_00000000_00000000_00000001 = some (.tsetie 0 1) ∧
    decodeTableWord 32 0b0011000_1_00000000_00000000_00000000 = some (.tack 1) := by decide

theorem test_decode_regbus :
    decodeTableWord 32 0b0100000_1_00000000_00000000_00000000 = some (.rsel 1) ∧
    decodeTableWord 32 0b0100001_0_00000000_00000000_00000000 = some (.rdesel 0) ∧
    decodeTableWord 32 0b0100010_1_00000000_00000000_10100101 = some (.rxfer 1 0xA5) ∧
    decodeTableWord 32 0b0100011_0_00000000_00000000_00000000 = some (.rreset 0) ∧
    decodeTableWord 32 0b0100100_1_00001110_00000000_00000000 = some (.rread 1 0x0E) ∧
    decodeTableWord 32 0b0100101_0_00101010_00000000_00000011 = some (.rwrite 0 0x2A 0x03) ∧
    decodeTableWord 32 0b0100110_1_00001111_11100000_10000000 = some (.rbitmod 1 0x0F 0xE0 0x80) ∧
    decodeTableWord 32 0b0100111_0_00100000_00000000_00010000 = some (.rwrseq 0 0x20 16) ∧
    decodeTableWord 32 0b0101000_1_00000000_00000000_00000000 = some (.rrdstat 1) ∧
    decodeTableWord 32 0b0101001_0_00000000_00000000_00000110 = some (.rrts 0 6) ∧
    decodeTableWord 32 0b0101010_1_00000010_00000000_00001101 = some (.rrdrx 1 2 13) ∧
    decodeTableWord 32 0b0101011_0_00000101_00000000_00001000 = some (.rldtx 0 5 8) ∧
    decodeTableWord 32 0b0101100_0_00001111_00000000_10101011 = some (.fbwr 15 0xAB) ∧
    decodeTableWord 32 0b0101101_0_00000011_00000000_00000000 = some (.fbrd 3) := by decide

theorem test_decode_power :
    decodeTableWord 32 0b0110000_0_00000000_00000000_00000000 = some .prdst ∧
    decodeTableWord 32 0b0110001_0_00000000_00000000_11111110 = some (.pwrst 0xFE) ∧
    decodeTableWord 32 0b0110010_0_00000000_00000000_00000000 = some .parm ∧
    decodeTableWord 32 0b0110011_0_00000000_00000000_00000000 = some .pdisarm ∧
    decodeTableWord 32 0b0110100_0_00000000_00000000_00000000 = some .psleep ∧
    decodeTableWord 32 0b0110101_0_00000000_00000000_00000000 = some .pseterr ∧
    decodeTableWord 32 0b0110110_0_00000011_00000000_01011010 = some (.psens 3 0x5A) ∧
    decodeTableWord 32 0b0110111_0_00000000_00000000_00000000 = some .pind := by decide

theorem test_decode_wire :
    decodeTableWord 8 0b11000000 = some .wireReset ∧ decodeTableWord 8 0b00000011 = some .wireRead ∧
    decodeTableWord 8 0b00000010 = some .wireWrite ∧ decodeTableWord 8 0b00000101 = some .wireBitmod ∧
    decodeTableWord 8 0b10100000 = some .wireReadStatus ∧
    decodeTableWord 8 0b10000_101 = some (.wireRts 5) ∧
    decodeTableWord 8 0b10010_01_0 = some (.wireReadRx 1) ∧
    decodeTableWord 8 0b01000_100 = some (.wireLoadTx 4) := by decide

/-- R85 and R89: no row, a reserved bit, a reserved command, a read-rx-buffer byte with bit 0 set. -/
theorem test_decode_rejects :
    decodeWord 0x00000000 = .error .noSuchOpcode ∧ decodeWord 0x32000000 = .error .noSuchOpcode ∧
    decodeWord 0x20000100 = .error .reservedField ∧ decodeWord 0x61000000 = .error .reservedField ∧
    decodeWord 0x2E000002 = .error .reservedField ∧ decodeWire 0xFF = .error .reservedWireCommand ∧
    decodeWire 0x91 = .error .reservedWireCommand ∧ decodeWire 0x47 = .error .reservedWireCommand :=
  ⟨rfl, rfl, rfl, rfl, rfl, rfl, rfl, rfl⟩

/-- R91: one line of assembler. -/
theorem test_asm : (Instr.rbitmod 0 0x0F 0xE0 0).asm = "RBITMOD 0, 15, 224, 0" := by decide

/-! ## A small machine -/

def zeroRegs : RegFile := Vector.replicate 256 0

/-- The default parameters with the OPEN ones fixed, and draws that a test can compute with. -/
def benchConfig : Config :=
  { Config.standard with
    cmpInact := 3, cmpTick := 2, nPoll := 1, nBlink := 3, bitTiming := #v[⟨1, 2, 3⟩, ⟨4, 5, 6⟩]
    bitrateSel := 0, pdcCanId := 0x123, draws := List.replicate 300 0x55
    chipResetImage := #v[Vector.replicate 256 0x55, zeroRegs] }

/-- The machine after reset with the pin high and every chip register zero. -/
def bench : State :=
  { State.reset with
    cfg := benchConfig, wakeIn := true, wakePrev := true, chips := #v[⟨zeroRegs, []⟩, ⟨zeroRegs, []⟩] }

/-- The machine with one register of chip k set. -/
def benchReg (k : ChipIx) (a v : Byte) : State := bench.setChip k ⟨RegFile.write zeroRegs a v, []⟩

/-- The machine with one timer channel set. -/
def benchChan (c : ChanIx) (ch : Channel) : State := bench.setChan c ch

/-- The machine with a raw bracket open on chip 0 after the bytes F. -/
def benchOpen (F : List Byte) : State :=
  { bench with cssel := some 0, rawopen := true, chips := #v[⟨zeroRegs, F⟩, ⟨zeroRegs, []⟩] }

/-- The machine with FBUF holding these bytes. -/
def benchBuf (bs : List Byte) : State := { bench with fbuf := fbufStore bench.fbuf 0 bs }

/-- What a test looks at in the state an outcome leaves. -/
def seen {α : Type} (o : Out) (f : State → α) : Option α :=
  match o with
  | .next t => some (f t)
  | .fault _ => none
  | .refused _ => none

/-- One step on the machine with this word as its next one. -/
def stepWord (s : State) (w : Nat) : Out := step (s.withFetchWord 32 w)

/-! ## The spec's worked examples, one step each -/

/-- R114's example. -/
theorem test_tstart : seen (stepWord (benchChan 0 ⟨false, 5, 9, false, false⟩) 0x20000000)
    (fun t => t.chan 0) = some ⟨true, 5, 9, false, false⟩ := by decide
/-- R115's example. -/
theorem test_tstop : seen (stepWord (benchChan 1 ⟨true, 3, 9, true, true⟩) 0x23000000)
    (fun t => t.chan 1) = some ⟨false, 3, 9, true, true⟩ := by decide
/-- R116's example. -/
theorem test_trestart : seen (stepWord (benchChan 0 ⟨true, 700, 1000, true, false⟩) 0x24000000)
    (fun t => t.chan 0) = some ⟨true, 0, 1000, true, false⟩ := by decide
/-- R117's example, its first step. -/
theorem test_tsetcnt : seen (stepWord (benchChan 0 ⟨true, 0, 0x10, false, false⟩) 0x2600000F)
    (fun t => t.chan 0) = some ⟨true, 0x0F, 0x10, false, false⟩ := by decide
/-- R117's example, its second step: the pulse. -/
theorem test_pulse :
    seen (step { benchChan 0 ⟨true, 0x0F, 0x10, false, false⟩ with agenda := [.tick 0] })
      (fun t => t.chan 0) = some ⟨true, 0x10, 0x10, true, false⟩ := by decide
/-- R118's example. -/
theorem test_tsetcmp : seen (stepWord bench 0x290000FA) (fun t => (t.chan 1).cmp) = some 0x00FA := by decide
/-- R119's example. -/
theorem test_trdcnt : seen (stepWord (benchChan 0 ⟨false, 0x1234, 0, false, false⟩) 0x2A000000)
    State.res = some (some 0x1234) := by decide
/-- R120's example. -/
theorem test_trdstat : seen (stepWord (benchChan 1 ⟨true, 0, 0, true, false⟩) 0x2D000000)
    State.res = some (some 0x0003) := by decide
/-- R121's example. -/
theorem test_tsetie : seen (stepWord bench 0x2E000001) (fun t => (t.chan 0).ie) = some true := by decide
/-- R122's example. -/
theorem test_tack : seen (stepWord (benchChan 1 ⟨false, 0, 0, true, false⟩) 0x31000000)
    (fun t => (t.chan 1).pend) = some false := by decide
/-- R147's example. -/
theorem test_rsel : seen (stepWord bench 0x41000000) (fun t => (t.cssel, t.rawopen, t.csN 1)) =
    some (some 1, true, false) := by decide
/-- R147: selecting the chip already selected is a fault. -/
theorem test_rsel_twice : seen (stepWord (benchOpen []) 0x40000000) State.fault = some 0x02 := by decide
/-- R148's example, on chip 0. -/
theorem test_rdesel : seen (stepWord (benchOpen []) 0x42000000) (fun t => (t.cssel, t.rawopen)) =
    some (none, false) := by decide
/-- R148: the bracket is open on the other chip. -/
theorem test_rdesel_other : seen (stepWord (benchOpen []) 0x43000000) State.fault = some 0x02 := by decide
/-- R149's example. -/
theorem test_rxfer :
    seen (stepWord ((benchOpen []).setChip 0 ⟨RegFile.write zeroRegs 0x2A 0x5A, [0x03, 0x2A]⟩) 0x44000000)
      State.res = some (some 0x005A) := by decide
/-- R149: a reserved first byte is refused. -/
theorem test_rxfer_reserved : execRxfer 0 0xFF (benchOpen []) = .refused .reservedWireCommand := by rfl
/-- R161: the mode field reads configuration mode after reset, in a register whose image is 0x55. -/
theorem test_rreset : seen (stepWord (benchReg 0 0x2B 0xFF) 0x46000000)
    (fun t => (t.creg 0 0x0E, t.creg 0 0x2B)) = some (0x95, 0x55) := by decide +kernel
/-- R67: a second reset leaves the same register. -/
theorem test_rreset_twice : seen (execAll [.rreset 0, .rwrite 0 0x2B 0xFF, .rreset 0] bench)
    (fun t => t.creg 0 0x2B) = some 0x55 := by decide +kernel
/-- R144: the byte received over a waveform is the chip's reply, 0x96 = 10010110. -/
theorem test_waveform : misoSamples (waveform .bitbang 0x2A 0x96) =
    [true, false, false, true, false, true, true, false] ∧ receivedByte (waveform .spi 0x2A 0x96) = 0x96 := by
  decide
/-- R151's example. -/
theorem test_rread : seen (stepWord (benchReg 0 0x0E 0x80) 0x480E0000) State.res = some (some 0x0080) := by
  decide
/-- R151 with R167: a register outside CHIP_IMPL. -/
theorem test_rread_refused : execRread 0 0x80 bench = .refused .registerNotImplemented := by rfl
/-- R152's example, chip 1 in configuration mode. -/
theorem test_rwrite : seen (stepWord (benchReg 1 0x0E 0x80) 0x4B2A0003) (fun t => t.creg 1 0x2A) =
    some 0x03 := by decide
/-- R170: CNF1 written outside configuration mode is a draw, not the byte sent. -/
theorem test_rwrite_mode : seen (stepWord bench 0x4A2A0003) (fun t => t.creg 0 0x2A) = some 0x55 := by decide
/-- R153's example. -/
theorem test_rbitmod : seen (stepWord (benchReg 0 0x0F 0x87) 0x4C0FE000) (fun t => t.creg 0 0x0F) =
    some 0x07 := by decide
/-- R154's example, chip 0 in configuration mode; the byte order of R61. -/
theorem test_rwrseq :
    seen (stepWord { benchReg 0 0x0E 0x80 with fbuf := fbufStore bench.fbuf 0 [1, 2, 3, 4] } 0x4E200004)
      (fun t => [t.creg 0 0x20, t.creg 0 0x23, t.creg 0 0x24]) = some [1, 4, 0] := by decide
/-- R154: FBUF holds ⊥. -/
theorem test_rwrseq_unwritten : seen (stepWord (benchBuf [1, 2, 3]) 0x4E200004) State.fault = some 0x05 := by
  decide
/-- R155's example: receive buffer 0 full. -/
theorem test_rrdstat : seen (stepWord (benchReg 0 0x2C 0x01) 0x50000000) State.res = some (some 0x0001) := by
  decide
/-- R156's example. -/
theorem test_rrts : seen (stepWord bench 0x52000001) (fun t => (t.creg 0 0x30, t.creg 0 0x40)) =
    some (0x08, 0x00) := by decide
/-- R157's example: byte i of FBUF is the register RXSTART(0) + i. -/
theorem test_rrdrx : seen (stepWord (benchReg 0 0x6D 0x77) 0x5400000D)
    (fun t => (fbufRead t.fbuf 0, fbufRead t.fbuf 12, fbufRead t.fbuf 13)) =
    some (some 0, some 0x77, none) := by decide
/-- R158's example: transmit buffer 1's header. -/
theorem test_rldtx : seen (stepWord (benchBuf [0x10, 0, 0, 0, 0x05]) 0x56020005)
    (fun t => (t.creg 0 0x41, t.creg 0 0x45, t.creg 0 0x46)) = some (0x10, 0x05, 0x00) := by decide
/-- R158 with R7: the start address is an exact sum, so a buffer whose TXSTART is above 0xFF is out of space. -/
theorem test_rldtx_exact :
    seen (stepWord { benchBuf [1] with cfg := { benchConfig with map := { ChipMap.standard with
      txbctrl := #v[0xFA, 0x40, 0x50] } } } 0x56010001) State.fault = some 0x04 := by decide
/-- R85 c: the selector 6. -/
theorem test_rldtx_selector : seen (stepWord (benchOpen []) 0x56060005) State.fault = some 0x01 := by decide
/-- R171's example. -/
theorem test_fbwr : seen (stepWord bench 0x580300AB) (fun t => fbufRead t.fbuf 3) = some (some 0xAB) := by
  decide
/-- R172's example. -/
theorem test_fbrd : seen (stepWord (benchBuf [0, 0, 0, 0xAB]) 0x5A030000) State.res = some (some 0x00AB) := by
  decide
/-- R172: after reset every index is ⊥. -/
theorem test_fbrd_unwritten : seen (stepWord bench 0x5A030000) State.fault = some 0x05 := by decide
/-- R252's example. -/
theorem test_prdst : seen (stepWord { bench with pstate := 0x02 } 0x60000000) State.res =
    some (some 0x0002) := by decide
/-- R253's example. -/
theorem test_pwrst : seen (stepWord bench 0x62000001) State.pstate = some 0x01 := by decide
/-- R249's example. -/
theorem test_parm : seen (stepWord bench 0x64000000) State.wken = some true := by decide
/-- R251's example. -/
theorem test_pdisarm : seen (stepWord { bench with wken := true } 0x66000000) State.wken = some false := by
  decide
/-- R250's example, its entry step. -/
theorem test_psleep : seen (stepWord bench 0x68000000) State.lpm = some true := by decide
/-- R250's example, its guard. -/
theorem test_psleep_guard :
    seen (step { bench with hostmode := true, wken := true, wkpend := true, lpm := true, wakeIn := false })
      (fun t => (t.pstate, t.wken, t.wkpend, t.lpm)) = some (0x04, false, false, false) := by decide
/-- R254's example. -/
theorem test_pseterr : seen (stepWord bench 0x6A000000) State.errl = some true := by decide
/-- R255's example. -/
theorem test_psens : seen (stepWord bench 0x6C02005A) (fun t => sensorRead t.sensor 2) =
    some (some 0x5A) := by decide
/-- R256's example. -/
theorem test_pind : seen (stepWord bench 0x6E000000) State.ind = some true := by decide

/-! ## The wire commands, one byte each (R160 to R168) -/

theorem test_wireReset : seen (step (bench.withFetchWord 8 0xC0)) (fun t => (t.creg 0 0x0F &&& 0xE0, t.cframe 0)) =
    some (0x80, [0xC0]) := by decide +kernel
theorem test_wireRead : seen (step (bench.withFetchWord 8 0x03)) (fun t => t.cframe 0) = some [0x03] := by decide
theorem test_wireWrite : seen (step (bench.withFetchWord 8 0x02)) (fun t => t.cframe 0) = some [0x02] := by
  decide
theorem test_wireBitmod : seen (step (bench.withFetchWord 8 0x05)) (fun t => t.cframe 0) = some [0x05] := by
  decide
theorem test_wireReadStatus : seen (step (bench.withFetchWord 8 0xA0)) (fun t => t.cframe 0) = some [0xA0] := by
  decide
theorem test_wireRts : seen (step (bench.withFetchWord 8 0x82)) (fun t => (t.creg 0 0x30, t.creg 0 0x40)) =
    some (0x00, 0x08) := by decide
theorem test_wireReadRx : seen (step (bench.withFetchWord 8 0x96)) (fun t => t.cframe 0) = some [0x96] := by
  decide
theorem test_wireLoadTx : seen (step (bench.withFetchWord 8 0x42)) (fun t => t.cframe 0) = some [0x42] := by
  decide
/-- No chip is selected: the byte is ignored (R142). -/
theorem test_wire_unselected : seen (execWireRts 1 bench) (fun t => t.creg 0 0x30) = some 0x00 := by decide

/-! ## Witnesses: for each statement with hypotheses, a state that meets them, clause by clause -/

/-- The state an outcome leaves, the bench where it leaves none. -/
def left (o : Out) : State :=
  match o with
  | .next t => t
  | .fault _ => bench
  | .refused _ => bench

/-- The host port with these words, and this schedule. -/
def benchHost (ws : List OpWord) (turns : List Turn) : State :=
  { bench with hostmode := true, hostq := ws, agenda := turns }

/-- SEQ at a position, in normal mode. -/
def benchAt (h : Handler) (i : Nat) : State := { bench with pos := ⟨h, i⟩ }

theorem benchConfig_ok : ConfigOk bench.cfg where
  inact := by decide
  tick := by decide
  poll := by decide
  blink := by decide
  opmod := by intro m; cases m <;> decide
  reqop := by intro m; cases m <;> decide
  apart := by decide

theorem witness_DecodeOfEncode :
    (Instr.wireLoadTx 5).encodable = true ∧ (Instr.rldtx 1 7 0xFF).encodable = true ∧
    (Instr.fbwr 0xFF 0).encodable = true ∧ (Instr.wireRts 7).encodable = true := by decide

theorem witness_EncodeOfDecode :
    decode (.word 0x57FF00FF) = .error .reservedField ∧ decode (.word 0x570700FF) = .ok (.rldtx 1 7 0xFF) ∧
    decode (.wire 0x45) = .ok (.wireLoadTx 5) := ⟨rfl, rfl, rfl⟩

theorem witness_DecoderFindsTheOneRow :
    decodeWord 0x21000000 = .ok (.tstart 1) ∧ ⟨"TSTART", 0x20000000, 0xFEFFFFFF⟩ ∈ opcodeTable ∧
    OpRow.accepts ⟨"TSTART", 0x20000000, 0xFEFFFFFF⟩ 0x21000000 = true ∧
    (∀ r ∈ opcodeTable, r.accepts 0x32000000 = false) ∧ 5 < (6 : BitVec 3).toNat :=
  ⟨rfl, by decide, by decide, by decide, by decide⟩

/-- The ends of the four ranges of R85 a; a reserved bit; both illegal selectors; no bracket open; and words
whose count is 0 or 17, whose run passes 0xFF, or whose index is 16. -/
theorem witness_IllegalEncodings :
    ((0x1E000000 : OpWord).extractLsb' 25 7).toNat = 0x0F ∧ ((0x32000000 : OpWord).extractLsb' 25 7).toNat = 0x19 ∧
    ((0x3E000000 : OpWord).extractLsb' 25 7).toNat = 0x1F ∧ ((0x5C000000 : OpWord).extractLsb' 25 7).toNat = 0x2E ∧
    ((0x5E000000 : OpWord).extractLsb' 25 7).toNat = 0x2F ∧ ((0x70000000 : OpWord).extractLsb' 25 7).toNat = 0x38 ∧
    (⟨"PIND", 0x6E000000, 0xFFFFFFFF⟩ ∈ opcodeTable ∧ (0x6F000000 : OpWord) &&& 0xFE000000 = 0x6E000000 ∧
      (0x6F000000 : OpWord) &&& 0xFFFFFFFF ≠ 0x6E000000) ∧
    ((0x56060001 : OpWord).extractLsb' 25 7 = 0x2B ∧ (0x56060001 : OpWord).extractLsb' 16 3 = 6) ∧
    ((0x56070001 : OpWord).extractLsb' 25 7 = 0x2B ∧ (0x56070001 : OpWord).extractLsb' 16 3 = 7) ∧
    bench.rawopen = false ∧ 15 < (16 : Byte).toNat := by decide

theorem witness_IllegalEncodings_ranges :
    decodeTableWord 32 0x4E200000 = some (.rwrseq 0 0x20 0) ∧
    decodeTableWord 32 0x4E200011 = some (.rwrseq 0 0x20 17) ∧
    decodeTableWord 32 0x4EFF0002 = some (.rwrseq 0 0xFF 2) ∧ 0xFF < (0xFF : Byte).toNat + (2 : Byte).toNat - 1 ∧
    decodeTableWord 32 0x54000000 = some (.rrdrx 0 0 0) ∧ decodeTableWord 32 0x54000011 = some (.rrdrx 0 0 17) ∧
    decodeTableWord 32 0x56050000 = some (.rldtx 0 5 0) ∧ decodeTableWord 32 0x56050011 = some (.rldtx 0 5 17) ∧
    decodeTableWord 32 0x58100000 = some (.fbwr 16 0) ∧ decodeTableWord 32 0x5A100000 = some (.fbrd 16) ∧
    (let far : State := { bench with cfg := { benchConfig with map := { ChipMap.standard with
        rxstart := #v[0xF1, 0xF1, 0xF1, 0xF1], txbctrl := #v[0xFA, 0xF0, 0xF0] } } }
     0xFF < (rxStart far.cfg 0).toNat + (16 : Byte).toNat - 1 ∧
     0xFF < txStart far.cfg 1 + (1 : Byte).toNat - 1) := by decide

theorem witness_StepPerformsTheHostWord :
    ((benchHost [0x64000000] []).seqReady = true ∧ (benchHost [0x64000000] []).hostmode = true ∧
      decodeWord 0x64000000 = .ok .parm ∧ decodeWord 0x64000001 = .error .reservedField) ∧
    bench.inactDeliverable = false ∧ bench.wakeDeliverable = false ∧ bench.fault = 0 ∧ bench.lpm = false ∧
    decodeTableWord 32 0x64000000 = some .parm :=
  ⟨⟨by decide, rfl, rfl, rfl⟩, by decide, by decide, rfl, rfl, by decide⟩

/-- A raw bracket on chip 0 with an RXFER word whose byte is a command; one is refused. -/
theorem witness_StepExecutesTheWireCommand :
    let s : State := { benchOpen [] with hostmode := true, hostq := [0x44000003] }
    let u : State := { benchOpen [] with hostmode := true, hostq := [0x44000046] }
    s.seqReady = true ∧ u.seqReady = true ∧ s.rawopen = true ∧ s.cssel = some 0 ∧
    decodeTableWord 32 0x44000003 = some (.rxfer 0 WireCmd.read.toByte) ∧
    decodeTableWord 32 0x44000046 = some (.rxfer 0 (WireCmd.loadTx 6).toByte) ∧
    (seen (exec .wireRead { s.turnTaken with hostq := [] }) State.cssel).isSome = true ∧
    (seen (exec (.wireLoadTx 6) { u.turnTaken with hostq := [] }) State.cssel) = none := by decide

/-- An operation that completes, one that faults (the bracket is open), one whose frame is refused. -/
theorem witness_StepPerformsTheHandlerOperation :
    ((benchAt .error 0).seqReady = true ∧ (benchAt .error 0).hostmode = false ∧
      (benchAt .error 0).opAt = some .pseterr ∧ seen (exec .pseterr (benchAt .error 0).turnTaken) State.fault = some 0) ∧
    ({ benchAt .running 0 with cssel := some 0, rawopen := true } : State).opAt = some (.rrdstat 0) ∧
    seen (exec (.rrdstat 0) { benchAt .running 0 with cssel := some 0, rawopen := true }) State.fault = some 2 ∧
    (benchAt .running 2).opAt = some (.rrdrx 0 0 13) ∧
    seen (exec (.rrdrx 0 0 13)
      { benchAt .running 2 with cfg := { benchConfig with chipImpl := #v[[], []] } }) State.fault = none := by
  decide

/-- Each value of R231's list, the two ends of the last range, and a store pending after the load. -/
theorem witness_DispatchSelectsTheHandler :
    (∀ v ∈ [0x00, 0x01, 0x02, 0x03, 0x04, 0x05, 0x06, (0xFF : Byte)], ∀ e ∈ [false, true],
      ({ bench with pstate := v, errl := e } : State).seqReady = true ∧
      ({ bench with pstate := v, errl := e } : State).pos = ⟨.dispatch, 0⟩) ∧
    (let s : State := { benchChan 0 ⟨false, 0, 0, true, true⟩ with pos := ⟨.init, 0⟩ }
     s.seqFree = false ∧ s.inactDeliverable = true ∧ seen (step s) State.pstate = some 0x02) := by decide

theorem witness_HandlersIssueOperationWords :
    .pseterr ∈ Handler.ops benchConfig Scratch.empty .error := by decide

/-- A pulse on a stopped channel, one that counts, the match, and one past it. -/
theorem witness_CountPulse :
    (∀ ch ∈ [⟨false, 0, 3, false, false⟩, ⟨true, 0, 3, false, false⟩, ⟨true, 2, 3, false, false⟩,
        (⟨true, 3, 3, true, false⟩ : Channel)],
      ({ benchChan 0 ch with agenda := [.tick 0] } : State).agenda = .tick 0 :: []) ∧
    (⟨true, 2, 3, false, false⟩ : Channel).cnt.toNat < (⟨true, 2, 3, false, false⟩ : Channel).cmp.toNat := by
  decide

theorem witness_TheRthPulseIsTheMatch :
    (∀ n ∈ [0, 2, 3, 4], ({ benchChan 1 ⟨true, 0, 3, false, false⟩ with
        agenda := List.replicate n (.tick 1) } : State).agenda = List.replicate n (.tick 1) ++ []) ∧
    ((benchChan 1 ⟨true, 0, 3, false, false⟩).chan 1).run = true ∧
    ((benchChan 1 ⟨true, 0, 3, false, false⟩).chan 1).remaining = 3 ∧
    ((benchChan 1 ⟨true, 3, 3, false, false⟩).chan 1).remaining = 0 := by decide

theorem witness_NoOperationCausesAMatch :
    seen (exec (.tsetcnt 0 3) (benchChan 0 ⟨true, 2, 3, false, false⟩)) (fun t => (t.chan 0).pend) = some false ∧
    seen (exec (.tack 0) (benchChan 0 ⟨true, 3, 3, true, false⟩)) (fun t => (t.chan 0).pend) = some false := by
  decide

theorem witness_RawBracket :
    (benchOpen []).rawopen = true ∧ (benchOpen []).cssel = some 0 ∧ (benchOpen []).cssel ≠ some 1 ∧
    bench.rawopen = false := by decide

/-- A byte in each role is accepted: the ends of the frames' own ranges. -/
theorem witness_RxferExchangesOneByte :
    (byteRole benchConfig [0x03, 0x7D] 0 = .readReg 0x7D ∧ RunOk benchConfig 0 0x7D 1) ∧
    (byteRole benchConfig [0x02, 0x00] 9 = .writeReg 0 ∧ RunOk benchConfig 0 0 1) ∧
    (byteRole benchConfig [0x05, 0x0F, 0xE0] 0 = .modify 0x0F 0xE0 ∧
      benchConfig.implemented 0 0x0F = true) ∧
    byteRole benchConfig [0xA0] 0 = .status ∧ byteRole benchConfig [] 0xC0 = .command .reset ∧
    byteRole benchConfig [] 0x87 = .command (.rts 7) ∧ byteRole benchConfig [] 0x03 = .command .read ∧
    byteRole benchConfig [0x80] 0 = .ignored ∧
    (5 : BitVec 3).toNat ≤ 5 ∧ byteRole benchConfig [0x03, 0x7D, 0, 0] 0 = .readReg 0x7F ∧
    byteRole benchConfig [0x05, 0x0F, 0xE0, 0x00] 0 = .ignored ∧ byteRole benchConfig [0x45, 1] 9 = .writeReg 0x57 := by
  unfold RunOk; decide

theorem witness_RxferExchangesOneByte_state : ByteAccepted (benchOpen [0x03, 0x7D]) 0 0 ∧
    (benchOpen [0x03, 0x7D]).rawopen = true ∧ (benchOpen [0x03, 0x7D]).cssel = some 0 :=
  ⟨witness_RxferExchangesOneByte.1.2, rfl, rfl⟩

/-- The counts 0, 1, 16 and 17; the last address 0xFF and one past it; the index 15 and 16. -/
theorem witness_ChecksInOrder :
    (benchOpen []).rawopen = true ∧ isFramed (.rldtx 0 5 1) = true ∧ bench.rawopen = false ∧
    (0 : Byte).toNat = 0 ∧ 16 < (17 : Byte).toNat ∧ 1 ≤ (16 : Byte).toNat ∧ (16 : Byte).toNat ≤ 16 ∧
    0xFF < (0xF1 : Byte).toNat + (16 : Byte).toNat - 1 ∧ (0xF0 : Byte).toNat + (16 : Byte).toNat - 1 ≤ 0xFF ∧
    (let far : State := { bench with cfg := { benchConfig with map := { ChipMap.standard with
        rxstart := #v[0xF1, 0xF1, 0xF1, 0xF1], txbctrl := #v[0xF0, 0xF0, 0xF0] } } }
     0xFF < (rxStart far.cfg 0).toNat + (16 : Byte).toNat - 1 ∧
     0xFF < txStart far.cfg 0 + (16 : Byte).toNat - 1) ∧
    fbufRead bench.fbuf 0 = none ∧ txStart bench.cfg 0 + (16 : Byte).toNat - 1 ≤ 0xFF ∧
    15 < (16 : Byte).toNat ∧ (15 : Byte).toNat ≤ 15 ∧ fbufRead bench.fbuf 15 = none ∧
    decodeTableWord 32 0 = none := by decide

theorem witness_ChecksInOrder_buffer : ¬BufferFilled bench 1 := by unfold BufferFilled; decide

theorem witness_RefusedFrames :
    (benchOpen []).cframe 0 = [] ∧ WireCmd.ofByte 0xFF = none ∧
    byteRole benchConfig [0x03, 0xFF, 0x00] 0 = .readReg 0x100 ∧
    byteRole benchConfig [0x02, 0xFF] 0 = .writeReg 0xFF ∧ benchConfig.implemented 0 0xFF = false ∧
    byteRole benchConfig [0x05, 0x7F, 0x01] 1 = .modify 0x7F 0x01 ∧ benchConfig.implemented 0 0x7F = false ∧
    isFramed (.rreset 0) = true ∧ bench.rawopen = false := by decide

/-- A run that ends in the first mirror address 0x1E, and receive and transmit runs that end in 0x6E and
0x3E. -/
theorem witness_RefusedFrames_runs :
    ¬RunOk benchConfig 0 0x1D 2 ∧ ¬RunOk benchConfig 0 (rxStart benchConfig 0).toNat 14 ∧
    ¬RunOk benchConfig 0 (txStart benchConfig 0) 14 ∧ BufferFilled (benchBuf (List.replicate 14 1)) 14 := by
  unfold RunOk BufferFilled; decide

theorem witness_RreadReadsTheRegister : bench.rawopen = false ∧ bench.cfg.implemented 0 0x7D = true := by
  decide

/-- In and outside configuration mode; a modifiable register and one that is not. -/
theorem witness_OneRegisterIsWritten :
    bench.rawopen = false ∧ bench.cfg.implemented 1 0x2A = true ∧ bench.cfg.configOnly 1 0x2A = true ∧
    inConfigMode benchConfig (RegFile.write zeroRegs 0x0E 0x80) = true ∧
    inConfigMode benchConfig zeroRegs = false ∧ bench.cfg.bitModifiable 1 0x2A = true ∧
    bench.cfg.bitModifiable 1 0x31 = false := by decide

theorem witness_RwrseqStoresTheRun :
    bench.rawopen = false ∧ 1 ≤ (12 : Byte).toNat ∧ (12 : Byte).toNat ≤ 16 ∧
    (0x00 : Byte).toNat + (12 : Byte).toNat - 1 ≤ 0xFF ∧ BufferFilled (benchBuf (List.replicate 16 9)) 16 ∧
    RunOk benchConfig 0 0x00 12 ∧ RunOk benchConfig 0 0x6D 1 ∧ RunOk benchConfig 0 0x00 16 := by
  unfold RunOk BufferFilled; decide

/-- Two resets from different states. -/
theorem witness_CommandByteFrames :
    bench.rawopen = false ∧ (benchReg 0 0x2B 0xFF).cfg = bench.cfg ∧ (benchReg 0 0x2B 0xFF).rawopen = false ∧
    (seen (exec (.rreset 0) bench) State.cssel).isSome = true ∧
    (seen (exec (.rreset 0) (benchReg 0 0x2B 0xFF)) State.cssel).isSome = true :=
  ⟨rfl, rfl, rfl, by decide +kernel, by decide +kernel⟩

theorem witness_RrdrxFillsTheBuffer :
    bench.rawopen = false ∧ (rxStart bench.cfg 0).toNat + (13 : Byte).toNat - 1 ≤ 0xFF ∧
    RunOk bench.cfg 0 (rxStart bench.cfg 0).toNat 13 ∧ RunOk bench.cfg 1 (rxStart bench.cfg 3).toNat 8 := by
  unfold RunOk; decide

theorem witness_RldtxLoadsTheBuffer :
    (5 : BitVec 3).toNat ≤ 5 ∧ txStart bench.cfg 4 + (13 : Byte).toNat - 1 ≤ 0xFF ∧
    BufferFilled (benchBuf (List.replicate 13 7)) 13 ∧ RunOk bench.cfg 0 (txStart bench.cfg 4) 13 ∧
    RunOk bench.cfg 0 (txStart bench.cfg 5) 8 := by
  unfold RunOk BufferFilled; decide

theorem witness_FrameBufferOperations :
    15 < (16 : Byte).toNat ∧ (15 : Byte).toNat ≤ 15 ∧ fbufRead bench.fbuf 15 = none ∧
    fbufRead (benchBuf [0xAB]).fbuf 0 = some 0xAB := by decide

/-- A frame that is accepted and one that is refused. -/
theorem witness_RawFormEqualsFramedForm :
    bench.rawopen = false ∧ bench.fault = 0 ∧ frameOf bench (.rread 0 0x0E) = some (0, [0x03, 0x0E, 0x00]) ∧
    seen (exec (.rread 0 0x0E) bench) State.fault = some 0 ∧
    frameOf bench (.rread 0 0x80) = some (0, [0x03, 0x80, 0x00]) ∧
    seen (exec (.rread 0 0x80) bench) State.fault = none := by decide

theorem witness_RoundTripAndBitModify :
    bench.rawopen = false ∧ bench.cfg.implemented 0 0x2B = true ∧ bench.cfg.isVolatile 0 0x2B = false ∧
    bench.cfg.configOnly 0 0x2B = false ∧ bench.cfg.bitModifiable 0 0x2B = true := by decide

/-- A free volatile register; the mode field kept, moved to the requested mode, and moved elsewhere. -/
theorem witness_ChipStepsAreBounded :
    ({ bench with agenda := [.chip 0 [(0x2C, 0x01)]] } : State).agenda = .chip 0 [(0x2C, 0x01)] :: [] ∧
    bench.cfg.isVolatile 0 0x2C = true ∧ bench.cfg.isVolatile 0 bench.cfg.map.canstat = true ∧
    bench.cfg.isVolatile 0 0x2B = false ∧
    (0x0A : Byte) &&& bench.cfg.map.opmodMask = bench.creg 0 0x0E &&& bench.cfg.map.opmodMask ∧
    (0x80 : Byte) &&& bench.cfg.map.opmodMask =
      (benchReg 0 0x0F 0x80).creg 0 bench.cfg.map.canctrl &&& bench.cfg.map.reqopMask ∧
    (0x60 : Byte) &&& bench.cfg.map.opmodMask ≠ bench.creg 0 0x0E &&& bench.cfg.map.opmodMask ∧
    (0x60 : Byte) &&& bench.cfg.map.opmodMask = Mode.listen.bits ∧
    ({ bench with agenda := [.chip 0 [(0x2C, 0x01), (0x0E, 0x80)]] } : State).agenda =
      .chip 0 [(0x2C, 0x01), (0x0E, 0x80)] :: [] ∧
    bench.cfg.isVolatile 0 bench.cfg.map.canctrl = false ∧ bench.cfg.isVolatile 0 bench.cfg.map.caninte = false := by
  decide

theorem witness_ChipsAreIndependent :
    (seen (exec (.rwrite 0 0x2B 0xFF) bench) State.fault).isSome = true ∧
    addressed bench (.rwrite 0 0x2B 0xFF) ≠ some 1 ∧ addressed (benchOpen []) .wireReset ≠ some 1 := by decide

theorem witness_SerialBitFraming :
    (bitsOut 0x96).length = 8 ∧
    (match bench.xfer 0 0x03 with | .ok _ => true | .error _ => false) = true := by decide

theorem witness_WireCommands :
    bench.cssel = none ∧ (benchOpen []).cssel = some 0 ∧ (benchOpen []).cframe 0 = [] ∧
    (5 : BitVec 3).toNat ≤ 5 ∧ 5 < (6 : BitVec 3).toNat := by decide

/-- The wait with nothing latched, with the wake latched, in both modes, and with a delivery. -/
theorem witness_LowPowerEntryAndResume :
    (let s : State := { bench with lpm := true, wken := true, pos := ⟨.sleeping, 2⟩ }
     s.seqFree = true ∧ s.fault = 0 ∧ s.wkpend = false ∧
     ({ s with wkpend := true } : State).guardNext = true ∧
     ({ s with wkpend := true, hostmode := true } : State).guardNext = true) ∧
    ({ benchChan 0 ⟨false, 0, 0, true, true⟩ with lpm := true } : State).inactDeliverable = true := by decide

theorem witness_UnarmedSleepHangs :
    let s : State := { bench with lpm := true, agenda := [.tick 0, .pin false, .seq, .wakesync] }
    NoReset s.agenda ∧ s.lpm = true ∧ s.wken = false ∧ s.wkpend = false := by
  refine ⟨?_, rfl, rfl, rfl⟩
  intro p m q h
  simp at h

theorem witness_BridgeDelivery :
    (benchChan 0 ⟨true, 3, 3, true, true⟩).agenda.head?.getD .seq = .seq ∧
    (benchChan 0 ⟨true, 3, 3, true, true⟩).inactDeliverable = true := by decide

theorem witness_WakeIsLatched :
    (let s : State := { bench with wken := true, wakeIn := false }
     s.agenda.head?.getD .seq = .seq ∧ s.inactDeliverable = false ∧ s.wakeDeliverable = true) ∧
    (let s : State := { bench with wken := true, wakeIn := false, wkpend := true }
     s.seqReady = true ∧ s.agenda = [] ∧ seen (exec .psleep s) State.lpm = some true) := by decide

theorem witness_SimultaneousInterrupts :
    let s : State := { benchChan 0 ⟨true, 3, 3, true, true⟩ with wken := true, wakeIn := false }
    s.agenda.head?.getD .seq = .seq ∧ s.inactDeliverable = true ∧ s.wakeDeliverable = true := by decide

/-- No change, and each sensed edge. -/
theorem witness_PinStep :
    (∀ l ∈ [true, false], ({ bench with agenda := [.pin l] } : State).agenda = .pin l :: []) ∧
    true = bench.wakeIn ∧ false ≠ bench.wakeIn ∧ bench.cfg.wakeSense = .lowLevel ∧
    ({ bench with cfg := { benchConfig with wakeSense := .falling } } : State).wakeIn = true ∧
    ({ bench with cfg := { benchConfig with wakeSense := .rising }, wakeIn := false } : State).wakeIn = false := by
  decide

theorem witness_ErrorLatchIsForever :
    let s : State := { bench with errl := true }
    NoReset s.agenda ∧ s.errl = true ∧ (seen (Host.Core.run Sys2Proof.core 1 s) State.errl).isSome = true ∧
    s.seqReady = true ∧ s.hostmode = false ∧ s.pos = ⟨.dispatch, 0⟩ := by
  refine ⟨?_, rfl, by decide, by decide, rfl, rfl⟩
  intro p m q h
  cases h

theorem witness_FaultHaltsTheSequencer :
    let s : State := { bench with fault := 0x02, agenda := [.chip 0 [(0x2C, 1)], .tick 1, .seq] }
    NoReset s.agenda ∧ s.fault ≠ 0 := by
  refine ⟨?_, by decide⟩
  intro p m q h
  simp at h

/-- One operation for each row of R273 that faults once decoded. -/
theorem witness_FaultCausesPerOperation :
    seen (exec (.rrts 0 1) (benchOpen [])) State.fault = some 2 ∧
    seen (exec (.rwrseq 0 0xFF 2) bench) State.fault = some 4 ∧
    seen (exec (.rwrseq 0 0 1) bench) State.fault = some 5 ∧
    seen (exec (.rldtx 0 6 1) bench) State.fault = some 1 ∧ seen (exec (.rldtx 0 5 0) bench) State.fault = some 3 ∧
    seen (exec (.rrdrx 0 0 17) bench) State.fault = some 3 ∧ seen (exec (.fbwr 16 0) bench) State.fault = some 3 ∧
    seen (exec (.fbrd 0) bench) State.fault = some 5 ∧ bench.fault = 0 := by decide

/-- The machine with no fault, in normal mode between handlers, satisfies the invariant. -/
theorem bench_inv : Inv bench where
  bracket := by unfold BracketOk; decide
  frames := by
    intro k _
    revert k
    decide
  command := by
    intro k b bs h
    have h' : ∀ k, bench.cframe k = [] := by decide
    rw [h' k] at h
    cases h
  fault := .inl rfl
  position := .inl rfl
  scratch := fun _ => rfl

/-- A step from it is no reset and leaves a next state; each interrupt's turn, as its own and as SEQ's. -/
theorem witness_WritersOfEveryElement :
    Inv bench ∧ ¬bench.resetNext ∧ (seen (step bench) State.pstate).isSome = true :=
  ⟨bench_inv, (fun ⟨_, _, _, h⟩ => nomatch h), by decide⟩

theorem witness_WritersOfEveryElement_turns :
    let s : State := { benchChan 0 ⟨true, 3, 3, true, true⟩ with wken := true, wakeIn := false }
    s.bridgeNext = true ∧ s.wakesyncNext = false ∧ ({ s with agenda := [.wakesync] } : State).wakesyncNext = false ∧
    ({ s.bridge with agenda := [.wakesync] } : State).wakesyncNext = true ∧
    ({ s with agenda := [.wakesync] } : State).bridgeNext = false := by decide

theorem witness_TheMachineNeverStops : Inv bench := bench_inv

theorem witness_ResetStep : ∀ p ∈ [false, true],
    ({ bench with agenda := [.reset p true [0x64000000]] } : State).agenda = .reset p true [0x64000000] :: [] := by
  decide

theorem bench_undisturbed : Undisturbed bench := ⟨rfl, by decide, by decide, rfl, rfl⟩

theorem bench_defaultRegisters (k : ChipIx) : DefaultRegisters bench k := by
  refine ⟨⟨rfl, ?_⟩, ?_, ?_⟩ <;> revert k <;> decide

/-- Both wake modes. -/
theorem witness_WakeupPass :
    let s : State := { bench with pstate := 0x04 }
    let m : State := { s with cfg := { benchConfig with wakeMode := .manual } }
    (Undisturbed s ∧ s.hostmode = false ∧ s.pos = ⟨.dispatch, 0⟩ ∧ s.errl = false ∧ s.pstate = 0x04 ∧
      s.cfg.wakeMode = .busActivity) ∧
    Undisturbed m ∧ m.cfg.wakeMode = .manual ∧ m.rawopen = false ∧ DefaultRegisters m m.cfg.pdcChip :=
  ⟨⟨⟨rfl, by decide, by decide, rfl, rfl⟩, rfl, rfl, rfl, rfl, rfl⟩, ⟨rfl, by decide, by decide, rfl, rfl⟩, rfl,
    rfl, ⟨rfl, rfl⟩, rfl, rfl⟩

theorem witness_SleepingPassWithTheWakePending :
    let s : State := { bench with pstate := 0x03, wakeIn := false }
    Undisturbed s ∧ s.hostmode = false ∧ s.pos = ⟨.dispatch, 0⟩ ∧ s.errl = false ∧
    s.pstate = 0x03 ∧ s.cfg.wakeSense = .lowLevel ∧ s.wakeIn = false ∧ s.wkpend = false :=
  ⟨⟨rfl, by decide, by decide, rfl, rfl⟩, rfl, rfl, rfl, rfl, rfl, rfl, rfl⟩

theorem witness_UnrecognizedStatePass : ∀ v ∈ [0x06, (0xFF : Byte)],
    let s : State := { bench with pstate := v }
    s.agenda = [] ∧ s.inactDeliverable = false ∧ s.wakeDeliverable = false ∧ s.fault = 0 ∧ s.lpm = false ∧
    s.hostmode = false ∧ s.pos = ⟨.dispatch, 0⟩ ∧ s.errl = false ∧
    0x06 ≤ s.pstate.toNat ∧ 1 ≤ s.cfg.nBlink := by decide

/-- The conditions that hold in each clause: normal mode, SEQ alone, the default registers. -/
theorem witness_HandlerPasses :
    Undisturbed bench ∧ bench.hostmode = false ∧ bench.rawopen = false ∧ DefaultRegisters bench bench.cfg.pdcChip :=
  ⟨bench_undisturbed, rfl, rfl, bench_defaultRegisters _⟩

/-- SEQ alone steps, in normal mode, with no raw bracket open and the default registers on chip 0. -/
def calm (s : State) : Bool :=
  s.agenda == [] && !s.inactDeliverable && !s.wakeDeliverable && s.fault == 0 && !s.lpm && !s.hostmode &&
  !s.rawopen && s.cfg.map == ChipMap.standard && s.cfg.chipImpl[0] == AddrSet.implDefault &&
  s.cfg.chipBitmod[0] == AddrSet.bitmodDefault && s.cfg.chipCfgonly[0] == AddrSet.cfgonlyDefault

/-- Each clause: both ways into Error; Init, and its only poll acknowledged or not; Running with and without a
frame, and at its second status read; SleepDetected in both modes. -/
theorem witness_HandlerPasses_clauses :
    (∀ s ∈ [{ bench with errl := true }, { bench with pstate := 0x05 }], calm s = true ∧
      (s.errl = true ∨ s.pstate = 0x05) ∧ s.pos = ⟨.dispatch, 0⟩ ∧ 1 ≤ s.cfg.nBlink) ∧
    (calm bench = true ∧ bench.pos = ⟨.dispatch, 0⟩ ∧ bench.errl = false ∧ bench.pstate = 0x00 ∧
      (bench.chan 0).pend = false ∧ 1 ≤ bench.cfg.nPoll ∧ bench.cfg.pdcChip = 0) ∧
    (∀ v ∈ [0x00, (0x80 : Byte)], let s : State := { benchReg 0 0x0E v with pos := ⟨.init, 25 + 0⟩ }
      calm s = true ∧ 0 < s.cfg.nPoll ∧ 0 + 1 = s.cfg.nPoll ∧
      (s.creg 0 0x0E &&& 0xE0 = 0x00 ↔ v = 0x00)) ∧
    (∀ v ∈ [0x00, (0x01 : Byte)], let s : State := { benchReg 0 0x2C v with pstate := 0x01 }
      calm s = true ∧ s.errl = false ∧ s.pos = ⟨.dispatch, 0⟩ ∧ (s.creg 0 0x2C &&& 0x01 = 0 ↔ v = 0x00)) ∧
    (calm (benchAt .running 1) = true ∧ (benchAt .running 1).creg 0 0x2C &&& 0x01 = 0) ∧
    ∀ m ∈ [WakeMode.busActivity, .manual],
      let s : State := { bench with pstate := 0x02, cfg := { benchConfig with wakeMode := m } }
      calm s = true ∧ s.cfg.wakeMode = m ∧ s.errl = false ∧ s.pos = ⟨.dispatch, 0⟩ := by decide

/-- More than one poll: one that is not the last. -/
theorem witness_HandlerPasses_poll :
    let s : State := { benchReg 0 0x0E 0x80 with cfg := { benchConfig with nPoll := 2 }, pos := ⟨.init, 25 + 0⟩ }
    calm s = true ∧ s.creg 0 0x0E &&& 0xE0 ≠ 0x00 ∧ 0 + 1 < s.cfg.nPoll := by decide

def sensorFrame : CanFrame := ⟨0x123, false, 8, [0, 1, 2, 3, 4, 5, 6, 7]⟩

/-- The sensor frame, and one that differs in its length alone. -/
theorem witness_SensorUpdate :
    sensorFrame.valid = true ∧ sensorFrame.id = benchConfig.pdcCanId ∧ sensorFrame.rtr = false ∧
    sensorFrame.len = 8 ∧ ({ sensorFrame with len := 7, data := [0, 1, 2, 3, 4, 5, 6] } : CanFrame).valid = true := by
  decide

theorem bench_defaultChip (k : ChipIx) : DefaultChip bench k := by
  refine ⟨rfl, ?_⟩
  revert k
  decide

theorem witness_ClearFiltersIsIdempotent :
    let s := benchReg 0 0x0E 0x80
    Undisturbed s ∧ DefaultChip s 0 ∧ s.rawopen = false ∧ inConfigMode s.cfg (s.chip 0).creg = true :=
  ⟨⟨rfl, by decide, by decide, rfl, rfl⟩, ⟨rfl, rfl⟩, rfl, by decide⟩

theorem witness_InitWithASilentChip :
    Undisturbed bench ∧ DefaultChip bench 1 ∧ bench.rawopen = false ∧ 1 ≤ bench.cfg.nPoll :=
  ⟨bench_undisturbed, bench_defaultChip 1, rfl, by decide⟩

/-- Every buffer busy; buffer 0 free; only buffer 2 free. -/
theorem witness_SendMessageTakesTheLeastFreeBuffer :
    let busy (v2 : Byte) : State := bench.setChip 0
      ⟨RegFile.write (RegFile.write (RegFile.write zeroRegs 0x30 0x08) 0x40 0x08) 0x50 v2, []⟩
    (∀ j, (busy 0x08).creg 0 (txbctrl (busy 0x08).cfg j) &&& 0x08 ≠ 0) ∧
    bench.creg 0 (txbctrl bench.cfg 0) &&& 0x08 = 0 ∧
    (busy 0x00).creg 0 (txbctrl (busy 0x00).cfg 2) &&& 0x08 = 0 ∧
    (∀ i : Fin 3, i < 2 → (busy 0x00).creg 0 (txbctrl (busy 0x00).cfg i) &&& 0x08 ≠ 0) ∧
    sensorFrame.valid = true := by decide

theorem witness_SendMessage_state :
    Undisturbed bench ∧ DefaultChip bench 0 ∧ bench.rawopen = false ∧
    ∀ a, bench.cfg.configOnly 0 a = AddrSet.has AddrSet.cfgonlyDefault a :=
  ⟨bench_undisturbed, bench_defaultChip 0, rfl, fun _ => rfl⟩

theorem witness_DriverProceduresRunAlone :
    Undisturbed bench ∧ DefaultChip bench 0 ∧ DefaultRegisters bench 0 ∧ bench.rawopen = false ∧
    bench.cfg.fullBusErrors = false ∧
    ({ bench with cfg := { benchConfig with fullBusErrors := true } } : State).cfg.fullBusErrors = true ∧
    bench.creg 0 0x2C &&& 0x01 = 0 ∧ (benchReg 0 0x2C 0x01).creg 0 0x2C &&& 0x01 ≠ 0 :=
  ⟨bench_undisturbed, bench_defaultChip 0, bench_defaultRegisters 0, rfl, rfl, rfl, by decide, by decide⟩

/-- A procedure whose one operation stands in HOSTQ. -/
theorem witness_DriverProceduresRunAlone_words :
    (match (Proc.hasMessage 0).run (benchHost [0x50000000] []) with
      | .next e => e.state.fault = 0 ∧ [0x50000000].map decodeWord = e.issued.map .ok
      | .fault _ => False
      | .refused _ => False) ∧
    Undisturbed (benchHost [0x50000000] []) ∧
    (benchHost [0x50000000] []).hostmode = true ∧ (benchHost [0x50000000] []).hostq = [0x50000000] ++ [] :=
  ⟨⟨rfl, rfl⟩, ⟨rfl, by decide, by decide, rfl, rfl⟩, rfl, rfl⟩

theorem witness_FrameLayoutsAgree :
    (List.replicate 13 (0 : Byte)).length = 13 ∧ sensorFrame.valid = true ∧
    (⟨0x7FF, true, 0, []⟩ : CanFrame).valid = true := by decide

end Sys2Proof.Tests
end

section
/-! PROOFS. The operations SEQ issues, and the invariant of the machine over a step and at reset (10_state.md R20,
R31, R38, R42, R44, R47, R48). -/

namespace Sys2Proof

/-- A wire command: an instruction of the chip, never one that SEQ issues (log entry 7). -/
def Instr.isWire : Instr → Bool
  | .wireReset | .wireRead | .wireWrite | .wireBitmod | .wireReadStatus | .wireRts _ | .wireReadRx _
  | .wireLoadTx _ => true
  | _ => false

/-- An operation that is no PSLEEP. -/
def Instr.isPlain (i : Instr) : Bool := !i.isWire && i != .psleep

theorem WireCmd.isWire_toInstr (cmd : WireCmd) : cmd.toInstr.isWire = true := by cases cmd <;> rfl

/-- An operation word decodes to no wire command (30_encoding.md R83). -/
theorem isWire_of_decodeWord {w : OpWord} {i : Instr} (h : decodeWord w = .ok i) : i.isWire = false := by
  unfold decodeWord decodeFields at h
  dsimp only at h
  split at h
  case h_32 => cases h
  all_goals (obtain ⟨-, rfl⟩ := (operands_eq_ok ..).mp h; rfl)

end Sys2Proof

namespace Sys2Proof.Machine

open Sys2Proof

/-! ## The operations SEQ issues -/

theorem isPlain_sensorOps (cfg : Config) (scr : Scratch) : ∀ i ∈ sensorOps cfg scr, i.isPlain = true := by
  unfold sensorOps
  split
  · split <;> simp [Instr.isPlain, Instr.isWire]
  · simp

/-- The operations of every handler but Sleeping are plain (43_power_fsm.md R233 to R241). -/
theorem isPlain_of_mem_ops (cfg : Config) (scr : Scratch) {h : Handler} (hs : h ≠ .sleeping) :
    ∀ i ∈ h.ops cfg scr, i.isPlain = true := by
  cases h
  case sleeping => exact absurd rfl hs
  case init =>
    simp [Handler.ops, Proc.ops, initProc, initPrologue, initEpilogue, initSetupOps, clearFiltersOps,
      setModeOps, or_imp, forall_and, Instr.isPlain, Instr.isWire]
  case running =>
    simpa [Handler.ops, Proc.ops, or_imp, forall_and, Instr.isPlain, Instr.isWire] using
      isPlain_sensorOps cfg scr
  case sleepDet | wakeup =>
    all_goals
      cases hw : cfg.wakeMode <;> simp [Handler.ops, Proc.ops, hw, setModeOps, Instr.isPlain, Instr.isWire]
  case dispatch | unrec | error => all_goals simp [Handler.ops, Instr.isPlain, Instr.isWire]

/-- What SEQ issues in a handler: a plain operation, or one of the two of Sleeping (R236). -/
theorem opAt_cases {s : State} {i : Instr} (h : s.opAt = some i) :
    (s.pos.handler ≠ .sleeping ∧ i.isPlain = true) ∨ (s.pos = ⟨.sleeping, 0⟩ ∧ i = .parm) ∨
      (s.pos = ⟨.sleeping, 1⟩ ∧ i = .psleep) := by
  unfold State.opAt at h
  by_cases hs : s.pos.handler = .sleeping
  · right
    generalize s.pos = p at h hs ⊢
    obtain ⟨hd, j⟩ := p
    dsimp only at h hs
    subst hs
    match j, h with
    | 0, h => exact .inl ⟨rfl, (Option.some.inj h).symm⟩
    | 1, h => exact .inr ⟨rfl, (Option.some.inj h).symm⟩
  · exact .inl ⟨hs, isPlain_of_mem_ops _ _ hs i (List.mem_of_getElem? h)⟩

/-- No handler issues a wire command. -/
theorem isWire_of_opAt {s : State} {i : Instr} (h : s.opAt = some i) : i.isWire = false := by
  obtain ⟨-, hi⟩ | ⟨-, rfl⟩ | ⟨-, rfl⟩ := opAt_cases h
  · simp only [Instr.isPlain, Bool.and_eq_true, Bool.not_eq_true'] at hi
    exact hi.1
  · rfl
  · rfl

/-! ## The invariant over a step -/

theorem Inv.bus {s : State} (h : Inv s) : BusInv s := ⟨h.bracket, h.frames, h.command⟩

/-- In normal mode and awake the position and SCR parts of the invariant say that SEQ's place is right. -/
theorem Inv.placeOk {s : State} (h : Inv s) (hm : s.hostmode = false) (hl : s.lpm = false) : PlaceOk s := by
  have hp := h.position
  simp only [PositionOk, hm, hl, Bool.false_eq_true, if_false] at hp
  obtain hp | hp := hp
  · exact .inl ⟨hp, h.scratch (by rw [hp])⟩
  · refine .inr ⟨fun hd => ?_, hp⟩
    simp [State.opAt, hd, Handler.ops] at hp

theorem inv_of_placeOk {s : State} (hb : BusInv s) (hf : FaultOk s) (hp : PlaceOk s) (hm : s.hostmode = false)
    (hl : s.lpm = false) : Inv s := by
  refine ⟨hb.bracket, hb.frames, hb.command, hf, ?_, fun hd => ?_⟩
  · simp only [PositionOk, hm, hl, Bool.false_eq_true, if_false]
    exact hp.imp And.left And.right
  · obtain ⟨-, hs⟩ | ⟨hn, -⟩ := hp
    · exact hs
    · exact absurd hd hn

/-- In host mode SEQ stays at dispatch with nothing in SCR (43_power_fsm.md R258). -/
theorem inv_of_host {s t : State} (hi : Inv s) (hb : BusInv t) (hf : FaultOk t) (hm : s.hostmode = true)
    (hm' : t.hostmode = s.hostmode) (hp : t.pos = s.pos) (hs : t.scr = s.scr) : Inv t := by
  have hpos : s.pos = ⟨.dispatch, 0⟩ := by simpa only [PositionOk, hm, if_true] using hi.position
  refine ⟨hb.bracket, hb.frames, hb.command, hf, ?_, fun hd => ?_⟩
  · simp only [PositionOk, hm', hm, if_true, hp, hpos]
  · rw [hs]; exact hi.scratch (by rw [hpos])

/-- Between dispatch and a handler's first operation. -/
theorem placeOk_dispatch (s : State) : PlaceOk s.dispatch := by
  have first : ∀ h : Handler, h ≠ .dispatch → 0 < (h.ops s.cfg s.scr).length := by
    intro h hh
    cases h
    case dispatch => exact absurd rfl hh
    all_goals simp [Handler.ops, initPrologue]
  have hh : s.dispatch.pos.handler ≠ .dispatch := by
    show (if s.errl then Handler.error else handlerOf s.pstate) ≠ .dispatch
    split
    · decide
    · exact handlerOf_ne_dispatch _
  exact .inr ⟨hh, by simpa [State.opAt] using first _ hh⟩

theorem faultOk_of_eq {s t : State} (h : FaultOk s) (e : t.fault = s.fault) : FaultOk t := by
  unfold FaultOk; rw [e]; exact h

/-- The control decision after an operation keeps the bus and FAULT parts. -/
theorem busInv_control {s t : State} (h : BusInv s) (hc : ControlKeeps s t) : BusInv t := by
  rw [hc.rest]; exact h.of_eq rfl rfl fun _ => rfl

theorem faultOk_control {s t : State} (h : FaultOk s) (hc : ControlKeeps s t) : FaultOk t := by
  obtain e | rfl := hc.fault
  · exact faultOk_of_eq h e
  · exact faultOk_raise s h _

/-- In the low-power wait of the Sleeping handler (R236). -/
theorem inv_of_wait {s : State} (hb : BusInv s) (hf : FaultOk s) (hm : s.hostmode = false) (hl : s.lpm = true)
    (hp : s.pos = ⟨.sleeping, 2⟩) : Inv s := by
  refine ⟨hb.bracket, hb.frames, hb.command, hf, ?_, fun hd => ?_⟩
  · simp only [PositionOk, hm, hl, Bool.false_eq_true, if_false, if_true, hp]
  · rw [hp] at hd; cases hd

/-- An operation of a handler that is not PSLEEP leaves SEQ awake, at its place or where the decision after it
goes. -/
theorem inv_of_plain {s u : State} {i : Instr} (hi : Inv s) (hl : s.lpm = false) (hm : s.hostmode = false)
    (ho : s.opAt = some i) (hx : exec i s = .next u) (hne : i ≠ .psleep) (hlu : u.lpm = s.lpm) :
    Inv (if u.fault = 0 then advance s.pos.handler s.pos.idx u else u) := by
  have hk := exec_keeps hx
  have hb := busInv_exec hi.bus hx
  have hf := faultOk_exec hi.fault hx
  have hmu := hk.hostmode.trans hm
  have hop : u.opAt = s.opAt := by unfold State.opAt; rw [hk.pos, hk.cfg, hk.scr]
  split
  · have hc := advance_keeps s.pos.handler s.pos.idx u
    have hns : ¬(s.pos.handler = .sleeping ∧ 1 ≤ s.pos.idx) := by
      rintro ⟨hs, hj⟩
      obtain ⟨hs', -⟩ | ⟨hp, -⟩ | ⟨-, rfl⟩ := opAt_cases ho
      · exact hs' hs
      · rw [hp] at hj; exact absurd hj (by decide)
      · exact hne rfl
    refine inv_of_placeOk (busInv_control hb hc) (faultOk_control hf hc)
      (placeOk_advance _ _ u hk.pos (by rw [hop, ho]; rfl) hns) ?_ ?_
    · rw [hc.rest]; exact hmu
    · rw [hc.rest]; exact hlu.trans hl
  · refine inv_of_placeOk hb hf ?_ hmu (hlu.trans hl)
    unfold PlaceOk
    rw [hop, hk.pos, hk.scr]
    exact hi.placeOk hm hl

/-- An operation of a handler, with the control that follows it, keeps the invariant. -/
theorem inv_handlerStep {s u : State} {i : Instr} (hi : Inv s) (h0 : s.fault = 0) (hl : s.lpm = false)
    (hm : s.hostmode = false) (ho : s.opAt = some i) (hx : exec i s = .next u) :
    Inv (if u.fault = 0 then advance s.pos.handler s.pos.idx u else u) := by
  obtain ⟨hne, hlu⟩ | ⟨rfl, rfl⟩ := exec_lpm hx
  · exact inv_of_plain hi hl hm ho hx hne hlu
  · obtain ⟨-, hp⟩ | ⟨-, h⟩ | ⟨hp, -⟩ := opAt_cases ho
    · simp [Instr.isPlain] at hp
    · cases h
    · rw [if_pos h0, hp]
      exact inv_of_wait (hi.bus.of_eq rfl rfl fun _ => rfl) (faultOk_of_eq hi.fault rfl) hm rfl rfl

/-- The resume guard leaves the wait for dispatch; in host mode SEQ was there already. -/
theorem inv_resumeGuard {s : State} (hi : Inv s) (hl : s.lpm = true) : Inv s.resumeGuard := by
  have hb : BusInv s.resumeGuard := hi.bus.of_eq (by simp) (by simp) fun k => by simp [State.cframe, State.chip]
  have hf : FaultOk s.resumeGuard := faultOk_of_eq hi.fault (by simp)
  cases hm : s.hostmode
  · have hp : s.pos = ⟨.sleeping, 2⟩ := by
      simpa only [PositionOk, hm, hl, Bool.false_eq_true, if_false, if_true] using hi.position
    refine inv_of_placeOk hb hf (.inl ⟨?_, ?_⟩) (by simp [hm]) (by simp)
    · simp [State.resumeGuard_pos, hm, hp]
    · simp [State.resumeGuard_scr, hm, hp]
  · exact inv_of_host hi hb hf hm (by simp) (by simp [State.resumeGuard_pos, hm])
      (by simp [State.resumeGuard_scr, hm])

/-- A step of SEQ keeps the invariant. -/
theorem inv_seqStep {s t : State} (hi : Inv s) (h : seqStep s = .next t) : Inv t := by
  obtain ⟨rfl, -⟩ | ⟨-, hl, -, rfl⟩ | ⟨-, -, hm, w, q, -, hw⟩ | ⟨-, hl, hm, -, rfl⟩ |
    ⟨h0, hl, hm, -, i, u, ho, hx, rfl⟩ := seqStep_cases h
  case inl => exact hi
  case inr.inl => exact inv_resumeGuard hi hl
  case inr.inr.inl =>
    have hb : BusInv { s with hostq := q } := hi.bus.of_eq rfl rfl fun _ => rfl
    obtain ⟨i, -, hx⟩ | ⟨-, rfl⟩ := hw
    · have hk := exec_keeps hx
      exact inv_of_host hi (busInv_exec hb hx) (faultOk_exec (s := { s with hostq := q }) hi.fault hx) hm
        hk.hostmode hk.pos hk.scr
    · refine inv_of_host hi ?_ (faultOk_raise { s with hostq := q } hi.fault _) hm ?_ ?_ ?_
      · rw [raise_eq]; exact hb.of_eq rfl rfl fun _ => rfl
      all_goals rw [raise_eq]
  case inr.inr.inr.inl =>
    exact inv_of_placeOk (hi.bus.of_eq rfl rfl fun _ => rfl) (faultOk_of_eq hi.fault rfl) (placeOk_dispatch s) hm hl
  case inr.inr.inr.inr => exact inv_handlerStep hi h0 hl hm ho hx

/-- At dispatch with an idle bus and no fault the invariant holds, awake or in host mode. -/
theorem inv_of_idle {s : State} (hp : s.pos = ⟨.dispatch, 0⟩) (hs : s.scr = Scratch.empty) (hf : s.fault = 0)
    (hl : s.lpm = false) (hr : s.rawopen = false) (hc : s.cssel = none) (hx : ∀ k, s.cframe k = []) : Inv s where
  bracket := by simp only [BracketOk, hr, hc, Option.isSome_none]
  frames := fun k _ => hx k
  command := fun k b bs hb => by rw [hx] at hb; cases hb
  fault := .inl hf
  position := by
    unfold PositionOk
    split
    · exact hp
    · rw [hl]; exact .inl hp
  scratch := fun _ => hs

/-- A reset turn leaves a state with the invariant, whatever the state before it. -/
theorem inv_resetBlock (s : State) (p m : Bool) (q : List OpWord) : Inv (s.resetBlock p m q) :=
  inv_of_idle rfl rfl rfl rfl rfl rfl (Fin.forall_fin_two.mpr ⟨rfl, rfl⟩)

/-- The turn of an agent other than SEQ keeps the invariant. -/
theorem inv_envStep {s : State} (hi : Inv s) (turn : Turn) : Inv (envStep s turn) := by
  by_cases hr : ∃ p m q, turn = .reset p m q
  · obtain ⟨p, m, q, rfl⟩ := hr
    exact inv_resetBlock s p m q
  · have hr : ∀ p m q, turn ≠ .reset p m q := fun p m q e => hr ⟨p, m, q, e⟩
    obtain ⟨u, hu, he, -⟩ := envStep_keeps s turn hr
    have hb := busInv_envStep hi.bus turn hr
    rw [hu] at hb ⊢
    exact inv_of_eq hi hb (by rw [he]) (by rw [he]) (by rw [he]) (by rw [he]) (by rw [he]) (by rw [he])

/-- The schedule is no part of the invariant. -/
theorem inv_agenda {s : State} (hi : Inv s) (rest : List Turn) : Inv { s with agenda := rest } :=
  inv_of_eq hi (hi.bus.of_eq rfl rfl fun _ => rfl) rfl rfl rfl rfl rfl rfl

/-- Settles O46: an interrupt writes nothing the invariant reads, and SEQ and the other agents keep it. -/
theorem everyStepKeepsTheInvariant : Obligations.EveryStepKeepsTheInvariant := by
  intro s t hi h
  obtain ⟨rest, -, ⟨-, rfl⟩ | ⟨-, -, rfl⟩ | ⟨-, -, hs⟩⟩ | ⟨turn, rest, -, rfl⟩ := step_cases h
  · exact inv_of_eq hi (hi.bus.of_eq rfl rfl fun _ => rfl) rfl rfl rfl rfl rfl rfl
  · exact inv_of_eq hi (hi.bus.of_eq rfl rfl fun _ => rfl) rfl rfl rfl rfl rfl rfl
  · exact inv_seqStep (inv_agenda hi rest) hs
  · exact inv_envStep (inv_agenda hi rest) turn

/-- Settles O47: at reset SEQ is at dispatch and the bus is idle. -/
theorem resetSatisfiesTheInvariant : Obligations.ResetSatisfiesTheInvariant :=
  inv_of_idle rfl rfl rfl rfl rfl rfl (Fin.forall_fin_two.mpr ⟨rfl, rfl⟩)

/-- Settles O49: the fields by evaluation, and the first step is SEQ's dispatch on PSTATE = 0x00. -/
theorem resetValues : Obligations.ResetValues := by
  have hchan : ∀ c, State.reset.chan c = ⟨false, 0, 0, false, false⟩ := Fin.forall_fin_two.mpr ⟨rfl, rfl⟩
  have hframe : ∀ k, State.reset.cframe k = [] := Fin.forall_fin_two.mpr ⟨rfl, rfl⟩
  have hsensor : ∀ x, sensorRead State.reset.sensor x = none := fun x => by
    simp [sensorRead, State.reset]
  exact ⟨rfl, rfl, fbufRead_reset, hchan, rfl, fun _ => rfl, rfl, rfl, rfl, rfl, rfl, rfl, rfl, rfl, hsensor,
    rfl, rfl, hframe, rfl, rfl, rfl, fun hostq => ⟨_, rfl, rfl⟩⟩

end Sys2Proof.Machine
end

section
/-! PROOFS. The writers of each element of the state (10_state.md R46). -/

namespace Sys2Proof.Machine

open Sys2Proof

/-! ## What a step may write -/

/-- Channel c changes only by the writers R24 to R28 name. The defaults prove it where the channel is kept. -/
structure ChannelWriters (s t : State) (c : ChanIx) : Prop where
  run : (t.chan c).run ≠ (s.chan c).run → s.issues = some (.tstart c) ∨ s.issues = some (.tstop c) ∨
    s.issues = some (.trestart c)
  cnt : (t.chan c).cnt ≠ (s.chan c).cnt → (∃ v, s.issues = some (.tsetcnt c v)) ∨
    s.issues = some (.trestart c) ∨ s.agenda.head? = some (.tick c)
  cmp : (t.chan c).cmp ≠ (s.chan c).cmp → ∃ v, s.issues = some (.tsetcmp c v)
  ie : (t.chan c).ie ≠ (s.chan c).ie → ∃ v, s.issues = some (.tsetie c v)
  pendSet : (s.chan c).pend = false → (t.chan c).pend = true → s.agenda.head? = some (.tick c)
  pendCleared : (s.chan c).pend = true → (t.chan c).pend = false → s.issues = some (.tack c) ∨
    (c = 0 ∧ s.bridgeNext = true)

theorem ChannelWriters.of_eq {s t : State} {c : ChanIx} (h : t.chan c = s.chan c) : ChannelWriters s t c := by
  constructor <;> rw [h]
  case pendSet | pendCleared => all_goals exact fun h₁ h₂ => absurd (h₁.symm.trans h₂) (by decide)
  all_goals exact fun h => absurd rfl h

/-- Each element changes only by the writers R46 names. A field's default proves it of an element that t has
from s, so that a proof gives the fields that a step writes. -/
structure NamedWriters (s t : State) : Prop where
  cfg : t.cfg = s.cfg := by rfl
  hostmode : t.hostmode = s.hostmode := by rfl
  res : t.res ≠ s.res → (∃ c, s.issues = some (.trdcnt c) ∨ s.issues = some (.trdstat c)) ∨
      (∃ k, (∃ o, s.issues = some (.rxfer k o)) ∨ (∃ a, s.issues = some (.rread k a)) ∨
        s.issues = some (.rrdstat k)) ∨
      (∃ i, s.issues = some (.fbrd i)) ∨ s.issues = some .prdst := by exact fun h => absurd rfl h
  fbuf : t.fbuf ≠ s.fbuf → (∃ i b, s.issues = some (.fbwr i b)) ∨
      ∃ k nm n, s.issues = some (.rrdrx k nm n) := by exact fun h => absurd rfl h
  chan : ∀ c, ChannelWriters s t c := by exact fun _ => .of_eq rfl
  select : t.cssel ≠ s.cssel ∨ t.rawopen ≠ s.rawopen →
      ∃ k, s.issues = some (.rsel k) ∨ s.issues = some (.rdesel k) := by
    exact fun h => h.elim (absurd rfl) (absurd rfl)
  pstate : t.pstate ≠ s.pstate → (∃ v, s.issues = some (.pwrst v)) ∨ s.guardNext = true ∨
      (s.bridgeNext = true ∧ t.pstate = 0x02) := by exact fun h => absurd rfl h
  errl : t.errl ≠ s.errl → s.issues = some .pseterr ∧ t.errl = true := by exact fun h => absurd rfl h
  wken : t.wken ≠ s.wken → s.issues = some .parm ∨ s.issues = some .pdisarm ∨ s.guardNext = true := by
    exact fun h => absurd rfl h
  wkpend : t.wkpend ≠ s.wkpend → (s.wakesyncNext = true ∧ t.wkpend = true) ∨ s.guardNext = true := by
    exact fun h => absurd rfl h
  lpm : t.lpm ≠ s.lpm → (s.issues = some .psleep ∧ t.lpm = true) ∨ (s.guardNext = true ∧ t.lpm = false) := by
    exact fun h => absurd rfl h
  wakePin : t.wakeIn ≠ s.wakeIn ∨ t.wakePrev ≠ s.wakePrev → ∃ l, s.agenda.head? = some (.pin l) := by
    exact fun h => h.elim (absurd rfl) (absurd rfl)
  wedge : t.wedge ≠ s.wedge → (∃ l, s.agenda.head? = some (.pin l)) ∨
      (s.wakesyncNext = true ∧ t.wedge = false) := by exact fun h => absurd rfl h
  sensor : t.sensor ≠ s.sensor → ∃ x b, s.issues = some (.psens x b) := by exact fun h => absurd rfl h
  ind : t.ind ≠ s.ind → s.issues = some .pind := by exact fun h => absurd rfl h
  fault : t.fault ≠ s.fault → s.fault = 0 ∧ s.seqReady = true := by exact fun h => absurd rfl h
  place : t.pos ≠ s.pos ∨ t.scr ≠ s.scr → s.hostmode = false ∧ (s.seqReady = true ∨ s.guardNext = true) := by
    exact fun h => h.elim (absurd rfl) (absurd rfl)
  hostq : t.hostq ≠ s.hostq → s.hostmode = true ∧ s.seqReady = true := by exact fun h => absurd rfl h
  cframe : ∀ k, t.cframe k ≠ s.cframe k →
      (∃ o, s.issues = some (.rxfer k o) ∧ t.cframe k = s.cframe k ++ [o]) ∨
      (s.issues = some (.rdesel k) ∧ t.cframe k = []) := by exact fun _ h => absurd rfl h
  creg : ∀ k a, t.creg k a ≠ s.creg k a →
      (∃ sets, s.agenda.head? = some (.chip k sets) ∧ s.cfg.isVolatile k a = true) ∨
      ∃ i, s.issues = some i ∧ ((∃ os, frameOf s i = some (k, os)) ∨ ∃ o, i = .rxfer k o) := by
    exact fun _ _ h => absurd rfl h

/-! ## The operation SEQ issues -/

theorem frameOf_eq_of_fbuf {s t : State} (h : t.fbuf = s.fbuf) (i : Instr) : frameOf t i = frameOf s i := by
  cases i <;> simp only [frameOf, h]

/-- A framed operation finds no frame open and leaves none (41_regbus.md R145). -/
theorem afterFrame_cframe {s : State} (hb : BusInv s) (hr : s.rawopen = false) (j : ChipIx) (f : RegFile) (n : Nat)
    (k : ChipIx) : (s.afterFrame j f n).cframe k = s.cframe k := by
  by_cases hk : k = j
  · subst hk
    rw [(busInv_closed hb hr).2 k, State.cframe, State.afterFrame_chip]
  · rw [State.cframe, State.afterFrame_chip_ne _ _ _ _ hk]; rfl

/-- No instruction but RXFER, RDESEL and a wire command changes a chip's frame: RSEL clears one that is empty
(R147). -/
theorem effect_cframe {i : Instr} {s t : State} (hb : BusInv s) (hw : i.isWire = false) (h : Effect i s t)
    (k : ChipIx) (hne : t.cframe k ≠ s.cframe k) :
    (∃ o, i = .rxfer k o ∧ t.cframe k = s.cframe k ++ [o]) ∨ (i = .rdesel k ∧ t.cframe k = []) := by
  cases i <;> simp only [Effect] at h
  case rxfer j o =>
    obtain ⟨-, -, r, c, n, hx, rfl⟩ := h
    by_cases hk : k = j
    · subst hk
      refine .inl ⟨o, rfl, ?_⟩
      show ((s.withChip k c n).chip k).cframe = _
      rw [State.withChip_chip]
      exact Chip.exchange_cframe hx
    · exact absurd (congrArg Chip.cframe (State.withChip_chip_ne s j c n hk)) hne
  case rdesel j =>
    obtain ⟨-, -, rfl⟩ := h
    obtain ⟨hj, ho⟩ := (otherChipKept_cleared s j none false).1
    by_cases hk : k = j
    · subst hk; exact .inr ⟨rfl, hj⟩
    · exact absurd (congrArg Chip.cframe (ho k hk)) hne
  case rsel j =>
    obtain ⟨hr, rfl⟩ := h
    obtain ⟨hj, ho⟩ := (otherChipKept_cleared s j (some j) true).1
    refine absurd ?_ hne
    by_cases hk : k = j
    · subst hk; exact hj.trans ((busInv_closed hb hr).2 k).symm
    · exact congrArg Chip.cframe (ho k hk)
  case rreset | rwrite | rbitmod | rwrseq | rrts | rldtx =>
    all_goals
      obtain ⟨hr, f, n, rfl⟩ := h
      exact absurd (afterFrame_cframe hb hr _ f n k) hne
  case rread | rrdstat | rrdrx =>
    all_goals
      obtain ⟨hr, f, n, _, rfl⟩ := h
      exact absurd (afterFrame_cframe hb hr _ f n k) hne
  case wireReset | wireRead | wireWrite | wireBitmod | wireReadStatus | wireRts | wireReadRx | wireLoadTx =>
    all_goals cases hw
  case fbwr => obtain ⟨-, rfl⟩ := h; exact absurd rfl hne
  case fbrd => obtain ⟨-, _, -, rfl⟩ := h; exact absurd rfl hne
  all_goals (subst h; exact absurd rfl hne)

theorem exec_cframe {i : Instr} {s t : State} (hb : BusInv s) (hw : i.isWire = false) (h : exec i s = .next t)
    (k : ChipIx) (hne : t.cframe k ≠ s.cframe k) :
    (∃ o, i = .rxfer k o ∧ t.cframe k = s.cframe k ++ [o]) ∨ (i = .rdesel k ∧ t.cframe k = []) := by
  obtain ⟨c, -, rfl⟩ | h := exec_cases h
  · exact absurd (by simp [State.cframe, State.chip]) hne
  · exact effect_cframe hb hw h k hne

/-- A SEQ step that performs an operation: what the operation writes, the host word taken and the control that
follows. -/
theorem namedWriters_of_issue {s u : State} {i : Instr} {rest : List Turn} {q : List OpWord} (hb : BusInv s)
    (hr : s.seqReady = true) (hi : s.issues = some i) (hw : i.isWire = false)
    (hx : exec i { s with agenda := rest, hostq := q } = .next u) (hq : q ≠ s.hostq → s.hostmode = true)
    (p : Pos) (c : Scratch) (f : Byte) (hp : p ≠ s.pos ∨ c ≠ s.scr → s.hostmode = false) :
    NamedWriters s { u with pos := p, scr := c, fault := f } := by
  have h0 : s.fault = 0 := (seqReady_parts hr).2.1
  have hb' : BusInv { s with agenda := rest, hostq := q } := hb.of_eq rfl rfl fun _ => rfl
  have hk := exec_keeps hx
  obtain ⟨hres, hfbuf, hchan, hsel, hpstate, herrl, hwken, hlpm, hsensor, hind, hcreg⟩ :=
    writesOnly_exec hb' hx h0
  exact {
    cfg := hk.cfg
    hostmode := hk.hostmode
    res := by simpa only [hi, Option.some.injEq] using hres
    fbuf := by simpa only [hi, Option.some.injEq] using hfbuf
    chan := fun d => by
      obtain ⟨hrun, hcnt, hcmp, hie, hset, hclr⟩ := hchan d
      constructor
      case pendSet => exact fun h₁ h₂ => absurd ((hset h₁).symm.trans h₂) (by decide)
      all_goals simp only [hi, Option.some.injEq]
      case run => exact hrun
      case cnt => exact fun h => (hcnt h).imp_right .inl
      case cmp => exact hcmp
      case ie => exact hie
      case pendCleared => exact fun h₁ h₂ => .inl (hclr h₁ h₂)
    select := by simpa only [hi, Option.some.injEq] using hsel
    pstate := fun h => .inl (by simpa only [hi, Option.some.injEq] using hpstate h)
    errl := by simpa only [hi, Option.some.injEq] using herrl
    wken := fun h => by
      rw [hi]
      exact (hwken h).imp (congrArg some) fun e => .inl (congrArg some e)
    wkpend := fun h => absurd hk.wkpend h
    lpm := fun h => .inl (by simpa only [hi, Option.some.injEq] using hlpm h)
    wakePin := fun h => h.elim (absurd hk.wakeIn) (absurd hk.wakePrev)
    wedge := fun h => absurd hk.wedge h
    sensor := by simpa only [hi, Option.some.injEq] using hsensor
    ind := by simpa only [hi, Option.some.injEq] using hind
    fault := fun _ => ⟨h0, hr⟩
    place := fun h => ⟨hp h, .inl hr⟩
    hostq := fun h => ⟨hq fun e => h (hk.hostq.trans e), hr⟩
    cframe := fun k h => (exec_cframe hb' hw hx k h).imp (fun ⟨o, e, he⟩ => ⟨o, hi.trans (congrArg some e), he⟩)
      fun ⟨e, he⟩ => ⟨hi.trans (congrArg some e), he⟩
    creg := fun k a h => by
      refine .inr ⟨i, hi, ?_⟩
      obtain hf | ⟨cmd, rfl⟩ := hcreg k a h
      · rwa [frameOf_eq_of_fbuf rfl] at hf
      · rw [cmd.isWire_toInstr] at hw; cases hw }

/-- A SEQ step without an operation: dispatch, and a host word that is illegal. -/
theorem namedWriters_of_control {s : State} (hr : s.seqReady = true) (rest : List Turn) (q : List OpWord) (p : Pos)
    (f : Byte) (hq : q ≠ s.hostq → s.hostmode = true) (hp : p ≠ s.pos → s.hostmode = false) :
    NamedWriters s { s with agenda := rest, hostq := q, pos := p, fault := f } where
  fault := fun _ => ⟨(seqReady_parts hr).2.1, hr⟩
  place := fun h => ⟨hp (h.resolve_right fun h => h rfl), .inl hr⟩
  hostq := fun h => ⟨hq h, hr⟩

theorem seqReady_of_parts {s : State} (h : s.seqFree = true) (h0 : s.fault = 0) (hl : s.lpm = false) :
    s.seqReady = true := by
  simp [State.seqReady, h, h0, hl]

theorem issues_of_word {s : State} {w : OpWord} {q : List OpWord} {i : Instr} (hr : s.seqReady = true)
    (hm : s.hostmode = true) (hq : s.hostq = w :: q) (hd : decodeWord w = .ok i) : s.issues = some i := by
  simp [State.issues, hr, hm, hq, hd, Except.toOption]

theorem issues_of_opAt {s : State} (hr : s.seqReady = true) (hm : s.hostmode = false)
    (hp : s.pos ≠ ⟨.dispatch, 0⟩) : s.issues = s.opAt := by
  simp [State.issues, hr, hm, hp]

/-- The resume guard writes PSTATE, WKEN, WKPEND and LPM, and in the Sleeping handler SEQ's place (R250). -/
theorem resumeGuard_eq (s : State) :
    s.resumeGuard = { s with
      pstate := 0x04, wken := false, wkpend := false, lpm := false, pos := s.resumeGuard.pos,
      scr := s.resumeGuard.scr } := by
  unfold State.resumeGuard State.resumed
  split <;> rfl

theorem namedWriters_resumeGuard {s : State} (hg : s.guardNext = true) (rest : List Turn) :
    NamedWriters s (State.resumeGuard { s with agenda := rest }) := by
  have hplace : (State.resumeGuard { s with agenda := rest }).pos ≠ s.pos ∨
      (State.resumeGuard { s with agenda := rest }).scr ≠ s.scr → s.hostmode = false := by
    intro h
    by_contra hm
    simp [State.resumeGuard_pos, State.resumeGuard_scr, hm] at h
  rw [resumeGuard_eq]
  exact {
    pstate := fun _ => .inr (.inl hg)
    wken := fun _ => .inr (.inr hg)
    wkpend := fun _ => .inr hg
    lpm := fun _ => .inr ⟨hg, rfl⟩
    place := fun h => ⟨hplace h, .inr hg⟩ }

/-- A step of SEQ, once no interrupt is deliverable. -/
theorem namedWriters_seqStep {s t : State} {rest : List Turn} (hb : BusInv s) (hs : s.seqFree = true)
    (h : seqStep { s with agenda := rest } = .next t) : NamedWriters s t := by
  obtain ⟨rfl, -⟩ | ⟨h0, hl, hw, rfl⟩ | ⟨h0, hl, hm, w, q, hq, hw⟩ | ⟨h0, hl, hm, hp, rfl⟩ |
    ⟨h0, hl, hm, hp, i, u, ho, hx, rfl⟩ := seqStep_cases h
  case inl => exact {}
  case inr.inl =>
    have hg : s.guardNext = true := by
      simp only [State.guardNext, Bool.and_eq_true, beq_iff_eq]
      exact ⟨⟨⟨hs, h0⟩, hl⟩, hw⟩
    exact namedWriters_resumeGuard hg rest
  all_goals have hr : s.seqReady = true := seqReady_of_parts hs h0 hl
  case inr.inr.inl =>
    obtain ⟨i, hd, hx⟩ | ⟨-, rfl⟩ := hw
    · have hk := exec_keeps hx
      exact namedWriters_of_issue hb hr (issues_of_word hr hm hq hd) (isWire_of_decodeWord hd) hx (fun _ => hm)
        t.pos t.scr t.fault (fun h => h.elim (absurd hk.pos) (absurd hk.scr))
    · rw [raise_eq]
      exact namedWriters_of_control hr rest q s.pos _ (fun _ => hm) (absurd rfl)
  case inr.inr.inr.inl => exact namedWriters_of_control hr rest s.hostq _ s.fault (absurd rfl) (fun _ => hm)
  case inr.inr.inr.inr =>
    have hi : s.issues = some i := (issues_of_opAt hr hm hp).trans ho
    have hu : ∀ p c f, NamedWriters s { u with pos := p, scr := c, fault := f } := fun p c f =>
      namedWriters_of_issue hb hr hi (isWire_of_opAt ho) hx (absurd rfl) p c f (fun _ => hm)
    split
    · rw [(advance_keeps ..).rest]; exact hu ..
    · exact hu ..

/-! ## The interrupts and the other agents -/

theorem namedWriters_bridge {s : State} (hn : s.bridgeNext = true) (rest : List Turn) :
    NamedWriters s { s.bridge with agenda := rest } where
  pstate := fun _ => .inr (.inr ⟨hn, rfl⟩)
  chan := fun c => by
    by_cases hc : c = 0
    · subst hc
      have e : State.chan { s.bridge with agenda := rest } 0 = { s.chan 0 with pend := false } :=
        s.chan_setChan 0 _
      constructor <;> rw [e]
      case pendSet => intro _ h; cases h
      case pendCleared => exact fun _ _ => .inr ⟨rfl, hn⟩
      all_goals exact fun h => absurd rfl h
    · exact .of_eq (s.chan_setChan_ne _ hc)

theorem namedWriters_wakesync {s : State} (hn : s.wakesyncNext = true) (rest : List Turn) :
    NamedWriters s { s.wakesync with agenda := rest } where
  wkpend := fun _ => .inl ⟨hn, rfl⟩
  wedge := fun _ => .inr ⟨hn, rfl⟩

/-- A count pulse writes the count and sets the match, on its channel alone (40_timer.md R112). -/
theorem namedWriters_tick {s : State} {c : ChanIx} (ha : s.agenda.head? = some (.tick c)) (rest : List Turn) :
    NamedWriters s (State.tick { s with agenda := rest } c) where
  chan := fun d => by
    by_cases hd : d = c
    · subst hd
      have e : (State.tick { s with agenda := rest } d).chan d = (s.chan d).pulse := State.chan_onChan ..
      have hp : (s.chan d).pulse.run = (s.chan d).run ∧ (s.chan d).pulse.cmp = (s.chan d).cmp ∧
          (s.chan d).pulse.ie = (s.chan d).ie ∧ ((s.chan d).pend = true → (s.chan d).pulse.pend = true) := by
        unfold Channel.pulse
        split <;> simp +contextual
      obtain ⟨hrun, hcmp, hie, hpend⟩ := hp
      constructor <;> rw [e]
      case run => exact absurd hrun
      case cnt => exact fun _ => .inr (.inr ha)
      case cmp => exact absurd hcmp
      case ie => exact absurd hie
      case pendSet => exact fun _ _ => ha
      case pendCleared => exact fun h₁ h₂ => absurd ((hpend h₁).symm.trans h₂) (by decide)
    · exact .of_eq (State.chan_onChan_ne _ _ hd)

theorem namedWriters_pin {s : State} {l : Bool} (ha : s.agenda.head? = some (.pin l)) (rest : List Turn) :
    NamedWriters s (State.pin { s with agenda := rest } l) := by
  unfold State.pin
  split
  · exact {}
  · exact { wakePin := fun _ => ⟨l, ha⟩, wedge := fun _ => .inl ⟨l, ha⟩ }

/-- A chip's own step writes volatile registers of that chip (41_regbus.md R169). -/
theorem namedWriters_chip {s : State} {k : ChipIx} {sets : List (Byte × Byte)}
    (ha : s.agenda.head? = some (.chip k sets)) (rest : List Turn) :
    NamedWriters s (State.chipStep { s with agenda := rest } k sets) := by
  obtain ⟨_, rfl, -, -, hcreg, hcframe, -⟩ :=
    envStep_keeps { s with agenda := rest } (.chip k sets) (fun _ _ _ => Turn.noConfusion)
  exact {
    cframe := fun j h => absurd (hcframe j) h
    creg := fun j a h => by
      left
      by_cases hj : j = k
      · subst hj
        refine ⟨sets, ha, ?_⟩
        by_contra hv
        exact h (hcreg j a (by simpa using hv))
      · refine absurd ?_ h
        exact congrArg (fun c => RegFile.read (Chip.creg c) a) (State.chip_setChip_ne _ _ hj) }

/-- The turn of an agent other than SEQ that is no reset. -/
theorem namedWriters_envStep {s : State} {turn : Turn} {rest : List Turn} (ht : EnvTurn s turn rest)
    (hr : ¬s.resetNext) : NamedWriters s (envStep { s with agenda := rest } turn) := by
  obtain ⟨hne, ha⟩ := ht
  have hh : s.agenda.head? = some turn := by rw [ha]; rfl
  cases turn with
  | seq => exact absurd rfl hne
  | bridge =>
    simp only [envStep]
    split
    · next hd =>
      have hd : s.inactDeliverable = true := hd
      exact namedWriters_bridge (by rw [State.bridgeNext, hd, hh]; rfl) rest
    · exact {}
  | wakesync =>
    simp only [envStep]
    split
    · next hd =>
      have hd : (s.wakeDeliverable && !s.inactDeliverable) = true := hd
      exact namedWriters_wakesync (by rw [State.wakesyncNext, hd, hh]; rfl) rest
    · exact {}
  | tick c => exact namedWriters_tick hh rest
  | pin l => exact namedWriters_pin hh rest
  | chip k sets => exact namedWriters_chip hh rest
  | reset p m q => exact absurd ⟨p, m, q, hh⟩ hr

theorem seqTurn_head {s : State} {rest : List Turn} (h : SeqTurn s rest) :
    (s.agenda.head?.getD .seq == .seq) = true := by
  obtain ⟨h, -⟩ | h := h <;> rw [h] <;> rfl

/-- A step that is no reset changes each element only by its named writers. -/
theorem namedWriters_step {s t : State} (hb : BusInv s) (hr : ¬s.resetNext) (h : step s = .next t) :
    NamedWriters s t := by
  obtain ⟨rest, hs, ⟨hd, rfl⟩ | ⟨hi, hd, rfl⟩ | ⟨hi, hd, h⟩⟩ | ⟨turn, rest, ht, rfl⟩ := step_cases h
  · exact namedWriters_bridge (by simp only [State.bridgeNext, hd, seqTurn_head hs]; rfl) s.agenda
  · exact namedWriters_wakesync (by simp only [State.wakesyncNext, hi, hd, seqTurn_head hs]; rfl) s.agenda
  · exact namedWriters_seqStep hb (by simp only [State.seqFree, hi, hd, seqTurn_head hs]; rfl) h
  · exact namedWriters_envStep ht hr

/-- Settles O45: by what a step can do, each element's clause in turn. -/
theorem writersOfEveryElement : Obligations.WritersOfEveryElement := by
  intro s t hi hr h
  have w := namedWriters_step hi.bus hr h
  refine ⟨w.cfg, w.hostmode, w.res, w.fbuf, fun c => ?chan, w.select, w.pstate, w.errl, w.wken, w.wkpend, w.lpm,
    w.wakePin, w.wedge, w.sensor, w.ind, w.fault, w.place, w.hostq, w.cframe, w.creg⟩
  have ⟨hrun, hcnt, hcmp, hie, hset, hclr⟩ := w.chan c
  exact ⟨hrun, hcnt, hcmp, hie, hset, hclr⟩

end Sys2Proof.Machine
end

section
/-! PROOFS. An instruction changes only the chip it addresses (20_memory.md R74, 41_regbus.md R142). -/

namespace Sys2Proof.Machine

open Sys2Proof

/-- A command byte goes to the selected chip alone, and to none with no chip selected (R142, log entry 7). -/
theorem WireEffect.chip_ne {cmd : WireCmd} {s t : State} (h : WireEffect cmd s t) {j : ChipIx}
    (hj : s.cssel ≠ some j) : t.chip j = s.chip j := by
  obtain ⟨-, rfl⟩ | ⟨k, _, c, n, hk, -, rfl⟩ := h
  · rfl
  · have hne : j ≠ k := by rintro rfl; exact hj hk
    exact State.withChip_chip_ne s k c n hne

/-- An instruction's own effect leaves the chip it does not address: the bracket operations clear only chip k's
frame, an exchange and a frame change only chip k, and the rest do not reach the chips. -/
theorem Effect.chip_ne {i : Instr} {s t : State} (h : Effect i s t) {j : ChipIx} (hj : addressed s i ≠ some j) :
    t.chip j = s.chip j := by
  have other : ∀ {k : ChipIx}, some k ≠ some j → j ≠ k := fun h e => h (congrArg some e.symm)
  cases i
  case rsel k => obtain ⟨-, rfl⟩ := h; exact (otherChipKept_cleared s k (some k) true).1.2 j (other hj)
  case rdesel k => obtain ⟨-, -, rfl⟩ := h; exact (otherChipKept_cleared s k none false).1.2 j (other hj)
  case rxfer k _ => obtain ⟨-, -, _, c, n, -, rfl⟩ := h; exact State.withChip_chip_ne s k c n (other hj)
  case rreset k | rwrite k _ _ | rbitmod k _ _ _ | rwrseq k _ _ | rrts k _ | rldtx k _ _ =>
    all_goals obtain ⟨-, f, n, rfl⟩ := h; exact State.afterFrame_chip_ne s k f n (other hj)
  case rread k _ | rrdstat k | rrdrx k _ _ =>
    all_goals obtain ⟨-, f, n, _, rfl⟩ := h; exact State.afterFrame_chip_ne s k f n (other hj)
  case wireReset | wireRead | wireWrite | wireBitmod | wireReadStatus | wireRts | wireReadRx | wireLoadTx =>
    all_goals exact WireEffect.chip_ne h hj
  case fbwr => obtain ⟨-, rfl⟩ := h; rfl
  case fbrd => obtain ⟨-, _, -, rfl⟩ := h; rfl
  all_goals (obtain rfl := h; rfl)

/-- Settles O31: a fault writes no chip, and an instruction's own effect only the chip it addresses. -/
theorem chipsAreIndependent : Obligations.ChipsAreIndependent := by
  intro i s t j h hj
  obtain ⟨c, -, rfl⟩ | h := exec_cases h
  · rw [raise_eq]; rfl
  · exact h.chip_ne hj

end Sys2Proof.Machine
end

section
/-! PROOFS. Decoding and encoding are inverse, the fields of every encoding, and the rows of the opcode table
(30_encoding.md R80 to R87). -/

namespace Sys2Proof

open Sys2Proof.Machine

/-! ## Fields that hold an operand -/

/-- An operand narrower than its field is read back from the field's low bits. -/
@[simp] theorem extractLsb'_zero_setWidth {w v : Nat} (x : BitVec w) (h : w ≤ v) :
    (x.setWidth v).extractLsb' 0 w = x := by
  rw [BitVec.extractLsb'_setWidth_of_le (by omega), BitVec.extractLsb'_eq_self]

/-- The bits of a field above an operand narrower than it are zero. -/
@[simp] theorem extractLsb'_setWidth_high {w : Nat} (x : BitVec w) (v n : Nat) :
    (x.setWidth v).extractLsb' w n = 0 := by
  ext i hi
  simp

/-- A field whose n bits above the operand are zero is the operand, widened: nothing of the field is dropped. -/
theorem setWidth_extractLsb'_of_high {m w n : Nat} {x : BitVec m} (hm : m ≤ w + n)
    (h : x.extractLsb' w n = 0) : (x.extractLsb' 0 w).setWidth m = x := by
  ext i hi
  have high (hw : w ≤ i) : x[i] = false := by
    have := congrArg (·.getLsbD (i - w)) h
    simpa [show i - w < n by omega, show w + (i - w) = i by omega, hi] using this
  by_cases hw : i < w
  · simp [hw, hi]
  · simp [hw, high (by omega)]

/-- The reserved bits of a byte field under its row's mask (R82, R83). -/
theorem and_mask_eq_zero (x : Byte) : (x &&& 0xFE#8 = 0#8 ↔ x.extractLsb' 1 7 = 0#7) ∧
    (x &&& 0xFC#8 = 0#8 ↔ x.extractLsb' 2 6 = 0#6) ∧ (x &&& 0xF8#8 = 0#8 ↔ x.extractLsb' 3 5 = 0#5) := by
  revert x; decide

@[simp] theorem Fields.imm16_high (f : Fields) : f.imm16.extractLsb' 8 8 = f.b :=
  BitVec.extractLsb'_append_eq_left

@[simp] theorem Fields.imm16_low (f : Fields) : f.imm16.extractLsb' 0 8 = f.c :=
  BitVec.extractLsb'_append_eq_right

theorem bitOfUnit_eq_ofNat (u : Fin 2) : bitOfUnit u = BitVec.ofNat 1 u.val := by revert u; decide

/-- The word of an encoding has the fields it is made of. -/
theorem hasFields_opFields (opc : BitVec 7) (u : Fin 2) (a b c : Byte) :
    HasFields (.word (opFields opc (bitOfUnit u) a b c).toWord) opc u a b c := by
  have h := Fields.ofWord_toWord (opFields opc (bitOfUnit u) a b c)
  exact ⟨_, rfl, congrArg Fields.opc h, (congrArg Fields.s h).trans (bitOfUnit_eq_ofNat u), congrArg Fields.a h,
    congrArg Fields.b h, congrArg Fields.c h⟩

/-! ## Wire commands and their bytes (R87) -/

theorem encode_toInstr (cmd : WireCmd) : encode cmd.toInstr = .wire cmd.toByte := by cases cmd <;> rfl

theorem decode_toByte (cmd : WireCmd) (h : cmd.toInstr.encodable = true) :
    decode (.wire cmd.toByte) = .ok cmd.toInstr := by
  simp [decode, decodeWire, h]

/-- A byte under the pattern of a command with an operand is that command's byte for the operand it holds. -/
theorem toByte_of_pattern (o : Byte) :
    (o &&& 0xF8 = 0x80 → (WireCmd.rts (o.extractLsb' 0 3)).toByte = o) ∧
    (o &&& 0xF9 = 0x90 → (WireCmd.readRx (o.extractLsb' 1 2)).toByte = o) ∧
    (o &&& 0xF8 = 0x40 → (WireCmd.loadTx (o.extractLsb' 0 3)).toByte = o) := by
  revert o; decide

/-- A byte that is a wire command is the byte of that command, which has an encoding. -/
theorem toByte_of_ofByte {o : Byte} {cmd : WireCmd} (h : WireCmd.ofByte o = some cmd) :
    cmd.toInstr.encodable = true ∧ cmd.toByte = o := by
  obtain ⟨rts, readRx, loadTx⟩ := toByte_of_pattern o
  unfold WireCmd.ofByte at h
  split_ifs at h with reset read write bitmod status hrts hrx htx <;> cases h
  · exact ⟨rfl, reset.symm⟩
  · exact ⟨rfl, read.symm⟩
  · exact ⟨rfl, write.symm⟩
  · exact ⟨rfl, bitmod.symm⟩
  · exact ⟨rfl, status.symm⟩
  · exact ⟨rfl, rts hrts⟩
  · exact ⟨rfl, readRx hrx⟩
  · obtain ⟨hb, habc⟩ : o &&& 0xF8 = 0x40 ∧ wfSelector (o.extractLsb' 0 3) = true := by simpa using htx
    exact ⟨habc, loadTx hb⟩

/-! ## Decoding and encoding an operation word -/

theorem decode_opFields (opc : BitVec 7) (s : BitVec 1) (a b c : Byte) :
    decode (.word (opFields opc s a b c).toWord) = decodeFields ⟨opc, s, a, b, c⟩ :=
  decodeWord_toWord _

/-- Every operation has an encoding: only a wire command may lack one. -/
theorem encodable_of_not_isWire {i : Instr} (h : i.isWire = false) : i.encodable = true := by
  cases i
  case wireLoadTx => cases h
  all_goals rfl

/-- What decodes from fields is encoded in those same fields: the row's reserved fields are zero, and the others
are its operands. -/
theorem encode_of_decodeFields {f : Fields} {i : Instr} (h : decodeFields f = .ok i) :
    encode i = .word f.toWord := by
  unfold decodeFields at h
  dsimp only at h
  split at h
  case h_32 => cases h
  all_goals
    obtain ⟨hz, rfl⟩ := (operands_eq_ok ..).mp h
    obtain ⟨o, s, a, b, c⟩ := f
    simp_all [encode, opFields, immFields, setWidth_extractLsb'_of_high (n := 5),
      setWidth_extractLsb'_of_high (n := 6), setWidth_extractLsb'_of_high (n := 7)]

theorem encode_of_decodeWord {w : OpWord} {i : Instr} (h : decodeWord w = .ok i) : encode i = .word w := by
  simpa using encode_of_decodeFields h

/-! ## The rows of the opcode table (R81 to R83) -/

/-- Every instruction's encoding lies in the row of its mnemonic. -/
theorem rowMatch : ∀ i, Laws.RowMatch.Statement i
  | .tstart c => Laws.RowMatch.tstart c
  | .tstop c => Laws.RowMatch.tstop c
  | .trestart c => Laws.RowMatch.trestart c
  | .tsetcnt c v => Laws.RowMatch.tsetcnt c v
  | .tsetcmp c v => Laws.RowMatch.tsetcmp c v
  | .trdcnt c => Laws.RowMatch.trdcnt c
  | .trdstat c => Laws.RowMatch.trdstat c
  | .tsetie c ie => Laws.RowMatch.tsetie c ie
  | .tack c => Laws.RowMatch.tack c
  | .rsel k => Laws.RowMatch.rsel k
  | .rdesel k => Laws.RowMatch.rdesel k
  | .rxfer k o => Laws.RowMatch.rxfer k o
  | .rreset k => Laws.RowMatch.rreset k
  | .rread k a => Laws.RowMatch.rread k a
  | .rwrite k a v => Laws.RowMatch.rwrite k a v
  | .rbitmod k a m v => Laws.RowMatch.rbitmod k a m v
  | .rwrseq k a n => Laws.RowMatch.rwrseq k a n
  | .rrdstat k => Laws.RowMatch.rrdstat k
  | .rrts k t => Laws.RowMatch.rrts k t
  | .rrdrx k nm n => Laws.RowMatch.rrdrx k n nm
  | .rldtx k abc n => Laws.RowMatch.rldtx k n abc
  | .fbwr idx b => Laws.RowMatch.fbwr idx b
  | .fbrd idx => Laws.RowMatch.fbrd idx
  | .prdst => Laws.RowMatch.prdst
  | .pwrst v => Laws.RowMatch.pwrst v
  | .parm => Laws.RowMatch.parm
  | .pdisarm => Laws.RowMatch.pdisarm
  | .psleep => Laws.RowMatch.psleep
  | .pseterr => Laws.RowMatch.pseterr
  | .psens slot b => Laws.RowMatch.psens b slot
  | .pind => Laws.RowMatch.pind
  | .wireReset => Laws.RowMatch.wireReset
  | .wireRead => Laws.RowMatch.wireRead
  | .wireWrite => Laws.RowMatch.wireWrite
  | .wireBitmod => Laws.RowMatch.wireBitmod
  | .wireReadStatus => Laws.RowMatch.wireReadStatus
  | .wireRts t => Laws.RowMatch.wireRts t
  | .wireReadRx nm => Laws.RowMatch.wireReadRx nm
  | .wireLoadTx abc => Laws.RowMatch.wireLoadTx abc

/-- A word that decodes is matched by the row of what it decodes to: it is that instruction's encoding. -/
theorem accepts_of_decodeWord {w : OpWord} {i : Instr} (h : decodeWord w = .ok i) :
    ∃ r ∈ opcodeTable, r.accepts w = true ∧ r.mnemonic = i.mnemonic := by
  have hrow := rowMatch i
  rw [Laws.RowMatch.Statement, encode_of_decodeWord h] at hrow
  obtain ⟨r, hr, hm, ha⟩ := hrow
  exact ⟨r, hr, ha, hm⟩

/-- A row matches a word field by field. -/
theorem fields_of_accepts {r : OpRow} {w : OpWord} (h : r.accepts w = true) :
    (Fields.ofWord w).opc &&& (Fields.ofWord r.mask).opc = (Fields.ofWord r.code).opc ∧
    (Fields.ofWord w).s &&& (Fields.ofWord r.mask).s = (Fields.ofWord r.code).s ∧
    (Fields.ofWord w).a &&& (Fields.ofWord r.mask).a = (Fields.ofWord r.code).a ∧
    (Fields.ofWord w).b &&& (Fields.ofWord r.mask).b = (Fields.ofWord r.code).b ∧
    (Fields.ofWord w).c &&& (Fields.ofWord r.mask).c = (Fields.ofWord r.code).c := by
  rw [← beq_iff_eq.mp h]
  simp [Fields.ofWord, BitVec.extractLsb'_and]

/-- Every row's mask takes the whole operation code. -/
theorem mask_opc_of_mem : ∀ r ∈ opcodeTable, (Fields.ofWord r.mask).opc = BitVec.allOnes 7 := by decide

theorem opc_of_accepts {r : OpRow} {w : OpWord} (hr : r ∈ opcodeTable) (h : r.accepts w = true) :
    (Fields.ofWord w).opc = (Fields.ofWord r.code).opc := by
  obtain ⟨ho, -⟩ := fields_of_accepts h
  rwa [mask_opc_of_mem r hr, BitVec.and_allOnes] at ho

/-- No two rows have one operation code. -/
theorem row_eq_of_opc {r r' : OpRow} (hr : r ∈ opcodeTable) (hr' : r' ∈ opcodeTable)
    (h : (Fields.ofWord r.code).opc = (Fields.ofWord r'.code).opc) : r = r' :=
  have distinct : (opcodeTable.map fun r => (Fields.ofWord r.code).opc).Nodup := by decide
  List.inj_on_of_nodup_map distinct hr hr' h

/-- A word that a row matches decodes: the row's code gives the operation, and the fields the decoder wants zero
are those that the row's mask keeps. -/
theorem decodeWord_of_accepts {r : OpRow} {w : OpWord} (hr : r ∈ opcodeTable) (h : r.accepts w = true) :
    ∃ i, decodeWord w = .ok i := by
  have hf := fields_of_accepts h
  rw [decodeWord]
  generalize Fields.ofWord w = f at hf
  have opcOnes (x : BitVec 7) : x &&& 0x7F#7 = x := BitVec.and_allOnes
  have bitOnes (x : BitVec 1) : x &&& 1#1 = x := BitVec.and_allOnes
  have byteOnes (x : Byte) : x &&& 0xFF#8 = x := BitVec.and_allOnes
  clear h
  fin_cases hr
  all_goals
    simp [Fields.ofWord, opcOnes, bitOnes, byteOnes, and_mask_eq_zero] at hf
    simp [decodeFields, hf]

end Sys2Proof

namespace Sys2Proof.Machine

open Sys2Proof

/-! ## A word performed, and its faults -/

theorem raiseFault_eq (c : FaultCode) (s : State) : raiseFault c s = .next (s.withFault c.code) :=
  congrArg _ (raise_eq s c)

theorem performWord_of_decodeWord {w : OpWord} {i : Instr} (h : decodeWord w = .ok i) (s : State) :
    performWord w s = exec i s := by
  rw [performWord, h]

/-- A word that does not decode is illegal, and has no other effect (R81). -/
theorem performWord_of_error {w : OpWord} {e : DecodeError} (h : decodeWord w = .error e) (s : State) :
    performWord w s = .next (s.withFault 0x01) := by
  rw [performWord, h]
  exact raiseFault_eq .illegalOp s

/-- A word that no row matches is illegal (R81). -/
theorem performWord_of_no_row {w : OpWord} (h : ∀ r ∈ opcodeTable, r.accepts w = false) (s : State) :
    performWord w s = .next (s.withFault 0x01) := by
  cases hd : decodeWord w with
  | ok i =>
    obtain ⟨r, hr, ha, -⟩ := accepts_of_decodeWord hd
    exact absurd ha (by simp [h r hr])
  | error e => exact performWord_of_error hd s

/-- RLDTX with a selector that names no buffer is illegal, before its other checks (R81, R85 c). -/
theorem exec_rldtx_selector (k : ChipIx) {abc : BitVec 3} (n : Byte) (s : State) (h : 5 < abc.toNat) :
    exec (.rldtx k abc n) s = .next (s.withFault 0x01) := by
  have hs : selectorOk abc = false := by simpa [selectorOk] using h
  exact (if_neg (by simp [hs])).trans (raiseFault_eq .illegalOp s)

/-- A word with an operation code that no row has is illegal (R85 a). -/
theorem performWord_of_no_opc {w : OpWord}
    (h : ∀ r ∈ opcodeTable, w.extractLsb' 25 7 ≠ r.code.extractLsb' 25 7) (s : State) :
    performWord w s = .next (s.withFault 0x01) :=
  performWord_of_no_row (fun r hr => Bool.eq_false_iff.mpr fun ha => h r hr (opc_of_accepts hr ha)) s

/-- A word with a row's operation code and a reserved bit set is illegal: the row's own mask refuses it, and no
other row has its code (R85 b). -/
theorem performWord_of_reserved {w : OpWord} {r : OpRow} (hr : r ∈ opcodeTable) (hc : w &&& 0xFE000000 = r.code)
    (hm : w &&& r.mask ≠ r.code) (s : State) : performWord w s = .next (s.withFault 0x01) := by
  have hopc : (Fields.ofWord w).opc = (Fields.ofWord r.code).opc := by
    rw [← hc]
    exact (BitVec.extractLsb'_and.trans BitVec.and_allOnes).symm
  refine performWord_of_no_row (fun r' hr' => Bool.eq_false_iff.mpr fun ha => hm ?_) s
  obtain rfl := row_eq_of_opc hr hr' (hopc.symm.trans (opc_of_accepts hr' ha))
  exact beq_iff_eq.mp ha

/-- A word of RLDTX's code that decodes is RLDTX with the selector in bits 18:16. -/
theorem rldtx_of_opc {w : OpWord} {i : Instr} (ho : w.extractLsb' 25 7 = 0x2B) (h : decodeWord w = .ok i) :
    ∃ k n, i = .rldtx k (w.extractLsb' 16 3) n := by
  have low : (w.extractLsb' 16 8).extractLsb' 0 3 = w.extractLsb' 16 3 := by
    ext j hj
    simp [show j < 8 by omega]
  simp [decodeWord, decodeFields, Fields.ofWord, ho, low] at h
  exact ⟨_, _, h.2.symm⟩

/-- A word of RLDTX's code with selector 6 or 7 is illegal, whatever its other fields (R85 c). -/
theorem performWord_of_selector {w : OpWord} (ho : w.extractLsb' 25 7 = 0x2B)
    (hs : w.extractLsb' 16 3 = 6 ∨ w.extractLsb' 16 3 = 7) (s : State) :
    performWord w s = .next (s.withFault 0x01) := by
  cases hd : decodeWord w with
  | ok i =>
    obtain ⟨k, n, rfl⟩ := rldtx_of_opc ho hd
    have hlt : 5 < (w.extractLsb' 16 3).toNat := by rcases hs with h | h <;> rw [h] <;> decide
    exact (performWord_of_decodeWord hd s).trans (exec_rldtx_selector k n s hlt)
  | error e => exact performWord_of_error hd s

/-- The range checks of a framed operation, with no bracket open: the count's comes before the address's (R84). -/
theorem rangeChecks {s : State} (hr : s.rawopen = false) (a : Nat) (n : Byte) (out : Out) :
    (n.toNat = 0 ∨ 16 < n.toNat →
      whenClosed s (whenCount n s (whenInSpace a n s out)) = .next (s.withFault 0x03)) ∧
    (1 ≤ n.toNat → n.toNat ≤ 16 → 0xFF < a + n.toNat - 1 →
      whenClosed s (whenCount n s (whenInSpace a n s out)) = .next (s.withFault 0x04)) := by
  have closed (out : Out) : whenClosed s out = out := by simp [whenClosed, hr]
  refine ⟨fun hn => ?_, fun h1 h16 ha => ?_⟩
  · have hc : countOk n = false := by simp only [countOk, Bool.and_eq_false_iff, decide_eq_false_iff_not]; omega
    rw [closed, whenCount, hc]
    exact raiseFault_eq .fbufRange s
  · have hc : countOk n = true := by simp [countOk, h1, h16]
    have he : endsInSpace a n = false := decide_eq_false (by omega)
    rw [closed, whenCount, if_pos hc, whenInSpace, he]
    exact raiseFault_eq .addrRange s

theorem exec_rldtx_of_selector {abc : BitVec 3} (h : abc.toNat ≤ 5) (k : ChipIx) (n : Byte) (s : State) :
    exec (.rldtx k abc n) s = whenClosed s (whenCount n s (whenInSpace (txStart s.cfg abc) n s
      (sendBuffer k [(WireCmd.loadTx abc).toByte] n s))) :=
  if_pos (by simpa [selectorOk] using h)

theorem whenIndex_of_gt {idx : Byte} (h : 15 < idx.toNat) (s : State) (out : Out) :
    whenIndex idx s out = .next (s.withFault 0x03) := by
  have hi : indexOk idx = false := by simpa [indexOk] using h
  rw [whenIndex, hi]
  exact raiseFault_eq .fbufRange s

/-- The command byte of a request-to-send with mask 0 makes no request. -/
theorem commandEffect_rts_zero (cfg : Config) (k : ChipIx) (f : RegFile) : commandEffect cfg k f (.rts 0) = f := by
  simp [commandEffect, requestBuffer]

/-- RRTS with mask 0 is performed as the frame of the one byte 0x80 and changes no register (R85). -/
theorem performWord_rrts_zero {s : State} (hr : s.rawopen = false) :
    ∃ rs t, s.frame 0 [0x80] = .ok (rs, t) ∧ performWord 0x52000000 s = .next t ∧ RegistersKept s t := by
  have hx := exchangeAll_rts (cfg := s.cfg) (k := 0) s.drawn (s.chip 0).creg 0
  rw [commandEffect_rts_zero] at hx
  have hf : s.frame 0 [0x80] =
      .ok ([s.cfg.draw s.drawn], s.afterFrame 0 (s.chip 0).creg (s.drawn + 1)) := by
    rw [State.frame_eq, show [(0x80 : Byte)] = [(WireCmd.rts 0).toByte] from rfl, hx]
  refine ⟨_, _, hf, ?_, registersKept_afterFrame s 0 _⟩
  have hd : decodeWord 0x52000000 = .ok (.rrts 0 0) := rfl
  calc performWord 0x52000000 s
      = whenClosed s (sendFrame 0 [0x80] s discardReplies) := performWord_of_decodeWord hd s
    _ = sendFrame 0 [0x80] s discardReplies := by simp [whenClosed, hr]
    _ = .next (s.afterFrame 0 (s.chip 0).creg (s.drawn + 1)) := by rw [sendFrame, hf]; rfl

/-! ## The statements -/

/-- Settles O3: an operation's fields are read back one by one, and a wire command's byte is no other's. -/
theorem decodeOfEncode : Obligations.DecodeOfEncode := by
  intro i h
  cases i
  case wireReset | wireRead | wireWrite | wireBitmod | wireReadStatus => all_goals rfl
  case wireRts t => exact decode_toByte (.rts t) rfl
  case wireReadRx nm => exact decode_toByte (.readRx nm) rfl
  case wireLoadTx abc => exact decode_toByte (.loadTx abc) h
  case tsetcnt | tsetcmp =>
    all_goals
      rw [encode, decode, decodeWord_toWord]
      simp [decodeFields, immFields, opFields]
      exact imm16_immFields ..
  all_goals simp [encode, decode_opFields, decodeFields]

/-- Settles O2: each encoding is the word of an operation code, a unit and three bytes. -/
theorem operandsStandInTheirFields : Obligations.OperandsStandInTheirFields := by
  intro c k v ie x y z nm slot abc t
  have op := hasFields_opFields
  exact ⟨op .., op .., op .., op .., op .., op .., op .., op .., op .., op .., op .., op .., op .., op .., op ..,
    op .., op .., op .., op .., op .., op .., op .., op .., op .., op .., op .., op .., op .., op .., op .., op ..,
    rfl, rfl, rfl, rfl, rfl, rfl, rfl, rfl⟩

/-- Settles O4: for an operation word its fields, for a wire byte its command. -/
theorem encodeOfDecode : Obligations.EncodeOfDecode := by
  intro code i h
  cases code with
  | word w => exact ⟨encodable_of_not_isWire (isWire_of_decodeWord h), encode_of_decodeWord h⟩
  | wire b =>
    change decodeWire b = .ok i at h
    rw [decodeWire] at h
    split at h
    · next cmd hb =>
      cases h
      obtain ⟨he, rfl⟩ := toByte_of_ofByte hb
      exact ⟨he, encode_toInstr cmd⟩
    · cases h

/-- Settles O5: a word that decodes is the encoding of its instruction and so in its row, and a row's fields are
those the decoder asks for. -/
theorem decoderFindsTheOneRow : Obligations.DecoderFindsTheOneRow := by
  refine ⟨fun w => ⟨?_, ?_⟩, fun w r hr r' hr' h h' => ?_, fun w i s h => ?_, fun w s h => ?_,
    fun k abc n s h => exec_rldtx_selector k n s h⟩
  · rintro ⟨i, h⟩
    obtain ⟨r, hr, ha, -⟩ := accepts_of_decodeWord h
    exact ⟨r, hr, ha⟩
  · rintro ⟨r, hr, ha⟩
    exact decodeWord_of_accepts hr ha
  · exact row_eq_of_opc hr hr' ((opc_of_accepts hr h).symm.trans (opc_of_accepts hr' h'))
  · exact ⟨performWord_of_decodeWord h s, accepts_of_decodeWord h⟩
  · exact performWord_of_no_row h s

/-- Settles O6: each case of R85, and the range checks of R84. -/
theorem illegalEncodings : Obligations.IllegalEncodings := by
  intro s
  have noRow : ∀ r ∈ opcodeTable, ¬((r.code.extractLsb' 25 7).toNat ≤ 0x0F ∨
      (0x19 ≤ (r.code.extractLsb' 25 7).toNat ∧ (r.code.extractLsb' 25 7).toNat ≤ 0x1F) ∨
      (0x2E ≤ (r.code.extractLsb' 25 7).toNat ∧ (r.code.extractLsb' 25 7).toNat ≤ 0x2F) ∨
      0x38 ≤ (r.code.extractLsb' 25 7).toNat) := by decide
  refine ⟨fun w h => performWord_of_no_opc (fun r hr e => noRow r hr (e ▸ h)) s,
    fun w r hr hc hm => performWord_of_reserved hr hc hm s,
    fun w ho hs => performWord_of_selector ho hs s,
    performWord_of_no_row (by decide) s,
    performWord_rrts_zero,
    fun hr w k a n nm abc => ⟨fun hd => ?rwrseq, fun hd => ?rrdrx, fun hd habc => ?rldtx⟩,
    fun w idx b hi hd => ?index⟩
  case rwrseq =>
    rw [performWord_of_decodeWord hd]
    exact rangeChecks hr ..
  case rrdrx =>
    rw [performWord_of_decodeWord hd]
    exact rangeChecks hr ..
  case rldtx =>
    rw [performWord_of_decodeWord hd, exec_rldtx_of_selector habc]
    exact rangeChecks hr ..
  case index =>
    rcases hd with hd | hd <;> rw [performWord_of_decodeWord hd]
    · exact whenIndex_of_gt hi s _
    · exact whenIndex_of_gt hi s _

end Sys2Proof.Machine
end

section
/-! PROOFS. The timer unit: what each operation and each count pulse does to its channel, and what leaves a match
latch as it is (40_timer.md R110 to R125). -/

namespace Sys2Proof.Machine

open Sys2Proof

/-! ## A change of one channel -/

section
variable (s : State) (c d : ChanIx) (f : Channel → Channel)

/-- A channel's change leaves the other channel and every other element (R110). -/
theorem timerOnly_onChan : TimerOnly s (s.onChan c f) c := ⟨rfl, fun _ hd => s.chan_onChan_ne f hd⟩

theorem timerOnly_refl : TimerOnly s s c := ⟨rfl, fun _ _ => rfl⟩

theorem TimerOnly.trans {s t u : State} {c : ChanIx} (h : TimerOnly s t c) (h' : TimerOnly t u c) :
    TimerOnly s u c := by
  obtain ⟨hst, hs⟩ := h
  obtain ⟨htu, ht⟩ := h'
  refine ⟨?_, fun d hd => (ht d hd).trans (hs d hd)⟩
  rw [htu, hst]

/-- The outcome of an operation that changes one channel as f says. -/
theorem next_onChan : ∃ t, (.next (s.onChan c f) : Out) = .next t ∧ t.chan c = f (s.chan c) ∧ TimerOnly s t c :=
  ⟨_, rfl, s.chan_onChan c f, timerOnly_onChan s c f⟩

theorem onChan_pend (hf : ∀ ch, (f ch).pend = ch.pend) :
    ((s.onChan d f).chan c).pend = (s.chan c).pend := by
  by_cases hc : c = d
  · subst hc
    rw [s.chan_onChan c f, hf]
  · rw [s.chan_onChan_ne f hc]
end

/-! ## The operations -/

/-- The status word of R29: TRUN, TPEND and TIE in its low bits, and zeros above. -/
theorem channelStatus_bits (ch : Channel) :
    (channelStatus ch).getLsbD 0 = ch.run ∧ (channelStatus ch).getLsbD 1 = ch.pend ∧
      (channelStatus ch).getLsbD 2 = ch.ie ∧ ∀ b, 3 ≤ b → (channelStatus ch).getLsbD b = false := by
  refine ⟨?_, ?_, ?_, fun b hb => ?_⟩ <;> rw [channelStatus, BitVec.getLsbD_setWidth]
  case refine_4 => rw [BitVec.getLsbD_of_ge _ b hb, Bool.and_false]
  all_goals
    simp only [BitVec.getLsbD_append, BitVec.getLsbD_ofBool]
    simp

theorem beq_one_eq_getLsbD (b : BitVec 1) : (b == 1) = b.getLsbD 0 := by revert b; decide

/-- Settles O12: seven operations change one channel, and two write RES. -/
theorem timerOperations : Obligations.TimerOperations := by
  intro s c v ie
  refine ⟨next_onChan .., next_onChan .., next_onChan .., next_onChan .., next_onChan .., ?tsetie,
    next_onChan .., ⟨_, rfl, rfl⟩, ?trdstat⟩
  case tsetie =>
    rw [← beq_one_eq_getLsbD]
    exact next_onChan ..
  case trdstat => exact ⟨_, _, rfl, rfl, channelStatus_bits (s.chan c)⟩

/-! ## The count pulse -/

/-- Settles O13: the step is the count rule on its channel. -/
theorem countPulse : Obligations.CountPulse := by
  intro s c rest h
  refine ⟨_, step_tick h, timerOnly_onChan .., ?_⟩
  rw [State.tick, State.chan_onChan]
  exact (s.chan c).pulse_facts

section
variable {ch : Channel}

/-- At its threshold a channel holds (R112, R113). -/
theorem Channel.pulse_of_remaining_zero (h : ch.remaining = 0) : ch.pulse = ch :=
  ch.pulse_facts.1 fun ⟨_, hlt⟩ => by
    rw [Channel.remaining] at h
    omega

theorem Channel.pulse_of_remaining_pos (hrun : ch.run = true) (h : 0 < ch.remaining) :
    ch.pulse = { ch with cnt := ch.cnt + 1, pend := ch.pend || ch.cnt + 1 == ch.cmp } := by
  have hlt : ch.cnt.toNat < ch.cmp.toNat := Nat.lt_of_sub_pos h
  exact if_pos (by simp [hrun, hlt])

/-- The channel after n counts and no match. -/
def Channel.counted (ch : Channel) (n : Nat) : Channel := { ch with cnt := ch.cnt + BitVec.ofNat 16 n }

/-- Up to the compare value the count does not wrap. -/
theorem Channel.counted_cnt {n : Nat} (h : n ≤ ch.remaining) :
    (ch.counted n).cnt.toNat = ch.cnt.toNat + n := by
  rw [Channel.remaining] at h
  rw [Channel.counted, BitVec.toNat_add, BitVec.toNat_ofNat]
  omega

theorem Channel.counted_remaining {n : Nat} (h : n ≤ ch.remaining) :
    (ch.counted n).remaining = ch.remaining - n := by
  rw [Channel.remaining, Channel.counted_cnt h]
  exact Nat.sub_add_eq ..

theorem Channel.counted_succ (n : Nat) : ch.counted (n + 1) = (ch.counted n).counted 1 := by
  simp only [Channel.counted, BitVec.ofNat_add, BitVec.add_assoc]

/-- A pulse that does not reach the compare value only counts. -/
theorem Channel.pulse_of_one_lt_remaining (hrun : ch.run = true) (h : 1 < ch.remaining) :
    ch.pulse = ch.counted 1 := by
  have hne : ch.cnt + 1 ≠ ch.cmp := by
    rw [Channel.remaining] at h
    bv_omega
  rw [Channel.pulse_of_remaining_pos hrun (by omega), beq_eq_false_iff_ne.mpr hne, Bool.or_false]
  rfl

/-- The pulse that reaches the compare value is the match. -/
theorem Channel.pulse_of_remaining_one (hrun : ch.run = true) (h : ch.remaining = 1) :
    ch.pulse = { ch with cnt := ch.cmp, pend := true } := by
  have he : ch.cnt + 1 = ch.cmp := by
    rw [Channel.remaining] at h
    bv_omega
  rw [Channel.pulse_of_remaining_pos hrun (by omega), he, beq_self_eq_true, Bool.or_true]

/-! ### n pulses -/

theorem Channel.iterate_pulse_of_remaining_zero (h : ch.remaining = 0) (n : Nat) : Channel.pulse^[n] ch = ch :=
  Function.iterate_fixed (Channel.pulse_of_remaining_zero h) n

/-- Fewer pulses than remain are only counted. -/
theorem Channel.iterate_pulse_of_lt_remaining (hrun : ch.run = true) {n : Nat} (h : n < ch.remaining) :
    Channel.pulse^[n] ch = ch.counted n := by
  induction n with
  | zero => simp [Channel.counted]
  | succ n ih =>
    have hn : n < ch.remaining := Nat.lt_of_succ_lt h
    have hleft : 1 < (ch.counted n).remaining := by
      rw [Channel.counted_remaining hn.le]
      omega
    rw [Function.iterate_succ_apply', ih hn, Channel.counted_succ]
    exact Channel.pulse_of_one_lt_remaining (ch := ch.counted n) hrun hleft

/-- The last of the remaining pulses is the match, and the channel then holds. -/
theorem Channel.iterate_pulse_of_remaining_le (hrun : ch.run = true) {n : Nat} (hpos : 0 < ch.remaining)
    (h : ch.remaining ≤ n) : Channel.pulse^[n] ch = { ch with cnt := ch.cmp, pend := true } := by
  obtain ⟨r, hr⟩ : ∃ r, ch.remaining = r + 1 := Nat.exists_eq_add_one.mpr hpos
  obtain ⟨m, rfl⟩ : ∃ m, n = m + (r + 1) := ⟨n - (r + 1), by omega⟩
  have hlast : (ch.counted r).remaining = 1 := by
    rw [Channel.counted_remaining (by omega)]
    omega
  calc Channel.pulse^[m + (r + 1)] ch
      = Channel.pulse^[m] (Channel.pulse (Channel.pulse^[r] ch)) := by
        rw [Function.iterate_add_apply, Function.iterate_succ_apply']
    _ = Channel.pulse^[m] { ch with cnt := ch.cmp, pend := true } := by
        rw [Channel.iterate_pulse_of_lt_remaining hrun (by omega),
          Channel.pulse_of_remaining_one (ch := ch.counted r) hrun hlast]
        rfl
    _ = { ch with cnt := ch.cmp, pend := true } := Channel.iterate_pulse_of_remaining_zero (Nat.sub_self _) m
end

/-- Consecutive pulses of one channel, as a run of the machine. -/
theorem run_ticks (c : ChanIx) (rest : List Turn) : ∀ (n : Nat) (s : State),
    s.agenda = List.replicate n (.tick c) ++ rest →
    ∃ t, Host.Core.run Sys2Proof.core n s = .next t ∧ TimerOnly { s with agenda := rest } t c ∧
      t.chan c = Channel.pulse^[n] (s.chan c) := by
  intro n
  induction n with
  | zero =>
    rintro s (h : s.agenda = rest)
    subst h
    exact ⟨s, rfl, timerOnly_refl s c, rfl⟩
  | succ n ih =>
    intro s h
    let u := State.tick { s with agenda := List.replicate n (.tick c) ++ rest } c
    obtain ⟨t, hrun, honly, hchan⟩ := ih u rfl
    have hu : u.chan c = (s.chan c).pulse := State.chan_onChan ..
    have hstep : TimerOnly { s with agenda := rest } { u with agenda := rest } c := timerOnly_onChan ..
    refine ⟨t, (run_succ (step_tick h)).trans hrun, hstep.trans honly, ?_⟩
    rw [hchan, hu, Function.iterate_succ_apply]

/-- Settles O14: the run is n pulses of the channel, and r of them remain. -/
theorem theRthPulseIsTheMatch : Obligations.TheRthPulseIsTheMatch := by
  intro n s c rest h hrun
  obtain ⟨t, ht, honly, hchan⟩ := run_ticks c rest n s h
  refine ⟨t, ht, honly, fun h0 => ?none, fun hn => ?before, fun hpos hn => ?reached⟩ <;> rw [hchan]
  case none => exact Channel.iterate_pulse_of_remaining_zero h0 n
  case before =>
    rw [Channel.iterate_pulse_of_lt_remaining hrun hn]
    exact ⟨rfl, Channel.counted_cnt hn.le⟩
  case reached => exact Channel.iterate_pulse_of_remaining_le hrun hpos hn

/-! ## The match latches -/

theorem WireEffect.tmr {cmd : WireCmd} {s t : State} (h : WireEffect cmd s t) : t.tmr = s.tmr := by
  obtain ⟨-, rfl⟩ | ⟨_, _, _, _, -, -, rfl⟩ := h <;> rfl

/-- An instruction's own effect leaves a match latch as it is, but for TACK on its channel. -/
theorem Effect.pend_eq {i : Instr} {s t : State} (h : Effect i s t) {c : ChanIx} (hi : i ≠ .tack c) :
    (t.chan c).pend = (s.chan c).pend := by
  have same (ht : t.tmr = s.tmr) : (t.chan c).pend = (s.chan c).pend :=
    congrArg Channel.pend (State.chan_eq_of_tmr ht c)
  cases i
  case tack d =>
    obtain rfl := h
    have hc : c ≠ d := fun e => hi (congrArg Instr.tack e.symm)
    rw [s.chan_onChan_ne _ hc]
  case tstart | tstop | trestart | tsetcnt | tsetcmp | tsetie =>
    all_goals (obtain rfl := h; exact onChan_pend s c _ _ fun _ => rfl)
  case wireReset | wireRead | wireWrite | wireBitmod | wireReadStatus | wireRts | wireReadRx | wireLoadTx =>
    all_goals exact same (WireEffect.tmr h)
  case rsel | fbwr => all_goals (obtain ⟨-, rfl⟩ := h; exact same rfl)
  case rdesel => obtain ⟨-, -, rfl⟩ := h; exact same rfl
  case rxfer => obtain ⟨-, -, _, _, _, -, rfl⟩ := h; exact same rfl
  case rreset | rwrite | rbitmod | rwrseq | rrts | rldtx =>
    all_goals (obtain ⟨-, _, _, rfl⟩ := h; exact same rfl)
  case rread | rrdstat | rrdrx => all_goals (obtain ⟨-, _, _, _, rfl⟩ := h; exact same rfl)
  case fbrd => obtain ⟨-, _, -, rfl⟩ := h; exact same rfl
  all_goals (obtain rfl := h; exact same rfl)

/-- Settles O15: a fault writes no latch, TACK clears its own, and every other effect keeps them. -/
theorem noOperationCausesAMatch : Obligations.NoOperationCausesAMatch := by
  intro i s t c h
  by_cases hi : i = .tack c
  · subst hi
    obtain ⟨u, hu, hchan, -⟩ := next_onChan s c fun ch => { ch with pend := false }
    obtain rfl : u = t := Host.Outcome.next.inj (hu.symm.trans h)
    simp [hchan]
  · have hkept : (t.chan c).pend = (s.chan c).pend := by
      obtain ⟨e, -, rfl⟩ | h := exec_cases h
      · exact congrArg Channel.pend (State.chan_eq_of_tmr (s.raise_tmr e) c)
      · exact h.pend_eq hi
    simp [hkept, hi]

end Sys2Proof.Machine
end

section
/-! PROOFS. The checks of the register-interface unit in their order, the raw bracket and the frame buffer's two
operations (41_regbus.md R146 to R148, R171, R172; 60_exceptions.md R274). -/

namespace Sys2Proof.Machine

open Sys2Proof

/-! ## The checks -/

section
variable {s : State} (out : Out)

theorem whenClosed_of_closed (hr : s.rawopen = false) : whenClosed s out = out := by simp [whenClosed, hr]

theorem whenClosed_of_open (hr : s.rawopen = true) : whenClosed s out = .next (s.withFault 0x02) :=
  (if_pos hr).trans (raiseFault_eq .busProtocol s)

theorem whenOpenOn_of_open {k : ChipIx} (hr : s.rawopen = true) (hk : s.cssel = some k) :
    whenOpenOn k s out = out := by simp [whenOpenOn, hr, hk]

theorem whenOpenOn_of_not_open {k : ChipIx} (h : ¬(s.rawopen = true ∧ s.cssel = some k)) :
    whenOpenOn k s out = .next (s.withFault 0x02) :=
  (if_neg (by simpa using h)).trans (raiseFault_eq .busProtocol s)

theorem whenIndex_of_le {idx : Byte} (h : idx.toNat ≤ 15) : whenIndex idx s out = out :=
  if_pos (by simpa [indexOk] using h)

/-- A framed operation whose bracket, count and addresses are in order goes on to its frame (R146). -/
theorem rangeChecks_passed (hr : s.rawopen = false) {a : Nat} {n : Byte} (h1 : 1 ≤ n.toNat) (h16 : n.toNat ≤ 16)
    (ha : a + n.toNat - 1 ≤ 0xFF) : whenClosed s (whenCount n s (whenInSpace a n s out)) = out := by
  have hc : countOk n = true := by simp [countOk, h1, h16]
  have he : endsInSpace a n = true := decide_eq_true ha
  rw [whenClosed_of_closed _ hr, whenCount, if_pos hc, whenInSpace, if_pos he]
end

/-- A byte of FBUF that the frame would send is ⊥ (R274). -/
theorem sendBuffer_of_unwritten {s : State} {n : Byte} (h : ¬BufferFilled s n.toNat) (k : ChipIx)
    (head : List Byte) : sendBuffer k head n s = .next (s.withFault 0x05) := by
  have hb : fbufBytes s.fbuf 0 n.toNat = none :=
    fbufBytes_of_unwritten n.toNat 0 (by simpa [BufferFilled] using h)
  rw [sendBuffer, hb]
  exact raiseFault_eq .unwritten s

/-- A framed operation with a raw bracket open; RLDTX checks its selector first (R146, R274). -/
theorem exec_framed_of_open {s : State} (hr : s.rawopen = true) {i : Instr} (hi : isFramed i = true)
    (hs : ∀ j abc n, i = .rldtx j abc n → abc.toNat ≤ 5) : exec i s = .next (s.withFault 0x02) := by
  cases i
  case rldtx k abc n =>
    rw [exec_rldtx_of_selector (hs k abc n rfl)]
    exact whenClosed_of_open _ hr
  case rreset | rread | rwrite | rbitmod | rwrseq | rrdstat | rrts | rrdrx =>
    all_goals exact whenClosed_of_open _ hr
  all_goals cases hi

theorem exec_fbrd_of_unwritten {s : State} {idx : Byte} (hi : idx.toNat ≤ 15)
    (hb : fbufRead s.fbuf idx.toNat = none) : exec (.fbrd idx) s = .next (s.withFault 0x05) := by
  refine (whenIndex_of_le _ hi).trans ?_
  rw [hb]
  exact raiseFault_eq .unwritten s

/-- Settles O18: each check fails with the ones before it passed. -/
theorem checksInOrder : Obligations.ChecksInOrder := by
  intro s k
  have rldtx {abc : BitVec 3} {n : Byte} (habc : abc.toNat ≤ 5) := exec_rldtx_of_selector habc k n s
  refine ⟨fun w e h => performWord_of_error h s, fun abc n h => exec_rldtx_selector k n s h,
    fun hr i hi hs => exec_framed_of_open hr hi hs, fun hr a n hn => ?count, fun hr a n h1 h16 => ?range,
    fun idx hi => ⟨fun b => whenIndex_of_gt hi s _, whenIndex_of_gt hi s _⟩,
    fun idx hi hb => exec_fbrd_of_unwritten hi hb⟩
  case count =>
    have check (a : Nat) (out : Out) := (rangeChecks hr a n out).1 hn
    exact ⟨check .., fun nm => check .., fun abc habc => (rldtx habc).trans (check ..)⟩
  case range =>
    have check {a : Nat} {out : Out} := (rangeChecks hr a n out).2 h1 h16
    have unwritten {a : Nat} (ha : a + n.toNat - 1 ≤ 0xFF) (hb : ¬BufferFilled s n.toNat) (head : List Byte) :=
      (rangeChecks_passed _ hr h1 h16 ha).trans (sendBuffer_of_unwritten hb k head)
    exact ⟨check, fun nm => check, fun abc habc ha => (rldtx habc).trans (check ha),
      fun ha hb => unwritten ha hb _, fun abc habc ha hb => (rldtx habc).trans (unwritten ha hb _)⟩

/-- Settles O27: the index check, and then the read after a write of one byte. -/
theorem frameBufferOperations : Obligations.FrameBufferOperations := by
  intro s idx b
  refine ⟨fun hi => ⟨whenIndex_of_gt hi s _, whenIndex_of_gt hi s _⟩,
    fun hi => ⟨_, whenIndex_of_le _ hi, ?same, fun i hne => ?other, rfl⟩,
    fun hi hb => exec_fbrd_of_unwritten hi hb, fun hi v hv => ?read⟩
  case same => exact (fbufRead_fbufWrite s.fbuf _ _ b (by omega)).trans (if_pos rfl)
  case other => exact (fbufRead_fbufWrite s.fbuf _ _ b (by omega)).trans (if_neg hne)
  case read =>
    refine (whenIndex_of_le _ hi).trans ?_
    rw [hv]
    rfl

/-! ## The raw bracket -/

/-- The select lines of R32: only the selected chip's is asserted. -/
theorem State.csN_eq_false_iff (s : State) (k : ChipIx) : s.csN k = false ↔ s.cssel = some k := by
  simp [State.csN]

theorem exec_rsel {s : State} {k : ChipIx} (hr : s.rawopen = false) :
    exec (.rsel k) s = .next { s.select k with rawopen := true } := whenClosed_of_closed _ hr

theorem exec_rdesel {s : State} {k : ChipIx} (hr : s.rawopen = true) (hk : s.cssel = some k) :
    exec (.rdesel k) s = .next { s.deselect k with rawopen := false } := whenOpenOn_of_open _ hr hk

/-- Settles O16: a bracket opens and closes with the frame cleared. -/
theorem rawBracket : Obligations.RawBracket := by
  intro s k
  refine ⟨fun hr => whenClosed_of_open _ hr, fun hr => ⟨_, exec_rsel hr, rfl, rfl, fun j => ?select, ?_⟩,
    fun h => whenOpenOn_of_not_open _ ?not, fun hr hk => ⟨_, exec_rdesel hr hk, rfl, rfl, fun _ => rfl, ?_⟩⟩
  case select =>
    rw [State.csN_eq_false_iff]
    exact Option.some_inj.trans eq_comm
  case not =>
    rintro ⟨hr, hk⟩
    simp [hr, hk] at h
  all_goals
    obtain ⟨hother, hkept⟩ := otherChipKept_cleared s k _ _
    exact ⟨hother, hkept, rfl⟩

end Sys2Proof.Machine
end

section
/-! PROOFS. One byte exchange with the selected chip: RXFER, the refusal of a byte, and the wire commands as
instructions (41_regbus.md R141 to R143, R149, R160 to R168). -/

namespace Sys2Proof.Machine

open Sys2Proof

/-! ## The chip after an exchange -/

theorem State.withChip_cframe (s : State) (k : ChipIx) (c : Chip) (n : Nat) :
    (s.withChip k c n).cframe k = c.cframe := congrArg Chip.cframe (State.withChip_chip s k c n)

section
variable {s t : State} {k : ChipIx}

theorem storedValue_of_writable {a : Byte} (h : Writable s k a) (n : Nat) (v : Byte) :
    storedValue s.cfg k n (s.chip k).creg a v = v := by
  unfold storedValue
  cases hc : s.cfg.configOnly k a with
  | false => simp
  | true => simp [h hc]

/-- A register stored is the byte sent, unless R170 makes it Draw(), and no other register changes. -/
theorem oneStored_of_write {a v : Byte} {n : Nat}
    (h : (t.chip k).creg = RegFile.write (s.chip k).creg a (storedValue s.cfg k n (s.chip k).creg a v)) :
    OneStored s t k a v := by
  refine ⟨fun hw => ?_, fun b hb => ?_⟩ <;> rw [State.creg, h]
  · rw [RegFile.read_write, storedValue_of_writable hw]
  · exact RegFile.read_write_ne _ _ hb

/-- A register modified has the bits under the mask changed, if R163 and R170 let it, and no other register
changes. -/
theorem oneModified_of_write {a m v : Byte} {n n' : Nat}
    (h : (t.chip k).creg = RegFile.write (s.chip k).creg a
      (storedValue s.cfg k n (s.chip k).creg a (modifiedValue s.cfg k n' (s.chip k).creg a m v))) :
    OneModified s t k a m v := by
  refine ⟨fun hb hw => ?_, fun b hb => ?_⟩ <;> rw [State.creg, h]
  · rw [RegFile.read_write, storedValue_of_writable hw, modifiedValue, if_pos hb]
    rfl
  · exact RegFile.read_write_ne _ _ hb
end

/-! ## What a byte is to the chip -/

theorem byteRole_toByte (cfg : Config) (cmd : WireCmd) (h : cmd.toInstr.encodable = true) :
    byteRole cfg [] cmd.toByte = .command cmd :=
  byteRole_nil cfg (WireCmd.ofByte_toByte cmd h)

theorem byteRole_after_toByte (cfg : Config) (cmd : WireCmd) (h : cmd.toInstr.encodable = true) (args : List Byte)
    (o : Byte) : byteRole cfg (cmd.toByte :: args) o = laterRole cfg cmd args :=
  byteRole_cons cfg args o (WireCmd.ofByte_toByte cmd h)

theorem byteRole_nil_eq_reserved_iff (cfg : Config) (o : Byte) :
    byteRole cfg [] o = .reserved ↔ WireCmd.ofByte o = none := by
  unfold byteRole
  cases WireCmd.ofByte o <;> simp

/-- The reserved first bytes: those under no pattern of R87, selectors 6 and 7 of load-tx-buffer among them. -/
theorem ofByte_eq_none_iff (o : Byte) : WireCmd.ofByte o = none ↔
    o ∉ [0xC0, 0x03, 0x02, 0x05, (0xA0 : Byte)] ∧ o &&& 0xF8 ≠ 0x80 ∧ o &&& 0xF9 ≠ 0x90 ∧
      ¬(0x40 ≤ o.toNat ∧ o.toNat ≤ 0x45) := by
  revert o; decide

theorem encodable_loadTx {abc : BitVec 3} (h : abc.toNat ≤ 5) : (WireCmd.loadTx abc).toInstr.encodable = true :=
  decide_eq_true h

/-! ## A byte that is refused (R167) -/

section
variable {cfg : Config} {k : ChipIx} {n : Nat} {c : Chip} {o : Byte}

theorem Chip.exchange_pastEnd {a : Nat} (ha : 0xFF < a)
    (h : byteRole cfg c.cframe o = .readReg a ∨ byteRole cfg c.cframe o = .writeReg a) :
    c.exchange cfg k n o = .error .addressPastEnd := by
  rcases h with h | h <;> simp [Chip.exchange, h, regAddr, ha]

theorem Chip.exchange_modify_refused {a m : Byte} (h : byteRole cfg c.cframe o = .modify a m)
    (hi : cfg.implemented k a = false) : c.exchange cfg k n o = .error .registerNotImplemented := by
  have ha : ¬0xFF < a.toNat := Nat.not_lt.mpr (Nat.le_of_lt_succ a.isLt)
  simp [Chip.exchange, h, regAddr, ha, hi]
end

/-! ## RXFER -/

section
variable {s : State} {k : ChipIx} {o : Byte}

/-- A byte that R167 does not refuse is exchanged. -/
theorem exchange_of_accepted (h : ByteAccepted s k o) :
    ∃ r c n, (s.chip k).exchange s.cfg k s.drawn o = .ok (r, c, n) := by
  unfold ByteAccepted State.cframe at h
  cases hrole : byteRole s.cfg (s.chip k).cframe o <;> simp only [hrole] at h
  case command cmd => exact ⟨_, _, _, Chip.exchange_command hrole⟩
  case readReg a =>
    obtain ⟨⟨ha, hi⟩, -⟩ := RunOk.tail h
    exact ⟨_, _, _, Chip.exchange_readReg hrole ha hi⟩
  case writeReg a =>
    obtain ⟨⟨ha, hi⟩, -⟩ := RunOk.tail h
    exact ⟨_, _, _, Chip.exchange_writeReg hrole ha hi⟩
  case modify a m => exact ⟨_, _, _, Chip.exchange_modify hrole h⟩
  case status => exact ⟨_, _, _, Chip.exchange_status hrole⟩
  case ignored => exact ⟨_, _, _, Chip.exchange_ignored hrole⟩

variable (hr : s.rawopen = true) (hk : s.cssel = some k)
include hr hk

theorem exec_rxfer_of_exchange {r : Byte} {c : Chip} {n : Nat}
    (h : (s.chip k).exchange s.cfg k s.drawn o = .ok (r, c, n)) :
    exec (.rxfer k o) s = .next ((s.withChip k c n).setRes (zext16 r)) := by
  refine (whenOpenOn_of_open _ hr hk).trans ?_
  rw [State.xfer_eq, h]

theorem exec_rxfer_of_refused {r : Refusal} (h : (s.chip k).exchange s.cfg k s.drawn o = .error r) :
    exec (.rxfer k o) s = .refused r := by
  refine (whenOpenOn_of_open _ hr hk).trans ?_
  rw [State.xfer_eq, h]

/-- RXFER of an accepted byte: the reply is in RES, the byte joins the frame, and only chip k changes. -/
theorem exec_rxfer_of_accepted (h : ByteAccepted s k o) :
    ∃ r c n, (s.chip k).exchange s.cfg k s.drawn o = .ok (r, c, n) ∧
      exec (.rxfer k o) s = .next ((s.withChip k c n).setRes (zext16 r)) ∧
      c.cframe = s.cframe k ++ [o] := by
  obtain ⟨r, c, n, hx⟩ := exchange_of_accepted h
  exact ⟨r, c, n, hx, exec_rxfer_of_exchange hr hk hx, Chip.exchange_cframe hx⟩
end

/-- Settles O17: the exchange by the byte's role, and the role by the command and the position. -/
theorem rxferExchangesOneByte : Obligations.RxferExchangesOneByte := by
  intro s k o
  refine ⟨fun h => whenOpenOn_of_not_open _ h, fun hr hk hacc => ?exchange, ?first,
    fun a m v later mask nm abc => ?later⟩
  case exchange =>
    obtain ⟨r, c, n, hx, hexec, hframe⟩ := exec_rxfer_of_accepted hr hk hacc
    refine ⟨_, r, hexec, rfl, rfl, (State.withChip_cframe s k c n).trans hframe,
      fun j hj => State.withChip_chip_ne s k c n hj, ?_⟩
    have hcreg : (((s.withChip k c n).setRes (zext16 r)).chip k).creg = c.creg :=
      congrArg Chip.creg (State.withChip_chip s k c n)
    have kept (h : c.creg = (s.chip k).creg) : RegistersKept s ((s.withChip k c n).setRes (zext16 r)) :=
      registersKept_withChip (n := n) h
    obtain ⟨cmd, hrole, he, -⟩ | ⟨a, hrole, -, -, hreply, he, -⟩ | ⟨a, hrole, -, -, he, -⟩ |
      ⟨a, m, hrole, -, he, -⟩ | ⟨hrole, hreply, he, -⟩ | ⟨hrole, he, -⟩ := Chip.exchange_cases hx
    all_goals rw [State.cframe, hrole]
    · have hread (a : Byte) : ((s.withChip k c n).setRes (zext16 r)).creg k a =
          RegFile.read (commandEffect s.cfg k (s.chip k).creg cmd) a := by rw [State.creg, hcreg, he]
      cases cmd
      case reset => exact fun hc => resetToConfig_of_read hc hread
      case rts mask => exact requestedToSend_of_read hread
      all_goals exact kept he
    · exact ⟨hreply, kept he⟩
    · exact oneStored_of_write (hcreg.trans he)
    · exact oneModified_of_write (hcreg.trans he)
    · exact ⟨hreply, kept he⟩
    · exact kept he
  case first =>
    refine ⟨rfl, rfl, rfl, rfl, rfl, fun m => byteRole_toByte s.cfg (.rts m) rfl,
      fun nm => byteRole_toByte s.cfg (.readRx nm) rfl,
      fun abc h => byteRole_toByte s.cfg (.loadTx abc) (encodable_loadTx h), ?_⟩
    rw [byteRole_nil_eq_reserved_iff, ofByte_eq_none_iff]
  case later =>
    exact ⟨rfl, byteRole_after_toByte s.cfg (.rts mask) rfl later o, rfl, rfl, rfl, rfl, rfl, rfl, rfl, rfl, rfl,
      byteRole_after_toByte s.cfg (.readRx nm) rfl later o,
      fun h => byteRole_after_toByte s.cfg (.loadTx abc) (encodable_loadTx h) later o⟩

/-! ## The wire commands as instructions -/

theorem exec_toInstr (cmd : WireCmd) (s : State) : exec cmd.toInstr s = takeCommand cmd s := by cases cmd <;> rfl

/-- A command byte as the first byte of the frame on the selected chip (R160). -/
theorem exec_toInstr_first {s : State} {k : ChipIx} (hk : s.cssel = some k) (hf : s.cframe k = []) (cmd : WireCmd)
    (h : cmd.toInstr.encodable = true) :
    exec cmd.toInstr s = .next
      (s.withChip k ⟨commandEffect s.cfg k (s.chip k).creg cmd, [cmd.toByte]⟩ (s.drawn + 1)) := by
  have hframe : (s.chip k).cframe = [] := hf
  have hrole : byteRole s.cfg (s.chip k).cframe cmd.toByte = .command cmd := by
    rw [hframe]
    exact byteRole_toByte s.cfg cmd h
  simp only [exec_toInstr, takeCommand, hk, State.xfer_eq, Chip.exchange_command hrole, hframe, List.nil_append]

/-- The host word that SEQ takes in its step is removed and performed (R258). -/
theorem step_of_hostWord {s : State} {w : OpWord} {q : List OpWord} {i : Instr} (hready : s.seqReady = true)
    (hmode : s.hostmode = true) (hq : s.hostq = w :: q) (hd : decodeWord w = .ok i) :
    step s = exec i { s.turnTaken with hostq := q } := by
  obtain ⟨hfree, h0, hl⟩ := seqReady_parts hready
  rw [step_of_seqFree hfree]
  simp [seqStep, hostStep, State.turnTaken, h0, hl, hmode, hq, performWord_of_decodeWord hd]

/-- RXFER of a command byte is the command's own exchange, and RES alone is written as well (log entry 7). -/
theorem exec_rxfer_toByte {s : State} {k : ChipIx} (hr : s.rawopen = true) (hk : s.cssel = some k) (cmd : WireCmd) :
    (∀ t, exec cmd.toInstr s = .next t → ∃ r, exec (.rxfer k cmd.toByte) s = .next (t.setRes (zext16 r))) ∧
    (∀ r, exec cmd.toInstr s = .refused r → exec (.rxfer k cmd.toByte) s = .refused r) := by
  have hrx : exec (.rxfer k cmd.toByte) s = _ := whenOpenOn_of_open _ hr hk
  rw [hrx, exec_toInstr, takeCommand, hk]
  dsimp only
  cases s.xfer k cmd.toByte with
  | error e => simp
  | ok x =>
    obtain ⟨reply, t⟩ := x
    exact ⟨fun t' h => ⟨reply, by rw [← Host.Outcome.next.inj h]⟩, by simp⟩

/-- Settles O8: SEQ's step is the RXFER of the word, and that is the command's exchange. -/
theorem stepExecutesTheWireCommand : Obligations.StepExecutesTheWireCommand := by
  intro s k cmd w q hready hmode hq hd hr hk
  rw [step_of_hostWord hready hmode hq hd]
  exact exec_rxfer_toByte (s := { s.turnTaken with hostq := q }) hr hk cmd

/-- Settles O33: at byte 0 each of the six only joins the frame. -/
theorem wireCommandsThatBeginAFrame : Obligations.WireCommandsThatBeginAFrame := by
  refine ⟨fun s cmd h => ?none, fun s k nm abc hk hf i b hib => ?first⟩
  case none => rw [exec_toInstr, takeCommand, h]
  case first =>
    obtain ⟨cmd, rfl, rfl, henc, heff⟩ : ∃ cmd : WireCmd, i = cmd.toInstr ∧ b = cmd.toByte ∧
        cmd.toInstr.encodable = true ∧ ∀ f, commandEffect s.cfg k f cmd = f := by
      obtain h | ⟨habc, rfl, rfl⟩ := hib
      · simp only [List.mem_cons, Prod.mk.injEq, List.not_mem_nil, or_false] at h
        obtain ⟨rfl, rfl⟩ | ⟨rfl, rfl⟩ | ⟨rfl, rfl⟩ | ⟨rfl, rfl⟩ | ⟨rfl, rfl⟩ := h
        · exact ⟨.read, rfl, rfl, rfl, fun _ => rfl⟩
        · exact ⟨.write, rfl, rfl, rfl, fun _ => rfl⟩
        · exact ⟨.bitmod, rfl, rfl, rfl, fun _ => rfl⟩
        · exact ⟨.readStatus, rfl, rfl, rfl, fun _ => rfl⟩
        · exact ⟨.readRx nm, rfl, rfl, rfl, fun _ => rfl⟩
      · exact ⟨.loadTx abc, rfl, rfl, encodable_loadTx habc, fun _ => rfl⟩
    exact ⟨_, exec_toInstr_first hk hf cmd henc, State.withChip_cframe .., registersKept_withChip (heff _),
      fun j hj => State.withChip_chip_ne s k _ _ hj, rfl⟩

/-- Settles O34: at byte 0 reset and request-to-send have their effect, and a selector past 5 is reserved. -/
theorem wireCommandsThatActAtOnce : Obligations.WireCommandsThatActAtOnce := by
  intro s k ttt abc hk hf
  have other (c : Chip) (n : Nat) : ∀ j, j ≠ k → (s.withChip k c n).chip j = s.chip j :=
    fun j hj => State.withChip_chip_ne s k c n hj
  refine ⟨fun hc => ⟨_, exec_toInstr_first hk hf .reset rfl, State.withChip_cframe .., ?reset, other _ _, rfl⟩,
    ⟨_, exec_toInstr_first hk hf (.rts ttt) rfl, State.withChip_cframe .., ?rts, other _ _, rfl⟩,
    fun habc => ?reserved⟩
  case reset => exact resetToConfig_of_read hc fun a => State.withChip_creg ..
  case rts => exact requestedToSend_of_read fun a => State.withChip_creg ..
  case reserved =>
    have hnone : WireCmd.ofByte (WireCmd.loadTx abc).toByte = none := by
      revert abc; decide
    have hrole : byteRole s.cfg (s.chip k).cframe (WireCmd.loadTx abc).toByte = .reserved := by
      rw [show (s.chip k).cframe = [] from hf, byteRole_nil_eq_reserved_iff]
      exact hnone
    refine (exec_toInstr (.loadTx abc) s).trans ?_
    simp only [takeCommand, hk, State.xfer_eq, Chip.exchange_reserved hrole]

end Sys2Proof.Machine
end

section
/-! PROOFS. The framed operations: what each leaves where its frame is accepted, and the frames that are refused
(41_regbus.md R150 to R158, R161 to R168, R170, R173). -/

namespace Sys2Proof.Machine

open Sys2Proof

/-! ## A frame that is accepted and one that is refused -/

section
variable {s : State} {k : ChipIx} {os : List Byte} (g : List Byte → State → State)

theorem sendFrame_of_ok {rs : List Byte} {c : Chip} {n : Nat}
    (h : Chip.exchangeAll s.cfg k s.drawn ⟨(s.chip k).creg, []⟩ os = .ok (rs, c, n)) :
    sendFrame k os s g = .next (g rs (s.afterFrame k c.creg n)) := by
  rw [sendFrame_eq, h]

theorem sendFrame_of_error {r : Refusal}
    (h : Chip.exchangeAll s.cfg k s.drawn ⟨(s.chip k).creg, []⟩ os = .error r) :
    sendFrame k os s g = .refused r := by
  rw [sendFrame_eq, h]
end

/-- A run inside the space that is not accepted has a register that is not implemented. -/
theorem exists_not_implemented {cfg : Config} {k : ChipIx} {a m : Nat} (ha : a + m ≤ 0x100)
    (h : ¬RunOk cfg k a m) : ∃ i < m, cfg.implemented k (BitVec.ofNat 8 (a + i)) = false := by
  by_contra hall
  push Not at hall
  exact h fun i hi => ⟨by omega, by simpa using hall i hi⟩

section
variable {cfg : Config} {k : ChipIx} (n : Nat) (f : RegFile)

theorem exchangeAll_cons_error {n n' : Nat} {c c' : Chip} {o r : Byte} {os : List Byte} {e : Refusal}
    (h : c.exchange cfg k n o = .ok (r, c', n')) (hs : Chip.exchangeAll cfg k n' c' os = .error e) :
    Chip.exchangeAll cfg k n c (o :: os) = .error e := by
  rw [exchangeAll_cons os h, hs]

theorem exchangeAll_readReg_refused {a : Byte} (hi : cfg.implemented k a = false) :
    Chip.exchangeAll cfg k n ⟨f, []⟩ [WireCmd.read.toByte, a, 0x00] = .error .registerNotImplemented :=
  exchangeAll_cons_error (exchange_head n f (cmd := .read) rfl rfl) <|
    exchangeAll_cons_error (Chip.exchange_ignored (c := ⟨f, [0x03]⟩) rfl) <|
      exchangeAll_read_refused (cmd := .read) (fb := 0x03) rfl [0x00] _ a.toNat ⟨f, [0x03, a]⟩ [a] rfl
        (fun _ => rfl) a.isLt ⟨0, Nat.one_pos, by simpa using hi⟩

theorem exchangeAll_bitmod_refused {a : Byte} (m v : Byte) (hi : cfg.implemented k a = false) :
    Chip.exchangeAll cfg k n ⟨f, []⟩ [WireCmd.bitmod.toByte, a, m, v] = .error .registerNotImplemented := by
  refine exchangeAll_cons_error (exchange_head n f (cmd := .bitmod) rfl rfl) <|
    exchangeAll_cons_error (Chip.exchange_ignored (c := ⟨f, [0x05]⟩) rfl) <|
      exchangeAll_cons_error (Chip.exchange_ignored (c := ⟨f, [0x05, a]⟩) rfl) ?_
  rw [Chip.exchangeAll, Chip.exchange_modify_refused rfl hi]

theorem exchangeAll_write_refused (a : Byte) (ds : List Byte) (ha : a.toNat + ds.length ≤ 0x100)
    (h : ¬RunOk cfg k a.toNat ds.length) :
    Chip.exchangeAll cfg k n ⟨f, []⟩ (WireCmd.write.toByte :: a :: ds) = .error .registerNotImplemented :=
  exchangeAll_cons_error (exchange_head n f (cmd := .write) rfl rfl) <|
    exchangeAll_cons_error (Chip.exchange_ignored (c := ⟨f, [0x02]⟩) rfl) <|
      exchangeAll_store_refused (cmd := .write) (fb := 0x02) rfl ds _ a.toNat ⟨f, [0x02, a]⟩ [a] rfl
        (fun _ => rfl) ha (exists_not_implemented ha h)

theorem exchangeAll_loadTx_refused {abc : BitVec 3} (habc : abc.toNat ≤ 5) (ds : List Byte)
    (ha : txStart cfg abc + ds.length ≤ 0x100) (h : ¬RunOk cfg k (txStart cfg abc) ds.length) :
    Chip.exchangeAll cfg k n ⟨f, []⟩ ((WireCmd.loadTx abc).toByte :: ds) = .error .registerNotImplemented :=
  exchangeAll_cons_error (exchange_head n f (encodable_loadTx habc) rfl) <|
    exchangeAll_store_refused (WireCmd.ofByte_toByte _ (encodable_loadTx habc)) ds _ (txStart cfg abc)
      ⟨f, [(WireCmd.loadTx abc).toByte]⟩ [] rfl (fun _ => rfl) ha (exists_not_implemented ha h)

theorem exchangeAll_readRx_refused (nm : BitVec 2) (os : List Byte)
    (ha : (rxStart cfg nm).toNat + os.length ≤ 0x100) (h : ¬RunOk cfg k (rxStart cfg nm).toNat os.length) :
    Chip.exchangeAll cfg k n ⟨f, []⟩ ((WireCmd.readRx nm).toByte :: os) = .error .registerNotImplemented :=
  exchangeAll_cons_error (exchange_head n f (cmd := .readRx nm) rfl rfl) <|
    exchangeAll_read_refused (WireCmd.ofByte_toByte (.readRx nm) rfl) os _ (rxStart cfg nm).toNat
      ⟨f, [(WireCmd.readRx nm).toByte]⟩ [] rfl (fun _ => rfl) ha (exists_not_implemented ha h)
end

/-! ## Operations of one register or of the command byte -/

section
variable {s : State} {k : ChipIx} (hr : s.rawopen = false)
include hr

theorem exec_rreset :
    exec (.rreset k) s = .next (s.afterFrame k (resetImage s.cfg k) (s.drawn + 1)) :=
  (whenClosed_of_closed _ hr).trans (sendFrame_of_ok _ (exchangeAll_reset ..))

theorem exec_rrts (mask : BitVec 3) : exec (.rrts k mask) s =
    .next (s.afterFrame k (commandEffect s.cfg k (s.chip k).creg (.rts mask)) (s.drawn + 1)) :=
  (whenClosed_of_closed _ hr).trans (sendFrame_of_ok _ (exchangeAll_rts ..))

theorem exec_rrdstat : exec (.rrdstat k) s =
    .next ((s.afterFrame k (s.chip k).creg (s.drawn + 2)).setRes (zext16 (statusByte s.cfg (s.chip k).creg))) :=
  (whenClosed_of_closed _ hr).trans (sendFrame_of_ok _ (exchangeAll_status ..))

section
variable {a : Byte} (hi : s.cfg.implemented k a = true)
include hi

theorem exec_rread : exec (.rread k a) s =
    .next ((s.afterFrame k (s.chip k).creg (s.drawn + 3)).setRes (zext16 (s.creg k a))) :=
  (whenClosed_of_closed _ hr).trans (sendFrame_of_ok _ (exchangeAll_readReg _ _ _ hi))

theorem exec_rwrite (v : Byte) : exec (.rwrite k a v) s =
    .next (s.afterFrame k (RegFile.write (s.chip k).creg a
      (storedValue s.cfg k (s.drawn + 3) (s.chip k).creg a v)) (s.drawn + 4)) := by
  have hrun : RunOk s.cfg k a.toNat [v].length := fun i hlt => by
    obtain rfl : i = 0 := Nat.lt_one_iff.mp hlt
    exact ⟨Nat.le_of_lt_succ a.isLt, by simpa using hi⟩
  obtain ⟨rs, -, hx⟩ := exchangeAll_write s.drawn (s.chip k).creg a [v] hrun
  rw [storeData, BitVec.ofNat_toNat, BitVec.setWidth_eq] at hx
  exact (whenClosed_of_closed _ hr).trans (sendFrame_of_ok _ hx)

theorem exec_rbitmod (m v : Byte) : exec (.rbitmod k a m v) s =
    .next (s.afterFrame k (RegFile.write (s.chip k).creg a (storedValue s.cfg k (s.drawn + 4) (s.chip k).creg a
      (modifiedValue s.cfg k (s.drawn + 4) (s.chip k).creg a m v))) (s.drawn + 5)) :=
  (whenClosed_of_closed _ hr).trans (sendFrame_of_ok _ (exchangeAll_bitmod _ _ _ _ _ hi))
end

section
variable {a : Byte} (hi : s.cfg.implemented k a = false)
include hi

theorem exec_rread_refused : exec (.rread k a) s = .refused .registerNotImplemented :=
  (whenClosed_of_closed _ hr).trans (sendFrame_of_error _ (exchangeAll_readReg_refused _ _ hi))

theorem exec_rwrite_refused (v : Byte) : exec (.rwrite k a v) s = .refused .registerNotImplemented := by
  have hrun : ¬RunOk s.cfg k a.toNat [v].length := fun h => by
    have h0 := (RunOk.tail h).1.2
    rw [BitVec.ofNat_toNat, BitVec.setWidth_eq, hi] at h0
    cases h0
  exact (whenClosed_of_closed _ hr).trans (sendFrame_of_error _ (exchangeAll_write_refused _ _ a [v] a.isLt hrun))

theorem exec_rbitmod_refused (m v : Byte) : exec (.rbitmod k a m v) s = .refused .registerNotImplemented :=
  (whenClosed_of_closed _ hr).trans (sendFrame_of_error _ (exchangeAll_bitmod_refused _ _ m v hi))
end
end

/-! ## Operations over a run of registers -/

/-- The bytes of FBUF[0], ..., FBUF[n - 1]. -/
def BufferHolds (s : State) (bs : List Byte) : Prop := ∀ j, (hj : j < bs.length) → fbufRead s.fbuf j = some bs[j]

/-- With the bytes written, a load of FBUF is the frame of those bytes (R154, R158). -/
theorem sendBuffer_of_filled {s : State} {n : Byte} (h : BufferFilled s n.toNat) :
    ∃ bs, bs.length = n.toNat ∧ BufferHolds s bs ∧
      ∀ k head, sendBuffer k head n s = sendFrame k (head ++ bs) s discardReplies := by
  obtain ⟨bs, hb, hl, hread⟩ := fbufBytes_of_filled (f := s.fbuf) n.toNat 0 (by simpa [BufferFilled] using h)
  refine ⟨bs, hl, fun j hj => by simpa using hread j hj, fun k head => ?_⟩
  rw [sendBuffer, hb]

/-- The registers after the stores of a frame that sends FBUF. -/
theorem runStored_of_storeData {s t : State} {k : ChipIx} {a n : Nat} {bs : List Byte} (hb : BufferHolds s bs)
    (ha : a + bs.length ≤ 0x100) (h : (t.chip k).creg = storeData s.cfg k n (s.chip k).creg a bs) :
    RunStored s t k a bs.length := by
  refine ⟨fun i hi b hib hfree => ?_, fun x hx => ?_⟩ <;> rw [State.creg, h]
  · rw [read_storeData bs n a _ ha i hi hfree]
    exact Option.some.inj ((hb i hi).symm.trans hib)
  · exact read_storeData_outside bs x n a _ ha hx

section
variable {s : State} {k : ChipIx} {n : Byte} (hr : s.rawopen = false) (h1 : 1 ≤ n.toNat) (h16 : n.toNat ≤ 16)
include hr h1 h16

theorem exec_rrdrx {nm : BitVec 2} (ha : (rxStart s.cfg nm).toNat + n.toNat - 1 ≤ 0xFF)
    (hrun : RunOk s.cfg k (rxStart s.cfg nm).toNat n.toNat) :
    exec (.rrdrx k nm n) s = .next { s.afterFrame k (s.chip k).creg (s.drawn + 1 + n.toNat) with
      fbuf := fbufStore s.fbuf 0 (readData (s.chip k).creg (rxStart s.cfg nm).toNat n.toNat) } := by
  have hlen : (List.replicate n.toNat (0x00 : Byte)).length = n.toNat := List.length_replicate
  have hx := exchangeAll_readRx s.drawn (s.chip k).creg nm (List.replicate n.toNat 0x00) (hlen.symm ▸ hrun)
  rw [hlen] at hx
  exact (rangeChecks_passed _ hr h1 h16 ha).trans (sendFrame_of_ok _ hx)

theorem exec_rrdrx_refused {nm : BitVec 2} (ha : (rxStart s.cfg nm).toNat + n.toNat - 1 ≤ 0xFF)
    (hrun : ¬RunOk s.cfg k (rxStart s.cfg nm).toNat n.toNat) :
    exec (.rrdrx k nm n) s = .refused .registerNotImplemented := by
  have hlen : (List.replicate n.toNat (0x00 : Byte)).length = n.toNat := List.length_replicate
  exact (rangeChecks_passed _ hr h1 h16 ha).trans (sendFrame_of_error _
    (exchangeAll_readRx_refused _ _ nm _ (by omega) (hlen.symm ▸ hrun)))

variable (hb : BufferFilled s n.toNat)
include hb

theorem exec_rwrseq {a : Byte} (ha : a.toNat + n.toNat - 1 ≤ 0xFF) (hrun : RunOk s.cfg k a.toNat n.toNat) :
    ∃ bs n', bs.length = n.toNat ∧ BufferHolds s bs ∧ exec (.rwrseq k a n) s =
      .next (s.afterFrame k (storeData s.cfg k (s.drawn + 2) (s.chip k).creg a.toNat bs) n') := by
  obtain ⟨bs, hl, hbs, hsend⟩ := sendBuffer_of_filled hb
  obtain ⟨rs, -, hx⟩ := exchangeAll_write s.drawn (s.chip k).creg a bs (hl.symm ▸ hrun)
  exact ⟨bs, _, hl, hbs, (rangeChecks_passed _ hr h1 h16 ha).trans ((hsend ..).trans (sendFrame_of_ok _ hx))⟩

theorem exec_rwrseq_refused {a : Byte} (ha : a.toNat + n.toNat - 1 ≤ 0xFF)
    (hrun : ¬RunOk s.cfg k a.toNat n.toNat) : exec (.rwrseq k a n) s = .refused .registerNotImplemented := by
  obtain ⟨bs, hl, -, hsend⟩ := sendBuffer_of_filled hb
  exact (rangeChecks_passed _ hr h1 h16 ha).trans ((hsend ..).trans (sendFrame_of_error _
    (exchangeAll_write_refused _ _ a bs (by omega) (hl.symm ▸ hrun))))

variable {abc : BitVec 3} (habc : abc.toNat ≤ 5) (ha : txStart s.cfg abc + n.toNat - 1 ≤ 0xFF)
include habc ha

theorem exec_rldtx (hrun : RunOk s.cfg k (txStart s.cfg abc) n.toNat) :
    ∃ bs n', bs.length = n.toNat ∧ BufferHolds s bs ∧ exec (.rldtx k abc n) s =
      .next (s.afterFrame k (storeData s.cfg k (s.drawn + 1) (s.chip k).creg (txStart s.cfg abc) bs) n') := by
  obtain ⟨bs, hl, hbs, hsend⟩ := sendBuffer_of_filled hb
  obtain ⟨rs, -, hx⟩ := exchangeAll_loadTx s.drawn (s.chip k).creg abc (encodable_loadTx habc) bs
    (hl.symm ▸ hrun)
  rw [exec_rldtx_of_selector habc]
  exact ⟨bs, _, hl, hbs, (rangeChecks_passed _ hr h1 h16 ha).trans ((hsend ..).trans (sendFrame_of_ok _ hx))⟩

theorem exec_rldtx_refused (hrun : ¬RunOk s.cfg k (txStart s.cfg abc) n.toNat) :
    exec (.rldtx k abc n) s = .refused .registerNotImplemented := by
  obtain ⟨bs, hl, -, hsend⟩ := sendBuffer_of_filled hb
  rw [exec_rldtx_of_selector habc]
  exact (rangeChecks_passed _ hr h1 h16 ha).trans ((hsend ..).trans (sendFrame_of_error _
    (exchangeAll_loadTx_refused _ _ habc bs (by omega) (hl.symm ▸ hrun))))
end

/-! ## What each operation leaves -/

/-- Settles O20: RREAD's frame leaves the registers, and its third reply is the register. -/
theorem rreadReadsTheRegister : Obligations.RreadReadsTheRegister := by
  intro s k a hr hi
  exact ⟨_, exec_rread hr hi, rfl, registersKept_afterFrame s k (s.drawn + 3),
    otherChipKept_afterFrame s k _ (s.drawn + 3), rfl⟩

/-- Settles O21: each frame writes the one register. -/
theorem oneRegisterIsWritten : Obligations.OneRegisterIsWritten := by
  intro s k a m v hr hi
  have creg (f : RegFile) (n : Nat) : ((s.afterFrame k f n).chip k).creg = f :=
    congrArg Chip.creg (State.afterFrame_chip s k f n)
  exact ⟨⟨_, exec_rwrite hr hi v, oneStored_of_write (creg ..), otherChipKept_afterFrame s k _ _,
      busOnly_afterFrame s k _ _⟩,
    ⟨_, exec_rbitmod hr hi m v, oneModified_of_write (creg ..), otherChipKept_afterFrame s k _ _,
      busOnly_afterFrame s k _ _⟩⟩

/-- Settles O22: the frame of the bytes of FBUF stores them in order. -/
theorem rwrseqStoresTheRun : Obligations.RwrseqStoresTheRun := by
  intro s k a n hr h1 h16 ha hb hrun
  obtain ⟨bs, n', hl, hbs, hexec⟩ := exec_rwrseq hr h1 h16 hb ha hrun
  refine ⟨_, hexec, ?_, otherChipKept_afterFrame s k _ _, busOnly_afterFrame s k _ _⟩
  rw [← hl]
  exact runStored_of_storeData hbs (by omega) (congrArg Chip.creg (State.afterFrame_chip ..))

/-- Settles O26: TXSTART by its definition, and the frame of the bytes of FBUF stores them in order. -/
theorem rldtxLoadsTheBuffer : Obligations.RldtxLoadsTheBuffer := by
  refine ⟨fun cfg j => ?start, fun s k abc n habc hr h1 h16 ha hb hrun => ?load⟩
  case start =>
    constructor <;> fin_cases j <;> rfl
  case load =>
    obtain ⟨bs, n', hl, hbs, hexec⟩ := exec_rldtx hr h1 h16 hb habc ha hrun
    refine ⟨_, hexec, ?_, otherChipKept_afterFrame s k _ _, busOnly_afterFrame s k _ _⟩
    rw [← hl]
    exact runStored_of_storeData hbs (by omega) (congrArg Chip.creg (State.afterFrame_chip ..))

theorem anyBit_eq_true_iff (v mask : Byte) : anyBit v mask = true ↔ v &&& mask ≠ 0 := by simp [anyBit]

/-- The bits of the status byte (42_driver.md R191). -/
theorem statusByte_bits (cfg : Config) (f : RegFile) :
    (statusByte cfg f).getLsbD 0 = anyBit (RegFile.read f cfg.map.canintf) cfg.map.rx0ifBit ∧
    (statusByte cfg f).getLsbD 1 = anyBit (RegFile.read f cfg.map.canintf) cfg.map.rx1ifBit ∧
    ∀ j : Fin 3,
      (statusByte cfg f).getLsbD (2 + 2 * j.val) = anyBit (RegFile.read f (txbctrl cfg j)) cfg.map.txreqBit ∧
      (statusByte cfg f).getLsbD (3 + 2 * j.val) = (RegFile.read f cfg.map.canintf).getLsbD (2 + j.val) := by
  simp only [statusByte, BitVec.getLsbD_append, BitVec.getLsbD_ofBool]
  refine ⟨by simp, by simp, fun j => ?_⟩
  fin_cases j <;> simp

/-- Settles O23: RRDSTAT's second reply is the status byte. -/
theorem rrdstatReadsTheStatus : Obligations.RrdstatReadsTheStatus := by
  intro s k hr
  obtain ⟨rx0, rx1, tx⟩ := statusByte_bits s.cfg (s.chip k).creg
  refine ⟨_, _, exec_rrdstat hr, rfl, ?_, ?_, fun j => ⟨?_, (tx j).2⟩,
    registersKept_afterFrame s k (s.drawn + 2), otherChipKept_afterFrame s k _ (s.drawn + 2), rfl⟩
  · rw [rx0]; exact anyBit_eq_true_iff ..
  · rw [rx1]; exact anyBit_eq_true_iff ..
  · rw [(tx j).1]; exact anyBit_eq_true_iff ..

/-- Settles O24: the command byte acts by itself, and the reset image depends on the parameters alone. -/
theorem commandByteFrames : Obligations.CommandByteFrames := by
  intro s k mask hr
  refine ⟨⟨_, exec_rrts hr mask, ?rts, otherChipKept_afterFrame s k _ _, busOnly_afterFrame s k _ _⟩,
    fun hc => ⟨_, exec_rreset hr, ?reset, otherChipKept_afterFrame s k _ _, busOnly_afterFrame s k _ _⟩,
    fun s' t t' hcfg hr' h h' a => ?resets⟩
  case rts => exact requestedToSend_of_read fun a => State.afterFrame_creg ..
  case reset => exact resetToConfig_of_read hc fun a => State.afterFrame_creg ..
  case resets =>
    obtain rfl := Host.Outcome.next.inj ((exec_rreset hr).symm.trans h)
    obtain rfl := Host.Outcome.next.inj ((exec_rreset hr').symm.trans h')
    rw [State.afterFrame_creg, State.afterFrame_creg, hcfg]

/-- Settles O25: the replies after the command byte's are the registers from RXSTART(nm) on. -/
theorem rrdrxFillsTheBuffer : Obligations.RrdrxFillsTheBuffer := by
  intro s k nm n hr h1 h16 ha hrun
  have hread (i : Nat) := fbufRead_fbufStore
    (readData (s.chip k).creg (rxStart s.cfg nm).toNat n.toNat) s.fbuf 0 i (by simpa using h16)
  simp only [readData_length, Nat.zero_add, Nat.zero_le, true_and, Nat.sub_zero] at hread
  refine ⟨_, exec_rrdrx hr h1 h16 ha hrun, fun i hi => ?inside, fun i hi => ?outside,
    registersKept_afterFrame s k (s.drawn + 1 + n.toNat),
    otherChipKept_afterFrame s k _ (s.drawn + 1 + n.toNat), rfl⟩
  case inside => exact (hread i).trans ((if_pos hi).trans (readData_getElem? _ _ _ _ hi))
  case outside => exact (hread i).trans (if_neg (by omega))

/-! ## Refused frames -/

theorem not_refused_of_next {out : Out} {t : State} (h : out = .next t) (r : Refusal) : out ≠ .refused r := by
  simp [h]

theorem whenClosed_refused {s : State} {out : Out} {r : Refusal} (h : whenClosed s out = .refused r) :
    s.rawopen = false := by
  cases hr : s.rawopen with
  | false => rfl
  | true => rw [whenClosed_of_open _ hr] at h; cases h

/-- Only checks that are all passed lead to a refusal: one that fails raises its fault. -/
theorem rangeChecks_refused {s : State} {a : Nat} {n : Byte} {out : Out} {r : Refusal}
    (h : whenClosed s (whenCount n s (whenInSpace a n s out)) = .refused r) :
    s.rawopen = false ∧ 1 ≤ n.toNat ∧ n.toNat ≤ 16 ∧ a + n.toNat - 1 ≤ 0xFF ∧ out = .refused r := by
  have hr := whenClosed_refused h
  obtain ⟨count, space⟩ := rangeChecks hr a n out
  have hn : 1 ≤ n.toNat ∧ n.toNat ≤ 16 := by
    by_contra hn
    rw [count (by omega)] at h
    cases h
  have ha : a + n.toNat - 1 ≤ 0xFF := by
    by_contra ha
    rw [space hn.1 hn.2 (by omega)] at h
    cases h
  exact ⟨hr, hn.1, hn.2, ha, (rangeChecks_passed out hr hn.1 hn.2 ha).symm.trans h⟩

theorem sendBuffer_refused {s : State} {k : ChipIx} {head : List Byte} {n : Byte} {r : Refusal}
    (h : sendBuffer k head n s = .refused r) : BufferFilled s n.toNat := by
  by_contra hb
  rw [sendBuffer_of_unwritten hb] at h
  cases h

/-- An outcome that either completes or is refused for a register gives no other refusal. -/
theorem refusal_of_dichotomy {p : Prop} {out : Out} {r : Refusal} (hp : p → ∃ t, out = .next t)
    (hn : ¬p → out = .refused .registerNotImplemented) (h : out = .refused r) : r = .registerNotImplemented := by
  by_cases hh : p
  · obtain ⟨t, ht⟩ := hp hh
    exact absurd h (not_refused_of_next ht r)
  · exact Host.Outcome.refused.inj (h.symm.trans (hn hh))

/-- A framed operation is refused for a register that is not implemented and for nothing else. -/
theorem exec_framed_refused {i : Instr} {s : State} {r : Refusal} (hi : isFramed i = true)
    (h : exec i s = .refused r) : r = .registerNotImplemented := by
  cases i
  case rreset k => exact absurd h (not_refused_of_next (exec_rreset (whenClosed_refused h)) r)
  case rrts k mask => exact absurd h (not_refused_of_next (exec_rrts (whenClosed_refused h) mask) r)
  case rrdstat k => exact absurd h (not_refused_of_next (exec_rrdstat (whenClosed_refused h)) r)
  case rread k a =>
    have hr := whenClosed_refused h
    exact refusal_of_dichotomy (fun hi => ⟨_, exec_rread hr hi⟩)
      (fun hi => exec_rread_refused hr (Bool.eq_false_iff.mpr hi)) h
  case rwrite k a v =>
    have hr := whenClosed_refused h
    exact refusal_of_dichotomy (fun hi => ⟨_, exec_rwrite hr hi v⟩)
      (fun hi => exec_rwrite_refused hr (Bool.eq_false_iff.mpr hi) v) h
  case rbitmod k a m v =>
    have hr := whenClosed_refused h
    exact refusal_of_dichotomy (fun hi => ⟨_, exec_rbitmod hr hi m v⟩)
      (fun hi => exec_rbitmod_refused hr (Bool.eq_false_iff.mpr hi) m v) h
  case rwrseq k a n =>
    obtain ⟨hr, h1, h16, ha, hs⟩ := rangeChecks_refused h
    have hb := sendBuffer_refused hs
    refine refusal_of_dichotomy (fun hrun => ?_) (exec_rwrseq_refused hr h1 h16 hb ha) h
    obtain ⟨_, _, -, -, hexec⟩ := exec_rwrseq hr h1 h16 hb ha hrun
    exact ⟨_, hexec⟩
  case rrdrx k nm n =>
    obtain ⟨hr, h1, h16, ha, -⟩ := rangeChecks_refused h
    exact refusal_of_dichotomy (fun hrun => ⟨_, exec_rrdrx hr h1 h16 ha hrun⟩)
      (exec_rrdrx_refused hr h1 h16 ha) h
  case rldtx k abc n =>
    have habc : abc.toNat ≤ 5 := by
      by_contra habc
      exact not_refused_of_next (exec_rldtx_selector k n s (Nat.lt_of_not_le habc)) r h
    obtain ⟨hr, h1, h16, ha, hs⟩ := rangeChecks_refused ((exec_rldtx_of_selector habc k n s).symm.trans h)
    have hb := sendBuffer_refused hs
    refine refusal_of_dichotomy (fun hrun => ?_) (exec_rldtx_refused hr h1 h16 hb habc ha) h
    obtain ⟨_, _, -, -, hexec⟩ := exec_rldtx hr h1 h16 hb habc ha hrun
    exact ⟨_, hexec⟩
  all_goals cases hi

/-- Settles O19: the refused bytes of a raw frame, and the frames of the operations, whose runs end inside the
space. -/
theorem refusedFrames : Obligations.RefusedFrames := by
  intro s k
  refine ⟨fun hr hk => ?raw, fun hr a hi => ?one, fun hr n h1 h16 => ?run, fun i hi => ?reasons⟩
  case raw =>
    have refused {o : Byte} {r : Refusal} := exec_rxfer_of_refused (o := o) (r := r) hr hk
    refine ⟨fun o hf ho => refused (Chip.exchange_reserved ?_),
      fun o a hrole => ⟨fun ha => refused (Chip.exchange_pastEnd ha hrole),
        fun ha hi => refused (Chip.exchange_unimplemented ha hi hrole)⟩,
      fun o a m hrole hi => refused (Chip.exchange_modify_refused hrole hi)⟩
    rw [show (s.chip k).cframe = [] from hf, byteRole_nil_eq_reserved_iff]
    exact ho
  case one => exact ⟨exec_rread_refused hr hi, exec_rwrite_refused hr hi, exec_rbitmod_refused hr hi⟩
  case run =>
    exact ⟨fun a ha hb => exec_rwrseq_refused hr h1 h16 hb ha, fun nm ha => exec_rrdrx_refused hr h1 h16 ha,
      fun abc habc ha hb => exec_rldtx_refused hr h1 h16 hb habc ha⟩
  case reasons =>
    constructor <;> intro h <;> cases exec_framed_refused hi h

/-! ## A register read back -/

/-- The chips' own steps keep the parameters, the bracket and every register outside CHIP_VOLATILE (R169). -/
theorem State.chipSteps_keep (l : List (ChipIx × List (Byte × Byte))) (s : State) :
    (s.chipSteps l).cfg = s.cfg ∧ (s.chipSteps l).rawopen = s.rawopen ∧
      ∀ k a, s.cfg.isVolatile k a = false → (s.chipSteps l).creg k a = s.creg k a := by
  induction l generalizing s with
  | nil => exact ⟨rfl, rfl, fun _ _ _ => rfl⟩
  | cons step rest ih =>
    obtain ⟨j, sets⟩ := step
    obtain ⟨hcfg, hraw, hcreg⟩ := ih (s.chipStep j sets)
    obtain ⟨u, rfl, -, -, hkept, -⟩ := envStep_keeps s (.chip j sets) (by simp)
    exact ⟨hcfg, hraw, fun k a ha => (hcreg k a ha).trans (hkept k a ha)⟩

/-- RREAD after chip steps finds a register outside CHIP_VOLATILE as a frame left it. -/
theorem exec_rread_chipSteps {s : State} {k : ChipIx} {a : Byte} (f : RegFile) (n : Nat)
    (between : List (ChipIx × List (Byte × Byte))) (hr : s.rawopen = false)
    (hi : s.cfg.implemented k a = true) (hv : s.cfg.isVolatile k a = false) :
    ∃ u, exec (.rread k a) ((s.afterFrame k f n).chipSteps between) = .next u ∧
      u.res = some (zext16 (RegFile.read f a)) := by
  obtain ⟨hcfg, hraw, hcreg⟩ := State.chipSteps_keep between (s.afterFrame k f n)
  refine ⟨_, exec_rread (hraw.trans hr) (by rw [hcfg]; exact hi), ?_⟩
  rw [State.setRes_res, hcreg k a hv, State.afterFrame_creg]

/-- Settles O29: the register's value after the frame, which chip steps keep, is what RREAD finds. -/
theorem roundTripAndBitModify : Obligations.RoundTripAndBitModify := by
  intro s k a m v between hr hi hv hw
  refine ⟨?_, fun hm => ?_⟩
  · obtain ⟨u, hu, hres⟩ := exec_rread_chipSteps _ _ between hr hi hv
    refine ⟨_, u, exec_rwrite hr hi v, hu, ?_⟩
    rw [hres, RegFile.read_write, storedValue_of_writable hw]
  · obtain ⟨u, hu, hres⟩ := exec_rread_chipSteps _ _ between hr hi hv
    refine ⟨_, u, (s.creg k a &&& ~~~m) ||| (v &&& m), exec_rbitmod hr hi m v, hu, ?_, fun b hb => ?_⟩
    · rw [hres, RegFile.read_write, storedValue_of_writable hw, modifiedValue, if_pos hm]
      rfl
    · simp only [BitVec.getLsbD_or, BitVec.getLsbD_and, BitVec.getLsbD_not, hb, decide_true, Bool.true_and]
      cases m.getLsbD b <;> simp

end Sys2Proof.Machine
end

section
/-! PROOFS. The raw form of a framed operation has the frame's effects and replies (41_regbus.md R145, R147 to R149,
R159). -/

namespace Sys2Proof.Machine

open Sys2Proof

/-! ## A framed operation is its frame, or raises a fault -/

/-- What a framed operation does with the bytes received (R145, R151, R155, R157). -/
def replyPart : Instr → List Byte → State → State
  | .rread _ _ => resOfReply 2
  | .rrdstat _ => resOfReply 1
  | .rrdrx _ _ _ => fbufOfReplies
  | _ => discardReplies

/-- The operation's outcome is this one, unless a check of it fails. -/
def OrFault (s : State) (out out' : Out) : Prop := out = out' ∨ ∃ c, out = .next (s.raise c)

theorem OrFault.guard {s : State} {out out' : Out} (h : OrFault s out out') (p : Prop) [Decidable p] (c : FaultCode) :
    OrFault s (if p then out else raiseFault c s) out' := by
  split
  · exact h
  · exact .inr ⟨c, rfl⟩

theorem OrFault.rangeChecks {s : State} (hr : s.rawopen = false) {a : Nat} {n : Byte} {out out' : Out}
    (h : OrFault s out out') : OrFault s (whenClosed s (whenCount n s (whenInSpace a n s out))) out' := by
  rw [whenClosed_of_closed _ hr]
  exact (h.guard _ _).guard _ _

/-- With no bracket open a framed operation that has a frame sends it, unless a check fails (R145, R146). -/
theorem exec_of_frameOf {s : State} {i : Instr} {k : ChipIx} {os : List Byte} (hr : s.rawopen = false)
    (h : frameOf s i = some (k, os)) : OrFault s (exec i s) (sendFrame k os s (replyPart i)) := by
  have sent {j : ChipIx} {head : List Byte} {n : Byte}
      (h : (fbufBytes s.fbuf 0 n.toNat).map (fun ds => (j, head ++ ds)) = some (k, os)) :
      OrFault s (sendBuffer j head n s) (sendFrame k os s discardReplies) := by
    obtain ⟨bs, hb, he⟩ := Option.map_eq_some_iff.mp h
    cases he
    rw [sendBuffer, hb]
    exact .inl rfl
  cases i
  case rreset | rread | rwrite | rbitmod | rrdstat | rrts =>
    all_goals
      cases h
      exact .inl (whenClosed_of_closed _ hr)
  case rrdrx => cases h; exact .rangeChecks hr (.inl rfl)
  case rwrseq => exact .rangeChecks hr (sent h)
  case rldtx _ abc _ => exact (OrFault.rangeChecks hr (sent (head := [(WireCmd.loadTx abc).toByte]) h)).guard _ _
  all_goals cases h

/-- A frame has a byte. -/
theorem ne_nil_of_frameOf {s : State} {i : Instr} {k : ChipIx} {os : List Byte}
    (h : frameOf s i = some (k, os)) : os ≠ [] := by
  cases i
  case rwrseq | rldtx =>
    all_goals
      obtain ⟨bs, -, he⟩ := Option.map_eq_some_iff.mp h
      cases he
      exact List.cons_ne_nil _ _
  case rreset | rread | rwrite | rbitmod | rrdstat | rrts | rrdrx =>
    all_goals
      cases h
      exact List.cons_ne_nil _ _
  all_goals cases h

/-- What the operation does with the replies leaves the chips. -/
theorem replyPart_chips (i : Instr) (rs : List Byte) (s : State) : (replyPart i rs s).chips = s.chips := by
  cases i <;> rfl

/-! ## Instructions one after another -/

theorem execAll_append_of_next {is : List Instr} {s t : State} (js : List Instr) (h : execAll is s = .next t) :
    execAll (is ++ js) s = execAll js t := by
  induction is generalizing s with
  | nil => cases h; rfl
  | cons i is ih =>
    simp only [execAll, List.cons_append] at h ⊢
    split at h
    · exact ih h
    · cases h
    · cases h

theorem execAll_append_of_refused {is : List Instr} {s : State} {r : Refusal} (js : List Instr)
    (h : execAll is s = .refused r) : execAll (is ++ js) s = .refused r := by
  induction is generalizing s with
  | nil => cases h
  | cons i is ih =>
    simp only [execAll, List.cons_append] at h ⊢
    split at h
    · exact ih h
    · cases h
    · exact h

theorem execAll_cons_of_next {i : Instr} {s t : State} (is : List Instr) (h : exec i s = .next t) :
    execAll (i :: is) s = execAll is t := by
  rw [execAll, h]

/-! ## The exchanges of a raw frame -/

section
variable {cfg : Config} {k : ChipIx} {n n' : Nat} {c c' : Chip} {os rs : List Byte}

/-- The exchange of a first byte and then those of the rest. -/
theorem exchangeAll_cons_ok {o : Byte} (h : Chip.exchangeAll cfg k n c (o :: os) = .ok (rs, c', n')) :
    ∃ reply c₁ n₁ replies, c.exchange cfg k n o = .ok (reply, c₁, n₁) ∧
      Chip.exchangeAll cfg k n₁ c₁ os = .ok (replies, c', n') ∧ rs = reply :: replies := by
  simp only [Chip.exchangeAll] at h
  split at h
  · cases h
  · next hx =>
    split at h
    · cases h
    · next hxs =>
      cases h
      exact ⟨_, _, _, _, hx, hxs, rfl⟩

/-- The bytes received over a part of a frame are the first of those over the whole. -/
theorem exchangeAll_take (m : Nat) (h : Chip.exchangeAll cfg k n c os = .ok (rs, c', n')) :
    ∃ c'' n'', Chip.exchangeAll cfg k n c (os.take m) = .ok (rs.take m, c'', n'') := by
  induction os generalizing n c rs m with
  | nil => cases h; exact ⟨c', n', by simp [Chip.exchangeAll]⟩
  | cons o os ih =>
    cases m with
    | zero => exact ⟨c, n, rfl⟩
    | succ m =>
      obtain ⟨reply, c₁, n₁, replies, hx, hxs, rfl⟩ := exchangeAll_cons_ok h
      obtain ⟨c'', n'', ht⟩ := ih m hxs
      exact ⟨c'', n'', by rw [List.take_succ_cons, exchangeAll_cons _ hx, ht, List.take_succ_cons]⟩

theorem exchangeAll_length (h : Chip.exchangeAll cfg k n c os = .ok (rs, c', n')) : rs.length = os.length := by
  induction os generalizing n c rs with
  | nil => cases h; rfl
  | cons o os ih =>
    obtain ⟨_, _, _, replies, -, hxs, rfl⟩ := exchangeAll_cons_ok h
    simp [ih hxs]
end

section
variable {k : ChipIx}

/-- RXFERs of the bytes that the chip accepts: the exchanges of the frame, with the last reply left in RES. -/
theorem execAll_rxfer_of_ok {os : List Byte} {s : State} (hr : s.rawopen = true) (hk : s.cssel = some k)
    {rs : List Byte} {c : Chip} {n : Nat} (h : Chip.exchangeAll s.cfg k s.drawn (s.chip k) os = .ok (rs, c, n)) :
    execAll (os.map (.rxfer k)) s = .next
      { s.withChip k c n with res := (rs.getLast?.map zext16).or s.res } := by
  induction os generalizing s rs with
  | nil =>
    cases h
    exact congrArg Host.Outcome.next (State.withChip_self s k).symm
  | cons o os ih =>
    obtain ⟨reply, c₁, n₁, replies, hx, hxs, rfl⟩ := exchangeAll_cons_ok h
    rw [List.map_cons, execAll_cons_of_next _ (exec_rxfer_of_exchange hr hk hx)]
    have hchip : ((s.withChip k c₁ n₁).setRes (zext16 reply)).chip k = c₁ := State.withChip_chip s k c₁ n₁
    rw [ih (s := (s.withChip k c₁ n₁).setRes (zext16 reply)) hr hk (by rw [hchip]; exact hxs)]
    simp [State.withChip, State.setChip, State.setRes, List.getLast?_cons]

/-- RXFERs of bytes of which the chip refuses one: the frame's refusal. -/
theorem execAll_rxfer_of_error {os : List Byte} {s : State} (hr : s.rawopen = true) (hk : s.cssel = some k)
    {r : Refusal} (h : Chip.exchangeAll s.cfg k s.drawn (s.chip k) os = .error r) :
    execAll (os.map (.rxfer k)) s = .refused r := by
  induction os generalizing s with
  | nil => cases h
  | cons o os ih =>
    simp only [Chip.exchangeAll] at h
    split at h
    · next e hx =>
      cases h
      rw [List.map_cons, execAll, exec_rxfer_of_refused hr hk hx]
    · next reply c1 n1 hx =>
      split at h
      · next e hxs =>
        cases h
        rw [List.map_cons, execAll_cons_of_next _ (exec_rxfer_of_exchange hr hk hx)]
        have hchip : ((s.withChip k c1 n1).setRes (zext16 reply)).chip k = c1 := State.withChip_chip s k c1 n1
        exact ih hr hk (by rw [hchip]; exact hxs)
      · cases h
end

/-! ## The raw form -/

/-- The state with a raw bracket open on chip k and no byte exchanged: what RSEL leaves (R147). -/
def State.bracket (s : State) (k : ChipIx) : State := { s.select k with rawopen := true }

section
variable {s : State} {k : ChipIx}

/-- The chip finds in the raw bracket what it finds in the frame: its registers, and no byte received. -/
theorem exchangeAll_bracket (os : List Byte) :
    Chip.exchangeAll (s.bracket k).cfg k (s.bracket k).drawn ((s.bracket k).chip k) os =
      Chip.exchangeAll s.cfg k s.drawn ⟨(s.chip k).creg, []⟩ os :=
  congrArg (Chip.exchangeAll s.cfg k s.drawn · os) (State.chip_setChip s k _)

variable (hr : s.rawopen = false)
include hr

theorem execAll_rsel_cons (is : List Instr) : execAll (.rsel k :: is) s = execAll is (s.bracket k) :=
  execAll_cons_of_next is (exec_rsel hr)

theorem execAll_rawForm_of_error {os : List Byte} {r : Refusal}
    (h : Chip.exchangeAll s.cfg k s.drawn ⟨(s.chip k).creg, []⟩ os = .error r) :
    execAll (rawForm k os) s = .refused r := by
  rw [rawForm, execAll_rsel_cons hr]
  exact execAll_append_of_refused _ (execAll_rxfer_of_error rfl rfl ((exchangeAll_bracket os).trans h))

variable {os rs : List Byte} {c : Chip} {n : Nat}
  (h : Chip.exchangeAll s.cfg k s.drawn ⟨(s.chip k).creg, []⟩ os = .ok (rs, c, n))
include h

/-- The select and the bytes: the frame's exchanges, with the last reply in RES. -/
theorem execAll_rawBytes : execAll (.rsel k :: os.map (.rxfer k)) s = .next
    { (s.bracket k).withChip k c n with res := (rs.getLast?.map zext16).or s.res } := by
  rw [execAll_rsel_cons hr]
  exact execAll_rxfer_of_ok rfl rfl ((exchangeAll_bracket os).trans h)

/-- The whole raw form: the frame's own end of the chip and the bus, with the last reply in RES. -/
theorem execAll_rawForm_of_ok : execAll (rawForm k os) s = .next
    { s.afterFrame k c.creg n with res := (rs.getLast?.map zext16).or s.res } := by
  rw [rawForm, ← List.cons_append, execAll_append_of_next _ (execAll_rawBytes hr h)]
  rw [execAll_cons_of_next [] (exec_rdesel rfl rfl), execAll]
  simp [State.bracket, State.afterFrame, State.withChip, State.deselect, State.clearFrame, State.select,
    State.setChip, State.chip, hr]

/-- RES after the RXFER of the m-th byte is the reply to it (R149, R159). -/
theorem res_of_rawBytes {m : Nat} (hm : m < os.length) :
    ∃ v, execAll ((rawForm k os).take (m + 2)) s = .next v ∧ v.res = some (zext16 (rs.getD m 0)) := by
  obtain ⟨c', n', ht⟩ := exchangeAll_take (m + 1) h
  have htake : (rawForm k os).take (m + 2) = .rsel k :: (os.take (m + 1)).map (.rxfer k) := by
    rw [rawForm, List.take_succ_cons, List.take_append_of_le_length (by simpa using hm), List.map_take]
  refine ⟨_, by rw [htake]; exact execAll_rawBytes hr ht, ?_⟩
  have hlt : m < rs.length := (exchangeAll_length h).symm ▸ hm
  have hlast : (rs.take (m + 1)).getLast? = some (rs.getD m 0) := by
    simp [List.getLast?_take, hlt]
  rw [hlast]
  rfl
end

/-! ## The operation's own result -/

/-- RRDRX completes without a fault only with a count that FBUF holds. -/
theorem count_le_of_rrdrx {s t : State} {k : ChipIx} {nm : BitVec 2} {n : Byte}
    (h : exec (.rrdrx k nm n) s = .next t) (ht : t.fault = 0) : n.toNat ≤ 16 := by
  obtain ⟨-, rfl⟩ | ⟨-, h⟩ := whenClosed_next h
  · exact absurd ht (raise_fault_ne _ _)
  obtain rfl | ⟨hn, -⟩ := whenCount_next h
  · exact absurd ht (raise_fault_ne _ _)
  simp only [countOk, Bool.and_eq_true, decide_eq_true_eq] at hn
  exact hn.2

/-- FBUF[m] is the reply after the command byte's, in order (R157). -/
theorem fbufRead_fbufOfReplies {rs : List Byte} {n m : Nat} (hn : n ≤ 16) (hlen : rs.length = n + 1) (hm : m < n)
    (s : State) : fbufRead (fbufOfReplies rs s).fbuf m = some (rs.getD (m + 1) 0) := by
  have hd : (rs.drop 1).length = n := by rw [List.length_drop, hlen]; rfl
  have hread := fbufRead_fbufStore (rs.drop 1) s.fbuf 0 m (by omega)
  rw [if_pos (by omega)] at hread
  refine hread.trans ?_
  have hlt : m + 1 < rs.length := by omega
  simp [hlt]

/-- Settles O28: the raw form makes the exchanges of the operation's frame, one by one. -/
theorem rawFormEqualsFramedForm : Obligations.RawFormEqualsFramedForm := by
  intro s i k os hr _ hf
  obtain hsend | ⟨f, hfault⟩ := exec_of_frameOf hr hf
  case inr =>
    refine ⟨fun r h => absurd h (not_refused_of_next hfault r), fun t h ht => ?_⟩
    obtain rfl := Host.Outcome.next.inj (hfault.symm.trans h)
    exact absurd ht (raise_fault_ne s f)
  cases hx : Chip.exchangeAll s.cfg k s.drawn ⟨(s.chip k).creg, []⟩ os with
  | error e =>
    have hexec : exec i s = .refused e := hsend.trans (sendFrame_of_error _ hx)
    refine ⟨fun r h => ?_, fun t h => absurd hexec (not_refused_of_next h e)⟩
    obtain rfl := Host.Outcome.refused.inj (hexec.symm.trans h)
    exact execAll_rawForm_of_error hr hx
  | ok x =>
    obtain ⟨rs, c, n⟩ := x
    have hexec := hsend.trans (sendFrame_of_ok _ hx)
    have hlen := exchangeAll_length hx
    have hne : rs ≠ [] := by
      rintro rfl
      exact ne_nil_of_frameOf hf (List.eq_nil_of_length_eq_zero hlen.symm)
    refine ⟨fun r h => absurd h (not_refused_of_next hexec r), fun t h ht => ?_⟩
    obtain rfl := Host.Outcome.next.inj (hexec.symm.trans h)
    refine ⟨_, rs, execAll_rawForm_of_ok hr hx, hlen, ?rest, fun m hm => res_of_rawBytes hr hx hm, ?last, ?rread,
      ?rrdstat, ?rrdrx⟩
    case rest => rw [replyPart_chips]; rfl
    case last => simp [List.getLast?_eq_some_getLast hne, List.getLastD_eq_getLast?]
    case rread => rintro a rfl; rfl
    case rrdstat => rintro rfl; rfl
    case rrdrx =>
      rintro nm m rfl j hj
      cases hf
      rw [List.length_cons, List.length_replicate] at hlen
      exact fbufRead_fbufOfReplies (count_le_of_rrdrx h ht) hlen hj _

end Sys2Proof.Machine
end

section
/-! PROOFS. The chip's own step (41_regbus.md R169) and the bits of one exchange on the lines (R144). -/

namespace Sys2Proof.Machine

open Sys2Proof

/-! ## The chip's own step -/

/-- R169's restriction on the mode field, as a proposition. -/
theorem modeChangeOk_iff (cfg : Config) (f : RegFile) (v : Byte) : modeChangeOk cfg f v = true ↔
    v &&& cfg.map.opmodMask = RegFile.read f cfg.map.canstat &&& cfg.map.opmodMask ∨
      v &&& cfg.map.opmodMask = RegFile.read f cfg.map.canctrl &&& cfg.map.reqopMask ∨
      (RegFile.read f cfg.map.canstat &&& cfg.map.opmodMask = Mode.sleep.bits ∧
        RegFile.read f cfg.map.caninte &&& cfg.map.wakieBit ≠ 0 ∧
        v &&& cfg.map.opmodMask = Mode.listen.bits) := by
  simp [modeChangeOk, anyBit, or_assoc, and_assoc]

theorem ownChanges_singleton (cfg : Config) (k : ChipIx) (f : RegFile) (a v : Byte) :
    ownChanges cfg k f [(a, v)] = if ownChangeOk cfg k f a v then RegFile.write f a v else f := rfl

/-- One change of a volatile register: no other register changes, and the value is taken unless R169 forbids it. -/
theorem read_ownChanges_singleton {cfg : Config} {k : ChipIx} {a : Byte} (ha : cfg.isVolatile k a = true)
    (f : RegFile) (v : Byte) :
    (∀ b, b ≠ a → RegFile.read (ownChanges cfg k f [(a, v)]) b = RegFile.read f b) ∧
    (a ≠ cfg.map.canstat ∨ modeChangeOk cfg f v = true → RegFile.read (ownChanges cfg k f [(a, v)]) a = v) ∧
    (a = cfg.map.canstat → modeChangeOk cfg f v = false →
      RegFile.read (ownChanges cfg k f [(a, v)]) a = RegFile.read f a) := by
  rw [ownChanges_singleton]
  refine ⟨fun b hb => ?other, fun h => ?taken, fun hc h => ?dropped⟩
  case other =>
    split
    · exact RegFile.read_write_ne _ _ hb
    · rfl
  case taken =>
    have hok : ownChangeOk cfg k f a v = true := by simpa [ownChangeOk, ha] using h
    rw [if_pos hok, RegFile.read_write]
  case dropped =>
    have hno : ownChangeOk cfg k f a v = false := by simp [ownChangeOk, hc, h]
    rw [hno]
    rfl

section
variable (s : State) (k : ChipIx)

theorem State.chipStep_chip (sets : List (Byte × Byte)) :
    (s.chipStep k sets).chip k = { s.chip k with creg := ownChanges s.cfg k (s.chip k).creg sets } :=
  State.chip_setChip ..

theorem State.chipStep_cframe (sets : List (Byte × Byte)) : (s.chipStep k sets).cframe k = s.cframe k := by
  rw [State.cframe, State.chipStep_chip]
  rfl

theorem State.chipStep_creg (sets : List (Byte × Byte)) (a : Byte) :
    (s.chipStep k sets).creg k a = RegFile.read (ownChanges s.cfg k (s.chip k).creg sets) a := by
  rw [State.creg, State.chipStep_chip]

theorem State.chipStep_nil : s.chipStep k [] = s := State.withChip_self s k

/-- Several changes are the turns of each, one after another. -/
theorem State.chipStep_cons (x : Byte × Byte) (xs : List (Byte × Byte)) :
    (s.chipStep k [x]).chipStep k xs = s.chipStep k (x :: xs) := by
  conv_lhs => rw [State.chipStep, State.chipStep_chip]
  simp [State.chipStep, State.setChip, ownChanges]
end

theorem step_chip {s : State} {k : ChipIx} {sets : List (Byte × Byte)} {rest : List Turn}
    (h : s.agenda = .chip k sets :: rest) : step s = .next (State.chipStep { s with agenda := rest } k sets) :=
  step_of_envTurn (turn := .chip k sets) ⟨nofun, h⟩

/-- Settles O30: each change is taken as R169 says, and a list of them one after another. -/
theorem chipStepsAreBounded : Obligations.ChipStepsAreBounded := by
  intro s k sets rest h
  let u : State := { s with agenda := rest }
  have creg (a : Byte) : (u.chipStep k sets).creg k a = _ := u.chipStep_creg k sets a
  refine ⟨u.chipStep k sets, step_chip h, rfl, u.chipStep_cframe k sets,
    fun j hj => State.chip_setChip_ne u _ hj, fun a ha => (creg a).trans (ownChanges_outside ha sets _), ?single,
    ?none, ?several, ?mode⟩
  case single =>
    rintro a v rfl ha
    obtain ⟨other, taken, dropped⟩ := read_ownChanges_singleton ha (s.chip k).creg v
    refine ⟨fun b hb => (creg b).trans (other b hb), fun hne => (creg a).trans (taken (.inl hne)), fun hc => ?_⟩
    subst hc
    exact ⟨fun hm => (creg _).trans (taken (.inr ((modeChangeOk_iff ..).mpr hm))),
      fun hm => (creg _).trans (dropped rfl (Bool.eq_false_iff.mpr fun h => hm ((modeChangeOk_iff ..).mp h)))⟩
  case none =>
    rintro rfl
    exact u.chipStep_nil k
  case several =>
    rintro x xs rfl
    let v : State := { s with agenda := .chip k xs :: rest }
    have hfirst : step { s with agenda := .chip k [x] :: .chip k xs :: rest } = .next (v.chipStep k [x]) :=
      step_chip rfl
    have hsecond : step (v.chipStep k [x]) = .next ((u.chipStep k [x]).chipStep k xs) := step_chip rfl
    rw [run_succ hfirst, run_succ hsecond, u.chipStep_cons]
    rfl
  case mode =>
    intro h1 h2
    rw [creg]
    exact ownChanges_mode h1 h2 sets _

/-! ## The lines of one exchange -/

/-- One sample taken into the byte being received: it enters at the low end (R144). -/
def shiftIn (r : Byte) (b : Bool) : Byte := (r <<< 1) ||| (BitVec.ofBool b).setWidth 8

theorem byteOfSamples_eq_foldl (m : List Bool) : byteOfSamples m = m.foldl shiftIn 0 := rfl

theorem getLsbD_shiftIn (r : Byte) (b : Bool) {j : Nat} (hj : j < 8) :
    (shiftIn r b).getLsbD j = if j = 0 then b else r.getLsbD (j - 1) := by
  simp only [shiftIn, BitVec.getLsbD_or, BitVec.getLsbD_shiftLeft, BitVec.getLsbD_setWidth, BitVec.getLsbD_ofBool]
  cases j <;> simp [hj]

/-- The bits of a byte that samples are shifted into: the samples from the last one on, and then the byte's own. -/
theorem getLsbD_foldl_shiftIn (m : List Bool) (r : Byte) {j : Nat} (hj : j < 8) : (m.foldl shiftIn r).getLsbD j =
    if j < m.length then m.getD (m.length - 1 - j) false else r.getLsbD (j - m.length) := by
  induction m generalizing r with
  | nil => rfl
  | cons b m ih =>
    rw [List.foldl_cons, ih, List.length_cons, Nat.add_sub_cancel]
    obtain h | rfl | h := Nat.lt_trichotomy j m.length
    · obtain ⟨d, hd⟩ : ∃ d, m.length - j = d + 1 := ⟨m.length - j - 1, by omega⟩
      rw [if_pos h, if_pos (by omega), hd, List.getD_cons_succ, show m.length - 1 - j = d by omega]
    · rw [if_neg (Nat.lt_irrefl _), if_pos (Nat.lt_succ_self _), Nat.sub_self, getLsbD_shiftIn r b (by decide)]
      rfl
    · rw [if_neg (by omega), if_neg (by omega), getLsbD_shiftIn r b (by omega), if_neg (by omega), Nat.sub_sub]

/-- Of eight samples the i-th is bit 7 - i of the byte (R144). -/
theorem getLsbD_byteOfSamples {m : List Bool} (hm : m.length = 8) {i : Nat} (hi : i < 8) :
    (byteOfSamples m).getLsbD (7 - i) = m.getD i false := by
  rw [byteOfSamples_eq_foldl, getLsbD_foldl_shiftIn m 0 (by omega), if_pos (by omega), hm]
  congr 1
  omega

theorem bitsOut_getElem? (b : Byte) {i : Nat} (hi : i < 8) : (bitsOut b)[i]? = some (b.getLsbD (7 - i)) := by
  simp [bitsOut, hi]

theorem bitsOut_length (b : Byte) : (bitsOut b).length = 8 := rfl

/-- The byte received over an exchange is the chip's reply. -/
theorem receivedByte_waveform (l : LinkImpl) (o reply : Byte) : receivedByte (waveform l o reply) = reply := by
  rw [receivedByte, (samples_waveform l o reply).2]
  apply BitVec.eq_of_getLsbD_eq
  intro j hj
  have h := getLsbD_byteOfSamples (bitsOut_length reply) (i := 7 - j) (by omega)
  rw [List.getD_eq_getElem?_getD, bitsOut_getElem? reply (by omega), Option.getD_some,
    show 7 - (7 - j) = j by omega] at h
  exact h

/-- Settles O32: the samples of each line are the bits sent on it, and eight samples give their byte back. -/
theorem serialBitFraming : Obligations.SerialBitFraming := by
  refine ⟨fun link link' o reply => ⟨rfl, ?_⟩, fun m hm i hi => getLsbD_byteOfSamples hm hi,
    fun s t k o reply _ => receivedByte_waveform ..⟩
  obtain ⟨hmosi, hmiso⟩ := samples_waveform link o reply
  rw [hmosi, hmiso]
  exact ⟨rfl, rfl, fun i hi => ⟨bitsOut_getElem? o hi, bitsOut_getElem? reply hi⟩, receivedByte_waveform ..⟩

end Sys2Proof.Machine
end

section
/-! PROOFS. The two layouts of a frame: what the transmit layout writes and the receive layout reads (42_driver.md
R197, R198). -/

namespace Sys2Proof.Machine

open Sys2Proof

theorem CanFrame.valid_iff (f : CanFrame) : f.valid = true ↔ f.len ≤ 8 ∧ f.data.length = f.len := by
  simp [CanFrame.valid]

/-! ## The receive layout -/

theorem rxFrame_id_toNat (b : List Byte) :
    (rxFrame b).id.toNat = 8 * (b.getD 0 0).toNat + (b.getD 1 0).toNat / 32 := by
  have hlow : (b.getD 1 0).toNat / 32 < 2 ^ 3 := by omega
  have hor := Nat.shiftLeft_add_eq_or_of_lt hlow (b.getD 0 0).toNat
  simp only [rxFrame, BitVec.toNat_or, BitVec.toNat_shiftLeft, BitVec.toNat_setWidth, BitVec.toNat_ushiftRight]
  rw [Nat.shiftRight_eq_div_pow, Nat.mod_eq_of_lt (a := (b.getD 0 0).toNat) (by omega),
    Nat.mod_eq_of_lt (a := (b.getD 0 0).toNat <<< 3) (by rw [Nat.shiftLeft_eq]; omega),
    Nat.mod_eq_of_lt (a := (b.getD 1 0).toNat / 2 ^ 5) (by omega), ← hor, Nat.shiftLeft_eq]
  omega

theorem rxFrame_len (b : List Byte) : (rxFrame b).len = min ((b.getD 4 0).toNat % 16) 8 := by
  have hmask : (b.getD 4 0 &&& 0x0F).toNat = (b.getD 4 0).toNat % 16 :=
    Nat.and_two_pow_sub_one_eq_mod (b.getD 4 0).toNat 4
  rw [rxFrame, hmask]

theorem rxFrame_data (b : List Byte) : (rxFrame b).data = (b.drop 5).take (rxFrame b).len := rfl

theorem rxFrame_valid {b : List Byte} (h : b.length = 13) : (rxFrame b).valid = true := by
  have hlen := rxFrame_len b
  rw [CanFrame.valid_iff, rxFrame_data, List.length_take, List.length_drop]
  omega

/-! ## The transmit layout -/

theorem txBytes_drop (f : CanFrame) : (txBytes f).drop 5 = f.data := rfl

theorem txBytes_length {f : CanFrame} (h : f.valid = true) : (txBytes f).length = 5 + f.len := by
  obtain ⟨-, hdata⟩ := f.valid_iff.mp h
  rw [txBytes, List.length_append, hdata]
  rfl

theorem txBytes_idHigh (f : CanFrame) : ((txBytes f).getD 0 0).toNat = f.id.toNat / 8 := by
  show (f.id.extractLsb' 3 8).toNat = _
  rw [BitVec.extractLsb'_toNat, Nat.shiftRight_eq_div_pow]
  omega

theorem txBytes_idLow (f : CanFrame) : ((txBytes f).getD 1 0).toNat = f.id.toNat % 8 * 32 := by
  show ((f.id.extractLsb' 0 3).setWidth 8 <<< 5).toNat = _
  rw [BitVec.toNat_shiftLeft, BitVec.toNat_setWidth, BitVec.extractLsb'_toNat, Nat.shiftLeft_eq]
  omega

theorem txBytes_lengthCode {f : CanFrame} (h : f.valid = true) :
    ((txBytes f).getD 4 0).toNat = (if f.rtr then 64 else 0) + f.len := by
  obtain ⟨hlen, -⟩ := f.valid_iff.mp h
  show (((BitVec.ofBool f.rtr).setWidth 8 <<< 6) ||| BitVec.ofNat 8 f.len).toNat = _
  generalize f.len = n at hlen
  cases f.rtr <;> (revert n; decide)

/-! ## The receive layout of what the transmit layout wrote -/

section
variable {f : CanFrame} (h : f.valid = true) (pad : List Byte)
include h

theorem rxFrame_txBytes_id : (rxFrame (txBytes f ++ pad)).id = f.id := by
  have hl := txBytes_length h
  apply BitVec.eq_of_toNat_eq
  rw [rxFrame_id_toNat, List.getD_append _ _ _ _ (by omega), List.getD_append _ _ _ _ (by omega), txBytes_idHigh,
    txBytes_idLow]
  omega

theorem rxFrame_txBytes_len : (rxFrame (txBytes f ++ pad)).len = f.len := by
  have hl := txBytes_length h
  obtain ⟨hlen, -⟩ := f.valid_iff.mp h
  rw [rxFrame_len, List.getD_append _ _ _ _ (by omega), txBytes_lengthCode h]
  split <;> omega

theorem rxFrame_txBytes_data : (rxFrame (txBytes f ++ pad)).data = f.data := by
  have hl := txBytes_length h
  obtain ⟨-, hdata⟩ := f.valid_iff.mp h
  rw [rxFrame_data, rxFrame_txBytes_len h, List.drop_append_of_le_length (by omega), txBytes_drop,
    List.take_append_of_le_length hdata.ge, List.take_of_length_le hdata.le]
end

/-- Settles O59: each layout byte by byte, and the second read on the bytes of the first. -/
theorem frameLayoutsAgree : Obligations.FrameLayoutsAgree :=
  ⟨fun b hb => ⟨rxFrame_valid hb, rxFrame_id_toNat b, rfl, rxFrame_len b, rxFrame_data b⟩,
    fun f pad h => ⟨txBytes_length h, txBytes_idHigh f, txBytes_idLow f, rfl, rfl, txBytes_lengthCode h,
      txBytes_drop f, rxFrame_txBytes_id h pad, rxFrame_txBytes_len h pad, rxFrame_txBytes_data h pad⟩⟩

end Sys2Proof.Machine
end

section
/-! PROOFS. A driver procedure run with no other agent between: the shapes of its run (42_driver.md R209), and
what the driver's operations leave of a chip with the default map (R190). -/

namespace Sys2Proof.Machine

open Sys2Proof

theorem Undisturbed.fault {s : State} (h : Undisturbed s) : s.fault = 0 := h.2.2.2.1

/-! ## The shapes of a run -/

section
variable {p : Proc} {s t : State} {i fuel : Nat} {iss : List Instr} {op : Instr} (hu : Undisturbed s)
include hu

section
variable (hop : (p.ops s.cfg s.scr)[i]? = some op) (he : exec op s = .next t) (hb : BusOrBuffer s t)
include hop he hb

theorem Proc.runFrom_goto {j : Nat} {scr : Scratch} (ha : p.after i t = .goto j scr) :
    p.runFrom (fuel + 1) i iss s = p.runFrom fuel j (iss ++ [op]) { t with scr := scr } := by
  rw [Proc.runFrom_step p hu hop he hb, ha]

theorem Proc.runFrom_ret {r : ProcResult} {scr : Scratch} (ha : p.after i t = .ret r scr) :
    p.runFrom (fuel + 1) i iss s = .next ⟨{ t with scr := Scratch.empty }, some r, iss ++ [op]⟩ := by
  rw [Proc.runFrom_step p hu hop he hb, ha]
end

/-- Operations with no decision between, and the procedure's end after the last. -/
theorem Proc.runFrom_walk {l : List Instr} {r : ProcResult} {scr : Scratch} (h : QuietRun (l ++ [op]) s t)
    (hops : (p.ops s.cfg s.scr).drop i = l ++ [op])
    (hgo : ∀ j u, j < l.length → BusOrBuffer s u → p.after (i + j) u = .goto (i + j + 1) u.scr)
    (hret : p.after (i + l.length) t = .ret r scr) (hf : l.length < fuel) :
    p.runFrom fuel i iss s = .next ⟨{ t with scr := Scratch.empty }, some r, iss ++ (l ++ [op])⟩ := by
  obtain ⟨v, hl, he, hb⟩ := QuietRun.split l op s t h
  obtain ⟨f, rfl⟩ : ∃ f, fuel = f + 1 + l.length := ⟨fuel - l.length - 1, by omega⟩
  have hop (j : Nat) : (p.ops s.cfg s.scr)[i + j]? = (l ++ [op])[j]? := by rw [← hops, List.getElem?_drop]
  rw [Proc.runFrom_prefix p l s v i (f + 1) iss hu hl
      (fun j hj => by rw [hop, List.getElem?_append_left hj]) hgo,
    Proc.runFrom_ret (hl.bl.und hu) (by rw [hl.bl.cfg, hl.bl.scr, hop]; simp) he hb hret, List.append_assoc]

/-- A procedure that ends after its first operation. -/
theorem Proc.run_of_first {r : ProcResult} {scr : Scratch} (hv : p.valid = true) (hi : p.immediate s.cfg = none)
    (hop : (p.ops s.cfg s.scr)[0]? = some op) (he : exec op s = .next t) (hb : BusOrBuffer s t)
    (ha : p.after 0 t = .ret r scr) :
    p.run s = .next ⟨{ t with scr := Scratch.empty }, some r, [op]⟩ := by
  rw [Proc.run_eq_runFrom p hu hv hi]
  exact Proc.runFrom_ret hu hop he hb ha
end

/-- A procedure that issues its operations in order and decides nothing. -/
structure Proc.Straight (p : Proc) : Prop where
  valid : p.valid = true
  immediate : ∀ cfg, p.immediate cfg = none
  after : ∀ i u, p.after i u = straightAfter (p.ops u.cfg u.scr).length i u.scr

theorem Proc.Straight.run {p : Proc} (hp : p.Straight) {s t : State} (hu : Undisturbed s) {ops : List Instr}
    (hops : p.ops s.cfg s.scr = ops) (hne : ops ≠ []) (hlen : ops.length ≤ 32) (h : QuietRun ops s t) :
    p.run s = .next ⟨{ t with scr := Scratch.empty }, some .unit, ops⟩ := by
  obtain ⟨l, op, rfl⟩ := (List.eq_nil_or_concat ops).resolve_left hne
  rw [List.concat_eq_append] at *
  have hafter {u : State} (hb : BusOrBuffer s u) (j : Nat) :
      p.after j u = straightAfter (l.length + 1) j u.scr := by
    rw [hp.after, hb.cfg, hb.scr, hops, List.length_append, List.length_singleton]
  rw [List.length_append, List.length_singleton] at hlen
  rw [Proc.run_eq_runFrom p hu hp.valid (hp.immediate _)]
  refine Proc.runFrom_walk (scr := t.scr) hu h hops (fun j u hj hb => ?_) ?_ (by omega)
  · rw [hafter hb, straightAfter, if_pos (by omega)]
  · rw [hafter h.bl, straightAfter, if_neg (by omega)]

theorem Proc.straight_setMode (k : ChipIx) (m : Mode) : (Proc.setMode k m).Straight :=
  ⟨rfl, fun _ => rfl, fun _ _ => rfl⟩

theorem Proc.straight_clearFilters (k : ChipIx) : (Proc.clearFilters k).Straight :=
  ⟨rfl, fun _ => rfl, fun _ _ => rfl⟩

theorem Proc.straight_abortAllTransmissions (k : ChipIx) : (Proc.abortAllTransmissions k).Straight :=
  ⟨rfl, fun _ => rfl, fun _ _ => rfl⟩

theorem Proc.straight_sleep (k : ChipIx) (wm : WakeMode) : (Proc.sleep k wm).Straight :=
  ⟨rfl, fun _ => rfl, fun _ _ => rfl⟩

theorem Proc.straight_wakeup_manual (k : ChipIx) : (Proc.wakeup k .manual).Straight :=
  ⟨rfl, fun _ => rfl, fun _ _ => rfl⟩

/-! ## The default map (R190) -/

theorem DefaultChip.of_cfg {s t : State} {k : ChipIx} (h : DefaultChip s k) (hc : t.cfg = s.cfg) :
    DefaultChip t k := by
  rw [DefaultChip, hc]
  exact h

section
variable {s : State} {k : ChipIx} (h : DefaultChip s k)
include h

theorem DefaultChip.implemented (a : Byte) : s.cfg.implemented k a = AddrSet.has AddrSet.implDefault a := by
  rw [Config.implemented, h.2]

theorem DefaultChip.runOk {a m : Nat}
    (hrun : ∀ i < m, a + i ≤ 0xFF ∧ AddrSet.has AddrSet.implDefault (BitVec.ofNat 8 (a + i)) = true) :
    RunOk s.cfg k a m := fun i hi => ⟨(hrun i hi).1, (h.implemented _).trans (hrun i hi).2⟩

theorem DefaultChip.txbctrl (j : Fin 3) : txbctrl s.cfg j = BitVec.ofNat 8 (0x30 + 0x10 * j.val) := by
  rw [Sys2Proof.Machine.txbctrl, h.1]
  revert j
  decide
end

/-! ## What the operations leave of the bus -/

theorem BusOrBuffer.of_busOnly_res {s t : State} {r : Option Half} (h : BusOnly { s with res := r } t) :
    BusOrBuffer s t :=
  BusOrBuffer.trans (t := { s with res := r }) rfl (.of_busOnly h)

theorem RegistersKept.trans {s t u : State} (h : RegistersKept s t) (h' : RegistersKept t u) : RegistersKept s u :=
  fun j a => (h' j a).trans (h j a)

/-- The masks of R191 on the status byte in RES. -/
theorem statusMasks (st : Byte) : (zext16 st &&& rxPendingMask = 0 ↔ st.getLsbD 0 ≠ true) ∧
    ∀ j : Fin 3, zext16 st &&& txreqStatus j = 0 ↔ st.getLsbD (2 + 2 * j.val) ≠ true := by
  revert st
  decide

/-- The status byte in RES, tested under the masks of R191, is the flag of receive buffer 0 and the request bits. -/
theorem exec_status {s : State} {k : ChipIx} (hd : DefaultChip s k) (hr : s.rawopen = false) :
    ∃ t st, exec (.rrdstat k) s = .next t ∧ BusOrBuffer s t ∧ RegistersKept s t ∧ OtherChipKept s t k ∧
      t.res = some (zext16 st) ∧ (zext16 st &&& rxPendingMask = 0 ↔ s.creg k 0x2C &&& 0x01 = 0) ∧
      ∀ j : Fin 3, zext16 st &&& txreqStatus j = 0 ↔ s.creg k (txbctrl s.cfg j) &&& 0x08 = 0 := by
  obtain ⟨t, st, he, hres, hrx, -, htx, hkept, hother, hb⟩ := rrdstatReadsTheStatus s k hr
  rw [hd.1] at hrx
  refine ⟨t, st, he, .of_busOnly_res hb, hkept, hother, hres, (statusMasks st).1.trans (not_iff_comm.mp hrx.symm),
    fun j => ?_⟩
  have hj := (htx j).1
  rw [hd.1] at hj
  exact ((statusMasks st).2 j).trans (not_iff_comm.mp hj.symm)

/-! ## FBWR in order -/

theorem toNat_ofNat_byte {n : Nat} (h : n < 256) : (BitVec.ofNat 8 n).toNat = n := Nat.mod_eq_of_lt h

/-- FBWR of the bytes of a list stores them in FBUF and writes nothing else (R171, R199). -/
theorem quietRun_fillOps (bs : List Byte) {i : Nat} (h : i + bs.length ≤ 16) (s : State) :
    QuietRun (fillOps i bs) s { s with fbuf := fbufStore s.fbuf i bs } := by
  induction bs generalizing i s with
  | nil => exact .nil s
  | cons b bs ih =>
    rw [List.length_cons] at h
    have hidx : (BitVec.ofNat 8 i).toNat = i := toNat_ofNat_byte (by omega)
    have he : exec (.fbwr (BitVec.ofNat 8 i) b) s = .next { s with fbuf := fbufWrite s.fbuf i b } := by
      refine (whenIndex_of_le _ (by omega)).trans ?_
      rw [hidx]
    exact .cons he rfl (ih (by omega) { s with fbuf := fbufWrite s.fbuf i b })

/-- FBWR of the bytes of a list from FBUF[0] on. -/
theorem quietRun_fillBuffer {bs : List Byte} (h : bs.length ≤ 16) (s : State) :
    ∃ t, QuietRun (fillOps 0 bs) s t ∧ RegistersKept s t ∧
      ∀ i, fbufRead t.fbuf i = if i < bs.length then bs[i]? else fbufRead s.fbuf i := by
  refine ⟨_, quietRun_fillOps bs (by omega) s, fun _ _ => rfl, fun i => ?_⟩
  rw [fbufRead_fbufStore _ _ _ _ (by omega)]
  simp

end Sys2Proof.Machine
end

section
/-! PROOFS. The driver's clearFilters and init, which leave the chip in configuration mode (42_driver.md R192 to
R195, R210; 70_reset_and_hazards.md R319). -/

namespace Sys2Proof.Machine

open Sys2Proof

/-! ## clearFilters (R195) -/

/-- The chip with the default map is in configuration mode, and no raw bracket is open. -/
structure ConfigReady (s : State) (k : ChipIx) : Prop where
  default : DefaultChip s k
  closed : s.rawopen = false
  mode : inConfigMode s.cfg (s.chip k).creg = true

theorem DefaultChip.inConfigMode_iff {s : State} {k : ChipIx} (h : DefaultChip s k) :
    inConfigMode s.cfg (s.chip k).creg = true ↔ s.creg k 0x0E &&& 0xE0 = 0x80 := by
  rw [inConfigMode, h.1, beq_iff_eq]
  rfl

theorem ConfigReady.of_kept {s t : State} {k : ChipIx} (h : ConfigReady s k) (hb : BusOrBuffer s t)
    (hk : t.creg k 0x0E = s.creg k 0x0E) : ConfigReady t k := by
  have hd := h.default.of_cfg hb.cfg
  refine ⟨hd, hb.raw.trans h.closed, hd.inConfigMode_iff.mpr ?_⟩
  rw [hk]
  exact h.default.inConfigMode_iff.mp h.mode

/-- RWRSEQ of n zero bytes in configuration mode zeroes its run of registers and no other. -/
theorem exec_rwrseq_zeros {s : State} {k : ChipIx} (h : ConfigReady s k) {a n : Nat} (h1 : 1 ≤ n) (h16 : n ≤ 16)
    (hz : ∀ i < n, fbufRead s.fbuf i = some 0x00)
    (hrun : ∀ i < n, a + i ≤ 0xFF ∧ AddrSet.has AddrSet.implDefault (BitVec.ofNat 8 (a + i)) = true)
    (hstat : 0x0E < a ∨ a + n ≤ 0x0E) :
    ∃ t, exec (.rwrseq k (BitVec.ofNat 8 a) (BitVec.ofNat 8 n)) s = .next t ∧ BusOnly s t ∧ ConfigReady t k ∧
      (∀ x : Byte, a ≤ x.toNat → x.toNat < a + n → t.creg k x = 0x00) ∧
      ∀ x : Byte, x.toNat < a ∨ a + n ≤ x.toNat → t.creg k x = s.creg k x := by
  have hend := (hrun (n - 1) (by omega)).1
  have ha : (BitVec.ofNat 8 a).toNat = a := toNat_ofNat_byte (by omega)
  have hn : (BitVec.ofNat 8 n).toNat = n := toNat_ofNat_byte (by omega)
  have hrwrseq := rwrseqStoresTheRun s k (BitVec.ofNat 8 a) (BitVec.ofNat 8 n) h.closed
  rw [ha, hn] at hrwrseq
  obtain ⟨t, he, ⟨hin, hout⟩, -, hbus⟩ := hrwrseq h1 h16 (by omega) (fun i hi => by simp [hz i hi])
    (h.default.runOk hrun)
  have kept (x : Byte) (hx : x.toNat < a ∨ a + n ≤ x.toNat) : t.creg k x = s.creg k x :=
    hout x fun i hi => by omega
  refine ⟨t, he, hbus, h.of_kept (.of_busOnly hbus) (kept 0x0E hstat), fun x hlo hhi => ?_, kept⟩
  have hx : BitVec.ofNat 8 (a + (x.toNat - a)) = x := by
    rw [Nat.add_sub_cancel' hlo, BitVec.ofNat_toNat, BitVec.setWidth_eq]
  rw [← hx]
  refine hin (x.toNat - a) (by omega) _ (hz _ (by omega)) fun _ => ⟨h.mode, fun j hj e => ?_⟩
  have hj := congrArg BitVec.toNat e
  rw [h.default.1, BitVec.toNat_ofNat, show ChipMap.standard.canstat.toNat = 0x0E from rfl] at hj
  omega

/-- The registers of the masks and filters (R190): what clearFilters zeroes. -/
def IsFilterReg (a : Byte) : Prop :=
  a.toNat ≤ 0x0B ∨ (0x10 ≤ a.toNat ∧ a.toNat ≤ 0x1B) ∨ (0x20 ≤ a.toNat ∧ a.toNat ≤ 0x27)

theorem DefaultChip.clearFiltersOps_eq {s : State} {k : ChipIx} (h : DefaultChip s k) :
    clearFiltersOps s.cfg k = (List.range 12).map (fun i => Instr.fbwr (BitVec.ofNat 8 i) 0x00) ++
      [.rwrseq k 0x20 8, .rwrseq k 0x00 12, .rwrseq k 0x10 12] := by
  rw [clearFiltersOps, h.1]
  rfl

/-- clearFilters in configuration mode: its operations complete, the masks and filters are zero and so is
FBUF[0..11], and the rest of both is as before. -/
theorem quietRun_clearFilters {s : State} {k : ChipIx} (h : ConfigReady s k) :
    ∃ t, QuietRun (clearFiltersOps s.cfg k) s t ∧ (∀ a, IsFilterReg a → t.creg k a = 0x00) ∧
      (∀ a, ¬IsFilterReg a → t.creg k a = s.creg k a) ∧
      ∀ i, fbufRead t.fbuf i = if i < 12 then some 0x00 else fbufRead s.fbuf i := by
  obtain ⟨s₀, hfill, hcreg₀, hfbuf⟩ := quietRun_fillBuffer (bs := List.replicate 12 0x00) (by decide) s
  replace hfbuf (i : Nat) : fbufRead s₀.fbuf i = if i < 12 then some 0x00 else fbufRead s.fbuf i := by
    rw [hfbuf, List.length_replicate]
    split
    · next hi => rw [List.getElem?_replicate, if_pos hi]
    · rfl
  have hzero {t : State} (ht : t.fbuf = s₀.fbuf) {n : Nat} (hn : n ≤ 12) :
      ∀ i < n, fbufRead t.fbuf i = some 0x00 := fun i hi => by rw [ht, hfbuf, if_pos (by omega)]
  obtain ⟨t₁, he₁, hb₁, h₁, hz₁, hk₁⟩ := exec_rwrseq_zeros (h.of_kept hfill.bl (hcreg₀ _ _))
    (a := 0x20) (n := 8) (by decide) (by decide) (hzero rfl (by decide)) (by decide) (by decide)
  have hf₁ : t₁.fbuf = s₀.fbuf := by rw [hb₁]
  obtain ⟨t₂, he₂, hb₂, h₂, hz₂, hk₂⟩ := exec_rwrseq_zeros h₁ (a := 0x00) (n := 12)
    (by decide) (by decide) (hzero hf₁ (by decide)) (by decide) (by decide)
  have hf₂ : t₂.fbuf = s₀.fbuf := by rw [hb₂]; exact hf₁
  obtain ⟨t₃, he₃, hb₃, h₃, hz₃, hk₃⟩ := exec_rwrseq_zeros h₂ (a := 0x10) (n := 12)
    (by decide) (by decide) (hzero hf₂ (by decide)) (by decide) (by decide)
  have hf₃ : t₃.fbuf = s₀.fbuf := by rw [hb₃]; exact hf₂
  refine ⟨t₃, ?run, fun a ha => ?zeroed, fun a ha => ?kept, fun i => by rw [hf₃, hfbuf]⟩
  case run =>
    rw [h.default.clearFiltersOps_eq]
    exact hfill.append <|
      .cons he₁ (.of_busOnly hb₁) (.cons he₂ (.of_busOnly hb₂) (.one he₃ (.of_busOnly hb₃)))
  case zeroed =>
    obtain ha | ha | ha := ha
    · rw [hk₃ a (by omega), hz₂ a (by omega) (by omega)]
    · exact hz₃ a (by omega) (by omega)
    · rw [hk₃ a (by omega), hk₂ a (by omega), hz₁ a (by omega) (by omega)]
  case kept =>
    simp only [IsFilterReg, not_or] at ha
    rw [hk₃ a (by omega), hk₂ a (by omega), hk₁ a (by omega), hcreg₀]

theorem Proc.run_clearFilters {s t : State} {k : ChipIx} (hu : Undisturbed s)
    (h : QuietRun (clearFiltersOps s.cfg k) s t) :
    (Proc.clearFilters k).run s = .next ⟨{ t with scr := Scratch.empty }, some .unit, clearFiltersOps s.cfg k⟩ :=
  (Proc.straight_clearFilters k).run hu rfl (by simp [clearFiltersOps]) (by simp [clearFiltersOps]) h

/-- Settles O55: the chip is still in configuration mode after the first run, and the second zeroes the same
registers. -/
theorem clearFiltersIsIdempotent : Obligations.ClearFiltersIsIdempotent := by
  intro s k hu hd hr hm
  have h : ConfigReady s k := ⟨hd, hr, hm⟩
  obtain ⟨t, hrun, hzero, hkept, hfbuf⟩ := quietRun_clearFilters h
  obtain ⟨hd', hr', hm'⟩ := h.of_kept hrun.bl (hkept 0x0E (by simp [IsFilterReg]))
  obtain ⟨v, hrun', hzero', hkept', -⟩ := quietRun_clearFilters
    (s := { t with scr := Scratch.empty }) ⟨hd', hr', hm'⟩
  refine ⟨_, _, Proc.run_clearFilters hu hrun, Proc.run_clearFilters (hrun.bl.und hu) hrun', rfl,
    hd.clearFiltersOps_eq, hzero, fun a ha => hkept a ?rest, fun i hi => (hfbuf i).trans (if_pos hi),
    fun i hi => (hfbuf i).trans (if_neg (by omega)), fun a => ?again⟩
  case rest =>
    unfold IsFilterReg
    omega
  case again =>
    by_cases ha : IsFilterReg a
    · exact (hzero' a ha).trans (hzero a ha).symm
    · exact hkept' a ha

/-! ## init (R194) -/

/-- The reset command leaves configuration mode (R161). -/
theorem exec_rreset_configReady {s : State} {k : ChipIx} (hd : DefaultChip s k) (hr : s.rawopen = false) :
    ∃ t, exec (.rreset k) s = .next t ∧ BusOrBuffer s t ∧ ConfigReady t k := by
  have hb := busOnly_afterFrame s k (resetImage s.cfg k) (s.drawn + 1)
  have hd' : DefaultChip (s.afterFrame k (resetImage s.cfg k) (s.drawn + 1)) k := hd.of_cfg rfl
  refine ⟨_, exec_rreset hr, .of_busOnly hb, hd', hr, hd'.inConfigMode_iff.mpr ?_⟩
  have himage := (read_resetImage s.cfg k (by rw [hd.1]; decide)).1
  rw [hd.1] at himage
  rw [State.afterFrame_creg]
  refine (congrArg (· &&& 0xE0#8) himage).trans ?_
  generalize RegFile.read s.cfg.chipResetImage[k] ChipMap.standard.canstat = v
  revert v
  decide

section
variable {s : State} {k : ChipIx} (h : ConfigReady s k) {a : Byte}
  (hi : AddrSet.has AddrSet.implDefault a = true) (ha : a ≠ 0x0E)
include h hi ha

/-- RWRITE of a register other than CANSTAT in configuration mode. -/
theorem exec_rwrite_configReady (v : Byte) : ∃ t, exec (.rwrite k a v) s = .next t ∧ BusOrBuffer s t ∧
    ConfigReady t k ∧ t.creg k a = v ∧ ∀ b, b ≠ a → t.creg k b = s.creg k b := by
  obtain ⟨⟨t, he, ⟨hsame, hother⟩, -, hb⟩, -⟩ :=
    oneRegisterIsWritten s k a 0 v h.closed ((h.default.implemented a).trans hi)
  exact ⟨t, he, .of_busOnly hb, h.of_kept (.of_busOnly hb) (hother _ ha.symm), hsame fun _ => h.mode, hother⟩

/-- RBITMOD of a register other than CANSTAT in configuration mode. -/
theorem exec_rbitmod_configReady (m v : Byte) : ∃ t, exec (.rbitmod k a m v) s = .next t ∧ BusOrBuffer s t ∧
    ConfigReady t k ∧ ∀ b, b ≠ a → t.creg k b = s.creg k b := by
  obtain ⟨-, t, he, ⟨-, hother⟩, -, hb⟩ :=
    oneRegisterIsWritten s k a m v h.closed ((h.default.implemented a).trans hi)
  exact ⟨t, he, .of_busOnly hb, h.of_kept (.of_busOnly hb) (hother _ ha.symm), hother⟩
end

theorem DefaultChip.initSetupOps_eq {s : State} {k : ChipIx} (h : DefaultChip s k) (b : Fin 2) (m : Mode) :
    initSetupOps s.cfg k b m = [.rreset k, .rwrite k 0x2A s.cfg.bitTiming[b].cnf1,
        .rwrite k 0x29 s.cfg.bitTiming[b].cnf2, .rwrite k 0x28 s.cfg.bitTiming[b].cnf3] ++
      clearFiltersOps s.cfg k ++ [.rbitmod k 0x0F 0xE0 m.bits] := by
  rw [initSetupOps, setModeOps, h.1]
  rfl

theorem initSetupOps_length (cfg : Config) (k : ChipIx) (b : Fin 2) (m : Mode) :
    (initSetupOps cfg k b m).length = 20 := rfl

/-- init's operations before its polls: the chip is left in configuration mode with its bit timing stored and its
masks and filters zero. -/
theorem quietRun_initSetup {s : State} {k : ChipIx} (hd : DefaultChip s k) (hr : s.rawopen = false) (b : Fin 2)
    (m : Mode) : ∃ t, QuietRun (initSetupOps s.cfg k b m) s t ∧ ConfigReady t k ∧
      t.creg k 0x2A = s.cfg.bitTiming[b].cnf1 ∧ t.creg k 0x29 = s.cfg.bitTiming[b].cnf2 ∧
      t.creg k 0x28 = s.cfg.bitTiming[b].cnf3 ∧ ∀ a, IsFilterReg a → t.creg k a = 0x00 := by
  obtain ⟨t₀, he₀, hb₀, h₀⟩ := exec_rreset_configReady hd hr
  obtain ⟨t₁, he₁, hb₁, h₁, hs₁, -⟩ := exec_rwrite_configReady h₀ (a := 0x2A) rfl (by decide)
    s.cfg.bitTiming[b].cnf1
  obtain ⟨t₂, he₂, hb₂, h₂, hs₂, hk₂⟩ := exec_rwrite_configReady h₁ (a := 0x29) rfl (by decide)
    s.cfg.bitTiming[b].cnf2
  obtain ⟨t₃, he₃, hb₃, h₃, hs₃, hk₃⟩ := exec_rwrite_configReady h₂ (a := 0x28) rfl (by decide)
    s.cfg.bitTiming[b].cnf3
  have hbus := (hb₀.trans hb₁).trans (hb₂.trans hb₃)
  obtain ⟨t₄, hq₄, hz₄, hk₄, -⟩ := quietRun_clearFilters h₃
  rw [show clearFiltersOps t₃.cfg k = clearFiltersOps s.cfg k by rw [hbus.cfg]] at hq₄
  have h₄ := h₃.of_kept hq₄.bl (hk₄ _ (by simp [IsFilterReg]))
  obtain ⟨t₅, he₅, hb₅, h₅, hk₅⟩ := exec_rbitmod_configReady h₄ (a := 0x0F) rfl (by decide) 0xE0 m.bits
  have kept (a : Byte) (ha : a ≠ 0x0F) (hf : ¬IsFilterReg a) : t₅.creg k a = t₃.creg k a :=
    (hk₅ a ha).trans (hk₄ a hf)
  refine ⟨t₅, ?run, h₅, ?_, ?_, ?_, fun a ha => ?zero⟩
  case run =>
    rw [hd.initSetupOps_eq]
    have hhead := QuietRun.cons he₀ hb₀ (.cons he₁ hb₁ (.cons he₂ hb₂ (.one he₃ hb₃)))
    exact (hhead.append hq₄).append (.one he₅ hb₅)
  case zero =>
    refine (hk₅ a ?_).trans (hz₄ a ha)
    rintro rfl
    simp [IsFilterReg] at ha
  · rw [kept _ (by decide) (by simp [IsFilterReg]), hk₃ _ (by decide), hk₂ _ (by decide), hs₁]
  · rw [kept _ (by decide) (by simp [IsFilterReg]), hk₃ _ (by decide), hs₂]
  · rw [kept _ (by decide) (by simp [IsFilterReg]), hs₃]

/-! ### The polls -/

/-- A chip in configuration mode acknowledges that mode and no other (R192). -/
theorem ConfigReady.acknowledged {s : State} {k : ChipIx} (h : ConfigReady s k) (m : Mode) :
    acknowledged s.cfg m (zext16 (s.creg k 0x0E)) = (m == .config) := by
  have hmode := h.default.inConfigMode_iff.mp h.mode
  rw [Sys2Proof.Machine.acknowledged, h.default.1]
  generalize s.creg k 0x0E = v at hmode
  revert v
  cases m <;> decide

theorem exec_poll {s : State} {k : ChipIx} (h : ConfigReady s k) :
    ∃ t, exec (.rread k 0x0E) s = .next t ∧ BusOrBuffer s t ∧ RegistersKept s t ∧ ConfigReady t k ∧
      t.res = some (zext16 (t.creg k 0x0E)) := by
  obtain ⟨t, he, hres, hkept, -, hb⟩ :=
    rreadReadsTheRegister s k 0x0E h.closed ((h.default.implemented _).trans rfl)
  have hbus := BusOrBuffer.of_busOnly_res hb
  exact ⟨t, he, hbus, hkept, h.of_kept hbus (hkept k _), by rw [hres, hkept]⟩

/-- The j-th poll is operation 20 + j of init. -/
theorem Proc.ops_init_poll {cfg : Config} (hmap : cfg.map = ChipMap.standard) (scr : Scratch) (k : ChipIx)
    (b : Fin 2) (m : Mode) {j : Nat} (hj : j < cfg.nPoll) :
    ((Proc.init k b m).ops cfg scr)[20 + j]? = some (.rread k 0x0E) := by
  rw [Proc.ops, List.getElem?_append_right (by rw [initSetupOps_length]; omega), initSetupOps_length,
    Nat.add_sub_cancel_left, List.getElem?_replicate, if_pos hj, hmap]
  rfl

/-- What init does after its j-th poll of a chip in configuration mode. -/
theorem Proc.after_init_poll {t : State} {k : ChipIx} (h : ConfigReady t k)
    (hres : t.res = some (zext16 (t.creg k 0x0E))) (b : Fin 2) (m : Mode) (j : Nat) :
    (Proc.init k b m).after (20 + j) t =
      if m = .config then .ret (.init true) { t.scr with initResult := some true }
      else if j + 1 < t.cfg.nPoll then .goto (20 + j + 1) t.scr
      else .ret (.init false) { t.scr with initResult := some false } := by
  simp only [Proc.after, initSetupOps_length, onRes, hres, afterPoll, h.acknowledged, Nat.add_sub_cancel_left]
  rw [if_neg (by omega), if_neg (by omega)]
  simp

section
variable {s : State} {k : ChipIx} (b : Fin 2) {m : Mode} {j fuel : Nat} (iss : List Instr) (hu : Undisturbed s)
  (h : ConfigReady s k)
include hu h

/-- With configuration mode asked for, the first poll is acknowledged. -/
theorem Proc.runFrom_poll_acknowledged (hj : j < s.cfg.nPoll) : ∃ t, RegistersKept s t ∧ t.fault = s.fault ∧
    (Proc.init k b .config).runFrom (fuel + 1) (20 + j) iss s =
      .next ⟨t, some (.init true), iss ++ [.rread k 0x0E]⟩ := by
  obtain ⟨t, he, hb, hkept, ht, hres⟩ := exec_poll h
  have hafter := Proc.after_init_poll ht hres b .config j
  rw [if_pos rfl] at hafter
  exact ⟨{ t with scr := Scratch.empty }, hkept, hb.fault,
    Proc.runFrom_ret hu (Proc.ops_init_poll h.default.1 s.scr k b .config hj) he hb hafter⟩

/-- With another mode asked for, the n + 1 polls that are left all fail. -/
theorem Proc.runFrom_polls_failed (hm : m ≠ .config) (n : Nat) (hj : j + (n + 1) = s.cfg.nPoll)
    (hf : n + 1 ≤ fuel) : ∃ t, RegistersKept s t ∧ t.fault = s.fault ∧
      (Proc.init k b m).runFrom fuel (20 + j) iss s =
        .next ⟨t, some (.init false), iss ++ List.replicate (n + 1) (.rread k 0x0E)⟩ := by
  induction n generalizing s j fuel iss with
  | zero =>
    obtain ⟨f, rfl⟩ : ∃ f, fuel = f + 1 := ⟨fuel - 1, by omega⟩
    obtain ⟨t, he, hb, hkept, ht, hres⟩ := exec_poll h
    have hafter := Proc.after_init_poll ht hres b m j
    rw [if_neg hm, if_neg (by rw [hb.cfg]; omega)] at hafter
    exact ⟨{ t with scr := Scratch.empty }, hkept, hb.fault,
      Proc.runFrom_ret hu (Proc.ops_init_poll h.default.1 s.scr k b m (by omega)) he hb hafter⟩
  | succ n ih =>
    obtain ⟨f, rfl⟩ : ∃ f, fuel = f + 1 := ⟨fuel - 1, by omega⟩
    obtain ⟨t, he, hb, hkept, ht, hres⟩ := exec_poll h
    have hafter := Proc.after_init_poll ht hres b m j
    rw [if_neg hm, if_pos (by rw [hb.cfg]; omega)] at hafter
    obtain ⟨u, hkept', hfault, hrun⟩ := ih (j := j + 1) (fuel := f) (iss ++ [.rread k 0x0E]) (hb.und hu) ht
      (by rw [hb.cfg]; omega) (by omega)
    refine ⟨u, hkept.trans hkept', hfault.trans hb.fault, ?_⟩
    rw [Proc.runFrom_goto hu (Proc.ops_init_poll h.default.1 s.scr k b m (by omega)) he hb hafter]
    refine hrun.trans ?_
    rw [List.append_assoc, List.singleton_append, ← List.replicate_succ]

/-- init's polls of a chip that stays in configuration mode: one if that is the mode asked for, else all. -/
theorem Proc.runFrom_polls (m : Mode) (hpoll : 1 ≤ s.cfg.nPoll) (hf : s.cfg.nPoll ≤ fuel) :
    ∃ t, RegistersKept s t ∧ t.fault = s.fault ∧
      (Proc.init k b m).runFrom fuel 20 iss s = .next ⟨t, some (.init (m == .config)),
        iss ++ List.replicate (if m = .config then 1 else s.cfg.nPoll) (.rread k 0x0E)⟩ := by
  by_cases hm : m = .config
  · subst hm
    obtain ⟨f, rfl⟩ : ∃ f, fuel = f + 1 := ⟨fuel - 1, by omega⟩
    exact Proc.runFrom_poll_acknowledged b iss hu h hpoll
  · obtain ⟨n, hn⟩ : ∃ n, s.cfg.nPoll = n + 1 := ⟨s.cfg.nPoll - 1, by omega⟩
    rw [if_neg hm, beq_false_of_ne hm, hn]
    exact Proc.runFrom_polls_failed b iss hu h hm (j := 0) n (by omega) (by omega)
end

/-- init issues the operations before its polls in order. -/
theorem Proc.run_init {s t : State} {k : ChipIx} {b : Fin 2} {m : Mode} (hu : Undisturbed s)
    (hpoll : 1 ≤ s.cfg.nPoll) (h : QuietRun (initSetupOps s.cfg k b m) s t) : (Proc.init k b m).run s =
      (Proc.init k b m).runFrom (s.cfg.nPoll + 12) 20 (initSetupOps s.cfg k b m) t := by
  rw [Proc.run_eq_runFrom _ hu rfl rfl]
  refine Proc.runFrom_prefix (.init k b m) (initSetupOps s.cfg k b m) s t 0 (s.cfg.nPoll + 12) [] hu h
    (fun j hj => ?_) fun j v hj hb => ?_
  · rw [Nat.zero_add, Proc.ops, List.getElem?_append_left hj]
  · rw [initSetupOps_length] at hj
    have hnPoll : v.cfg.nPoll ≠ 0 := by rw [hb.cfg]; omega
    simp only [Proc.after, initSetupOps_length, Nat.zero_add, hnPoll, if_false]
    split
    · rfl
    · rw [if_pos (by omega)]

/-- Settles O56: the operations before the polls leave the chip in configuration mode, and the polls find it
there. -/
theorem initWithASilentChip : Obligations.InitWithASilentChip := by
  intro s k b m hu hd hr hpoll
  obtain ⟨t, hq, ht, hcnf1, hcnf2, hcnf3, hzero⟩ := quietRun_initSetup hd hr b m
  have hcfg := hq.bl.cfg
  obtain ⟨u, hkept, hfault, hrun⟩ := Proc.runFrom_polls b (initSetupOps s.cfg k b m) (fuel := s.cfg.nPoll + 12)
    (hq.bl.und hu) ht m (by rw [hcfg]; exact hpoll) (by rw [hcfg]; omega)
  refine ⟨_, (Proc.run_init hu hpoll hq).trans hrun, rfl, ?issued, (hkept _ _).trans hcnf1,
    (hkept _ _).trans hcnf2, (hkept _ _).trans hcnf3, fun a ha => (hkept _ _).trans (hzero a ha),
    hfault.trans (hq.bl.und hu).fault⟩
  rw [hcfg, hd.initSetupOps_eq, hd.clearFiltersOps_eq, Mode.bits]
  simp only [List.append_assoc, List.cons_append, List.nil_append]

end Sys2Proof.Machine
end

section
/-! PROOFS. The driver's sendMessage, which loads and requests the least-numbered free transmit buffer (42_driver.md
R197, R199). -/

namespace Sys2Proof.Machine

open Sys2Proof

/-! ## The buffer chosen -/

theorem freeBuffer_eq_none {st : Half} (h : ∀ j, st &&& txreqStatus j ≠ 0) : freeBuffer st = none := by
  rw [freeBuffer, if_neg (h 0), if_neg (h 1), if_neg (h 2)]

theorem freeBuffer_eq_some {st : Half} {j : Fin 3} (h : st &&& txreqStatus j = 0)
    (hlt : ∀ i, i < j → st &&& txreqStatus i ≠ 0) : freeBuffer st = some j := by
  unfold freeBuffer
  match j, h, hlt with
  | 0, h, _ => rw [if_pos h]
  | 1, h, hlt => rw [if_neg (hlt 0 (by decide)), if_pos h]
  | 2, h, hlt => rw [if_neg (hlt 0 (by decide)), if_neg (hlt 1 (by decide)), if_pos h]

/-! ## The buffer loaded and requested -/

theorem fillOps_length (i : Nat) (bs : List Byte) : (fillOps i bs).length = bs.length := by
  induction bs generalizing i with
  | nil => rfl
  | cons b bs ih => rw [fillOps, List.length_cons, ih, List.length_cons]

/-- The registers of transmit buffer j from its identifier on are implemented and not configuration-only (R190). -/
theorem txBuffer_default : ∀ j : Fin 3, ∀ i < 13,
    AddrSet.has AddrSet.implDefault (BitVec.ofNat 8 (0x31 + 0x10 * j.val + i)) = true ∧
    AddrSet.has AddrSet.cfgonlyDefault (BitVec.ofNat 8 (0x31 + 0x10 * j.val + i)) = false := by decide

/-- RLDTX of n bytes into buffer j stores them from its identifier register on and changes no other register. -/
theorem exec_rldtx_buffer {s : State} {k : ChipIx} (hd : DefaultChip s k) (hr : s.rawopen = false)
    (hc : ∀ a, s.cfg.configOnly k a = AddrSet.has AddrSet.cfgonlyDefault a) (j : Fin 3) {n : Nat} (h1 : 1 ≤ n)
    (h13 : n ≤ 13) (hb : BufferFilled s n) :
    ∃ t, exec (.rldtx k (BitVec.ofNat 3 (2 * j.val)) (BitVec.ofNat 8 n)) s = .next t ∧ BusOnly s t ∧
      (∀ i < n, ∀ b, fbufRead s.fbuf i = some b → t.creg k (BitVec.ofNat 8 (0x31 + 0x10 * j.val + i)) = b) ∧
      ∀ x : Byte, x.toNat < 0x31 + 0x10 * j.val ∨ 0x31 + 0x10 * j.val + n ≤ x.toNat →
        t.creg k x = s.creg k x := by
  have hn : (BitVec.ofNat 8 n).toNat = n := toNat_ofNat_byte (by omega)
  have hstart : txStart s.cfg (BitVec.ofNat 3 (2 * j.val)) = 0x31 + 0x10 * j.val := by
    rw [(rldtxLoadsTheBuffer.1 s.cfg j).1, hd.txbctrl, toNat_ofNat_byte (by omega)]
    omega
  have hload := rldtxLoadsTheBuffer.2 s k (BitVec.ofNat 3 (2 * j.val)) (BitVec.ofNat 8 n)
    (by rw [BitVec.toNat_ofNat]; omega) hr
  rw [hn, hstart] at hload
  obtain ⟨t, he, ⟨hin, hout⟩, -, hbus⟩ := hload h1 (by omega) (by omega) hb
    (hd.runOk fun i hi => ⟨by omega, (txBuffer_default j i (by omega)).1⟩)
  refine ⟨t, he, hbus, fun i hi b hib => hin i hi b hib fun hcfg => ?_, fun x hx => hout x fun i hi => by omega⟩
  rw [hc, (txBuffer_default j i (by omega)).2] at hcfg
  cases hcfg

/-- RRTS for buffer j sets its request bit and changes no other register. -/
theorem exec_rrts_buffer {s : State} {k : ChipIx} (hd : DefaultChip s k) (hr : s.rawopen = false) (j : Fin 3) :
    ∃ t, exec (.rrts k (1 <<< j.val)) s = .next t ∧ BusOnly s t ∧
      t.creg k (txbctrl s.cfg j) = s.creg k (txbctrl s.cfg j) ||| 0x08 ∧
      ∀ a, a ≠ txbctrl s.cfg j → t.creg k a = s.creg k a := by
  obtain ⟨⟨t, he, hreq, -, hb⟩, -⟩ := commandByteFrames s k (1 <<< j.val) hr
  have hmask : ∀ i j : Fin 3, ((1 : BitVec 3) <<< j.val).getLsbD i.val = true ↔ i = j := by decide
  rw [RequestedToSend, hd.1] at hreq
  refine ⟨t, he, hb, (hreq _).1 ⟨j, (hmask j j).mpr rfl, rfl⟩, fun a ha => (hreq a).2 fun i hi => ?_⟩
  rw [(hmask i j).mp hi]
  exact ha

/-- The operations of sendMessage once buffer j is chosen: the frame's bytes are in the buffer, its request bit is
set and no register outside it changes. -/
theorem quietRun_loadOps {s : State} {k : ChipIx} {f : CanFrame} (hd : DefaultChip s k) (hr : s.rawopen = false)
    (hc : ∀ a, s.cfg.configOnly k a = AddrSet.has AddrSet.cfgonlyDefault a) (hf : f.valid = true) (j : Fin 3) :
    ∃ t, QuietRun (loadOps k f j) s t ∧
      t.creg k (txbctrl s.cfg j) = s.creg k (txbctrl s.cfg j) ||| 0x08 ∧
      (∀ i < 5 + f.len, t.creg k (txbctrl s.cfg j + 1 + BitVec.ofNat 8 i) = (txBytes f).getD i 0) ∧
      ∀ a : Byte, a.toNat < (txbctrl s.cfg j).toNat ∨ (txbctrl s.cfg j).toNat + 5 + f.len < a.toNat →
        t.creg k a = s.creg k a := by
  have hlen := txBytes_length hf
  obtain ⟨hf8, -⟩ := f.valid_iff.mp hf
  obtain ⟨t₁, hq₁, hk₁, hfbuf⟩ := quietRun_fillBuffer (bs := txBytes f) (by omega) s
  have hbytes (i : Nat) (hi : i < 5 + f.len) : fbufRead t₁.fbuf i = some ((txBytes f).getD i 0) := by
    rw [hfbuf, if_pos (by omega)]
    simp [hlen, hi]
  have hd₁ := hd.of_cfg hq₁.bl.cfg
  have hr₁ := hq₁.bl.raw.trans hr
  obtain ⟨t₂, he₂, hb₂, hin₂, hk₂⟩ := exec_rldtx_buffer hd₁ hr₁ (by rw [hq₁.bl.cfg]; exact hc) j
    (n := 5 + f.len) (by omega) (by omega) fun i hi => by simp [hbytes i hi]
  have hbus₂ := BusOrBuffer.of_busOnly hb₂
  obtain ⟨t₃, he₃, hb₃, hreq₃, hk₃⟩ := exec_rrts_buffer (hd₁.of_cfg hbus₂.cfg)
    (hbus₂.raw.trans hr₁) j
  rw [show txbctrl t₂.cfg j = txbctrl s.cfg j by rw [hbus₂.cfg, hq₁.bl.cfg]] at hreq₃ hk₃
  have haddr : (txbctrl s.cfg j).toNat = 0x30 + 0x10 * j.val := by
    rw [hd.txbctrl, toNat_ofNat_byte (by omega)]
  refine ⟨t₃, hq₁.append (.cons he₂ hbus₂ (.one he₃ (.of_busOnly hb₃))), ?_, fun i hi => ?_,
    fun a ha => ?_⟩
  · rw [hreq₃, hk₂ _ (by omega), hk₁]
  · have hi' : txbctrl s.cfg j + 1 + BitVec.ofNat 8 i = BitVec.ofNat 8 (0x31 + 0x10 * j.val + i) := by
      apply BitVec.eq_of_toNat_eq
      simp only [BitVec.toNat_add, haddr, BitVec.toNat_ofNat, show (1 : Byte).toNat = 1 from rfl]
      omega
    rw [hi', hk₃ _ ?_, hin₂ i hi _ (hbytes i hi)]
    intro e
    have he := congrArg BitVec.toNat e
    rw [haddr, toNat_ofNat_byte (by omega)] at he
    omega
  · rw [hk₃ a (by rintro rfl; omega), hk₂ a (by omega), hk₁]

/-! ## sendMessage -/

section
variable {t : State} {st : Half} (h : t.res = some st) (k : ChipIx) (f : CanFrame)
include h

theorem Proc.after_sendMessage_busy (hfree : freeBuffer st = none) :
    (Proc.sendMessage k f).after 0 t = .ret (.bufferAddress none) t.scr := by
  simp only [Proc.after, onRes, h, hfree, if_true]

theorem Proc.after_sendMessage_free {j : Fin 3} (hfree : freeBuffer st = some j) :
    (Proc.sendMessage k f).after 0 t = .goto 1 { t.scr with status := some (st.setWidth 8), j := some j } := by
  simp only [Proc.after, onRes, h, hfree, if_true]
end

theorem Proc.ops_sendMessage {cfg : Config} {scr : Scratch} {j : Fin 3} (hj : scr.j = some j) (k : ChipIx)
    (f : CanFrame) : (Proc.sendMessage k f).ops cfg scr = .rrdstat k :: loadOps k f j := by
  rw [Proc.ops, hj]

theorem Proc.after_sendMessage {t : State} {j : Fin 3} (hj : t.scr.j = some j) (k : ChipIx) (f : CanFrame)
    (i : Nat) : (Proc.sendMessage k f).after (1 + i) t =
      if i + 1 < (loadOps k f j).length then .goto (1 + i + 1) t.scr
      else .ret (.bufferAddress (some (txbctrl t.cfg j))) t.scr := by
  simp only [Proc.after, Proc.ops_sendMessage hj, List.length_cons, hj, Option.map_some]
  rw [if_neg (by omega)]
  exact if_congr (by omega) rfl rfl

/-- sendMessage from its second operation on, once buffer j is chosen. -/
theorem Proc.runFrom_loadOps {s t : State} {k : ChipIx} {f : CanFrame} {j : Fin 3} {fuel : Nat} {iss : List Instr}
    (hf : f.valid = true) (hu : Undisturbed s) (hj : s.scr.j = some j) (h : QuietRun (loadOps k f j) s t)
    (hfuel : 15 ≤ fuel) : (Proc.sendMessage k f).runFrom fuel 1 iss s =
      .next ⟨{ t with scr := Scratch.empty }, some (.bufferAddress (some (txbctrl s.cfg j))),
        iss ++ loadOps k f j⟩ := by
  obtain ⟨hf8, -⟩ := f.valid_iff.mp hf
  obtain ⟨l, op, hl⟩ := (List.eq_nil_or_concat (loadOps k f j)).resolve_left (by simp [loadOps])
  rw [List.concat_eq_append] at hl
  have hlen : l.length + 1 = (loadOps k f j).length := by rw [hl, List.length_append, List.length_singleton]
  have hlen15 : (loadOps k f j).length ≤ 15 := by
    rw [loadOps, List.length_append, fillOps_length, txBytes_length hf]
    simp only [List.length_cons, List.length_nil]
    omega
  have hafter {u : State} (hb : BusOrBuffer s u) := Proc.after_sendMessage (hb.scr.symm ▸ hj) k f
  rw [hl] at h
  rw [hl]
  refine Proc.runFrom_walk (scr := t.scr) hu h (by rw [Proc.ops_sendMessage hj, List.drop_one, List.tail_cons, hl])
    (fun i u hi hb => ?_) ?_ (by omega)
  · rw [hafter hb, if_pos (by omega)]
  · rw [hafter h.bl, if_neg (by omega), h.bl.cfg]

/-- Settles O57: the status byte shows the request bits, and the buffer it chooses is loaded and requested. -/
theorem sendMessageTakesTheLeastFreeBuffer : Obligations.SendMessageTakesTheLeastFreeBuffer := by
  intro s k f hu hd hr hf hc
  obtain ⟨t, st, he, hb, hkept, -, hres, -, htx⟩ := exec_status hd hr
  have hop : ((Proc.sendMessage k f).ops s.cfg s.scr)[0]? = some (.rrdstat k) := rfl
  refine ⟨fun hbusy => ?busy, fun j hfree hleast => ?free⟩
  case busy =>
    have hafter := Proc.after_sendMessage_busy hres k f (freeBuffer_eq_none fun j h => hbusy j ((htx j).mp h))
    exact ⟨_, Proc.run_of_first (p := .sendMessage k f) hu hf rfl hop he hb hafter, rfl, rfl, hkept⟩
  case free =>
    have hafter := Proc.after_sendMessage_free hres k f
      (freeBuffer_eq_some ((htx j).mpr hfree) fun i hi h => hleast i hi ((htx i).mp h))
    generalize hscr : { t.scr with status := some ((zext16 st).setWidth 8), j := some j } = scr at hafter
    have hj : scr.j = some j := by rw [← hscr]
    obtain ⟨v, hq, hreq, hbytes, hout⟩ := quietRun_loadOps (s := { t with scr := scr }) (k := k) (f := f)
      (hd.of_cfg hb.cfg) (hb.raw.trans hr) (by rw [hb.cfg]; exact hc) hf j
    have hrun := (Proc.runFrom_goto (fuel := s.cfg.nPoll + 31) (iss := []) hu hop he hb hafter).trans
      (Proc.runFrom_loadOps hf (hb.und hu) hj hq (by omega))
    rw [← Proc.run_eq_runFrom (.sendMessage k f) hu hf rfl] at hrun
    rw [show ({ t with scr := scr } : State).cfg = s.cfg from hb.cfg] at hreq hbytes hout hrun
    refine ⟨_, hrun, rfl, hreq.trans ?_, hbytes, fun a ha => (hout a ha).trans (hkept k a)⟩
    exact congrArg (· ||| 0x08#8) (hkept k _)

end Sys2Proof.Machine
end

section
/-! PROOFS. A run of a driver procedure as words of the host queue: the operations it issues, one after another, are
what SEQ performs from HOSTQ (42_driver.md R209; 43_power_fsm.md R258). -/

namespace Sys2Proof.Machine

open Sys2Proof

/-! ## The operations a procedure issues -/

/-- A framed operation or FBWR: all that a procedure issues. -/
def isDriverOp (i : Instr) : Bool := isFramed i || i matches .fbwr _ _

/-- Such an operation writes the bus, RES and FBUF at most. -/
theorem busOrBuffer_of_effect {i : Instr} {s t : State} (hi : isDriverOp i = true) (h : Effect i s t) :
    BusOrBuffer s t := by
  cases i
  case rreset | rwrite | rbitmod | rwrseq | rrts | rldtx =>
    all_goals
      obtain ⟨-, f, n, rfl⟩ := h
      rfl
  case rread | rrdstat | rrdrx =>
    all_goals
      obtain ⟨-, f, n, v, rfl⟩ := h
      rfl
  case fbwr =>
    obtain ⟨-, rfl⟩ := h
    rfl
  all_goals cases hi

theorem isDriverOp_fillOps (i : Nat) (bs : List Byte) : ∀ op ∈ fillOps i bs, isDriverOp op = true := by
  induction bs generalizing i with
  | nil => simp [fillOps]
  | cons b bs ih => simpa [fillOps, isDriverOp] using ih (i + 1)

theorem isDriverOp_of_mem_ops (p : Proc) (cfg : Config) (scr : Scratch) :
    ∀ op ∈ p.ops cfg scr, isDriverOp op = true := by
  have clear (k : ChipIx) : ∀ op ∈ clearFiltersOps cfg k, isDriverOp op = true := by
    simp [clearFiltersOps, or_imp, forall_and, isDriverOp, isFramed]
  cases p
  case clearFilters k => exact clear k
  case init k b m =>
    simpa [Proc.ops, initSetupOps, setModeOps, or_imp, forall_and, isDriverOp, isFramed] using clear k
  case sendMessage k f =>
    cases hj : scr.j with
    | none => simp [Proc.ops, hj, isDriverOp, isFramed]
    | some j =>
      simpa [Proc.ops, hj, loadOps, or_imp, forall_and, isDriverOp, isFramed] using
        isDriverOp_fillOps 0 (txBytes f)
  case sleep k wm => cases wm <;> simp [Proc.ops, setModeOps, isDriverOp, isFramed]
  case wakeup k wm => cases wm <;> simp [Proc.ops, setModeOps, isDriverOp, isFramed]
  case getBusErrors k => cases h : cfg.fullBusErrors <;> simp [Proc.ops, h, isDriverOp, isFramed]
  all_goals simp [Proc.ops, setModeOps, isDriverOp, isFramed]

/-! ## A run as its operations -/

theorem exec_withScr {i : Instr} {s t : State} (h : exec i s = .next t) (c : Scratch) :
    exec i { s with scr := c } = .next { t with scr := c } := by
  have hk := exec_keeps h
  refine (exec_placed_next s.pos c s.hostq h).trans ?_
  rw [State.placed, ← hk.pos, ← hk.hostq]

theorem BusOrBuffer.withScr {s t : State} (h : BusOrBuffer s t) (c : Scratch) :
    BusOrBuffer { s with scr := c } { t with scr := c } := by
  unfold BusOrBuffer
  rw [h]

theorem QuietRun.withScr {l : List Instr} {s t : State} (h : QuietRun l s t) (c : Scratch) :
    QuietRun l { s with scr := c } { t with scr := c } := by
  induction h with
  | nil => exact .nil _
  | cons he hb _ ih => exact .cons (exec_withScr he c) (hb.withScr c) ih

theorem State.halted_of_fault {s : State} (h : s.fault ≠ 0) : s.halted = true :=
  (Bool.or_eq_true ..).mpr (.inl (bne_iff_ne.mpr h))

/-- The first operation of a procedure's run that ends without a fault, and how the run goes on. -/
theorem Proc.runFrom_cases {p : Proc} {fuel i : Nat} {iss : List Instr} {s : State} {e : ProcEnd}
    (hu : Undisturbed s) (h : p.runFrom (fuel + 1) i iss s = .next e) (h0 : e.state.fault = 0) :
    ∃ op t, exec op s = .next t ∧ BusOrBuffer s t ∧
      ((∃ r, e = ⟨{ t with scr := Scratch.empty }, some r, iss ++ [op]⟩) ∨
        ∃ j scr, p.runFrom fuel j (iss ++ [op]) { t with scr := scr } = .next e) := by
  have hrun := h
  rw [Proc.runFrom, othersFirst_undisturbed hu] at h
  simp only [hu.not_halted, Bool.false_eq_true, if_false] at h
  split at h
  · cases h
  next op hop =>
  split at h
  · cases h
  · cases h
  next t he =>
  have ht : t.fault = 0 := by
    by_contra hf
    rw [if_pos (State.halted_of_fault hf)] at h
    cases h
    exact hf h0
  have hb : BusOrBuffer s t :=
    busOrBuffer_of_effect (isDriverOp_of_mem_ops p _ _ op (List.mem_of_getElem? hop)) (exec_effect he ht)
  refine ⟨op, t, he, hb, ?_⟩
  rw [Proc.runFrom_step p hu hop he hb] at hrun
  split at hrun
  · exact .inr ⟨_, _, hrun⟩
  · exact .inl ⟨_, (Host.Outcome.next.inj hrun).symm⟩
  · cases hrun
    exact absurd h0 (raise_fault_ne _ _)

/-- A run that ends without a fault is its operations one after another; SCR alone may differ at its end. -/
theorem Proc.quietRun_of_runFrom {p : Proc} {e : ProcEnd} (h0 : e.state.fault = 0) (fuel : Nat) {i : Nat}
    {iss : List Instr} {s : State} (hu : Undisturbed s) (h : p.runFrom fuel i iss s = .next e) :
    ∃ l u c, e.issued = iss ++ l ∧ QuietRun l s u ∧ e.state = { u with scr := c } := by
  induction fuel generalizing i iss s with
  | zero => cases h
  | succ fuel ih =>
    obtain ⟨op, t, he, hb, ⟨r, rfl⟩ | ⟨j, scr, hrest⟩⟩ := Proc.runFrom_cases hu h h0
    · exact ⟨[op], t, _, rfl, .one he hb, rfl⟩
    · obtain ⟨l, u, c, hiss, hq, hstate⟩ := ih (s := { t with scr := scr }) (hb.und hu) hrest
      exact ⟨op :: l, { u with scr := t.scr }, c, hiss.trans (List.append_assoc ..),
        .cons he hb (hq.withScr t.scr), hstate⟩

theorem Proc.quietRun_of_run {p : Proc} {s : State} {e : ProcEnd} (hu : Undisturbed s) (h : p.run s = .next e)
    (h0 : e.state.fault = 0) : ∃ u c, QuietRun e.issued s u ∧ e.state = { u with scr := c } := by
  unfold Proc.run at h
  split at h
  · cases h
  · rw [if_neg (by simp [hu.not_halted])] at h
    split at h
    · cases h
      exact ⟨s, s.scr, .nil s, rfl⟩
    · obtain ⟨l, u, c, hiss, hq, hstate⟩ := Proc.quietRun_of_runFrom h0 _ hu h
      exact ⟨u, c, by rwa [hiss], hstate⟩

/-! ## The words in HOSTQ -/

/-- SEQ alone, in host mode, performs the first word of HOSTQ in its step. -/
theorem step_hostWord {s t : State} {i : Instr} {w : OpWord} {q : List OpWord} (hu : Undisturbed s)
    (hm : s.hostmode = true) (hd : decodeWord w = .ok i) (he : exec i s = .next t) :
    step { s with hostq := w :: q } = .next { t with hostq := q } := by
  obtain ⟨hagenda, hinact, hwake, h0, hl⟩ := hu
  have hfree : s.seqFree = true := by simp [State.seqFree, hagenda, hinact, hwake]
  have hk := exec_keeps he
  have htaken : ({ State.turnTaken { s with hostq := w :: q } with hostq := q } : State) =
      State.placed s s.pos s.scr q := by
    simp only [State.turnTaken, State.placed, hagenda, List.tail_nil]
  rw [step_of_hostWord (s := { s with hostq := w :: q }) (seqReady_of_parts hfree h0 hl) hm rfl hd, htaken,
    exec_placed_next _ _ _ he, State.placed, ← hk.pos, ← hk.scr]

/-- The words of operations, stepped from HOSTQ, leave the state that the operations leave. -/
theorem run_hostWords {l : List Instr} {s t : State} (h : QuietRun l s t) (hu : Undisturbed s)
    (hm : s.hostmode = true) (words rest : List OpWord) (hd : words.map decodeWord = l.map .ok) :
    Host.Core.run Sys2Proof.core words.length { s with hostq := words ++ rest } =
      .next { t with hostq := rest } := by
  induction h generalizing words with
  | nil s =>
    obtain rfl : words = [] := List.map_eq_nil_iff.mp hd
    rfl
  | cons he hb _ ih =>
    cases words with
    | nil => cases hd
    | cons w words =>
      obtain ⟨hw, hwords⟩ := List.cons.inj hd
      exact (run_succ (step_hostWord hu hm hw he)).trans
        (ih (hb.und hu) ((exec_keeps he).hostmode.trans hm) words hwords)

/-- The operations of a run that ends without a fault, as words of HOSTQ, leave the same state (log entry 15). -/
theorem run_words_of_proc {p : Proc} {s : State} {e : ProcEnd} {words rest : List OpWord} (hu : Undisturbed s)
    (h : p.run s = .next e) (h0 : e.state.fault = 0) (hm : s.hostmode = true) (hq : s.hostq = words ++ rest)
    (hd : words.map decodeWord = e.issued.map .ok) :
    Host.Core.run Sys2Proof.core words.length s = .next { e.state with hostq := rest, scr := s.scr } := by
  obtain ⟨u, c, hquiet, hstate⟩ := Proc.quietRun_of_run hu h h0
  have hrun := run_hostWords hquiet hu hm words rest hd
  rw [← hq] at hrun
  rw [hstate, ← hquiet.bl.scr]
  exact hrun

end Sys2Proof.Machine
end

section
/-! PROOFS. The driver's other procedures with no other agent between: the queries, the bit changes of setMode, sleep,
wakeup and abortAllTransmissions, and receiveMessage (42_driver.md R192, R200 to R209). -/

namespace Sys2Proof.Machine

open Sys2Proof

/-! ## The queries (R200, R202, R207) -/

/-- The mask of the three request bits of the status byte. -/
theorem requestBits_iff (st : Byte) : zext16 st &&& 0x54 ≠ 0x54 ↔
    zext16 st &&& txreqStatus 0 = 0 ∨ zext16 st &&& txreqStatus 1 = 0 ∨ zext16 st &&& txreqStatus 2 = 0 := by
  revert st
  decide

/-- The priority order of R207 with the bits of R191. -/
theorem classifyErrors_standard (v : Byte) :
    (classifyErrors ChipMap.standard v = .busOff ↔ v &&& 0x20 ≠ 0) ∧
    (classifyErrors ChipMap.standard v = .txPassive ↔ v &&& 0x20 = 0 ∧ v &&& 0x10 ≠ 0) ∧
    (classifyErrors ChipMap.standard v = .rxPassive ↔ v &&& 0x30 = 0 ∧ v &&& 0x08 ≠ 0) ∧
    (classifyErrors ChipMap.standard v = .txWarning ↔ v &&& 0x38 = 0 ∧ v &&& 0x04 ≠ 0) ∧
    (classifyErrors ChipMap.standard v = .rxWarning ↔ v &&& 0x3C = 0 ∧ v &&& 0x02 ≠ 0) ∧
    (classifyErrors ChipMap.standard v = .warning ↔ v &&& 0x3E = 0 ∧ v &&& 0x01 ≠ 0) ∧
    (classifyErrors ChipMap.standard v = .none ↔ v &&& 0x3F = 0) := by
  revert v
  decide

theorem zext16_setWidth (v : Byte) : (zext16 v).setWidth 8 = v := by
  revert v
  decide

/-- RREAD of an implemented register. -/
theorem exec_rread_default {s : State} {k : ChipIx} (hd : DefaultChip s k) (hr : s.rawopen = false) {a : Byte}
    (ha : AddrSet.has AddrSet.implDefault a = true) : ∃ t, exec (.rread k a) s = .next t ∧ BusOrBuffer s t ∧
      RegistersKept s t ∧ OtherChipKept s t k ∧ t.fbuf = s.fbuf ∧ t.res = some (zext16 (s.creg k a)) := by
  obtain ⟨t, he, hres, hkept, hother, hb⟩ := rreadReadsTheRegister s k a hr ((hd.implemented a).trans ha)
  exact ⟨t, he, .of_busOnly_res hb, hkept, hother, by rw [hb], hres⟩

section
variable {s : State} {k : ChipIx} (hu : Undisturbed s) (hd : DefaultChip s k) (hr : s.rawopen = false)
include hu hd hr

theorem Proc.run_hasMessage : ∃ e, (Proc.hasMessage k).run s = .next e ∧ e.issued = [.rrdstat k] ∧
    ∃ b, e.result = some (.bool b) ∧ (b = true ↔ s.creg k 0x2C &&& 0x01 ≠ 0) := by
  obtain ⟨t, st, he, hb, -, -, hres, hrx, -⟩ := exec_status hd hr
  have hafter : (Proc.hasMessage k).after 0 t = .ret (.bool (zext16 st &&& rxPendingMask != 0)) t.scr := by
    simp only [Proc.after, onRes, hres]
  exact ⟨_, Proc.run_of_first (p := .hasMessage k) hu rfl rfl rfl he hb hafter, rfl, _, rfl,
    bne_iff_ne.trans (not_congr hrx)⟩

theorem Proc.run_hasFreeTxBuffer : ∃ e, (Proc.hasFreeTxBuffer k).run s = .next e ∧ e.issued = [.rrdstat k] ∧
    ∃ b, e.result = some (.bool b) ∧ (b = true ↔ s.creg k 0x30 &&& 0x08 = 0 ∨ s.creg k 0x40 &&& 0x08 = 0 ∨
      s.creg k 0x50 &&& 0x08 = 0) := by
  obtain ⟨t, st, he, hb, -, -, hres, -, htx⟩ := exec_status hd hr
  have hafter : (Proc.hasFreeTxBuffer k).after 0 t = .ret (.bool (zext16 st &&& 0x54 != 0x54)) t.scr := by
    simp only [Proc.after, onRes, hres]
  simp only [hd.txbctrl] at htx
  exact ⟨_, Proc.run_of_first (p := .hasFreeTxBuffer k) hu rfl rfl rfl he hb hafter, rfl, _, rfl,
    bne_iff_ne.trans ((requestBits_iff st).trans (or_congr (htx 0) (or_congr (htx 1) (htx 2))))⟩

theorem Proc.run_getBusErrors (hfull : s.cfg.fullBusErrors = true) : ∃ e, (Proc.getBusErrors k).run s = .next e ∧
    e.issued = [.rread k 0x2D] ∧
    e.result = some (.errorKind (classifyErrors ChipMap.standard (s.creg k 0x2D))) := by
  obtain ⟨t, he, hb, -, -, -, hres⟩ := exec_rread_default hd hr (a := 0x2D) rfl
  have hop : ((Proc.getBusErrors k).ops s.cfg s.scr)[0]? = some (.rread k 0x2D) := by
    rw [Proc.ops, if_pos hfull, hd.1]
    rfl
  have hafter : (Proc.getBusErrors k).after 0 t =
      .ret (.errorKind (classifyErrors ChipMap.standard (s.creg k 0x2D))) t.scr := by
    simp only [Proc.after, onRes, hres, zext16_setWidth, hb.cfg, hd.1]
  exact ⟨_, Proc.run_of_first hu rfl (by simp [Proc.immediate, hfull]) hop he hb hafter, rfl, rfl⟩
end

/-! ## Bit changes (R163) -/

theorem BusOnly.trans {s t u : State} (h : BusOnly s t) (h' : BusOnly t u) : BusOnly s u := by
  unfold BusOnly at *
  rw [h', h]

theorem OtherChipKept.trans {s t u : State} {k : ChipIx} (h : OtherChipKept s t k) (h' : OtherChipKept t u k) :
    OtherChipKept s u k :=
  ⟨h'.1, fun j hj => (h'.2 j hj).trans (h.2 j hj)⟩

theorem DefaultRegisters.of_cfg {s t : State} {k : ChipIx} (h : DefaultRegisters s k) (hc : t.cfg = s.cfg) :
    DefaultRegisters t k := by
  rw [DefaultRegisters, hc]
  exact ⟨h.1.of_cfg hc, h.2⟩

/-- A register that R190 lets a frame modify bit by bit in every mode. -/
def isBitReg (a : Byte) : Bool :=
  AddrSet.has AddrSet.implDefault a && AddrSet.has AddrSet.bitmodDefault a && !AddrSet.has AddrSet.cfgonlyDefault a

theorem isBitReg_iff (a : Byte) : isBitReg a = true ↔ AddrSet.has AddrSet.implDefault a = true ∧
    AddrSet.has AddrSet.bitmodDefault a = true ∧ AddrSet.has AddrSet.cfgonlyDefault a = false := by
  simp [isBitReg, and_assoc]

/-- The operations of p are the bit changes l of chip k, made in order. -/
structure Proc.MakesChanges (p : Proc) (k : ChipIx) (l : List BitChange) : Prop where
  straight : p.Straight
  ops : ∀ {cfg : Config} (scr : Scratch), cfg.map = ChipMap.standard → p.ops cfg scr = bitChangeOps k l
  ne_nil : l ≠ []
  length_le : l.length ≤ 32
  regs : l.all (fun c => isBitReg c.1) = true

section
variable (k : ChipIx)

theorem Proc.makesChanges_setMode (m : Mode) : (Proc.setMode k m).MakesChanges k [(0x0F, 0xE0, m.bits)] where
  straight := Proc.straight_setMode k m
  ops _ h := by simp only [Proc.ops, setModeOps, h]; rfl
  ne_nil := List.cons_ne_nil _ _
  length_le := by simp
  regs := rfl

theorem Proc.makesChanges_sleep_busActivity : (Proc.sleep k .busActivity).MakesChanges k
    [(0x2B, 0x40, 0x40), (0x2C, 0x40, 0x00), (0x0F, 0xE0, 0x20)] where
  straight := Proc.straight_sleep k .busActivity
  ops _ h := by simp only [Proc.ops, setModeOps, h]; rfl
  ne_nil := List.cons_ne_nil _ _
  length_le := by simp
  regs := rfl

theorem Proc.makesChanges_sleep_manual : (Proc.sleep k .manual).MakesChanges k
    [(0x2B, 0x40, 0x00), (0x0F, 0xE0, 0x20)] where
  straight := Proc.straight_sleep k .manual
  ops _ h := by simp only [Proc.ops, setModeOps, h]; rfl
  ne_nil := List.cons_ne_nil _ _
  length_le := by simp
  regs := rfl

theorem Proc.makesChanges_wakeup_manual : (Proc.wakeup k .manual).MakesChanges k
    [(0x2C, 0x40, 0x40), (0x0F, 0xE0, 0x00)] where
  straight := Proc.straight_wakeup_manual k
  ops _ h := by simp only [Proc.ops, setModeOps, h]; rfl
  ne_nil := List.cons_ne_nil _ _
  length_le := by simp
  regs := rfl

theorem Proc.makesChanges_abortAllTransmissions : (Proc.abortAllTransmissions k).MakesChanges k
    [(0x0F, 0x10, 0x10)] where
  straight := Proc.straight_abortAllTransmissions k
  ops _ h := by simp only [Proc.ops, h]; rfl
  ne_nil := List.cons_ne_nil _ _
  length_le := by simp
  regs := rfl
end

section
variable {s : State} {k : ChipIx} (hd : DefaultRegisters s k) (hr : s.rawopen = false)
include hd hr

/-- RBITMOD of such a register changes the bits under the mask and nothing else. -/
theorem exec_rbitmod_default {a : Byte} (ha : isBitReg a = true) (m v : Byte) :
    ∃ t, exec (.rbitmod k a m v) s = .next t ∧ BitsChanged s t k [(a, m, v)] ∧ OtherChipKept s t k ∧
      BusOnly s t := by
  obtain ⟨hchip, hbitmod, hcfgonly⟩ := hd
  obtain ⟨himpl, hmod, hfree⟩ := (isBitReg_iff a).mp ha
  obtain ⟨-, t, he, ⟨hsame, hother⟩, hkept, hb⟩ :=
    oneRegisterIsWritten s k a m v hr ((hchip.implemented a).trans himpl)
  refine ⟨t, he, fun b => ?_, hkept, hb⟩
  rw [List.foldl_cons, List.foldl_nil]
  split
  · next h =>
    subst h
    refine hsame (by rw [Config.bitModifiable, hbitmod, hmod]) fun h => ?_
    rw [Config.configOnly, hcfgonly, hfree] at h
    cases h
  · next h => exact hother b (Ne.symm h)

/-- Bit changes one after another. -/
theorem quietRun_bitChanges (c : BitChange) (l : List BitChange) (hl : ∀ x ∈ c :: l, isBitReg x.1 = true) :
    ∃ t, QuietRun (bitChangeOps k (c :: l)) s t ∧ BitsChanged s t k (c :: l) ∧ OtherChipKept s t k ∧
      BusOnly s t := by
  induction l generalizing s c with
  | nil =>
    obtain ⟨t, he, hbits, hother, hb⟩ := exec_rbitmod_default hd hr (hl c (List.mem_singleton_self c)) c.2.1 c.2.2
    exact ⟨t, .one he (.of_busOnly hb), hbits, hother, hb⟩
  | cons c' l ih =>
    obtain ⟨t, he, hbits, hother, hb⟩ := exec_rbitmod_default hd hr (hl c List.mem_cons_self) c.2.1 c.2.2
    have hbus := BusOrBuffer.of_busOnly hb
    obtain ⟨u, hq, hbits', hother', hb'⟩ := ih (hd.of_cfg hbus.cfg) (hbus.raw.trans hr) c'
      fun x hx => hl x (List.mem_cons_of_mem c hx)
    refine ⟨u, .cons he hbus hq, fun a => ?_, hother.trans hother', hb.trans hb'⟩
    rw [hbits' a, hbits a]
    rfl

/-- A procedure whose operations are bit changes. -/
theorem Proc.MakesChanges.run {p : Proc} {l : List BitChange} (hp : p.MakesChanges k l) (hu : Undisturbed s) :
    ∃ e, p.run s = .next e ∧ e.result = some .unit ∧ e.issued = bitChangeOps k l ∧ BitsChanged s e.state k l ∧
      OtherChipKept s e.state k ∧ BusOnly { s with scr := Scratch.empty } e.state := by
  obtain ⟨hstraight, hops, hne, hlen, hregs⟩ := hp
  obtain ⟨c, l, rfl⟩ := List.exists_cons_of_ne_nil hne
  obtain ⟨t, hq, hbits, hother, hb⟩ := quietRun_bitChanges hd hr c l (List.all_eq_true.mp hregs)
  refine ⟨_, hstraight.run hu (hops s.scr hd.1.1) (List.cons_ne_nil _ _) ?_ hq, rfl, rfl, hbits, hother, ?_⟩
  · rwa [bitChangeOps, List.length_map]
  · unfold BusOnly at *
    rw [hb]
end

/-! ## receiveMessage (R203) -/

theorem fbufBytes_eq_some {f : Vector (Option Byte) 16} {n : Nat} {bs : List Byte} (hl : bs.length = n)
    (h : ∀ i, (hi : i < bs.length) → fbufRead f i = some bs[i]) : fbufBytes f 0 n = some bs := by
  subst hl
  obtain ⟨bs', hb, hl', hread⟩ := fbufBytes_of_filled (f := f) bs.length 0 fun i hi => by simp [h i hi]
  rw [hb, List.ext_getElem hl' fun i hi' hi => ?_]
  have hi₂ := hread i hi'
  rw [Nat.zero_add, h i hi] at hi₂
  exact (Option.some.inj hi₂).symm

/-- Receive buffer 0 copied to FBUF (R198, R203). -/
theorem exec_rrdrx_buffer {s : State} {k : ChipIx} (hd : DefaultChip s k) (hr : s.rawopen = false) :
    ∃ t, exec (.rrdrx k 0 13) s = .next t ∧ BusOrBuffer s t ∧ RegistersKept s t ∧ OtherChipKept s t k ∧
      fbufBytes t.fbuf 0 13 = some (receiveBytes s k) := by
  have hstart : (rxStart s.cfg 0).toNat = 0x61 := by
    rw [rxStart, hd.1]
    rfl
  obtain ⟨t, he, hin, -, hkept, hother, hb⟩ := rrdrxFillsTheBuffer s k 0 13 hr (by decide) (by decide)
    (by rw [hstart]; decide) (by rw [hstart]; exact hd.runOk (by decide))
  refine ⟨t, he, BusOrBuffer.trans (t := { s with fbuf := t.fbuf }) rfl (.of_busOnly hb), hkept, hother,
    fbufBytes_eq_some rfl fun i hi => ?_⟩
  rw [hin i hi, hstart]
  simp [receiveBytes]

theorem BitsChanged.of_kept {s t u : State} {k : ChipIx} {l : List BitChange} (h : RegistersKept s t)
    (h' : BitsChanged t u k l) : BitsChanged s u k l := fun a => (h' a).trans (by rw [h k a])

theorem RegistersKept.receiveBytes {s t : State} (h : RegistersKept s t) (k : ChipIx) :
    receiveBytes t k = receiveBytes s k := by
  simp only [Sys2Proof.Machine.receiveBytes, h k]

/-- The two reads of a pending message: the buffer is in FBUF and its control register in RES. -/
theorem exec_readMessage {s : State} {k : ChipIx} (hd : DefaultChip s k) (hr : s.rawopen = false) :
    ∃ t u, exec (.rrdrx k 0 13) s = .next t ∧ BusOrBuffer s t ∧ exec (.rread k 0x60) t = .next u ∧
      BusOrBuffer t u ∧ RegistersKept s u ∧ OtherChipKept s u k ∧
      fbufBytes u.fbuf 0 13 = some (receiveBytes s k) ∧ u.res = some (zext16 (s.creg k 0x60)) := by
  obtain ⟨t, he, hb, hk, ho, hbuf⟩ := exec_rrdrx_buffer hd hr
  obtain ⟨u, he', hb', hk', ho', hf, hres⟩ := exec_rread_default (hd.of_cfg hb.cfg) (hb.raw.trans hr)
    (a := 0x60) rfl
  exact ⟨t, u, he, hb, he', hb', hk.trans hk', ho.trans ho', by rw [hf, hbuf], by rw [hres, hk]⟩

/-- The flag of receive buffer 0 cleared, whatever SCR holds. -/
theorem exec_clearFlag {s : State} {k : ChipIx} (hregs : DefaultRegisters s k) (hr : s.rawopen = false)
    (c : Scratch) : ∃ t, exec (.rbitmod k 0x2C 0x01 0x00) { s with scr := c } = .next t ∧
      BusOrBuffer { s with scr := c } t ∧ BitsChanged s t k [(0x2C, 0x01, 0x00)] ∧ OtherChipKept s t k ∧
      t.fbuf = s.fbuf ∧ t.scr = c := by
  obtain ⟨t, he, hbits, hother, hb⟩ := exec_rbitmod_default (s := { s with scr := c }) (k := k) (a := 0x2C)
    (hregs.of_cfg rfl) hr rfl 0x01 0x00
  exact ⟨t, he, .of_busOnly hb, hbits, hother, by rw [hb], by rw [hb]⟩

/-- What receiveMessage keeps of the match bit (R203, R209). -/
def Scratch.matched (c : Scratch) (v : Byte) : Scratch :=
  { c with status := some v, matchInd := some ((v &&& 0x01).toNat + 1) }

section
variable {t : State} (k : ChipIx)

theorem Proc.after_receiveMessage_status {st : Half} (h : t.res = some st) : (Proc.receiveMessage k).after 0 t =
    if st &&& rxPendingMask ≠ 0 then .goto 1 t.scr else .ret (.received none) t.scr := by
  simp only [Proc.after, onRes, h, bne_iff_ne, if_true]

theorem Proc.after_receiveMessage_matchBit {v : Byte} (hmap : t.cfg.map = ChipMap.standard)
    (h : t.res = some (zext16 v)) : (Proc.receiveMessage k).after 2 t = .goto 3 (t.scr.matched v) := by
  simp only [Proc.after, onRes, h, zext16_setWidth, hmap]
  rfl

theorem Proc.after_receiveMessage_end {bs : List Byte} {m : Nat} (hb : fbufBytes t.fbuf 0 13 = some bs)
    (hm : t.scr.matchInd = some m) : (Proc.receiveMessage k).after 3 t =
      .ret (.received (some (rxFrame bs, m))) { t.scr with frame := some (rxFrame bs) } := by
  simp only [Proc.after, afterReceive, hb, hm]
  rfl
end

section
variable {s : State} {k : ChipIx} (hu : Undisturbed s)
include hu

/-- With no message pending receiveMessage ends after the status read. -/
theorem Proc.run_receiveMessage_none (hd : DefaultChip s k) (hr : s.rawopen = false)
    (hnone : s.creg k 0x2C &&& 0x01 = 0) : ∃ e, (Proc.receiveMessage k).run s = .next e ∧
      e.result = some (.received none) ∧ e.issued = [.rrdstat k] ∧ RegistersKept s e.state := by
  obtain ⟨t, st, he, hb, hkept, -, hres, hrx, -⟩ := exec_status hd hr
  have hafter := Proc.after_receiveMessage_status k hres
  rw [if_neg (not_not.mpr (hrx.mpr hnone))] at hafter
  exact ⟨_, Proc.run_of_first (p := .receiveMessage k) hu rfl rfl rfl he hb hafter, rfl, rfl, hkept⟩

/-- With a message pending receiveMessage copies the buffer and the match bit, clears the flag and returns the
decoded frame. -/
theorem Proc.run_receiveMessage_some (hregs : DefaultRegisters s k) (hr : s.rawopen = false)
    (hsome : s.creg k 0x2C &&& 0x01 ≠ 0) : ∃ e, (Proc.receiveMessage k).run s = .next e ∧
      e.result = some (.received (some (rxFrame (receiveBytes s k), (s.creg k 0x60 &&& 0x01).toNat + 1))) ∧
      e.issued = [.rrdstat k, .rrdrx k 0 13, .rread k 0x60, .rbitmod k 0x2C 0x01 0x00] ∧
      BitsChanged s e.state k [(0x2C, 0x01, 0x00)] ∧ OtherChipKept s e.state k := by
  have hops {u : State} (hb : BusOrBuffer s u) (scr : Scratch) : (Proc.receiveMessage k).ops u.cfg scr =
      [.rrdstat k, .rrdrx k 0 13, .rread k 0x60, .rbitmod k 0x2C 0x01 0x00] := by
    rw [Proc.ops, hb.cfg, hregs.1.1]
    rfl
  obtain ⟨t₀, st, he₀, hb₀, hk₀, ho₀, hres₀, hrx, -⟩ := exec_status hregs.1 hr
  obtain ⟨t₁, t₂, he₁, hb₁, he₂, hb₂, hk₂, ho₂, hbuf, hres₂⟩ :=
    exec_readMessage (hregs.1.of_cfg hb₀.cfg) (hb₀.raw.trans hr)
  rw [hk₀.receiveBytes] at hbuf
  rw [hk₀ k] at hres₂
  have hbus₁ := hb₀.trans hb₁
  have hbus₂ := hbus₁.trans hb₂
  obtain ⟨t₃, he₃, hb₃, hbits, ho₃, hf₃, hscr₃⟩ := exec_clearFlag (hregs.of_cfg hbus₂.cfg) (hbus₂.raw.trans hr)
    (t₂.scr.matched (s.creg k 0x60))
  have ha₀ := Proc.after_receiveMessage_status k hres₀
  rw [if_pos (mt hrx.mp hsome)] at ha₀
  have ha₁ : (Proc.receiveMessage k).after 1 t₁ = .goto 2 t₁.scr := rfl
  have ha₂ := Proc.after_receiveMessage_matchBit k (by rw [hbus₂.cfg, hregs.1.1]) hres₂
  have ha₃ := Proc.after_receiveMessage_end (t := t₃) (bs := receiveBytes s k)
    (m := (s.creg k 0x60 &&& 0x01).toNat + 1) k (by rw [hf₃, hbuf]) (by rw [hscr₃, Scratch.matched])
  have step₀ := Proc.runFrom_goto (fuel := s.cfg.nPoll + 31) (iss := []) hu
    (by rw [hops (.refl s)]; rfl) he₀ hb₀ ha₀
  have step₁ := Proc.runFrom_goto (fuel := s.cfg.nPoll + 30) (iss := [.rrdstat k]) (hb₀.und hu)
    (by rw [hops hb₀]; rfl) he₁ hb₁ ha₁
  have step₂ := Proc.runFrom_goto (fuel := s.cfg.nPoll + 29) (iss := [.rrdstat k, .rrdrx k 0 13]) (hbus₁.und hu)
    (by rw [hops hbus₁]; rfl) he₂ hb₂ ha₂
  have step₃ := Proc.runFrom_ret (s := { t₂ with scr := t₂.scr.matched (s.creg k 0x60) })
    (fuel := s.cfg.nPoll + 28) (iss := [.rrdstat k, .rrdrx k 0 13, .rread k 0x60]) (hbus₂.und hu)
    (congrArg (·[3]?) (hops hbus₂ _)) he₃ hb₃ ha₃
  exact ⟨_, (Proc.run_eq_runFrom (.receiveMessage k) hu rfl rfl).trans
    (step₀.trans (step₁.trans (step₂.trans step₃))), rfl, rfl, .of_kept (hk₀.trans hk₂) hbits,
    (ho₀.trans ho₂).trans ho₃⟩
end

/-- Settles O58: each procedure's run by itself, and its operations as words of HOSTQ. -/
theorem driverProceduresRunAlone : Obligations.DriverProceduresRunAlone := by
  intro s k hu
  have immediate {p : Proc} {r : ProcResult} (hv : p.valid = true) (hi : p.immediate s.cfg = some r) :
      p.run s = .next ⟨s, some r, []⟩ := by
    simp [Proc.run, hv, hi, hu.not_halted]
  refine ⟨fun l => immediate rfl rfl, immediate rfl rfl, fun hstub => immediate rfl (by simp [Proc.immediate, hstub]),
    fun hd hr => ⟨Proc.run_hasMessage hu hd hr, Proc.run_hasFreeTxBuffer hu hd hr, fun hfull => ?errors⟩,
    fun hd hr => ⟨fun p l hp => ?changes, Proc.run_receiveMessage_none hu hd.1 hr,
      Proc.run_receiveMessage_some hu hd hr⟩,
    fun p e words rest hrun h0 hm hq hd => run_words_of_proc hu hrun h0 hm hq hd⟩
  case errors =>
    obtain ⟨e, hrun, hiss, hres⟩ := Proc.run_getBusErrors hu hd hr hfull
    exact ⟨e, _, hrun, hiss, hres, classifyErrors_standard _⟩
  case changes =>
    refine Proc.MakesChanges.run hd hr ?_ hu
    simp only [List.mem_cons, Prod.mk.injEq, List.not_mem_nil, or_false] at hp
    obtain ⟨rfl, rfl⟩ | ⟨rfl, rfl⟩ | ⟨rfl, rfl⟩ | ⟨rfl, rfl⟩ | ⟨rfl, rfl⟩ | ⟨rfl, rfl⟩ | ⟨rfl, rfl⟩ |
      ⟨rfl, rfl⟩ | ⟨rfl, rfl⟩ := hp
    exacts [Proc.makesChanges_setMode k .normal, Proc.makesChanges_setMode k .sleep,
      Proc.makesChanges_setMode k .loopback, Proc.makesChanges_setMode k .listen,
      Proc.makesChanges_setMode k .config, Proc.makesChanges_sleep_busActivity k, Proc.makesChanges_sleep_manual k,
      Proc.makesChanges_wakeup_manual k, Proc.makesChanges_abortAllTransmissions k]

end Sys2Proof.Machine
end

section
/-! PROOFS. The step that SEQ takes: the interrupts before it, dispatch, an operation of a handler or of the host
port, and the low-power wait; and the wake pin's step (43_power_fsm.md R230 to R258; 60_exceptions.md R276). -/

namespace Sys2Proof.Machine

open Sys2Proof

/-! ## The interrupts on SEQ's turn (R244, R246, R276) -/

section
variable {s : State} (hturn : s.agenda.head?.getD .seq = .seq)
include hturn

theorem step_of_inactDeliverable (hi : s.inactDeliverable = true) : step s = .next s.bridge := by
  rw [step_of_seqTurn (seqTurn_of_head s hturn), seqTurn, if_pos hi]

theorem step_of_wakeDeliverable (hi : s.inactDeliverable = false) (hw : s.wakeDeliverable = true) :
    step s = .next s.wakesync := by
  rw [step_of_seqTurn (seqTurn_of_head s hturn), seqTurn, if_neg (by simp [hi]), if_pos hw]

theorem seqFree_of_parts (hi : s.inactDeliverable = false) (hw : s.wakeDeliverable = false) : s.seqFree = true := by
  simp [State.seqFree, hturn, hi, hw]
end

theorem chan_zero_bridge (s : State) : s.bridge.chan 0 = { s.chan 0 with pend := false } := s.chan_setChan 0 _

theorem chan_one_bridge (s : State) : s.bridge.chan 1 = s.chan 1 := s.chan_setChan_ne _ (by decide)

/-- A wake that is latched is not latched again: WKPEND guards the delivery (R246). -/
theorem wakeDeliverable_of_wkpend {s : State} (h : s.wkpend = true) : s.wakeDeliverable = false := by
  simp [State.wakeDeliverable, h]

/-- Settles O38: the step is BRIDGE's, whose writes are PSTATE and its latch. -/
theorem bridgeDelivery : Obligations.BridgeDelivery := by
  intro s hturn hi
  refine ⟨_, step_of_inactDeliverable hturn hi, rfl, chan_zero_bridge s, chan_one_bridge s, rfl, ?_⟩
  rw [State.inactDeliverable, chan_zero_bridge, Bool.false_and]

/-- The resume guard is next when SEQ has the turn in the low-power wait with the wake latched (R250). -/
theorem guardNext_iff {s : State} :
    s.guardNext = true ↔ s.seqFree = true ∧ s.fault = 0 ∧ s.lpm = true ∧ s.wkpend = true := by
  simp [State.guardNext, and_assoc]

/-- Settles O39: the step is WAKESYNC's, and PSLEEP leaves the latched wake for the guard. -/
theorem wakeIsLatched : Obligations.WakeIsLatched := by
  refine ⟨fun s => step_of_wakeDeliverable, fun s => wakeDeliverable_of_wkpend, fun s t hw hready _ ht => ?_⟩
  obtain ⟨hfree, h0, -⟩ := seqReady_parts hready
  obtain rfl : { s with lpm := true } = t := Host.Outcome.next.inj ht
  exact guardNext_iff.mpr ⟨hfree, h0, rfl, hw⟩

/-! ## SEQ's own step -/

section
variable {s : State} (hready : s.seqReady = true)
include hready

/-- SEQ awake, without a fault and with the turn: a step of the host port or of the handlers (R230, R258). -/
theorem step_of_seqReady : step s = if s.hostmode then hostStep s.turnTaken else normalStep s.turnTaken := by
  obtain ⟨hfree, h0, hl⟩ := seqReady_parts hready
  have h0' : ¬s.turnTaken.fault ≠ 0 := not_not.mpr h0
  have hl' : ¬s.turnTaken.lpm = true := by simpa [State.turnTaken] using hl
  rw [step_of_seqFree hfree, seqStep, if_neg h0', if_neg hl']
  rfl

theorem step_of_illegalWord {w : OpWord} {q : List OpWord} {e : DecodeError} (hm : s.hostmode = true)
    (hq : s.hostq = w :: q) (hd : decodeWord w = .error e) :
    step s = .next { s.turnTaken with hostq := q, fault := 0x01 } := by
  have h0 : s.turnTaken.fault = 0 := (seqReady_parts hready).2.1
  have hq' : s.turnTaken.hostq = w :: q := hq
  rw [step_of_seqReady hready, if_pos hm, hostStep, hq']
  refine (performWord_of_error hd _).trans ?_
  rw [State.withFault, if_pos h0]

variable (hm : s.hostmode = false)
include hm

theorem step_of_dispatch (hp : s.pos = ⟨.dispatch, 0⟩) : step s = .next s.turnTaken.dispatch := by
  have hp' : s.turnTaken.pos = ⟨.dispatch, 0⟩ := hp
  rw [step_of_seqReady hready, hm, if_neg Bool.false_ne_true, normalStep, if_pos hp']

theorem step_of_opAt {i : Instr} (hp : s.pos ≠ ⟨.dispatch, 0⟩) (ho : s.opAt = some i) :
    step s = handlerStep i s.turnTaken := by
  have hp' : s.turnTaken.pos ≠ ⟨.dispatch, 0⟩ := hp
  have ho' : s.turnTaken.opAt = some i := ho
  rw [step_of_seqReady hready, hm, if_neg Bool.false_ne_true, normalStep, if_neg hp', ho']
end

/-- Settles O9: the operation's outcome, and the control that follows it where there is no fault. -/
theorem stepPerformsTheHandlerOperation : Obligations.StepPerformsTheHandlerOperation := by
  intro s t i hready hm hp ho
  have hstep := step_of_opAt hready hm hp ho
  refine ⟨fun he hf => ?done, fun he hf => ?faulted, fun r he => ?refused⟩ <;> rw [hstep, handlerStep, he]
  case done => exact congrArg _ (if_pos hf)
  case faulted => exact congrArg _ (if_neg hf)

/-! ## Dispatch (R231, R232) -/

/-- PSTATE's six encodings, and every other value, for which dispatch runs the unrecognized-state handler. -/
theorem handlerOf_cases (b : Byte) :
    (b = 0x00 → handlerOf b = .init) ∧ (b = 0x01 → handlerOf b = .running) ∧ (b = 0x02 → handlerOf b = .sleepDet) ∧
    (b = 0x03 → handlerOf b = .sleeping) ∧ (b = 0x04 → handlerOf b = .wakeup) ∧ (b = 0x05 → handlerOf b = .error) ∧
    (0x06 ≤ b.toNat → handlerOf b = .unrec) := by
  revert b
  decide

theorem dispatch_pos_of_errl {s : State} (h : s.errl = true) : s.dispatch.pos = ⟨.error, 0⟩ := by
  simp [State.dispatch, h]

theorem dispatch_pos_of_not_errl {s : State} (h : s.errl = false) : s.dispatch.pos = ⟨handlerOf s.pstate, 0⟩ := by
  simp [State.dispatch, h]

/-- Settles O10: dispatch writes the position alone, by R231's list; BRIDGE writes no position. -/
theorem dispatchSelectsTheHandler : Obligations.DispatchSelectsTheHandler := by
  refine ⟨fun s hready hm hp => ?dispatch, fun s t _ hturn hi h => ?bridge⟩
  case dispatch =>
    have selected (he : s.errl = false) : s.turnTaken.dispatch.pos.handler = handlerOf s.pstate :=
      congrArg Pos.handler (dispatch_pos_of_not_errl (s := s.turnTaken) he)
    obtain ⟨init, running, sleepDet, sleeping, wakeup, error, unrec⟩ := handlerOf_cases s.pstate
    exact ⟨_, step_of_dispatch hready hm hp, rfl, rfl,
      fun he => congrArg Pos.handler (dispatch_pos_of_errl (s := s.turnTaken) he),
      fun he h => (selected he).trans (init h), fun he h => (selected he).trans (running h),
      fun he h => (selected he).trans (sleepDet h), fun he h => (selected he).trans (sleeping h),
      fun he h => (selected he).trans (wakeup h), fun he h => (selected he).trans (error h),
      fun he h => (selected he).trans (unrec h)⟩
  case bridge =>
    obtain rfl := Host.Outcome.next.inj ((step_of_inactDeliverable hturn hi).symm.trans h)
    exact ⟨rfl, rfl⟩

/-! ## A run without a reset (R232) -/

/-- SEQ's step leaves the schedule as it is. -/
theorem seqStep_agenda {s t : State} (h : seqStep s = .next t) : t.agenda = s.agenda := by
  obtain ⟨rfl, -⟩ | ⟨-, -, -, rfl⟩ | ⟨-, -, -, w, q, -, ⟨i, -, hx⟩ | ⟨-, rfl⟩⟩ | ⟨-, -, -, -, rfl⟩ |
    ⟨-, -, -, -, i, u, -, hx, rfl⟩ := seqStep_cases h
  · rfl
  · exact State.resumeGuard_agenda s
  · exact (exec_keeps hx).agenda
  · exact State.raise_agenda ..
  · rfl
  · split
    · rw [(advance_keeps ..).rest]; exact (exec_keeps hx).agenda
    · exact (exec_keeps hx).agenda

theorem noReset_step {s t : State} (hn : NoReset s.agenda) (h : step s = .next t) : NoReset t.agenda := by
  obtain ⟨rest, hr, ⟨-, rfl⟩ | ⟨-, -, rfl⟩ | ⟨-, -, hs⟩⟩ | ⟨turn, rest, ht, rfl⟩ := step_cases h
  · exact hn
  · exact hn
  · rw [seqStep_agenda hs]; exact noReset_of_seqTurn hr hn
  · obtain ⟨hrest, hne⟩ := noReset_of_envTurn ht hn
    obtain ⟨u, hu, he, -⟩ := envStep_keeps { s with agenda := rest } turn hne
    rw [hu, he]; exact hrest

theorem run_succ_next {n : Nat} {s t : State} (h : Host.Core.run Sys2Proof.core (n + 1) s = .next t) :
    ∃ u, step s = .next u ∧ Host.Core.run Sys2Proof.core n u = .next t := by
  cases hs : step s with
  | next u => exact ⟨u, rfl, (run_succ hs).symm.trans h⟩
  | fault r | refused r =>
    simp only [Host.Core.run, show Sys2Proof.core.step s = _ from hs, reduceCtorEq] at h

/-- What every step keeps while no reset is scheduled holds after any such run. -/
theorem run_keeps {P : State → Prop} (hP : ∀ s t, NoReset s.agenda → step s = .next t → P s → P t) {n : Nat}
    {s t : State} (hn : NoReset s.agenda) (hs : P s) (h : Host.Core.run Sys2Proof.core n s = .next t) : P t := by
  induction n generalizing s with
  | zero => exact Host.Outcome.next.inj h ▸ hs
  | succ n ih =>
    obtain ⟨u, hu, hrun⟩ := run_succ_next h
    exact ih (noReset_step hn hu) (hP s u hn hu hs) hrun

/-- An instruction never clears the Error latch (R254). -/
theorem exec_errl {i : Instr} {s t : State} (h : exec i s = .next t) (hs : s.errl = true) : t.errl = true := by
  obtain ⟨c, -, rfl⟩ | h := exec_cases h
  · rwa [State.raise_errl]
  cases i
  case pseterr => obtain rfl := h; rfl
  case wireReset | wireRead | wireWrite | wireBitmod | wireReadStatus | wireRts | wireReadRx | wireLoadTx =>
    all_goals obtain ⟨-, rfl⟩ | ⟨_, _, _, _, -, -, rfl⟩ : WireEffect _ s t := h <;> exact hs
  case rsel | fbwr => all_goals (obtain ⟨-, rfl⟩ := h; exact hs)
  case rdesel => obtain ⟨-, -, rfl⟩ := h; exact hs
  case rxfer => obtain ⟨-, -, _, _, _, -, rfl⟩ := h; exact hs
  case rreset | rwrite | rbitmod | rwrseq | rrts | rldtx => all_goals (obtain ⟨-, _, _, rfl⟩ := h; exact hs)
  case rread | rrdstat | rrdrx => all_goals (obtain ⟨-, _, _, _, rfl⟩ := h; exact hs)
  case fbrd => obtain ⟨-, _, -, rfl⟩ := h; exact hs
  all_goals (obtain rfl := h; exact hs)

theorem seqStep_errl {s t : State} (h : seqStep s = .next t) (hs : s.errl = true) : t.errl = true := by
  obtain ⟨rfl, -⟩ | ⟨-, -, -, rfl⟩ | ⟨-, -, -, w, q, -, ⟨i, -, hx⟩ | ⟨-, rfl⟩⟩ | ⟨-, -, -, -, rfl⟩ |
    ⟨-, -, -, -, i, u, -, hx, rfl⟩ := seqStep_cases h
  · exact hs
  · rwa [State.resumeGuard_errl]
  · exact exec_errl hx hs
  · rwa [State.raise_errl]
  · exact hs
  · have hu : u.errl = true := exec_errl hx hs
    split
    · rw [(advance_keeps ..).rest]; exact hu
    · exact hu

theorem step_errl {s t : State} (hn : NoReset s.agenda) (h : step s = .next t) (hs : s.errl = true) :
    t.errl = true := by
  obtain ⟨rest, -, ⟨-, rfl⟩ | ⟨-, -, rfl⟩ | ⟨-, -, hx⟩⟩ | ⟨turn, rest, ht, rfl⟩ := step_cases h
  · exact hs
  · exact hs
  · exact seqStep_errl hx hs
  · obtain ⟨u, hu, he, -⟩ := envStep_keeps { s with agenda := rest } turn (noReset_of_envTurn ht hn).2
    rw [hu, he]; exact hs

/-- Settles O42: every step without a reset keeps the latch, and dispatch reads it before PSTATE. -/
theorem errorLatchIsForever : Obligations.ErrorLatchIsForever := by
  intro n s t hn hs h
  have ht : t.errl = true := run_keeps (P := fun s => s.errl = true) (fun _ _ => step_errl) hn hs h
  exact ⟨ht, fun hready hm hp => ⟨_, step_of_dispatch hready hm hp, dispatch_pos_of_errl (s := t.turnTaken) ht⟩⟩

/-! ## The low-power wait (R236, R250) -/

theorem step_of_wait {s : State} (hfree : s.seqFree = true) (h0 : s.fault = 0) (hl : s.lpm = true)
    (hw : s.wkpend = false) : step s = .next s.turnTaken := by
  rw [step_of_seqFree hfree]
  simp [seqStep, State.turnTaken, h0, hl, hw]

theorem step_of_guardNext {s : State} (h : s.guardNext = true) : step s = .next s.turnTaken.resumeGuard := by
  obtain ⟨hfree, h0, hl, hw⟩ := guardNext_iff.mp h
  rw [step_of_seqFree hfree]
  simp [seqStep, State.turnTaken, h0, hl, hw]

/-- Settles O36: PSLEEP's entry, the wait, its guard, and BRIDGE in the wait. -/
theorem lowPowerEntryAndResume : Obligations.LowPowerEntryAndResume := by
  intro s
  refine ⟨rfl, step_of_wait, fun hg => ⟨_, step_of_guardNext hg, State.resumeGuard_pstate _,
    State.resumeGuard_wken _, State.resumeGuard_wkpend _, State.resumeGuard_lpm _, ?eq, fun hm => ?host,
    fun hm hp => ?sleeping⟩, fun hl hturn hi => ⟨_, step_of_inactDeliverable hturn hi, hl, rfl⟩⟩
  case eq =>
    simp only [State.resumeGuard_pstate, State.resumeGuard_wken, State.resumeGuard_wkpend, State.resumeGuard_lpm]
    exact resumeGuard_eq s.turnTaken
  case host =>
    rw [State.resumeGuard_pos, State.resumeGuard_scr]
    simp [State.turnTaken, hm]
  case sleeping =>
    rw [State.resumeGuard_pos]
    exact if_pos ⟨hm, hp⟩

/-! ## The host port (R258) -/

/-- Where SEQ could step, a word placed by withFetchWord is the next one performed (log entry 6). -/
theorem step_withFetchWord {s : State} {w : Nat} {i : Instr} (hi : s.inactDeliverable = false)
    (hw : s.wakeDeliverable = false) (h0 : s.fault = 0) (hl : s.lpm = false)
    (hd : decodeWord (BitVec.ofNat 32 w) = .ok i) :
    step (s.withFetchWord 32 w) = exec i { s with hostmode := true } :=
  step_of_hostWord (s := s.loadWord (BitVec.ofNat 32 w)) (seqReady_of_parts (seqFree_of_parts rfl hi hw) h0 hl)
    rfl rfl hd

/-- Settles O7: the first word of HOSTQ, and a word placed before it. -/
theorem stepPerformsTheHostWord : Obligations.StepPerformsTheHostWord := by
  refine ⟨fun s w q hready hm hq => ⟨fun i => step_of_hostWord hready hm hq,
    fun e => step_of_illegalWord hready hm hq⟩, fun s w i hi hw h0 hl hd => step_withFetchWord hi hw h0 hl ?_⟩
  change (decodeWord (BitVec.ofNat 32 w)).toOption = some i at hd
  cases hx : decodeWord (BitVec.ofNat 32 w) with
  | ok j => rw [hx] at hd; rw [Option.some.inj hd]
  | error e => rw [hx] at hd; cases hd

/-! ## The wake pin (R247) -/

/-- The edge sensed by each setting of WAKE_SENSE. -/
theorem sensedEdge_iff (sense : WakeSense) (old new : Bool) : sensedEdge sense old new = true ↔
    (sense = .falling ∧ old = true ∧ new = false) ∨ (sense = .rising ∧ old = false ∧ new = true) := by
  cases sense <;> simp [sensedEdge]

theorem wakeActive_of_lowLevel {s : State} (h : s.cfg.wakeSense = .lowLevel) : s.wakeActive = !s.wakeIn := by
  simp only [State.wakeActive, h]

/-- Settles O41: the pin's step, and with LOW_LEVEL the level itself is the wake. -/
theorem pinStep : Obligations.PinStep := by
  intro s level rest ha
  refine ⟨_, step_of_envTurn (turn := .pin level) ⟨by simp, ha⟩, fun h => if_pos h, fun h => ?edge, fun hs => ?level⟩
  case edge =>
    have hpin : State.pin { s with agenda := rest } level = { s with
        agenda := rest, wakeIn := level, wakePrev := s.wakeIn,
        wedge := s.wedge || sensedEdge s.cfg.wakeSense s.wakeIn level } := if_neg h
    rw [envStep, hpin]
    refine ⟨rfl, rfl, rfl, ?_⟩
    rw [Bool.or_eq_true, sensedEdge_iff]
  case level =>
    have hsense : (State.pin { s with agenda := rest } level).cfg.wakeSense = .lowLevel := by
      rw [State.pin_cfg]; exact hs
    rw [envStep, wakeActive_of_lowLevel hsense, Bool.not_eq_true']

/-! ## The power sequencer's operations (R249 to R256) -/

/-- Settles O35: each operation writes its element. -/
theorem powerOperations : Obligations.PowerOperations := by
  intro s v b slot
  refine ⟨rfl, rfl, ⟨_, _, rfl, rfl, ?state⟩, rfl, rfl, ⟨_, rfl, rfl, ?written, fun x hx => ?kept⟩, ⟨_, rfl, rfl, ?_⟩⟩
  case state =>
    rw [zext16, BitVec.toNat_setWidth]
    omega
  case written => exact (sensorRead_sensorWrite ..).trans (if_pos rfl)
  case kept => exact (sensorRead_sensorWrite ..).trans (if_neg hx)
  case _ => exact Bool.xor_true _

end Sys2Proof.Machine
end

section
/-! PROOFS. The operations of the handlers as words, the sensor frame's operations, and the machine that never
stops (42_driver.md R209; 43_power_fsm.md R230, R234, R241; 41_regbus.md R167). -/

namespace Sys2Proof.Machine

open Sys2Proof

/-! ## The operations of the handlers (R209, R230) -/

/-- No handler has a wire command among its operations. -/
theorem isWire_of_mem_ops {cfg : Config} {scr : Scratch} {h : Handler} {i : Instr} (hi : i ∈ h.ops cfg scr) :
    i.isWire = false := by
  by_cases hs : h = .sleeping
  · subst hs
    obtain rfl | rfl : i = .parm ∨ i = .psleep := by simpa [Handler.ops] using hi
    · rfl
    · rfl
  · have hplain := isPlain_of_mem_ops cfg scr hs i hi
    simp only [Instr.isPlain, Bool.and_eq_true, Bool.not_eq_true'] at hplain
    exact hplain.1

/-- Every instruction but a wire command is encoded as an operation word (30_encoding.md R83). -/
theorem encode_eq_word {i : Instr} (h : i.isWire = false) : ∃ w, encode i = .word w := by
  cases i
  case wireReset | wireRead | wireWrite | wireBitmod | wireReadStatus | wireRts | wireReadRx | wireLoadTx =>
    all_goals cases h
  all_goals exact ⟨_, rfl⟩

/-- Settles O11: a handler's operation is no wire command, and its word decodes to it. -/
theorem handlersIssueOperationWords : Obligations.HandlersIssueOperationWords := by
  intro cfg scr h i hi
  have hw := isWire_of_mem_ops hi
  obtain ⟨w, he⟩ := encode_eq_word hw
  have hd := decodeOfEncode i (encodable_of_not_isWire hw)
  rw [he] at hd
  exact ⟨w, he, hd⟩

/-- The Running handler's operations before the sensors are updated (R234). -/
def runningOps (cfg : Config) : List Instr :=
  [.rrdstat cfg.pdcChip, .rrdstat cfg.pdcChip, .rrdrx cfg.pdcChip 0 13, .rread cfg.pdcChip cfg.map.rxb0ctrl,
    .rbitmod cfg.pdcChip cfg.map.canintf cfg.map.rx0ifBit 0x00]

theorem ops_running (cfg : Config) (scr : Scratch) :
    Handler.ops cfg scr .running = runningOps cfg ++ .trestart 0 :: sensorOps cfg scr := rfl

theorem isSensorFrame_iff (cfg : Config) (f : CanFrame) :
    isSensorFrame cfg f = true ↔ f.id = cfg.pdcCanId ∧ f.rtr = false ∧ f.len = 8 := by
  simp [isSensorFrame, and_assoc]

section
variable {cfg : Config} {scr : Scratch} {f : CanFrame} (hf : scr.frame = some f)
include hf

/-- Data bytes 2, 3, 6 and 7 go to sensors 0 to 3 (R241). -/
theorem sensorOps_of_sensorFrame (h : f.id = cfg.pdcCanId ∧ f.rtr = false ∧ f.len = 8) : sensorOps cfg scr =
    [.psens 0 (f.data.getD 2 0), .psens 1 (f.data.getD 3 0), .psens 2 (f.data.getD 6 0),
      .psens 3 (f.data.getD 7 0)] := by
  simp only [sensorOps, hf, (isSensorFrame_iff cfg f).mpr h, if_true]
  rfl

theorem sensorOps_of_other (h : ¬(f.id = cfg.pdcCanId ∧ f.rtr = false ∧ f.len = 8)) : sensorOps cfg scr = [] := by
  simp only [sensorOps, hf, if_neg (mt (isSensorFrame_iff cfg f).mp h)]
end

/-- Settles O54: the operations up to TRESTART 0, and those of the sensors. -/
theorem sensorUpdate : Obligations.SensorUpdate := by
  intro cfg scr f hf _
  refine ⟨fun hid hrtr hlen => ?_, fun h => ?_⟩ <;> rw [ops_running]
  · rw [sensorOps_of_sensorFrame hf ⟨hid, hrtr, hlen⟩]
    rfl
  · rw [sensorOps_of_other hf h]
    rfl

/-! ## The machine never stops (R230) -/

theorem Total.next (t : State) : Total (.next t) := .inl ⟨t, rfl⟩

theorem total_hostStep (s : State) : Total (hostStep s) := by
  unfold hostStep
  split
  · exact .next s
  · unfold performWord
    split
    · exact exec_total ..
    · exact .next _

theorem total_handlerStep (i : Instr) (s : State) : Total (handlerStep i s) := by
  obtain ⟨t, h⟩ | ⟨r, h, hr⟩ := exec_total i s <;> rw [handlerStep, h]
  · exact .next _
  · exact .inr ⟨r, rfl, hr⟩

/-- With the invariant SEQ's place has a step (R20). -/
theorem total_normalStep {s : State} (hi : Inv s) (hm : s.hostmode = false) (hl : s.lpm = false) :
    Total (normalStep s) := by
  unfold normalStep
  obtain ⟨hp, -⟩ | ⟨hne, ho⟩ := hi.placeOk hm hl
  · rw [if_pos hp]
    exact .next _
  · obtain ⟨i, ho⟩ := Option.isSome_iff_exists.mp ho
    rw [if_neg fun e => hne (congrArg Pos.handler e), ho]
    exact total_handlerStep i s

theorem total_seqStep {s : State} (hi : Inv s) : Total (seqStep s) := by
  unfold seqStep
  split
  · exact .next s
  split
  · split
    · exact .next _
    · exact .next s
  next hl =>
  split
  · exact total_hostStep s
  · next hm => exact total_normalStep hi (Bool.eq_false_iff.mpr hm) (Bool.eq_false_iff.mpr hl)

/-- Settles O48: an interrupt and another agent's turn are steps, and SEQ's own stops for a refused frame alone. -/
theorem theMachineNeverStops : Obligations.TheMachineNeverStops := by
  intro s hi
  show Total (step s)
  obtain ⟨rest, hr⟩ | ⟨turn, rest, ht⟩ := turn_cases s
  · rw [step_of_seqTurn hr, seqTurn]
    split
    · exact .next _
    split
    · exact .next _
    · exact total_seqStep (inv_agenda hi rest)
  · rw [step_of_envTurn ht]
    exact .next _

end Sys2Proof.Machine
end

section
/-! PROOFS. Passes of the handlers with no other agent between: the Error handler and the unrecognized-state handler,
Sleeping with the wake pending, and Wakeup and SleepDetected in both wake modes (43_power_fsm.md R235 to R239,
R257; 42_driver.md R204, R205). -/

namespace Sys2Proof.Machine

open Sys2Proof

/-! ## SEQ alone at a step of a handler -/

/-- Dispatch of SEQ alone, to the handler that R231's list selects. -/
theorem Quiet.step_dispatch {s : State} (hq : Quiet s) (hp : s.pos = ⟨.dispatch, 0⟩) {h : Handler}
    (hd : s.dispatch.pos = ⟨h, 0⟩) : Machine.step s = .next (s.goto h 0 s.scr) := by
  rw [(hq.disp hp).1, ← show s.dispatch.pos.handler = h by rw [hd]]
  rfl

/-- An operation that SEQ alone performs at step i of handler h, with c in SCR, and the control after it. -/
theorem Quiet.step_goto {s t : State} (hq : Quiet s) {h : Handler} (hh : h ≠ .dispatch) {i : Nat} {c : Scratch}
    {op : Instr} (hop : (h.ops s.cfg c)[i]? = some op) (he : exec op s = .next t) (hf : t.fault = 0) :
    Machine.step (s.goto h i c) = .next (advance h i (t.goto h i c)) := by
  refine (hq.placed ⟨h, i⟩ c s.hostq).op (fun e => hh (congrArg Pos.handler e)) hop ?_ hf
  rw [goto_eq_placed, (exec_keeps he).hostq]
  exact exec_placed_next _ _ _ he

theorem dispatch_pos {s : State} {h : Handler} (he : s.errl = false) (hh : handlerOf s.pstate = h) :
    s.dispatch.pos = ⟨h, 0⟩ := by
  rw [dispatch_pos_of_not_errl he, hh]

/-! ## The Error handler (R238, R239) -/

/-- s with the indicator toggled n times. -/
def State.blinked (s : State) (n : Nat) : State := { s with ind := s.ind ^^ n.bodd }

theorem State.blinked_ind_iff (s : State) (n : Nat) : (s.blinked n).ind = s.ind ↔ n % 2 = 0 := by
  rw [State.blinked, Nat.mod_two_of_bodd]
  cases s.ind <;> cases n.bodd <;> simp

theorem State.blinked_zero (s : State) : s.blinked 0 = s := by simp [State.blinked]

theorem State.blinked_blinked (s : State) (m n : Nat) : (s.blinked m).blinked n = s.blinked (m + n) := by
  simp [State.blinked, Nat.bodd_add]

theorem exec_pind (s : State) : exec .pind s = .next (s.blinked 1) := rfl

theorem exec_pind_blinked (s : State) (n : Nat) : exec .pind (s.blinked n) = .next (s.blinked (n + 1)) := by
  rw [exec_pind, State.blinked_blinked]

theorem soloRun_pind {s : State} (hq : Quiet s) (n : Nat) : SoloRun (List.replicate n .pind) s (s.blinked n) := by
  induction n generalizing s with
  | zero =>
    rw [State.blinked_zero]
    exact .nil s
  | succ n ih =>
    have hblinked : Quiet (s.blinked 1) := ⟨hq.und, hq.host⟩
    have hrest := ih hblinked
    rw [State.blinked_blinked, Nat.add_comm] at hrest
    exact .cons (exec_pind s) hblinked hrest

/-- The Error handler's operations but the last toggle leave SEQ alone to step. -/
theorem soloRun_error {s : State} (hq : Quiet s) (n : Nat) :
    SoloRun (.pseterr :: List.replicate n .pind) s (State.blinked { s with errl := true } n) :=
  .cons rfl ⟨hq.und, hq.host⟩ (soloRun_pind (s := { s with errl := true }) ⟨hq.und, hq.host⟩ n)

theorem ops_error {cfg : Config} (scr : Scratch) {n : Nat} (hn : cfg.nBlink = n + 1) :
    Handler.ops cfg scr .error = (.pseterr :: List.replicate n .pind) ++ [.pind] := by
  rw [Handler.ops, hn, List.replicate_succ', List.cons_append]

/-- The Error handler from its first operation on, and from dispatch on. -/
theorem run_error {s : State} (hq : Quiet s) (hb : 1 ≤ s.cfg.nBlink) :
    (s.pos = ⟨.error, 0⟩ → Host.Core.run Sys2Proof.core (1 + s.cfg.nBlink) s =
      .next (State.blinked { s with errl := true } s.cfg.nBlink).finish) ∧
    (s.pos = ⟨.dispatch, 0⟩ → s.dispatch.pos = ⟨.error, 0⟩ → Host.Core.run Sys2Proof.core (2 + s.cfg.nBlink) s =
      .next (State.blinked { s with errl := true } s.cfg.nBlink).finish) := by
  obtain ⟨n, hn⟩ : ∃ n, s.cfg.nBlink = n + 1 := ⟨s.cfg.nBlink - 1, by omega⟩
  have hlen : (Instr.pseterr :: List.replicate n .pind).length = n + 1 := by simp
  rw [hn]
  constructor
  · intro hp
    have hrun := straight_pass .error (fun _ _ => rfl) (by decide) hq hp (ops_error s.scr hn) (soloRun_error hq n)
      (exec_pind_blinked _ n) hq.fault
    rwa [hlen, Nat.add_comm] at hrun
  · intro hp hd
    have hrun := straight_pass_dispatch .error (fun _ _ => rfl) (by decide) hq hp hd (ops_error s.scr hn)
      (soloRun_error hq n) (exec_pind_blinked _ n) hq.fault
    rwa [hlen, Nat.add_comm] at hrun

/-- Settles O53: dispatch, PWRST of Error, and the Error handler. -/
theorem unrecognizedStatePass : Obligations.UnrecognizedStatePass := by
  intro s hu hm hp he hs hb
  have hq : Quiet s := ⟨hu, hm⟩
  obtain ⟨-, -, -, -, -, -, hunrec⟩ := handlerOf_cases s.pstate
  have hdispatch := hq.step_dispatch hp (dispatch_pos he (hunrec hs))
  generalize hv : ({ s with pstate := PowerState.error.code } : State) = v
  have hpwrst : step (s.goto .unrec 0 s.scr) = .next (v.goto .error 0 s.scr) :=
    hq.step_goto (h := .unrec) (by decide) rfl (congrArg _ hv) (hv ▸ hq.fault)
  have herror := (run_error (s := v.goto .error 0 s.scr) (hv ▸ ⟨hu, hm⟩) (hv ▸ hb)).1 rfl
  subst hv
  rw [show 3 + s.cfg.nBlink = 1 + s.cfg.nBlink + 1 + 1 by omega, run_succ hdispatch, run_succ hpwrst]
  exact ⟨_, herror, rfl, rfl, rfl, State.blinked_ind_iff s s.cfg.nBlink, rfl⟩

/-! ## Sleeping with the wake pending (R236, R246, R250, R257) -/

/-- Armed, with LOW_LEVEL sensed and the pin low, the wake is deliverable until it is latched. -/
theorem wakeDeliverable_of_lowLevel {s : State} (hk : s.wken = true) (hp : s.wkpend = false)
    (hsense : s.cfg.wakeSense = .lowLevel) (hpin : s.wakeIn = false) : s.wakeDeliverable = true := by
  simp [State.wakeDeliverable, wakeActive_of_lowLevel hsense, hk, hp, hpin]

section
variable {s : State} (ha : s.agenda = []) (hi : s.inactDeliverable = false) (h0 : s.fault = 0)
include ha hi h0

/-- With nothing scheduled the guard is the step, once the wake is latched. -/
theorem step_of_latchedWait (hl : s.lpm = true) (hw : s.wkpend = true) : step s = .next s.resumeGuard := by
  have hfree := seqFree_of_parts (by rw [ha]; rfl) hi (wakeDeliverable_of_wkpend hw)
  rw [step_of_guardNext (guardNext_iff.mpr ⟨hfree, h0, hl, hw⟩), State.turnTaken, ha, List.tail_nil, ← ha]

/-- The guard disarms the wake and leaves SEQ alone to step. -/
theorem quiet_resumeGuard (hm : s.hostmode = false) : Quiet s.resumeGuard := by
  refine ⟨⟨(State.resumeGuard_agenda s).trans ha, ?_, ?_, (State.resumeGuard_fault s).trans h0,
    State.resumeGuard_lpm s⟩, (State.resumeGuard_hostmode s).trans hm⟩
  · rw [State.inactDeliverable, State.chan_eq_of_tmr (State.resumeGuard_tmr s)]
    exact hi
  · rw [State.wakeDeliverable, State.resumeGuard_wken, Bool.false_and]
end

/-- Settles O52: dispatch, PARM, the wake latched, PSLEEP and the guard, which disarms the wake. -/
theorem sleepingPassWithTheWakePending : Obligations.SleepingPassWithTheWakePending := by
  intro s hu hm hp he hs hsense hpin hpend
  have hq : Quiet s := ⟨hu, hm⟩
  obtain ⟨ha, hi, -, h0, hl⟩ := hu
  have hdispatch := hq.step_dispatch hp (h := .sleeping) (dispatch_pos he (by rw [hs]; rfl))
  let armed : State := { s with wken := true }
  have hparm : step (s.goto .sleeping 0 s.scr) = .next (armed.goto .sleeping 1 s.scr) :=
    hq.step_goto (t := armed) (h := .sleeping) (by decide) rfl rfl h0
  have hlatch : step (armed.goto .sleeping 1 s.scr) = .next (armed.wakesync.goto .sleeping 1 s.scr) :=
    step_of_wakeDeliverable (by rw [State.goto, ha]; rfl) hi (wakeDeliverable_of_lowLevel rfl hpend hsense hpin)
  have hlatched : Quiet armed.wakesync := ⟨⟨ha, hi, wakeDeliverable_of_wkpend rfl, h0, hl⟩, hm⟩
  let waiting : State := State.goto { armed.wakesync with lpm := true } .sleeping 2 s.scr
  have hpsleep : step (armed.wakesync.goto .sleeping 1 s.scr) = .next waiting :=
    hlatched.step_goto (t := { armed.wakesync with lpm := true }) (h := .sleeping) (by decide) rfl rfl h0
  have hguard : step waiting = .next waiting.resumeGuard := step_of_latchedWait ha hi h0 rfl rfl
  have hawake : waiting.resumeGuard.pos = ⟨.dispatch, 0⟩ := (State.resumeGuard_pos _).trans (if_pos ⟨hm, rfl⟩)
  have hquiet : Quiet waiting.resumeGuard := quiet_resumeGuard ha hi h0 hm
  have hnext := hquiet.step_dispatch hawake (h := .wakeup)
    (dispatch_pos ((State.resumeGuard_errl _).trans he) (by rw [State.resumeGuard_pstate]; rfl))
  refine ⟨_, _, ?run, hawake, State.resumeGuard_pstate _, State.resumeGuard_wken _, State.resumeGuard_wkpend _,
    State.resumeGuard_lpm _, hnext, rfl, State.resumeGuard_wken _, hquiet.und.2.2.1⟩
  rw [run_succ hdispatch, run_succ hparm, run_succ hlatch, run_succ hpsleep, run_succ hguard]
  rfl

/-! ## Both timer channels -/

/-- Both channels changed as f says. -/
def State.onBoth (s : State) (f : Channel → Channel) : State := (s.onChan 0 f).onChan 1 f

theorem State.chan_onBoth (s : State) (f : Channel → Channel) (c : ChanIx) : (s.onBoth f).chan c = f (s.chan c) := by
  match c with
  | 0 => rw [State.onBoth, State.chan_onChan_ne _ _ (by decide), State.chan_onChan]
  | 1 => rw [State.onBoth, State.chan_onChan, State.chan_onChan_ne _ _ (by decide)]

/-- A change of a channel that makes no inactivity event deliverable leaves SEQ alone to step. -/
theorem Quiet.onChan {s : State} (hq : Quiet s) {c : ChanIx} {f : Channel → Channel}
    (hf : c = 0 → ((f (s.chan 0)).pend && (f (s.chan 0)).ie) = false) : Quiet (s.onChan c f) := by
  obtain ⟨⟨ha, hi, hw, h0, hl⟩, hm⟩ := hq
  refine ⟨⟨ha, ?_, hw, h0, hl⟩, hm⟩
  by_cases hc : c = 0
  · subst hc
    rw [State.inactDeliverable, State.chan_onChan]
    exact hf rfl
  · rw [State.inactDeliverable, State.chan_onChan_ne _ _ (Ne.symm hc)]
    exact hi

/-- An operation of the timer unit that keeps TPEND and TIE, on channel 0 and then on channel 1. -/
theorem soloRun_onBoth {s : State} (hq : Quiet s) {f : Channel → Channel} {i : ChanIx → Instr}
    (hf : ∀ ch, (f ch).pend = ch.pend ∧ (f ch).ie = ch.ie) (he : ∀ c t, exec (i c) t = .next (t.onChan c f)) :
    SoloRun [i 0, i 1] s (s.onBoth f) := by
  have keeps {t : State} (ht : Quiet t) (c : ChanIx) : Quiet (t.onChan c f) := ht.onChan fun _ => by
    rw [(hf _).1, (hf _).2]
    exact ht.und.2.1
  exact .cons (he 0 s) (keeps hq 0) (.one (he 1 _) (keeps (keeps hq 0) 1))

/-- A channel after TRESTART (R116). -/
def Channel.restarted (ch : Channel) : Channel := { ch with cnt := 0, run := true }

/-- A channel after TSTOP (R115). -/
def Channel.stopped (ch : Channel) : Channel := { ch with run := false }

theorem soloRun_restart {s : State} (hq : Quiet s) :
    SoloRun [.trestart 0, .trestart 1] s (s.onBoth Channel.restarted) :=
  soloRun_onBoth hq (i := .trestart) (fun _ => ⟨rfl, rfl⟩) fun _ _ => rfl

theorem soloRun_stop {s : State} (hq : Quiet s) : SoloRun [.tstop 0, .tstop 1] s (s.onBoth Channel.stopped) :=
  soloRun_onBoth hq (i := .tstop) (fun _ => ⟨rfl, rfl⟩) fun _ _ => rfl

/-! ## Wakeup and SleepDetected (R235, R237) -/

/-- The driver's bit changes, performed one after another. -/
theorem Proc.MakesChanges.quietRun {p : Proc} {s : State} {k : ChipIx} {l : List BitChange}
    (hp : p.MakesChanges k l) (hd : DefaultRegisters s k) (hr : s.rawopen = false) :
    ∃ t, QuietRun (p.ops s.cfg s.scr) s t ∧ BitsChanged s t k l ∧ OtherChipKept s t k ∧ BusOnly s t := by
  obtain ⟨-, hops, hne, -, hregs⟩ := hp
  obtain ⟨c, l, rfl⟩ := List.exists_cons_of_ne_nil hne
  rw [hops s.scr hd.1.1]
  exact quietRun_bitChanges hd hr c l (List.all_eq_true.mp hregs)

/-- Wakeup from dispatch on, the driver's operations leaving the state v. -/
theorem run_wakeup {s v : State} (hq : Quiet s) (hp : s.pos = ⟨.dispatch, 0⟩) (he : s.errl = false)
    (hs : s.pstate = 0x04) (hv : QuietRun ((Proc.wakeup s.cfg.pdcChip s.cfg.wakeMode).ops s.cfg s.scr) s v) :
    Host.Core.run Sys2Proof.core (((Proc.wakeup s.cfg.pdcChip s.cfg.wakeMode).ops s.cfg s.scr).length + 4) s =
      .next (State.finish { v.onBoth Channel.restarted with pstate := PowerState.running.code }) := by
  have hsolo := SoloRun.of_quietRun hv hq
  have hrun := straight_pass_dispatch .wakeup (fun _ _ => rfl) (by decide) hq hp
    (dispatch_pos he (by rw [hs]; rfl)) (by simp [Handler.ops])
    (hsolo.append (soloRun_restart (hsolo.quiet hq))) (op := .pwrst PowerState.running.code) rfl
    (hsolo.quiet hq).fault
  rwa [List.length_append] at hrun

/-- Settles O51: the driver's operations, both timers restarted, and PWRST of Running. -/
theorem wakeupPass : Obligations.WakeupPass := by
  intro s hu hm hp he hs
  have hq : Quiet s := ⟨hu, hm⟩
  refine ⟨fun hmode => ?busActivity, fun hmode hr hd => ?manual⟩
  case busActivity =>
    have hrun := run_wakeup hq hp he hs (v := s) (by rw [hmode]; exact .nil s)
    rw [hmode] at hrun
    exact ⟨_, hrun, rfl, rfl, s.chan_onBoth _, rfl⟩
  case manual =>
    have hchanges := Proc.makesChanges_wakeup_manual s.cfg.pdcChip
    obtain ⟨v, hv, hbits, hother, hb⟩ := hchanges.quietRun hd hr
    have hrun := run_wakeup hq hp he hs (v := v) (by rw [hmode]; exact hv)
    rw [hmode, hchanges.ops s.scr hd.1.1] at hrun
    refine ⟨_, hrun, rfl, rfl, fun c => (v.chan_onBoth _ c).trans ?_, hbits, hother, ?_⟩
    · rw [hb]; rfl
    · rw [hb]; rfl

/-- SleepDetected from dispatch on, the driver's operations leaving the state v. -/
theorem run_sleepDet {s v : State} (hq : Quiet s) (hp : s.pos = ⟨.dispatch, 0⟩) (he : s.errl = false)
    (hs : s.pstate = 0x02)
    (hv : QuietRun ((Proc.sleep s.cfg.pdcChip s.cfg.wakeMode).ops s.cfg s.scr) (s.onBoth Channel.stopped) v) :
    Host.Core.run Sys2Proof.core (((Proc.sleep s.cfg.pdcChip s.cfg.wakeMode).ops s.cfg s.scr).length + 4) s =
      .next (State.finish { v with pstate := PowerState.sleeping.code }) := by
  have hstop := soloRun_stop hq
  have hsolo := hstop.append (SoloRun.of_quietRun hv (hstop.quiet hq))
  have hrun := straight_pass_dispatch .sleepDet (fun _ _ => rfl) (by decide) hq hp
    (dispatch_pos he (by rw [hs]; rfl)) rfl hsolo (op := .pwrst PowerState.sleeping.code) rfl
    (hsolo.quiet hq).fault
  have hlen (l : List Instr) : ([Instr.tstop 0, .tstop 1] ++ l).length + 2 = l.length + 4 := by simp
  rwa [hlen] at hrun

end Sys2Proof.Machine
end

section
/-! PROOFS. The Init handler's pass with no other agent between: up to the driver's first poll, each poll, and what
follows the last one (43_power_fsm.md R233; 42_driver.md R192 to R194). -/

namespace Sys2Proof.Machine

open Sys2Proof

/-! ## A stretch of a handler -/

theorem State.goto_self {s : State} {h : Handler} {i : Nat} (hp : s.pos = ⟨h, i⟩) : s.goto h i s.scr = s := by
  rw [State.goto, ← hp]

theorem run_trans {m n : Nat} {s t u : State} (h : Host.Core.run Sys2Proof.core m s = .next t)
    (h' : Host.Core.run Sys2Proof.core n t = .next u) : Host.Core.run Sys2Proof.core (m + n) s = .next u :=
  (run_append h).trans h'

section
variable {h : Handler} (hh : h ≠ .dispatch) {l : List Instr} {s v : State} {i : Nat} {c : Scratch} (hq : Quiet s)
  (hl : SoloRun l s v)
include hh hq hl

/-- SEQ alone goes through operations of a handler with no decision between, from step i on with c in SCR. -/
theorem run_walk (hops : ∀ j, j < l.length → (h.ops s.cfg c)[i + j]? = l[j]?)
    (hgo : ∀ j u, j < l.length → u.cfg = s.cfg → u.scr = c → advance h (i + j) u = u.goto h (i + j + 1) u.scr) :
    Host.Core.run Sys2Proof.core l.length (s.goto h i c) = .next (v.goto h (i + l.length) c) := by
  have hwalk := (handler_walk h hh l (s.goto h i c) _ i (hq.placed ⟨h, i⟩ c s.hostq) rfl
    (hl.placed ⟨h, i⟩ c s.hostq) hops hgo).1
  rw [goto_eq_placed v, hl.keeps.2.2.2]
  exact hwalk

/-- The same up to the operation that ends the handler. -/
theorem run_walk_finish {op : Instr} {w : State} (he : exec op v = .next w) (hf : w.fault = 0)
    (hops : ∀ j, j < l.length + 1 → (h.ops s.cfg c)[i + j]? = (l ++ [op])[j]?)
    (hgo : ∀ j u, j < l.length → u.cfg = s.cfg → u.scr = c → advance h (i + j) u = u.goto h (i + j + 1) u.scr)
    (hend : ∀ u, u.cfg = s.cfg → u.scr = c → advance h (i + l.length) u = u.finish) :
    Host.Core.run Sys2Proof.core (l.length + 1) (s.goto h i c) = .next w.finish := by
  have hcfg := hl.keeps.1
  have hlast := (hl.quiet hq).step_goto hh (i := i + l.length) (c := c)
    (by rw [hcfg, hops _ (Nat.lt_succ_self _)]; simp) he hf
  rw [show advance h _ (w.goto h (i + l.length) c) = w.finish from hend _ ((exec_keeps he).cfg.trans hcfg) rfl] at hlast
  refine run_snoc (run_walk hh hq hl (fun j hj => ?_) hgo) hlast
  rw [hops j (by omega), List.getElem?_append_left hj]
end

/-! ## The operations of Init (R233) -/

theorem initProc_ops (cfg : Config) (scr : Scratch) : (initProc cfg).ops cfg scr =
    initSetupOps cfg cfg.pdcChip cfg.bitrateSel .normal ++
      List.replicate cfg.nPoll (.rread cfg.pdcChip cfg.map.canstat) := rfl

theorem initProc_ops_length (cfg : Config) (scr : Scratch) : ((initProc cfg).ops cfg scr).length = 20 + cfg.nPoll := by
  rw [initProc_ops, List.length_append, initSetupOps_length, List.length_replicate]

/-- Init's operations before its first poll. -/
def beforePolls (cfg : Config) : List Instr :=
  initPrologue cfg ++ initSetupOps cfg cfg.pdcChip cfg.bitrateSel .normal

theorem beforePolls_length (cfg : Config) : (beforePolls cfg).length = 25 := rfl

theorem ops_init (cfg : Config) (scr : Scratch) : Handler.ops cfg scr .init =
    beforePolls cfg ++ List.replicate cfg.nPoll (.rread cfg.pdcChip cfg.map.canstat) ++ initEpilogue := by
  simp only [Handler.ops, initProc_ops, beforePolls, List.append_assoc]

theorem ops_init_beforePolls (cfg : Config) (scr : Scratch) {i : Nat} (hi : i < 25) :
    (Handler.ops cfg scr .init)[i]? = (beforePolls cfg)[i]? := by
  rw [ops_init, List.append_assoc, List.getElem?_append_left (by rw [beforePolls_length]; exact hi)]

theorem ops_init_poll (cfg : Config) (scr : Scratch) {j : Nat} (hj : j < cfg.nPoll) :
    (Handler.ops cfg scr .init)[25 + j]? = some (.rread cfg.pdcChip cfg.map.canstat) := by
  rw [ops_init, List.append_assoc, List.getElem?_append_right (by rw [beforePolls_length]; omega), beforePolls_length,
    Nat.add_sub_cancel_left, List.getElem?_append_left (by simpa using hj), List.getElem?_replicate, if_pos hj]

theorem ops_init_epilogue (cfg : Config) (scr : Scratch) (i : Nat) :
    (Handler.ops cfg scr .init)[25 + cfg.nPoll + i]? = initEpilogue[i]? := by
  have hlen : (beforePolls cfg ++ List.replicate cfg.nPoll (Instr.rread cfg.pdcChip cfg.map.canstat)).length =
      25 + cfg.nPoll := by rw [List.length_append, beforePolls_length, List.length_replicate]
  rw [ops_init, List.getElem?_append_right (by omega), hlen, Nat.add_sub_cancel_left]

/-! ## The decisions of Init (R194, R233) -/

/-- With a poll to come, init goes straight through its operations before the polls. -/
theorem Proc.after_init_setup {u : State} (k : ChipIx) (b : Fin 2) (m : Mode) {n : Nat} (hn : n < 20)
    (hpoll : u.cfg.nPoll ≠ 0) : (Proc.init k b m).after n u = .goto (n + 1) u.scr := by
  simp only [Proc.after, initSetupOps_length, if_neg hpoll]
  by_cases h : n + 1 < 20
  · rw [if_pos h]
  · rw [if_neg h, if_pos (by omega)]

theorem Proc.after_init_reading {u : State} {r : Half} (hres : u.res = some r) (k : ChipIx) (b : Fin 2) (m : Mode)
    (j : Nat) : (Proc.init k b m).after (20 + j) u = afterPoll u.cfg m (20 + j) j u.scr r := by
  simp only [Proc.after, initSetupOps_length, onRes, hres, Nat.add_sub_cancel_left]
  rw [if_neg (by omega), if_neg (by omega)]

/-- With a poll to come, Init goes straight through its operations before the polls. -/
theorem advance_init_beforePolls {u : State} {i : Nat} (hi : i < 25) (hpoll : u.cfg.nPoll ≠ 0) :
    advance .init i u = u.goto .init (i + 1) u.scr := by
  simp only [advance, advanceInit, initProc_ops_length]
  by_cases h : i < 4
  · rw [if_pos h]
  by_cases h4 : i = 4
  · subst h4; rfl
  rw [if_neg h, if_neg h4, if_pos (by omega), initProc, Proc.after_init_setup _ _ _ (by omega) hpoll]
  show u.goto .init (5 + (i - 5 + 1)) u.scr = _
  rw [show 5 + (i - 5 + 1) = i + 1 by omega]

/-- After the j-th poll: SUCCESS, the next poll, or FAILURE. -/
theorem advance_init_poll {u : State} {r : Half} (hres : u.res = some r) {j : Nat} (hj : j < u.cfg.nPoll) :
    advance .init (25 + j) u =
      if acknowledged u.cfg .normal r then u.goto .init (25 + u.cfg.nPoll) { u.scr with initResult := some true }
      else if j + 1 < u.cfg.nPoll then u.goto .init (25 + (j + 1)) u.scr
      else u.goto .init (25 + u.cfg.nPoll + 3) { u.scr with initResult := some false } := by
  simp only [advance, advanceInit, initProc_ops_length]
  rw [if_neg (by omega), if_neg (by omega), if_pos (by omega), initProc, show 25 + j - 5 = 20 + j by omega,
    Proc.after_init_reading hres, afterPoll]
  have hend : 5 + (20 + u.cfg.nPoll) = 25 + u.cfg.nPoll := by omega
  by_cases hack : acknowledged u.cfg .normal r = true
  · simp only [hack, if_true, hend]
  by_cases hnext : j + 1 < u.cfg.nPoll
  · simp only [hack, hnext, if_true, Bool.false_eq_true, if_false, show 5 + (20 + j + 1) = 25 + (j + 1) by omega]
  · simp only [hack, hnext, Bool.false_eq_true, if_false, hend]

/-- After init: on SUCCESS three operations, of which the third ends the handler. -/
theorem advance_init_epilogue (u : State) (i : Nat) : advance .init (25 + u.cfg.nPoll + i) u =
    if i < 2 then u.goto .init (25 + u.cfg.nPoll + i + 1) u.scr else u.finish := by
  simp only [advance, advanceInit, initProc_ops_length]
  rw [if_neg (by omega), if_neg (by omega), if_neg (by omega)]
  exact if_congr (by omega) rfl rfl

/-! ## Init up to its first poll -/

/-- s with the compare values and enables that Init sets. -/
def State.initTimers (s : State) : State :=
  (((s.onChan 0 fun ch => { ch with cmp := s.cfg.cmpInact }).onChan 1 fun ch => { ch with cmp := s.cfg.cmpTick
    }).onChan 0 fun ch => { ch with ie := true }).onChan 1 fun ch => { ch with ie := s.cfg.tickIe }

theorem State.chan_initTimers (s : State) :
    s.initTimers.chan 0 = { s.chan 0 with cmp := s.cfg.cmpInact, ie := true } ∧
    s.initTimers.chan 1 = { s.chan 1 with cmp := s.cfg.cmpTick, ie := s.cfg.tickIe } := by
  have h01 : (0 : ChanIx) ≠ 1 := by decide
  constructor <;> simp only [State.initTimers, State.chan_onChan, State.chan_onChan_ne _ _ h01,
    State.chan_onChan_ne _ _ h01.symm]

/-- s after the Init handler's operations before init. -/
def State.initPrepared (s : State) : State := { s with tmr := s.initTimers.tmr, wken := false }

theorem State.initPrepared_cfg (s : State) : s.initPrepared.cfg = s.cfg := rfl

/-- What init's operations keep after the prologue, against the state before it. -/
theorem BusOrBuffer.of_initPrepared {s t : State} (h : BusOrBuffer s.initPrepared t) (hsel : t.cssel = none) :
    t = { s with
      tmr := s.initTimers.tmr, wken := false, chips := t.chips, cssel := none, drawn := t.drawn, fbuf := t.fbuf,
      res := t.res } := by
  rw [← hsel]
  exact h

theorem exec_tsetie_ofBool (c : ChanIx) (b : Bool) (s : State) :
    exec (.tsetie c (BitVec.ofBool b)) s = .next (s.onChan c fun ch => { ch with ie := b }) := by
  cases b <;> rfl

/-- With no match latched on channel 0 the prologue leaves SEQ alone to step. -/
theorem soloRun_initPrologue {s : State} (hq : Quiet s) (hpend : (s.chan 0).pend = false) :
    SoloRun (initPrologue s.cfg) s s.initPrepared := by
  have h₁ : Quiet (s.onChan 0 fun ch => { ch with cmp := s.cfg.cmpInact }) := hq.onChan fun _ => hq.und.2.1
  have h₂ := h₁.onChan (c := 1) (f := fun ch => { ch with cmp := s.cfg.cmpTick }) (by simp)
  have h₃ := h₂.onChan (c := 0) (f := fun ch => { ch with ie := true }) fun _ => by
    rw [State.chan_onChan_ne _ _ (by decide), State.chan_onChan]
    exact (Bool.and_true _).trans hpend
  have h₄ := h₃.onChan (c := 1) (f := fun ch => { ch with ie := s.cfg.tickIe }) (by simp)
  have h₅ : Quiet s.initPrepared := by
    obtain ⟨⟨ha, hi, -, h0, hl⟩, hm⟩ := h₄
    exact ⟨⟨ha, hi, rfl, h0, hl⟩, hm⟩
  exact .cons rfl h₁ <| .cons rfl h₂ <| .cons rfl h₃ <| .cons (exec_tsetie_ofBool ..) h₄ <| .one rfl h₅

theorem addressed_initSetup (s : State) (cfg : Config) {k : ChipIx} {b : Fin 2} {m : Mode} {j : ChipIx} (hj : j ≠ k) :
    ∀ i ∈ initSetupOps cfg k b m, addressed s i ≠ some j := by
  simp [initSetupOps, clearFiltersOps, setModeOps, or_imp, forall_and, addressed, hj.symm]

/-- Operations that do not address chip j keep it. -/
theorem QuietRun.chip_eq {l : List Instr} {s t : State} {j : ChipIx} (h : QuietRun l s t)
    (hj : ∀ u, ∀ i ∈ l, addressed u i ≠ some j) : t.chip j = s.chip j := by
  induction h with
  | nil => rfl
  | @cons i _ s _ _ he _ _ ih =>
    exact (ih fun u x hx => hj u x (List.mem_cons_of_mem i hx)).trans
      (chipsAreIndependent i s _ j he (hj s i List.mem_cons_self))

/-- init's operations before its polls with the default registers: the mode is requested, and only chip k is used. -/
theorem quietRun_initSetup_mode {s : State} {k : ChipIx} (hd : DefaultRegisters s k) (hr : s.rawopen = false)
    (b : Fin 2) (m : Mode) : ∃ t, QuietRun (initSetupOps s.cfg k b m) s t ∧
      t.creg k 0x2A = s.cfg.bitTiming[b].cnf1 ∧ t.creg k 0x29 = s.cfg.bitTiming[b].cnf2 ∧
      t.creg k 0x28 = s.cfg.bitTiming[b].cnf3 ∧ (∀ a, IsFilterReg a → t.creg k a = 0x00) ∧
      t.creg k 0x0F &&& 0xE0 = m.bits ∧ OtherChipKept s t k ∧ t.cssel = none := by
  obtain ⟨t, hrun, -, hcnf1, hcnf2, hcnf3, hzero⟩ := quietRun_initSetup hd.1 hr b m
  have hlast := hrun
  rw [initSetupOps, setModeOps, hd.1.1] at hlast
  obtain ⟨w, hw, he, -⟩ := QuietRun.split _ _ s t hlast
  obtain ⟨t', he', hbits, hother, hb⟩ := exec_rbitmod_default (hd.of_cfg hw.bl.cfg) (hw.bl.raw.trans hr)
    (a := 0x0F) rfl 0xE0 m.bits
  obtain rfl : t' = t := Host.Outcome.next.inj (he'.symm.trans he)
  refine ⟨t', hrun, hcnf1, hcnf2, hcnf3, hzero, ?_, ⟨hother.1, fun j hj => ?_⟩, by rw [hb]⟩
  · rw [hbits 0x0F]
    show (w.creg k 0x0F &&& ~~~(0xE0 : Byte) ||| m.bits &&& 0xE0) &&& 0xE0 = m.bits
    generalize w.creg k 0x0F = v
    revert v
    cases m <;> decide
  · exact hrun.chip_eq fun u => addressed_initSetup u s.cfg hj

/-- Init from dispatch up to its first poll. -/
theorem run_init_beforePolls {s : State} (hq : Quiet s) (hr : s.rawopen = false) {k : ChipIx} (hk : s.cfg.pdcChip = k)
    (hd : DefaultRegisters s k) (hp : s.pos = ⟨.dispatch, 0⟩) (he : s.errl = false) (hs : s.pstate = 0x00)
    (hpend : (s.chan 0).pend = false) (hpoll : 1 ≤ s.cfg.nPoll) :
    ∃ t, Host.Core.run Sys2Proof.core 26 s = .next t ∧ t.pos = ⟨.init, 25⟩ ∧
      t.chan 0 = { s.chan 0 with cmp := s.cfg.cmpInact, ie := true } ∧
      t.chan 1 = { s.chan 1 with cmp := s.cfg.cmpTick, ie := s.cfg.tickIe } ∧ t.wken = false ∧
      t.creg k 0x2A = s.cfg.bitTiming[s.cfg.bitrateSel].cnf1 ∧
      t.creg k 0x29 = s.cfg.bitTiming[s.cfg.bitrateSel].cnf2 ∧
      t.creg k 0x28 = s.cfg.bitTiming[s.cfg.bitrateSel].cnf3 ∧
      (∀ a : Byte, IsFilterReg a → t.creg k a = 0x00) ∧ t.creg k 0x0F &&& 0xE0 = 0x00 ∧ OtherChipKept s t k ∧
      t = { s with
        pos := t.pos, scr := t.scr, tmr := t.tmr, wken := t.wken, chips := t.chips, cssel := none,
        drawn := t.drawn, fbuf := t.fbuf, res := t.res } := by
  subst hk
  have hprologue := soloRun_initPrologue hq hpend
  obtain ⟨v, hv, hcnf1, hcnf2, hcnf3, hzero, hmode, hother, hsel⟩ :=
    quietRun_initSetup_mode (hd.of_cfg s.initPrepared_cfg) hr s.cfg.bitrateSel .normal
  rw [State.initPrepared_cfg] at hv hcnf1 hcnf2 hcnf3
  have hsolo := hprologue.append (SoloRun.of_quietRun hv (hprologue.quiet hq))
  have hwalk := run_walk (h := .init) (by decide) hq hsolo (i := 0) (c := s.scr)
    (fun j hj => by rw [Nat.zero_add]; exact ops_init_beforePolls s.cfg s.scr hj)
    (fun j u hj hcfg _ => by
      rw [Nat.zero_add]
      exact advance_init_beforePolls hj (by rw [hcfg]; omega))
  have hrun := (run_succ (hq.step_dispatch hp (dispatch_pos he (by rw [hs]; rfl)))).trans hwalk
  have hb := hv.bl.of_initPrepared hsel
  have hchan (c : ChanIx) : v.chan c = s.initTimers.chan c := State.chan_eq_of_tmr (by rw [hb]) c
  have hwken : v.wken = false := by rw [hb]
  refine ⟨_, hrun, rfl, (hchan 0).trans s.chan_initTimers.1, (hchan 1).trans s.chan_initTimers.2,
    hwken, hcnf1, hcnf2, hcnf3, hzero, hmode, hother, ?_⟩
  rw [hb]
  rfl

/-! ## The polls, and what follows the last one -/

theorem acknowledged_normal {cfg : Config} (h : cfg.map = ChipMap.standard) (v : Byte) :
    acknowledged cfg .normal (zext16 v) = true ↔ v &&& 0xE0 = 0x00 := by
  rw [acknowledged, h]
  revert v
  decide

section
variable {s : State} (hq : Quiet s) {k : ChipIx} (hk : s.cfg.pdcChip = k) (hd : DefaultChip s k)
  (hr : s.rawopen = false)
include hq hk hd hr

/-- The j-th poll reads CANSTAT and changes no register; the mode in it decides what follows. -/
theorem step_poll {j : Nat} (hj : j < s.cfg.nPoll) (hp : s.pos = ⟨.init, 25 + j⟩) :
    ∃ t, Quiet t ∧ BusOrBuffer s t ∧ RegistersKept s t ∧ step s = .next (
      if s.creg k 0x0E &&& 0xE0 = 0x00 then t.goto .init (25 + t.cfg.nPoll) { s.scr with initResult := some true }
      else if j + 1 < s.cfg.nPoll then t.goto .init (25 + (j + 1)) s.scr
      else t.goto .init (25 + t.cfg.nPoll + 3) { s.scr with initResult := some false }) := by
  obtain ⟨t, he, hb, hkept, -, -, hres⟩ := exec_rread_default hd hr (a := 0x0E) rfl
  have ht : Quiet t := ⟨hb.und hq.und, (exec_keeps he).hostmode.trans hq.host⟩
  have hop : (Handler.ops s.cfg s.scr .init)[25 + j]? = some (.rread k 0x0E) := by
    rw [ops_init_poll s.cfg s.scr hj, hk, hd.1]
    rfl
  have hstep := hq.step_goto (h := .init) (c := s.scr) (by decide) hop he ht.fault
  have hpoll := advance_init_poll (u := t.goto .init (25 + j) s.scr) hres (j := j)
    (by rw [State.goto, hb.cfg]; exact hj)
  rw [State.goto_self hp, hpoll] at hstep
  refine ⟨t, ht, hb, hkept, hstep.trans (congrArg _ ?_)⟩
  simp only [State.goto, hb.cfg, acknowledged_normal hd.1]

end

/-- On SUCCESS both timers are restarted and PSTATE is Running. -/
theorem run_init_success {s : State} (hq : Quiet s) (c : Scratch) :
    Host.Core.run Sys2Proof.core 3 (s.goto .init (25 + s.cfg.nPoll) c) =
      .next (State.finish { s.onBoth Channel.restarted with pstate := PowerState.running.code }) :=
  run_walk_finish (h := .init) (by decide) hq (soloRun_restart hq) (op := .pwrst PowerState.running.code) rfl
    hq.fault (fun j hj => by
      rw [ops_init_epilogue, initEpilogue]
      exact List.getElem?_append_left (l₁ := [Instr.trestart 0, .trestart 1, .pwrst PowerState.running.code]) hj)
    (fun j u hj hcfg _ => by rw [← hcfg, advance_init_epilogue]; exact if_pos hj)
    (fun u hcfg _ => by rw [← hcfg, advance_init_epilogue]; rfl)

/-- On FAILURE PSTATE is Error and the timers are as they were. -/
theorem step_init_failure {s : State} (hq : Quiet s) (c : Scratch) :
    step (s.goto .init (25 + s.cfg.nPoll + 3) c) =
      .next (State.finish { s with pstate := PowerState.error.code }) := by
  have hstep := hq.step_goto (t := { s with pstate := PowerState.error.code }) (h := .init) (c := c) (by decide)
    (ops_init_epilogue s.cfg c 3) rfl hq.fault
  refine hstep.trans (congrArg _ ?_)
  exact advance_init_epilogue (State.goto { s with pstate := PowerState.error.code } _ _ c) 3

section
variable {s : State} (hq : Quiet s) {k : ChipIx} (hk : s.cfg.pdcChip = k) (hd : DefaultChip s k)
  (hr : s.rawopen = false) {j : Nat} (hj : j < s.cfg.nPoll) (hp : s.pos = ⟨.init, 25 + j⟩)
include hq hk hd hr hj hp

/-- A poll that finds normal mode ends the pass with both timers restarted, in Running. -/
theorem run_poll_success (hmode : s.creg k 0x0E &&& 0xE0 = 0x00) :
    ∃ t, Host.Core.run Sys2Proof.core 4 s = .next t ∧ t.pos = ⟨.dispatch, 0⟩ ∧ t.pstate = 0x01 ∧
      (∀ c, t.chan c = { s.chan c with run := true, cnt := 0 }) ∧ RegistersKept s t := by
  obtain ⟨t, ht, hb, hkept, hstep⟩ := step_poll hq hk hd hr hj hp
  rw [if_pos hmode] at hstep
  refine ⟨_, (run_succ hstep).trans (run_init_success ht _), rfl, rfl, fun c => (t.chan_onBoth _ c).trans ?_, hkept⟩
  rw [State.chan_eq_of_tmr (show t.tmr = s.tmr by rw [hb])]
  rfl

/-- A poll that does not is followed by the next one. -/
theorem step_poll_next (hmode : s.creg k 0x0E &&& 0xE0 ≠ 0x00) (hnext : j + 1 < s.cfg.nPoll) :
    ∃ t, step s = .next t ∧ t.pos = ⟨.init, 25 + (j + 1)⟩ ∧ t.pstate = s.pstate ∧ t.tmr = s.tmr ∧
      RegistersKept s t := by
  obtain ⟨t, -, hb, hkept, hstep⟩ := step_poll hq hk hd hr hj hp
  rw [if_neg hmode, if_pos hnext] at hstep
  have hpstate : t.pstate = s.pstate := by rw [hb]
  have htmr : t.tmr = s.tmr := by rw [hb]
  exact ⟨_, hstep, rfl, hpstate, htmr, hkept⟩

/-- The last poll without it ends the pass in Error. -/
theorem run_poll_failure (hmode : s.creg k 0x0E &&& 0xE0 ≠ 0x00) (hlast : j + 1 = s.cfg.nPoll) :
    ∃ t, Host.Core.run Sys2Proof.core 2 s = .next t ∧ t.pos = ⟨.dispatch, 0⟩ ∧ t.pstate = 0x05 ∧ t.tmr = s.tmr ∧
      RegistersKept s t := by
  obtain ⟨t, ht, hb, hkept, hstep⟩ := step_poll hq hk hd hr hj hp
  rw [if_neg hmode, if_neg (by omega)] at hstep
  have htmr : t.tmr = s.tmr := by rw [hb]
  exact ⟨_, (run_succ hstep).trans (run_succ (step_init_failure ht _)), rfl, rfl, htmr, hkept⟩
end

end Sys2Proof.Machine
end

section
/-! PROOFS. The Running handler's pass with no other agent between, and the passes of the handlers together
(43_power_fsm.md R233 to R235, R239, R241; 42_driver.md R202, R203). -/

namespace Sys2Proof.Machine

open Sys2Proof

/-! ## The decisions of Running (R234) -/

theorem Proc.after_hasMessage {u : State} {st : Half} (hres : u.res = some st) (k : ChipIx) :
    (Proc.hasMessage k).after 0 u = .ret (.bool !decide (st &&& rxPendingMask = 0)) u.scr := by
  simp only [Proc.after, onRes, hres]
  rfl

/-- After either status read: on with a message pending, or the end of the pass. -/
theorem advance_running_status {u : State} {st : Half} (hres : u.res = some st) {i : Nat} (hi : i < 2) :
    advance .running i u = if st &&& rxPendingMask = 0 then u.finish else u.goto .running (i + 1) u.scr := by
  match i, hi with
  | 0, _ =>
    have hafter := Proc.after_hasMessage hres u.cfg.pdcChip
    by_cases h : st &&& rxPendingMask = 0
    · rw [decide_eq_true h] at hafter
      simp [advance, advanceRunning, hafter, h]
    · rw [decide_eq_false h] at hafter
      rw [if_neg h]
      simp [advance, advanceRunning, hafter]
  | 1, _ =>
    have hafter := Proc.after_receiveMessage_status u.cfg.pdcChip hres
    by_cases h : st &&& rxPendingMask = 0
    · rw [if_neg (not_not.mpr h)] at hafter
      simp [advance, advanceRunning, hafter, h]
    · rw [if_pos h] at hafter
      rw [if_neg h]
      simp [advance, advanceRunning, hafter]

theorem advance_running_buffer (u : State) : advance .running 2 u = u.goto .running 3 u.scr := rfl

theorem advance_running_matchBit {u : State} {v : Byte} (hmap : u.cfg.map = ChipMap.standard)
    (hres : u.res = some (zext16 v)) : advance .running 3 u = u.goto .running 4 (u.scr.matched v) := by
  have hafter := Proc.after_receiveMessage_matchBit u.cfg.pdcChip hmap hres
  simp [advance, advanceRunning, hafter]

theorem advance_running_decoded {u : State} {bs : List Byte} {m : Nat} (hb : fbufBytes u.fbuf 0 13 = some bs)
    (hm : u.scr.matchInd = some m) :
    advance .running 4 u = u.goto .running 5 { u.scr with frame := some (rxFrame bs) } := by
  have hafter := Proc.after_receiveMessage_end u.cfg.pdcChip hb hm
  simp [advance, advanceRunning, hafter]

theorem advance_running_tail (u : State) (j : Nat) : advance .running (5 + j) u = straightOn .running (5 + j) u := by
  simp only [advance, advanceRunning]
  rw [if_neg (by omega), if_neg (by omega)]

/-! ## The status reads (R202) -/

section
variable {s : State} (hq : Quiet s) {k : ChipIx} (hk : s.cfg.pdcChip = k) (hr : s.rawopen = false)
include hq hk hr

/-- The two status reads: each ends the pass with no message pending. -/
theorem step_runningStatus (hd : DefaultChip s k) {i : Nat} (hi : i < 2) (c : Scratch) :
    ∃ t, Quiet t ∧ RegistersKept s t ∧ OtherChipKept s t k ∧ BusOnly { s with res := t.res } t ∧
      step (s.goto .running i c) =
        .next (if s.creg k 0x2C &&& 0x01 = 0 then t.finish else t.goto .running (i + 1) c) := by
  obtain ⟨t, st, he, hb, hkept, hother, hres, hrx, -⟩ := exec_status hd hr
  have hbus : BusOnly { s with res := t.res } t := by
    rw [← Host.Outcome.next.inj ((exec_rrdstat hr).symm.trans he)]
    rfl
  have ht : Quiet t := ⟨hb.und hq.und, (exec_keeps he).hostmode.trans hq.host⟩
  have hop : (Handler.ops s.cfg c .running)[i]? = some (.rrdstat k) := by
    rw [ops_running, runningOps, hk]
    match i, hi with
    | 0, _ | 1, _ => rfl
  have hstep := hq.step_goto (h := .running) (by decide) hop he ht.fault
  rw [advance_running_status (u := t.goto .running i c) hres hi, if_congr hrx rfl rfl] at hstep
  exact ⟨t, ht, hkept, hother, hbus, hstep⟩

/-- A message copied: the buffer read, the match bit, and the flag cleared (R203). -/
theorem run_copyMessage (hd : DefaultRegisters s k) (c : Scratch) : ∃ t c', Quiet t ∧
    c'.frame = some (rxFrame (receiveBytes s k)) ∧ BitsChanged s t k [(0x2C, 0x01, 0x00)] ∧ OtherChipKept s t k ∧
    BusOrBuffer s t ∧ t.cssel = none ∧
    Host.Core.run Sys2Proof.core 3 (s.goto .running 2 c) = .next (t.goto .running 5 c') := by
  obtain ⟨t₁, t₂, he₁, hb₁, he₂, hb₂, hk₂, ho₂, hbuf, hres⟩ := exec_readMessage hd.1 hr
  have hbus₂ := hb₁.trans hb₂
  obtain ⟨t₃, he₃, hbits, ho₃, hb₃⟩ := exec_rbitmod_default (hd.of_cfg hbus₂.cfg) (hbus₂.raw.trans hr) (a := 0x2C) rfl
    0x01 0x00
  have quiet {u : State} (hb : BusOrBuffer s u) : Quiet u := ⟨hb.und hq.und, by rw [hb]; exact hq.host⟩
  have hbus₃ := hbus₂.trans (.of_busOnly hb₃)
  have hbuf₃ : fbufBytes t₃.fbuf 0 13 = some (receiveBytes s k) := by rw [hb₃]; exact hbuf
  have hops {u : State} (hb : BusOrBuffer s u) (c : Scratch) : Handler.ops u.cfg c .running =
      [.rrdstat k, .rrdstat k, .rrdrx k 0 13, .rread k 0x60, .rbitmod k 0x2C 0x01 0x00] ++
        .trestart 0 :: sensorOps u.cfg c := by
    rw [ops_running, runningOps, hb.cfg, hk, hd.1.1]
    rfl
  have step₁ := hq.step_goto (h := .running) (i := 2) (c := c) (by decide) (by rw [hops (.refl s)]; rfl) he₁
    (quiet hb₁).fault
  have step₂ := (quiet hb₁).step_goto (h := .running) (i := 3) (c := c) (by decide) (by rw [hops hb₁]; rfl)
    he₂ (quiet hbus₂).fault
  have step₃ := (quiet hbus₂).step_goto (h := .running) (i := 4) (c := c.matched (s.creg k 0x60)) (by decide)
    (by rw [hops hbus₂]; rfl) he₃ (quiet hbus₃).fault
  rw [advance_running_buffer] at step₁
  rw [advance_running_matchBit (u := t₂.goto .running 3 c) (by rw [State.goto, hbus₂.cfg, hd.1.1]) hres] at step₂
  rw [advance_running_decoded (u := t₃.goto .running 4 _) hbuf₃ rfl] at step₃
  exact ⟨t₃, _, quiet hbus₃, rfl, .of_kept hk₂ hbits, ho₂.trans ho₃, hbus₃, by rw [hb₃],
    (run_succ step₁).trans ((run_succ step₂).trans (run_succ step₃))⟩
end

/-! ## The operations after a message is decoded (R234, R241) -/

/-- From TRESTART 0 on, Running decides nothing. -/
theorem run_runningTail {s v w : State} {c : Scratch} {l : List Instr} {op : Instr} (hq : Quiet s)
    (hops : .trestart 0 :: sensorOps s.cfg c = l ++ [op]) (hl : SoloRun l s v) (he : exec op v = .next w)
    (hf : w.fault = 0) :
    Host.Core.run Sys2Proof.core (l.length + 1) (s.goto .running 5 c) = .next w.finish := by
  have hlen : (Handler.ops s.cfg c .running).length = 5 + (l.length + 1) := by
    rw [ops_running, hops, List.length_append, List.length_append]
    rfl
  refine run_walk_finish (h := .running) (by decide) hq hl he hf (fun j hj => ?ops) (fun j u hj hcfg hscr => ?go)
    fun u hcfg hscr => ?_
  case ops =>
    rw [ops_running, hops, List.getElem?_append_right (by simp [runningOps])]
    congr 1
    simp [runningOps]
  case go =>
    rw [advance_running_tail, straightOn, if_pos (by rw [hcfg, hscr, hlen]; omega)]
  · rw [advance_running_tail, straightOn, if_neg (by rw [hcfg, hscr, hlen]; omega)]

/-- s after the PSENS operations of a sensor frame: data bytes 2, 3, 6 and 7 in slots 0 to 3 (R241). -/
def State.withSensors (s : State) (f : CanFrame) : State :=
  { s with
    sensor := sensorWrite (sensorWrite (sensorWrite (sensorWrite s.sensor 0 (f.data.getD 2 0)) 1 (f.data.getD 3 0)) 2
      (f.data.getD 6 0)) 3 (f.data.getD 7 0) }

theorem sensorRead_withSensors (s : State) (f : CanFrame) :
    sensorRead (s.withSensors f).sensor 0 = some (f.data.getD 2 0) ∧
    sensorRead (s.withSensors f).sensor 1 = some (f.data.getD 3 0) ∧
    sensorRead (s.withSensors f).sensor 2 = some (f.data.getD 6 0) ∧
    sensorRead (s.withSensors f).sensor 3 = some (f.data.getD 7 0) := by
  simp [State.withSensors, sensorRead_sensorWrite]

section
variable {s : State} (hq : Quiet s) {c : Scratch} {f : CanFrame} (hf : c.frame = some f)
include hq hf

/-- A frame that is not the sensor frame restarts channel 0 and nothing else. -/
theorem run_runningTail_other (h : ¬(f.id = s.cfg.pdcCanId ∧ f.rtr = false ∧ f.len = 8)) :
    Host.Core.run Sys2Proof.core 1 (s.goto .running 5 c) = .next (s.onChan 0 Channel.restarted).finish :=
  run_runningTail (l := []) (op := .trestart 0) hq (by rw [sensorOps_of_other hf h]; rfl) (.nil s) rfl hq.fault

/-- The sensor frame also stores its four bytes. -/
theorem run_runningTail_sensors (h : f.id = s.cfg.pdcCanId ∧ f.rtr = false ∧ f.len = 8) :
    Host.Core.run Sys2Proof.core 5 (s.goto .running 5 c) =
      .next (State.withSensors (s.onChan 0 Channel.restarted) f).finish := by
  have h₀ : Quiet (s.onChan 0 Channel.restarted) := hq.onChan fun _ => hq.und.2.1
  have sens (v : Vector (Option Byte) 4) : Quiet { s.onChan 0 Channel.restarted with sensor := v } := ⟨h₀.und, h₀.host⟩
  exact run_runningTail (l := [.trestart 0, .psens 0 (f.data.getD 2 0), .psens 1 (f.data.getD 3 0),
      .psens 2 (f.data.getD 6 0)]) (op := .psens 3 (f.data.getD 7 0)) hq
    (by rw [sensorOps_of_sensorFrame hf h]; rfl)
    (.cons rfl h₀ <| .cons rfl (sens _) <| .cons rfl (sens _) <| .one rfl (sens _)) rfl hq.fault
end

/-- The data bytes of a full frame are the registers from 0x66 on (R198). -/
theorem receivedData_getD {s : State} {k : ChipIx} (hlen : (rxFrame (receiveBytes s k)).len = 8) {i : Nat}
    (hi : i < 8) : (rxFrame (receiveBytes s k)).data.getD i 0 = s.creg k (BitVec.ofNat 8 (0x66 + i)) := by
  rw [rxFrame_data, hlen, List.getD_eq_getElem?_getD, List.getElem?_take_of_lt hi, List.getElem?_drop]
  simp [receiveBytes, show 5 + i < 13 by omega, show 0x61 + (5 + i) = 0x66 + i by omega]

section
variable {s : State} (hq : Quiet s) {k : ChipIx} (hk : s.cfg.pdcChip = k) (hr : s.rawopen = false)
include hq hk hr

/-- Running from dispatch on, with no message pending: one status read. -/
theorem run_running_noFrame (hd : DefaultChip s k) (hp : s.pos = ⟨.dispatch, 0⟩) (he : s.errl = false)
    (hs : s.pstate = 0x01) (hflag : s.creg k 0x2C &&& 0x01 = 0) :
    ∃ t, Host.Core.run Sys2Proof.core 2 s = .next t ∧ t.pos = ⟨.dispatch, 0⟩ ∧ RegistersKept s t ∧
      t = { s with
        pos := t.pos, scr := t.scr, res := t.res, chips := t.chips, cssel := none, drawn := t.drawn } := by
  obtain ⟨t, -, hkept, -, hb, hstatus⟩ := step_runningStatus hq hk hr hd (i := 0) (by decide) s.scr
  rw [if_pos hflag] at hstatus
  refine ⟨_, (run_succ (hq.step_dispatch hp (dispatch_pos he (by rw [hs]; rfl)))).trans (run_succ hstatus), rfl,
    hkept, ?_⟩
  rw [hb]
  rfl

/-- The second status read with no message pending ends the pass. -/
theorem step_running_noSecondFrame (hd : DefaultChip s k) (hp : s.pos = ⟨.running, 1⟩)
    (hflag : s.creg k 0x2C &&& 0x01 = 0) :
    ∃ t, step s = .next t ∧ t.pos = ⟨.dispatch, 0⟩ ∧ t.tmr = s.tmr ∧ t.sensor = s.sensor ∧ RegistersKept s t := by
  obtain ⟨t, -, hkept, -, hb, hstatus⟩ := step_runningStatus hq hk hr hd (i := 1) (by decide) s.scr
  rw [if_pos hflag, State.goto_self hp] at hstatus
  have htmr : t.tmr = s.tmr := by rw [hb]
  have hsensor : t.sensor = s.sensor := by rw [hb]
  exact ⟨_, hstatus, rfl, htmr, hsensor, hkept⟩

/-- Running from dispatch on with a message pending, up to the frame decoded. -/
theorem run_running_decoded (hd : DefaultRegisters s k) (hp : s.pos = ⟨.dispatch, 0⟩) (he : s.errl = false)
    (hs : s.pstate = 0x01) (hflag : s.creg k 0x2C &&& 0x01 ≠ 0) : ∃ t c, Quiet t ∧
    c.frame = some (rxFrame (receiveBytes s k)) ∧ BitsChanged s t k [(0x2C, 0x01, 0x00)] ∧ OtherChipKept s t k ∧
    BusOrBuffer s t ∧ t.cssel = none ∧
    Host.Core.run Sys2Proof.core 6 s = .next (t.goto .running 5 c) := by
  have hdispatch := hq.step_dispatch hp (h := .running) (dispatch_pos he (by rw [hs]; rfl))
  obtain ⟨t₁, hq₁, hkept₁, ho₁, hb₁, h₁⟩ := step_runningStatus hq hk hr hd.1 (i := 0) (by decide) s.scr
  replace hb₁ := BusOrBuffer.of_busOnly_res hb₁
  rw [if_neg hflag] at h₁
  obtain ⟨t₂, hq₂, hkept₂, ho₂, hb₂, h₂⟩ := step_runningStatus hq₁ (by rw [hb₁.cfg, hk]) (hb₁.raw.trans hr)
    (hd.1.of_cfg hb₁.cfg) (i := 1) (by decide) s.scr
  replace hb₂ := hb₁.trans (.of_busOnly_res hb₂)
  rw [hkept₁, if_neg hflag] at h₂
  have hkept := hkept₁.trans hkept₂
  obtain ⟨t, c, hqt, hc, hbits, ho, hb, hsel, hrun⟩ := run_copyMessage hq₂ (by rw [hb₂.cfg, hk]) (hb₂.raw.trans hr)
    (hd.of_cfg hb₂.cfg) s.scr
  rw [hkept.receiveBytes] at hc
  exact ⟨t, c, hqt, hc, .of_kept hkept hbits, (ho₁.trans ho₂).trans ho, hb₂.trans hb, hsel,
    (run_succ hdispatch).trans ((run_succ h₁).trans ((run_succ h₂).trans hrun))⟩

/-- The whole pass of Running with a message pending. -/
theorem run_running_frame (hd : DefaultRegisters s k) (hp : s.pos = ⟨.dispatch, 0⟩) (he : s.errl = false)
    (hs : s.pstate = 0x01) (hflag : s.creg k 0x2C &&& 0x01 ≠ 0) :
    ∃ n t, Host.Core.run Sys2Proof.core n s = .next t ∧ t.pos = ⟨.dispatch, 0⟩ ∧
      t.chan 0 = { s.chan 0 with run := true, cnt := 0 } ∧ t.chan 1 = s.chan 1 ∧
      BitsChanged s t k [(0x2C, 0x01, 0x00)] ∧ OtherChipKept s t k ∧
      (let f := rxFrame (receiveBytes s k)
       let sensors := f.id = s.cfg.pdcCanId ∧ f.rtr = false ∧ f.len = 8
       (sensors → n = 11 ∧ sensorRead t.sensor 0 = some (s.creg k 0x68) ∧
         sensorRead t.sensor 1 = some (s.creg k 0x69) ∧ sensorRead t.sensor 2 = some (s.creg k 0x6C) ∧
         sensorRead t.sensor 3 = some (s.creg k 0x6D)) ∧
       (¬sensors → n = 7 ∧ t.sensor = s.sensor)) ∧
      t = { s with
        pos := t.pos, scr := t.scr, res := t.res, fbuf := t.fbuf, tmr := t.tmr, sensor := t.sensor,
        chips := t.chips, cssel := none, drawn := t.drawn } := by
  obtain ⟨t, c, hqt, hc, hbits, hother, hb, hsel, hrun⟩ := run_running_decoded hq hk hr hd hp he hs hflag
  have hchan (d : ChanIx) : t.chan d = s.chan d := State.chan_eq_of_tmr (by rw [hb]) d
  have hchan₀ : (t.onChan 0 Channel.restarted).chan 0 = { s.chan 0 with run := true, cnt := 0 } := by
    rw [State.chan_onChan, hchan]
    rfl
  have hchan₁ : (t.onChan 0 Channel.restarted).chan 1 = s.chan 1 := by
    rw [State.chan_onChan_ne _ _ (by decide), hchan]
  have hsensor : t.sensor = s.sensor := by rw [hb]
  have hframe : t = { s with chips := t.chips, cssel := none, drawn := t.drawn, fbuf := t.fbuf, res := t.res } := by
    rw [← hsel]
    exact hb
  by_cases hsens : (rxFrame (receiveBytes s k)).id = s.cfg.pdcCanId ∧ (rxFrame (receiveBytes s k)).rtr = false ∧
    (rxFrame (receiveBytes s k)).len = 8
  · obtain ⟨h0, h1, h2, h3⟩ := sensorRead_withSensors (t.onChan 0 Channel.restarted) (rxFrame (receiveBytes s k))
    rw [receivedData_getD hsens.2.2 (by decide)] at h0 h1 h2 h3
    refine ⟨11, _, run_trans hrun (run_runningTail_sensors hqt hc (by rwa [hb.cfg])), rfl, hchan₀, hchan₁, hbits,
      hother, ⟨fun _ => ⟨rfl, h0, h1, h2, h3⟩, fun h => absurd hsens h⟩, ?_⟩
    rw [hframe]
    rfl
  · refine ⟨7, _, run_trans hrun (run_runningTail_other hqt hc (by rwa [hb.cfg])), rfl, hchan₀, hchan₁, hbits,
      hother, ⟨fun h => absurd h hsens, fun _ => ⟨rfl, hsensor⟩⟩, ?_⟩
    rw [hframe]
    rfl

/-! ## SleepDetected (R235) -/

/-- SleepDetected from dispatch on, the driver's sleep making the bit changes l. -/
theorem run_sleepDet_changes (hd : DefaultRegisters s k) (hp : s.pos = ⟨.dispatch, 0⟩) (he : s.errl = false)
    (hs : s.pstate = 0x02) {l : List BitChange} (hl : (Proc.sleep k s.cfg.wakeMode).MakesChanges k l) :
    ∃ t, Host.Core.run Sys2Proof.core (l.length + 4) s = .next t ∧ t.pos = ⟨.dispatch, 0⟩ ∧ t.pstate = 0x03 ∧
      (∀ c, t.chan c = { s.chan c with run := false }) ∧ BitsChanged s t k l ∧ OtherChipKept s t k ∧
      t = { s with
        pos := t.pos, scr := t.scr, pstate := t.pstate, tmr := t.tmr, chips := t.chips, cssel := none,
        drawn := t.drawn } := by
  obtain ⟨v, hv, hbits, hother, hb⟩ := hl.quietRun (s := s.onBoth Channel.stopped) hd hr
  have hrun := run_sleepDet hq hp he hs (v := v) (by rw [hk]; exact hv)
  rw [hk, hl.ops s.scr hd.1.1, bitChangeOps, List.length_map] at hrun
  have htmr : v.tmr = (s.onBoth Channel.stopped).tmr := by rw [hb]
  refine ⟨_, hrun, rfl, rfl, fun c => (State.chan_eq_of_tmr htmr c).trans (s.chan_onBoth _ c), hbits, hother, ?_⟩
  rw [hb]
  rfl
end

/-- Settles O60: the passes of the handlers, each by its own theorem above. -/
theorem handlerPasses : Obligations.HandlerPasses := by
  intro s hu hm
  have hq : Quiet s := ⟨hu, hm⟩
  refine ⟨fun hp hcause hblink => ?error, fun hr k hk hd => ⟨run_init_beforePolls hq hr hk hd, fun j hj hp =>
      ⟨run_poll_success hq hk hd.1 hr hj hp, step_poll_next hq hk hd.1 hr hj hp,
        run_poll_failure hq hk hd.1 hr hj hp⟩,
    fun hp he hs => ⟨run_running_noFrame hq hk hr hd.1 hp he hs, run_running_frame hq hk hr hd hp he hs⟩,
    step_running_noSecondFrame hq hk hr hd.1, fun hp he hs n l hmode => ?sleepDet⟩⟩
  case error =>
    have hdispatch : s.dispatch.pos = ⟨.error, 0⟩ := by
      rcases he : s.errl with _ | _
      · exact dispatch_pos he (by rw [hcause.resolve_left (by simp [he])]; rfl)
      · exact dispatch_pos_of_errl he
    exact ⟨_, (run_error hq hblink).2 hp hdispatch, rfl, rfl, State.blinked_ind_iff s s.cfg.nBlink, rfl⟩
  case sleepDet =>
    obtain ⟨hmode, rfl, rfl⟩ | ⟨hmode, rfl, rfl⟩ := hmode
    · exact run_sleepDet_changes hq hk hr hd hp he hs (by rw [hmode]; exact Proc.makesChanges_sleep_busActivity k)
    · exact run_sleepDet_changes hq hk hr hd hp he hs (by rw [hmode]; exact Proc.makesChanges_sleep_manual k)

end Sys2Proof.Machine
end

section
/-! PROOFS. Faults and interrupts: what goes on after a fault, the two interrupts at once, and the faults each
operation can raise (60_exceptions.md R271 to R273, R276, R277). -/

namespace Sys2Proof.Machine

open Sys2Proof

/-! ## After a fault (R272) -/

/-- Only what the agents other than SEQ write changes: the counts and latches of the timers, PSTATE, the wake bits,
the registers in CHIP_VOLATILE and the schedule (10_state.md R46). -/
structure OthersWrite (s t : State) : Prop where
  rest : t = { s with
    tmr := t.tmr, pstate := t.pstate, wkpend := t.wkpend, wakeIn := t.wakeIn, wakePrev := t.wakePrev,
    wedge := t.wedge, chips := t.chips, agenda := t.agenda }
  creg : ∀ k a, s.cfg.isVolatile k a = false → t.creg k a = s.creg k a
  cframe : ∀ k, t.cframe k = s.cframe k
  chan : ∀ c, (t.chan c).run = (s.chan c).run ∧ (t.chan c).cmp = (s.chan c).cmp ∧ (t.chan c).ie = (s.chan c).ie

section
variable {s t u : State}

theorem OthersWrite.of_agenda (s : State) (rest : List Turn) : OthersWrite s { s with agenda := rest } :=
  ⟨rfl, fun _ _ _ => rfl, fun _ => rfl, fun _ => ⟨rfl, rfl, rfl⟩⟩

theorem OthersWrite.cfg (h : OthersWrite s t) : t.cfg = s.cfg := by rw [h.rest]

theorem OthersWrite.fault (h : OthersWrite s t) : t.fault = s.fault := by rw [h.rest]

theorem OthersWrite.trans (h : OthersWrite s t) (h' : OthersWrite t u) : OthersWrite s u where
  rest := by rw [h'.rest, h.rest]
  creg := fun k a hv => (h'.creg k a (by rw [h.cfg]; exact hv)).trans (h.creg k a hv)
  cframe := fun k => (h'.cframe k).trans (h.cframe k)
  chan := fun c => by
    obtain ⟨hrun, hcmp, hie⟩ := h.chan c
    obtain ⟨hrun', hcmp', hie'⟩ := h'.chan c
    exact ⟨hrun'.trans hrun, hcmp'.trans hcmp, hie'.trans hie⟩

theorem othersWrite_envStep (s : State) {turn : Turn} (hne : ∀ p m q, turn ≠ .reset p m q) :
    OthersWrite s (envStep s turn) := by
  obtain ⟨_, rfl, hrest, -, hcreg, hcframe, hchan⟩ := envStep_keeps s turn hne
  refine ⟨?_, hcreg, hcframe, hchan⟩
  rw [hrest]

/-- BRIDGE's step on SEQ's turn writes what its own turn does. -/
theorem othersWrite_bridge (hi : s.inactDeliverable = true) : OthersWrite s s.bridge := by
  simpa [envStep, hi] using othersWrite_envStep s (turn := .bridge) (by simp)

theorem othersWrite_wakesync (hi : s.inactDeliverable = false) (hw : s.wakeDeliverable = true) :
    OthersWrite s s.wakesync := by
  simpa [envStep, hi, hw] using othersWrite_envStep s (turn := .wakesync) (by simp)

/-- A halted SEQ's turn changes nothing but the schedule, and every other turn is its agent's (log entry 9). -/
theorem step_of_fault (hn : NoReset s.agenda) (hf : s.fault ≠ 0) : ∃ t, step s = .next t ∧ OthersWrite s t := by
  obtain ⟨rest, hr⟩ | ⟨turn, rest, ht⟩ := turn_cases s
  case inl =>
    rw [step_of_seqTurn hr, seqTurn]
    split
    case isTrue hi => exact ⟨_, rfl, othersWrite_bridge hi⟩
    case isFalse hi =>
      split
      case isTrue hw => exact ⟨_, rfl, othersWrite_wakesync (by simpa using hi) hw⟩
      case isFalse => exact ⟨_, if_pos hf, .of_agenda s rest⟩
  case inr =>
    exact ⟨_, step_of_envTurn ht,
      (OthersWrite.of_agenda s rest).trans (othersWrite_envStep _ (noReset_of_envTurn ht hn).2)⟩

theorem run_of_fault (n : Nat) (hn : NoReset s.agenda) (hf : s.fault ≠ 0) :
    ∃ t, Host.Core.run Sys2Proof.core n s = .next t ∧ OthersWrite s t := by
  induction n generalizing s with
  | zero => exact ⟨s, rfl, .of_agenda s s.agenda⟩
  | succ n ih =>
    obtain ⟨u, hu, hsu⟩ := step_of_fault hn hf
    obtain ⟨t, ht, hut⟩ := ih (noReset_step hn hu) (by rwa [hsu.fault])
    exact ⟨t, (run_succ hu).trans ht, hsu.trans hut⟩

theorem issues_of_fault (hf : s.fault ≠ 0) : s.issues = none := by
  rw [State.issues, if_neg]
  exact fun hready => hf (seqReady_parts hready).2.1
end

/-- Settles O43: by induction on the steps, each of which leaves FAULT and all that SEQ writes. -/
theorem faultHaltsTheSequencer : Obligations.FaultHaltsTheSequencer := by
  intro n s hn hf
  obtain ⟨t, ht, h⟩ := run_of_fault n hn hf
  exact ⟨t, ht, h.fault, issues_of_fault (by rwa [h.fault]), h.rest, h.creg, h.cframe, h.chan⟩

/-! ## Both interrupts at once (R277) -/

theorem inactDeliverable_bridge (s : State) : s.bridge.inactDeliverable = false := by
  rw [State.inactDeliverable, chan_zero_bridge, Bool.false_and]

/-- While BRIDGE is deliverable no other agent's turn latches the wake; a reset clears the latch. -/
theorem envStep_wkpend {s : State} (hi : s.inactDeliverable = true) (hw : s.wkpend = false) (turn : Turn) :
    (envStep s turn).wkpend = false := by
  cases turn with
  | seq | tick | chip => exact hw
  | bridge => rwa [envStep, if_pos hi]
  | wakesync => rwa [envStep, if_neg (by simp [hi])]
  | pin level => exact (State.pin_wkpend ..).trans hw
  | reset => rfl

/-- While BRIDGE is deliverable no step latches the wake, whatever the schedule. -/
theorem step_wkpend {s t : State} (hi : s.inactDeliverable = true) (hw : s.wkpend = false) (h : step s = .next t) :
    t.wkpend = false := by
  obtain ⟨rest, -, ⟨-, rfl⟩ | ⟨hi', -⟩ | ⟨hi', -⟩⟩ | ⟨turn, rest, -, rfl⟩ := step_cases h
  · exact hw
  · exact absurd (hi.symm.trans hi') (by decide)
  · exact absurd (hi.symm.trans hi') (by decide)
  · exact envStep_wkpend (s := { s with agenda := rest }) hi hw turn

/-- Settles O40: BRIDGE's step and then WAKESYNC's, which write different elements. -/
theorem simultaneousInterrupts : Obligations.SimultaneousInterrupts := by
  intro s hturn hi hw
  have hpend : s.wkpend = false :=
    Bool.eq_false_iff.mpr fun h => Bool.eq_false_iff.mp (wakeDeliverable_of_wkpend h) hw
  have hi' : s.bridge.inactDeliverable = false := inactDeliverable_bridge s
  have hw' : s.bridge.wakeDeliverable = true := hw
  refine ⟨s.bridge, s.bridge.wakesync, step_of_inactDeliverable hturn hi, step_of_wakeDeliverable hturn hi' hw', rfl,
    hw', hi', wakeDeliverable_of_wkpend rfl, rfl, rfl, fun rest => ⟨?bridge, ?wakesync⟩,
    fun agenda v h => (step_wkpend (s := { s with agenda := agenda }) hi hpend h).trans hpend.symm, hi,
    step_of_inactDeliverable hturn hi⟩
  case bridge =>
    rw [step_of_envTurn (turn := .bridge) ⟨by simp, rfl⟩]
    exact congrArg _ (if_pos hi)
  case wakesync =>
    have henabled : (s.bridge.wakeDeliverable && !s.bridge.inactDeliverable) = true := by rw [hw', hi']; rfl
    rw [step_of_envTurn (turn := .wakesync) ⟨by simp, rfl⟩]
    exact congrArg _ (if_pos henabled)

/-! ## The faults of each operation (R271, R273) -/

/-- An instruction that faults writes FAULT alone, with the code of one of its causes (R272). -/
theorem exec_faulted {i : Instr} {s t : State} (h : exec i s = .next t) (h0 : s.fault = 0) (hf : t.fault ≠ 0) :
    t = { s with fault := t.fault } ∧ t.fault ∈ (faultCauses i).map FaultCode.code := by
  obtain ⟨c, hc, rfl⟩ | h := exec_cases h
  · rw [raise_eq, if_pos h0]
    exact ⟨rfl, List.mem_map_of_mem hc⟩
  · exact absurd (h.keeps.2.trans h0) hf

theorem raise_fault_ne_illegalOp {s : State} (h0 : s.fault = 0) {c : FaultCode} (hc : c ≠ .illegalOp) :
    (s.raise c).fault ≠ 0x01 := by
  rw [State.raise_fault, if_pos h0]
  cases c
  case illegalOp => exact absurd rfl hc
  all_goals decide

/-- With a selector that names a buffer RLDTX raises no ILLEGAL_OP (R85 c). -/
theorem exec_rldtx_fault_ne {k : ChipIx} {abc : BitVec 3} {n : Byte} {s t : State} (habc : abc.toNat ≤ 5)
    (h0 : s.fault = 0) (h : exec (.rldtx k abc n) s = .next t) : t.fault ≠ 0x01 := by
  rw [exec_rldtx_of_selector habc] at h
  obtain ⟨-, rfl⟩ | ⟨-, h⟩ := whenClosed_next h
  · exact raise_fault_ne_illegalOp h0 (by decide)
  obtain rfl | ⟨-, h⟩ := whenCount_next h
  · exact raise_fault_ne_illegalOp h0 (by decide)
  obtain rfl | ⟨-, h⟩ := whenInSpace_next h
  · exact raise_fault_ne_illegalOp h0 (by decide)
  obtain rfl | ⟨_, -, h⟩ := sendBuffer_next h
  · exact raise_fault_ne_illegalOp h0 (by decide)
  obtain ⟨_, _, _, rfl⟩ := sendFrame_next h
  exact ne_of_eq_of_ne h0 (by decide)

/-- Settles O44: the causes of each instruction, with RLDTX's apart by its selector. -/
theorem faultCausesPerOperation : Obligations.FaultCausesPerOperation := by
  intro i s t h h0 hf
  obtain ⟨hrest, hcode⟩ := exec_faulted h h0 hf
  refine ⟨hrest, ?_⟩
  cases i
  case rsel | rdesel | rxfer | rreset | rread | rwrite | rbitmod | rrdstat | rrts | fbwr =>
    all_goals exact List.mem_singleton.mp hcode
  case rwrseq | rrdrx | fbrd => all_goals simpa [faultCauses, FaultCode.code] using hcode
  case rldtx k abc n =>
    by_cases habc : abc.toNat ≤ 5
    · have hne := exec_rldtx_fault_ne habc h0 h
      exact .inr ⟨habc, by simpa [FaultCode.code] using (List.mem_cons.mp hcode).resolve_left hne⟩
    · obtain rfl := Host.Outcome.next.inj ((exec_rldtx_selector k n s (not_le.mp habc)).symm.trans h)
      exact .inl ⟨if_pos h0, not_le.mp habc⟩
  all_goals cases hcode

end Sys2Proof.Machine
end

section
/-! PROOFS. A reset turn sets the whole block (70_reset_and_hazards.md R300, R302), and the low-power wait with no
wake armed or latched ends by nothing else (R315; 43_power_fsm.md R250). -/

namespace Sys2Proof.Machine

open Sys2Proof

/-! ## The reset turn (R300, R302) -/

theorem State.chip_resetBlock (s : State) (p m : Bool) (q : List OpWord) (k : ChipIx) :
    (s.resetBlock p m q).chip k = chipOverReset p s k := by
  revert k
  exact Fin.forall_fin_two.mpr ⟨rfl, rfl⟩

theorem State.cframe_resetBlock (s : State) (p m : Bool) (q : List OpWord) (k : ChipIx) :
    (s.resetBlock p m q).cframe k = [] := by
  rw [State.cframe, State.chip_resetBlock, chipOverReset]

theorem registersKept_resetBlock (s : State) (m : Bool) (q : List OpWord) :
    RegistersKept s (s.resetBlock false m q) := by
  intro k a
  rw [State.creg, State.chip_resetBlock]
  rfl

/-- Settles O50: the turn is `State.resetBlock`, whose timers are off and whose wake is not armed. -/
theorem resetStep : Obligations.ResetStep := by
  intro s p m q rest ha
  refine ⟨_, step_of_envTurn (turn := .reset p m q) ⟨by simp, ha⟩, rfl, State.cframe_resetBlock _ p m q, ?kept,
    rfl, rfl⟩
  rintro rfl
  exact registersKept_resetBlock { s with agenda := rest } m q

/-! ## The low-power wait with no wake to come (R250, R315) -/

/-- SEQ waits in low-power mode with no wake latched, and none can be latched: the wake is not armed. -/
structure UnarmedWait (s : State) : Prop where
  lpm : s.lpm = true
  wken : s.wken = false
  wkpend : s.wkpend = false

/-- SEQ's own step in the wait changes nothing, whether or not there is a fault (log entry 9). -/
theorem seqStep_of_wait {s : State} (hl : s.lpm = true) (hw : s.wkpend = false) : seqStep s = .next s := by
  rw [seqStep, if_pos hl, if_neg (ne_true_of_eq_false hw), ite_self]

section
variable {s t : State}

theorem UnarmedWait.wakeDeliverable (h : UnarmedWait s) : s.wakeDeliverable = false := by
  simp [State.wakeDeliverable, h.wken]

theorem UnarmedWait.issues (h : UnarmedWait s) : s.issues = none := by
  rw [State.issues, if_neg]
  intro hready
  exact Bool.false_ne_true ((seqReady_parts hready).2.2.symm.trans h.lpm)

/-- No agent other than SEQ writes LPM or WKEN, so the wait goes on as long as no wake is latched. -/
theorem UnarmedWait.of_othersWrite (hs : UnarmedWait s) (h : OthersWrite s t) (hw : t.wkpend = false) :
    UnarmedWait t where
  lpm := by rw [h.rest]; exact hs.lpm
  wken := by rw [h.rest]; exact hs.wken
  wkpend := hw

theorem UnarmedWait.envStep_wkpend (hs : UnarmedWait s) {turn : Turn} (hne : ∀ p m q, turn ≠ .reset p m q) :
    (envStep s turn).wkpend = false := by
  obtain ⟨_, rfl, -, hlatch, -⟩ := envStep_keeps s turn hne
  exact hlatch hs.wkpend hs.wakeDeliverable

/-- Every step in the wait is BRIDGE's or another agent's, or changes nothing but the schedule. -/
theorem step_of_unarmedWait (hn : NoReset s.agenda) (hs : UnarmedWait s) :
    ∃ t, step s = .next t ∧ OthersWrite s t ∧ UnarmedWait t := by
  suffices h : ∃ t, step s = .next t ∧ OthersWrite s t ∧ t.wkpend = false by
    obtain ⟨t, ht, hst, hw⟩ := h
    exact ⟨t, ht, hst, hs.of_othersWrite hst hw⟩
  obtain ⟨rest, hr⟩ | ⟨turn, rest, ht⟩ := turn_cases s
  case inl =>
    rw [step_of_seqTurn hr, seqTurn, if_neg (ne_true_of_eq_false hs.wakeDeliverable)]
    split
    case isTrue hi => exact ⟨_, rfl, othersWrite_bridge hi, hs.wkpend⟩
    case isFalse => exact ⟨_, seqStep_of_wait hs.lpm hs.wkpend, .of_agenda s rest, hs.wkpend⟩
  case inr =>
    have hne := (noReset_of_envTurn ht hn).2
    have hs' : UnarmedWait { s with agenda := rest } := ⟨hs.lpm, hs.wken, hs.wkpend⟩
    exact ⟨_, step_of_envTurn ht, (OthersWrite.of_agenda s rest).trans (othersWrite_envStep _ hne),
      hs'.envStep_wkpend hne⟩

theorem run_of_unarmedWait (n : Nat) (hn : NoReset s.agenda) (hs : UnarmedWait s) :
    ∃ t, Host.Core.run Sys2Proof.core n s = .next t ∧ OthersWrite s t ∧ UnarmedWait t := by
  induction n generalizing s with
  | zero => exact ⟨s, rfl, .of_agenda s s.agenda, hs⟩
  | succ n ih =>
    obtain ⟨u, hu, hsu, hwait⟩ := step_of_unarmedWait hn hs
    obtain ⟨t, ht, hut, hend⟩ := ih (noReset_step hn hu) hwait
    exact ⟨t, (run_succ hu).trans ht, hsu.trans hut, hend⟩
end

/-- Settles O37: by induction on the steps, each of which keeps the wait and writes nothing of SEQ's. -/
theorem unarmedSleepHangs : Obligations.UnarmedSleepHangs := by
  intro n s hn hl hk hw
  obtain ⟨t, ht, hst, hend⟩ := run_of_unarmedWait n hn ⟨hl, hk, hw⟩
  refine ⟨t, ht, hend.lpm, hend.wkpend, hend.wken, ?_, ?_, ?_, ?_, ?_, ?_, ?_, ?_, hend.issues⟩ <;> rw [hst.rest]

end Sys2Proof.Machine
end

section
/-! The example words of the operation rules (30_encoding.md R82, R87, R89). -/

namespace Sys2Proof.Machine

/-- Settles O1: the decoder evaluates each of the fourteen words, the four wire bytes and the reserved byte
to what is written beside it. -/
theorem exampleWordsDecode : Obligations.ExampleWordsDecode := by
  unfold Obligations.ExampleWordsDecode
  refine ⟨?trestart, ?tsetcnt, ?tsetcmp, ?tsetie, ?rxfer, ?rwrite, ?rbitmod, ?rwrseq, ?rrts, ?rrdrx, ?rldtx,
    ?fbwr, ?pwrst, ?psens, ?wireReset, ?wireRts, ?wireReadRx, ?wireLoadTx, ?reserved⟩
  all_goals rfl

end Sys2Proof.Machine
end
